-- ==== Sys2Proof/Word.lean ====
section
/-! DEFINITION. The words of the link: a byte and the 16-bit CHECK of a frame (R3, R4). -/

namespace Sys2Proof

/-- One character's data, one byte of a frame (R1, R3). -/
abbrev Byte := BitVec 8

/-- The CRC register and the CHECK field of a frame (R4). -/
abbrev Word16 := BitVec 16

end Sys2Proof
end

