-- ==== Sys2Proof/Syntax.lean ====
section
/-! DEFINITION. The commands of the part: one constructor per row of spec/opcode_table.json, with the operands its
effect depends on (log 4). -/

namespace Sys2Proof

/-- The two serial ports (chapter 1). -/
inductive Port where
  | upstream
  | bus
  deriving DecidableEq, Repr

/-- One of two like things numbered 0 and 1: a cavity (0 upper, 1 lower) or a bank. -/
inductive Which where
  | zero
  | one
  deriving DecidableEq, Repr

/-- A cavity number. -/
abbrev Cav := Which

/-- A bank number. -/
abbrev BankId := Which

/-- A heater position that has a duty: TOP, BOTTOM or REAR. -/
inductive HeatPos where
  | top
  | bottom
  | rear
  deriving DecidableEq, Repr

/-- A frame by its named fields (R3). LEN is the payload's length and CHECK is computed (R4). -/
structure Frame where
  dest : Byte
  src : Byte
  kind : Byte
  tag : Byte
  payload : List Byte
  deriving DecidableEq, Repr

/-- One character as the receiver has sampled it after a low start bit (R1). -/
structure RawChar where
  data : Byte
  parity : Bool
  stop : Bool
  deriving DecidableEq, Repr

/-- The commands. A row that names a frame carries the frame's fields; a row that names a timer of a cavity or a lock
carries the cavity. -/
inductive Instr where
  /-- POWER_ON_RESET (R185). -/
  | powerOnReset
  /-- RESET_INPUT_HELD (R185). -/
  | resetInputHeld
  /-- STOP_ASSERTED (R183). -/
  | stopAsserted
  /-- STOP_DEASSERTED (R183). -/
  | stopDeasserted
  /-- BAD_CHARACTER (R9): the character sampled at a port. -/
  | badCharacter (port : Port) (char : RawChar)
  /-- LENGTH_ERROR (R7): a LEN above 40 at a port. -/
  | lengthError (port : Port)
  /-- CRC_ERROR (R8): a completed frame whose CHECK does not match. -/
  | crcError (port : Port)
  /-- GAP_ABORT (R9): the gap timer of a port expires. -/
  | gapAbort (port : Port)
  /-- UPSTREAM_ADDRESS_ERROR (R10): a received upstream frame, judged by R10. -/
  | upstreamAddressError (frame : Frame)
  /-- CONTROLLER_NODE_FRAME (R20): a frame of the controller (SRC 121). -/
  | controllerNodeFrame (dest kind tag : Byte) (payload : List Byte)
  /-- MANAGEMENT_BAD_KIND (R172): a frame to the part (DEST 120). -/
  | managementBadKind (kind tag : Byte) (payload : List Byte)
  /-- SEEK (R173). -/
  | seek (tag : Byte) (payload : List Byte)
  /-- WRITE (R174). -/
  | write (tag : Byte) (payload : List Byte)
  /-- READ (R176). -/
  | read (tag : Byte) (payload : List Byte)
  /-- VALIDATE (R91). -/
  | validate (tag : Byte) (payload : List Byte)
  /-- START (R101). -/
  | start (tag : Byte) (payload : List Byte)
  /-- CANCEL (R121). -/
  | cancel (tag : Byte) (payload : List Byte)
  /-- CLEAR (R123). -/
  | clear (tag : Byte) (payload : List Byte)
  /-- REPORT (R178). -/
  | report (tag : Byte) (payload : List Byte)
  /-- LINK_RESET (R182). -/
  | linkReset (tag : Byte) (payload : List Byte)
  /-- BUS_TAKE_FRAME (R31). -/
  | busTakeFrame
  /-- BUS_FRAME_SENT (R32). -/
  | busFrameSent
  /-- EXCHANGE_REPLY (R33): a received bus frame, judged by R11. -/
  | exchangeReply (frame : Frame)
  /-- BUS_STRAY (R11): a received bus frame, judged by R11. -/
  | busStray (frame : Frame)
  /-- REPLY_WINDOW_EXPIRED (R33). -/
  | replyWindowExpired
  /-- UPSTREAM_TRANSMIT_START (R14). -/
  | upstreamTransmitStart
  /-- LINK_SILENT (R17). -/
  | linkSilent
  /-- RELAY_ENTRY_EXPIRED (R27): the open entry that holds this TAG. -/
  | relayEntryExpired (tag : Byte)
  /-- POLLER_RUN (R65). -/
  | pollerRun
  /-- CHANNEL_STALE (R69): the binding's number. -/
  | channelStale (binding : Fin 8)
  /-- MIN_OFF_TIMER_EXPIRED (R56). -/
  | minOffTimerExpired
  /-- WINDOW_START (R58). -/
  | windowStart (cavity : Cav)
  /-- OFF_MARK (R60). -/
  | offMark (cavity : Cav) (position : HeatPos)
  /-- SURVEY_EXPIRED (R99). -/
  | surveyExpired (cavity : Cav)
  /-- SHORT_TIMER_EXPIRED (R109). -/
  | shortTimerExpired (cavity : Cav)
  /-- LONG_TIMER_EXPIRED (R130). -/
  | longTimerExpired (cavity : Cav)
  /-- SOAK_HOLD_COMPLETE (R111). -/
  | soakHoldComplete (cavity : Cav)
  /-- OVERTIME (R116). -/
  | overtime (cavity : Cav)
  /-- DWELL_EXPIRED (R119). -/
  | dwellExpired (cavity : Cav)
  /-- BLIND_COOL_EXPIRED (R123). -/
  | blindCoolExpired (cavity : Cav)
  /-- LOCK_LEAVE_TIMER_EXPIRED (R149). -/
  | lockLeaveTimerExpired (cavity : Cav)
  /-- LOCK_FINISH_TIMER_EXPIRED (R153). -/
  | lockFinishTimerExpired (cavity : Cav)
  /-- LOCK_TRAVEL_TIMER_EXPIRED (R148). -/
  | lockTravelTimerExpired (cavity : Cav)
  /-- RUN_ON_EXPIRED (R162). -/
  | runOnExpired
  /-- ARMING_EXPIRED (R164). -/
  | armingExpired
  /-- STALL_TIMER_EXPIRED (R165). -/
  | stallTimerExpired
  /-- GOOD_BYTE_ARRIVES (R6). -/
  | goodByteArrives (port : Port) (byte : Byte)
  deriving DecidableEq, Repr

end Sys2Proof
end

