-- ==== Sys2Proof/Decode.lean ====
section
/-! DEFINITION. The part has no decoder of a processor's kind, and no row of spec/opcode_table.json gives bits: no word spells
a command. Beside that: the tests by which the part reads a character and a frame (R1, R3, R5, R10, R187). -/

namespace Sys2Proof

/-- The command a word spells by the table's bits: none, since no row of the table gives bits. -/
def decodeTableWord (_nbits _w : Nat) : Option Instr := none

/-- R3, R7: a payload of 0 to 40 bytes. -/
def payloadFits (payload : List Byte) : Bool := payload.length ≤ 40

/-- R5: a node address, 1 to 119. -/
def isNodeAddress (a : Byte) : Bool := 1 ≤ a.toNat && a.toNat ≤ 119

/-- R187: the nine management kinds, 0x20 to 0x28. -/
def isManagementKind (k : Byte) : Bool := 0x20 ≤ k.toNat && k.toNat ≤ 0x28

/-- R10: SRC 121 and DEST 1 to 120. -/
def acceptedUpstream (f : Frame) : Bool := f.src == 121 && (1 ≤ f.dest.toNat && f.dest.toNat ≤ 120)

/-- R1: the data bits and the parity bit together hold an even number of ones. -/
def RawChar.parityGood (c : RawChar) : Bool :=
  (((List.range 8).filter (fun i => c.data.getLsbD i)).length + c.parity.toNat) % 2 == 0

/-- R1: a character without error has a correct parity bit and a stop bit sampled high. -/
def RawChar.good (c : RawChar) : Bool := c.parityGood && c.stop

end Sys2Proof
end

