-- ==== Sys2Proof/Config.lean ====
section
/-! DEFINITION. What one implementation fixes: the unit the model counts time in, the bound on the reports acted on
inside one step, and the bytes of the reports whose encoding the spec does not state (free values, log 14 and log 15). -/

namespace Sys2Proof.Config

/-- One bit time at 38,400 bit/s (section 1.1), in units of 1/192 ms. DEDUCED (log 1): in this unit the bit time and
the millisecond are both whole. -/
def bitTime : Nat := 5

/-- One character: 11 bit times (section 1.1). -/
def charTime : Nat := 11 * bitTime

/-- One millisecond. -/
def msec : Nat := 192

/-- One second. -/
def sec : Nat := 1000 * msec

/-- How many reports one step acts on before it leaves the rest, in their order, to the next step (log 6). -/
def reportsPerStep : Nat := 1000

/-- FREE VALUE (log 14): the three bytes a REPORT of a bank carries for a validation finding of NONE. -/
opaque noFindingByte : Fin 3 → Byte

/-- FREE VALUE (log 14): the seven bytes page 3 of a cavity report carries while the first fault record is empty. -/
opaque noFaultByte : Fin 7 → Byte

/-- FREE VALUE (log 15): the two bytes page 1 of a cavity report carries for the period in use before any window. -/
opaque noPeriodByte : Fin 2 → Byte

/-- FREE VALUE (log 15): the three bytes page 1 carries for the duties in use before any window. -/
opaque noDutyByte : Fin 3 → Byte

end Sys2Proof.Config
end

