-- ==== Sys2Proof/Machine/State.lean ====
section
/-! DEFINITION. The state of the part as plain data, block by block, and the state after a power-on reset. Absent items are
`Option`; times are in the unit of `Config`; temperatures are `Int` in 0.5 °C steps, currents `Nat` in 0.1 A steps. -/

namespace Sys2Proof.Machine

/-! ## Time -/

/-- A moment, in units of 1/192 ms since the model's start (log 1). -/
abbrev Time := Nat

/-- A timer: stopped (`none`), or running and due to expire at a moment. -/
abbrev Timer := Option Time

/-- One thing for each of two cavities or banks. -/
structure Two (α : Type) where
  zero : α
  one : α
  deriving DecidableEq, Repr

/-- The item of one cavity or bank. -/
def Two.get {α : Type} (p : Two α) : Which → α
  | .zero => p.zero
  | .one => p.one

/-- `p` with the item of one cavity or bank replaced. -/
def Two.set {α : Type} (p : Two α) (w : Which) (a : α) : Two α :=
  match w with
  | .zero => { p with zero := a }
  | .one => { p with one := a }

/-! ## Names the spec gives in capitals -/

/-- Node condition of a STATE (R44, R186). -/
inductive NodeCond where
  | ok
  | hot
  | fault
  deriving DecidableEq, Repr

/-- Quality of a READING (R67, R186): GOOD, OPEN, SHORT, RANGE. -/
inductive Quality where
  | good
  | openCircuit
  | shortCircuit
  | outOfRange
  deriving DecidableEq, Repr

/-- Door position (R67): OPEN, CLOSED. -/
inductive Door where
  | opened
  | closed
  deriving DecidableEq, Repr

/-- Latch position (R67). -/
inductive Latch where
  | retracted
  | travel
  | extended
  | absent
  deriving DecidableEq, Repr

/-- Load class (R42); `unused` is NONE. -/
inductive LoadClass where
  | unused
  | heater
  | fan
  | lamp
  | lock
  | blower
  | converter
  deriving DecidableEq, Repr

/-- The cavity field of a Load Table entry (R42). -/
inductive LoadCav where
  | of (c : Cav)
  | shared
  deriving DecidableEq, Repr

/-- The position field of a Load Table entry (R42); `nowhere` is NONE. -/
inductive LoadPos where
  | nowhere
  | at (p : HeatPos)
  deriving DecidableEq, Repr

/-- Level kind (R42). -/
inductive LevelKind where
  | switched
  | levelled
  deriving DecidableEq, Repr

/-- Owner of a load (R44); `nobody` is NONE. -/
inductive Owner where
  | nobody
  | controller
  | engine
  deriving DecidableEq, Repr

/-- Grant of a load (R44); `noGrant` is NONE. -/
inductive Grant where
  | noGrant
  | waiting
  | held
  deriving DecidableEq, Repr

/-- Fault of a load (R44); `noFault` is NONE. -/
inductive LoadFault where
  | noFault
  | unresponsive
  | mismatch
  | nodeFault
  deriving DecidableEq, Repr

/-- Attempt of the engine DRIVE last taken (R44); `noAttempt` is NONE. -/
inductive Attempt where
  | noAttempt
  | first
  | again
  deriving DecidableEq, Repr

/-- Channel use (R63); `unused` is NONE. -/
inductive Use where
  | unused
  | probe (c : Cav)
  | door (c : Cav)
  | mains
  | tacho
  | bay
  | duct
  deriving DecidableEq, Repr

/-- Channel state (R66). -/
inductive ChanState where
  | unbound
  | unknown
  | live
  | stale
  | failed
  deriving DecidableEq, Repr

/-- A value read by its use (R67): a number in the unit of the use, or a door and latch position. -/
inductive ChanValue where
  | num (v : Int)
  | door (d : Door) (l : Latch)
  deriving DecidableEq, Repr

/-- The side of a condition (R70). -/
inductive Side where
  | above
  | atOrAbove
  | below
  | atOrBelow
  deriving DecidableEq, Repr

/-- State of a watch (R72). -/
inductive WatchState where
  | cleared
  | notMet
  | met
  deriving DecidableEq, Repr

/-- Bank state (R81). -/
inductive BankState where
  | empty
  | written
  | valid
  deriving DecidableEq, Repr

/-- Segment kind (R83); `ret` is RETURN and `fin` is END. -/
inductive SegKind where
  | fin
  | ramp
  | soak
  | cool
  | check
  | mark
  | ret
  deriving DecidableEq, Repr

/-- CHECK condition (R83, R114). -/
inductive CheckCond where
  | tempAtOrBelow
  | tempAtOrAbove
  | cycleTimeAtLeast
  | otherCavityActive
  | mainsNormal
  | converterLit
  deriving DecidableEq, Repr

/-- Blower level or demand: OFF, LOW, MID, HIGH. -/
inductive BlowLevel where
  | off
  | low
  | mid
  | high
  deriving DecidableEq, Repr

/-- Converter field or demand of a cavity: OFF, ON, ON-NEEDS-LIT. -/
inductive ConvField where
  | off
  | on
  | onNeedsLit
  deriving DecidableEq, Repr

/-- Admission action (R22). -/
inductive AdmissionAction where
  | pass
  | clamp
  | refuse
  deriving DecidableEq, Repr

/-- Confirm mode of a lock (R145). -/
inductive ConfirmMode where
  | position
  | timed
  deriving DecidableEq, Repr

/-- The six causes, in priority order (R125). -/
inductive Cause where
  | overheat
  | ductHot
  | loadFault
  | mainsDip
  | timeout
  | linkLost
  deriving DecidableEq, Repr

/-- Cavity state (R96); `opened` is OPEN. -/
inductive CavState where
  | survey
  | opened
  | prepare
  | locking
  | run
  | cooldown
  | release
  | halted
  deriving DecidableEq, Repr

/-- Survey stage (R96); `noStage` is none. -/
inductive SurveyStage where
  | noStage
  | waiting
  | reading
  deriving DecidableEq, Repr

/-- Back-off reason (R96). -/
inductive BackOff where
  | noBackOff
  | cancelled
  | door
  | probeLost
  deriving DecidableEq, Repr

/-- Reason of a cavity's latest move (R96, R186), in code order. -/
inductive Reason where
  | noReason
  | complete
  | recoveryEnd
  | cancelled
  | overtime
  | loop
  | stackFull
  | causeLimit
  | unhandled
  | timeoutInRecovery
  | strayReturn
  | probeLost
  | doorSensor
  | latchLost
  | lockJam
  | blowerStall
  | stop
  | survey
  | startLoad
  | door
  | lockEngage
  deriving DecidableEq, Repr

/-- Lock Unit state (R144). -/
inductive LockState where
  | unknown
  | unlocked
  | engaging
  | locked
  | disengaging
  | jammed
  deriving DecidableEq, Repr

/-- Back-off purpose (R144). -/
inductive Purpose where
  | noPurpose
  | plain
  | nextAttempt
  | failed
  deriving DecidableEq, Repr

/-- Jam reason (R144). -/
inductive Jam where
  | noJam
  | latchLost
  | engageTimeout
  | releaseTimeout
  | doorOpenHeld
  | motorFault
  deriving DecidableEq, Repr

/-- Direction of a travel (R146). -/
inductive Travel where
  | engage
  | release
  deriving DecidableEq, Repr

/-- Stall check (R164). -/
inductive StallCheck where
  | idle
  | arming
  | watching
  | stalled
  deriving DecidableEq, Repr

/-- Tables the access pointer can name (R173). -/
inductive TableId where
  | loads
  | channels
  | admission
  | limits
  | segments
  | causes
  | duty
  | bankLimits
  deriving DecidableEq, Repr

/-- Checks of VALIDATE, in order (R91). -/
inductive BankCheck where
  | limitsUnset
  | releaseAboveCeiling
  | startAboveRelease
  | nextIndex
  | alternateIndex
  | rampDuration
  | vectorIndex
  | bandOrder
  | bandDescent
  deriving DecidableEq, Repr

/-! ## Ports -/

/-- Receiver states (section 1.3). -/
inductive RxStage where
  | hunt
  | header
  | body
  | check
  deriving DecidableEq, Repr

/-- A port's receiver (R6 to R9). -/
structure Receiver where
  stage : RxStage
  /-- DEST, SRC, KIND, TAG, LEN and payload bytes stored so far. -/
  stored : List Byte
  crc : Word16
  /-- The first CHECK byte, once stored. -/
  checkHigh : Option Byte
  gap : Timer
  /-- After a framing error: no new start bit until the line has been seen high (R1). -/
  awaitHigh : Bool
  deriving DecidableEq, Repr

/-- The six counters of a port (R12), each 0 to 65535. -/
structure Counters where
  accepted : Nat
  crcErrors : Nat
  charErrors : Nat
  gapAborts : Nat
  lengthErrors : Nat
  /-- Address errors (upstream) or strays (bus). -/
  discarded : Nat
  deriving DecidableEq, Repr

/-- A port's receiving side. -/
structure PortState where
  rx : Receiver
  count : Counters
  deriving DecidableEq, Repr

/-- A port's transmitter (R2): the frame begun last, when its last stop bit ends, and from when a next frame may begin. -/
structure Transmitter where
  frame : Option Frame
  sentAt : Time
  freeAt : Time
  deriving DecidableEq, Repr

/-! ## Relay Unit and Bus Scheduler -/

/-- Stage of a relay entry (R19), with the hold timer of the two that wait (R27). -/
inductive RelayStage where
  | grantWait
  | queued
  | inFlight
  deriving DecidableEq, Repr

/-- A relay entry (section 2.1). The frame holds the TAG, the node and the KIND; its CHECK is computed. -/
structure RelayEntry where
  frame : Frame
  stage : RelayStage
  openedAt : Time
  stageSince : Time
  hold : Timer
  carriesGrant : Bool
  /-- The frame came through admission (R20 check 3), not by check 4. -/
  admitted : Bool
  deriving DecidableEq, Repr

/-- An Admission Table record (R22, R173). -/
structure AdmissionRecord where
  action : AdmissionAction
  limit : Nat
  deriving DecidableEq, Repr

/-- A frame waiting for the bus (R30): an engine DRIVE for a load, a poller ASK for a binding, or the frame of the relay
entry that holds a TAG. `again` marks the one repeat of a failed engine DRIVE (R50). -/
inductive QItem where
  | drive (load : Fin 16) (level : Nat) (again : Bool)
  | ask (binding : Fin 8)
  | relayed (tag : Byte)
  deriving DecidableEq, Repr

/-- The reply an exchange expects (R11). -/
inductive Expect where
  | state
  | reading
  | any
  deriving DecidableEq, Repr

/-- The party an exchange's outcome goes to (R31); `closedRelay` after a link reset closed the entry (R36, R40). -/
inductive Party where
  | relay (tag : Byte)
  | closedRelay
  | drive (load : Fin 16) (level : Nat) (urgent : Bool)
  | poller
  deriving DecidableEq, Repr

/-- Where an exchange stands: its frame is being sent, or its reply window is open (R32). -/
inductive Phase where
  | sending (sentAt : Time)
  | window (expires : Time)
  deriving DecidableEq, Repr

/-- The exchange in flight (R31). The frame holds the node, the requester (SRC) and the TAG. -/
structure Exchange where
  frame : Frame
  phase : Phase
  /-- The reply window length when the frame was taken (R32). -/
  windowLength : Time
  expects : Expect
  party : Party
  deriving DecidableEq, Repr

/-! ## Load Unit -/

/-- A Load Table entry (R42). -/
structure LoadEntry where
  node : Byte
  cls : LoadClass
  cavity : LoadCav
  position : LoadPos
  rated : Nat
  minOff : Nat
  kind : LevelKind
  deriving DecidableEq, Repr

/-- A Load Record (R44). A level of `none` is UNKNOWN; a LOCK load's level is its motor code. -/
structure LoadRecord where
  commanded : Option Nat
  owner : Owner
  confirmed : Option Nat
  condition : NodeCond
  grant : Grant
  offSince : Option Time
  fault : LoadFault
  attempt : Attempt
  deriving DecidableEq, Repr

/-- A Load Table entry with its record; the record of an unused entry is the fresh one and is not read. -/
structure LoadSlot where
  entry : LoadEntry
  record : LoadRecord
  deriving DecidableEq, Repr

/-- Who asked for a grant (R53): the engine (rank 0), or the relay entry with a TAG (rank 1). -/
inductive Requester where
  | engine
  | relay (tag : Byte)
  deriving DecidableEq, Repr

/-- A waiting grant request (R54). -/
structure GrantRequest where
  load : Fin 16
  requester : Requester
  level : Nat
  joined : Time
  deriving DecidableEq, Repr

/-- One item for each heater position. -/
structure PerPos (α : Type) where
  top : α
  bottom : α
  rear : α
  deriving DecidableEq, Repr

/-- A cavity's duty window (section 3.6). Start, period and duties are absent before the first window. -/
structure DutyWindow where
  running : Bool
  start : Option Time
  period : Option Nat
  duty : Option (PerPos Nat)
  offMark : PerPos Timer
  deriving DecidableEq, Repr

/-! ## Channel Unit -/

/-- A channel binding (R63). -/
structure Binding where
  use : Use
  node : Byte
  channel : Nat
  poll : Bool
  deriving DecidableEq, Repr

/-- A Channel Record (R66) with its stale timer (R69). -/
structure ChanRecord where
  state : ChanState
  latest : Option ChanValue
  previous : Option ChanValue
  quality : Option Quality
  goodRun : Nat
  badRun : Nat
  lastGood : Option Time
  stale : Timer
  deriving DecidableEq, Repr

/-- A binding with its record. -/
structure ChanSlot where
  binding : Binding
  record : ChanRecord
  deriving DecidableEq, Repr

/-- A watch (R72). -/
structure Watch where
  side : Side
  level : Int
  state : WatchState
  deriving DecidableEq, Repr

/-- The four watches of a Cavity Context (R74). -/
structure CavWatches where
  ceiling : Watch
  goal : Watch
  rise : Watch
  release : Watch
  deriving DecidableEq, Repr

/-- Every watch of the Channel Unit (R74 to R76). -/
structure Watches where
  cav : Two CavWatches
  dip : Watch
  ductHot : Watch
  light : Watch
  bayHot : Watch
  bayCool : Watch
  speed : Watch
  deriving DecidableEq, Repr

/-- The name of a watch. -/
inductive WatchId where
  | ceiling (c : Cav)
  | goal (c : Cav)
  | rise (c : Cav)
  | release (c : Cav)
  | dip
  | ductHot
  | light
  | bayHot
  | bayCool
  | speed
  deriving DecidableEq, Repr

/-! ## Program Store -/

/-- A segment record (R83). -/
structure Segment where
  kind : SegKind
  target : Int
  band : Nat
  duration : Nat
  short : Nat
  cond : CheckCond
  next : Byte
  alternate : Byte
  marker : Nat
  blower : BlowLevel
  fan : Nat
  converter : ConvField
  deriving DecidableEq, Repr

/-- A duty band (R87); a threshold of `none` is UNUSED. -/
structure DutyBand where
  threshold : Option Int
  top : Nat
  bottom : Nat
  rear : Nat
  deriving DecidableEq, Repr

/-- A bank limits record (R88). -/
structure BankLimits where
  startLimit : Int
  release : Int
  dwell : Nat
  blind : Nat
  maxCycle : Nat
  overshoot : Nat
  riseMin : Nat
  ceiling : Int
  causeLimit : Vector Nat 6
  coolFan : Nat
  deriving DecidableEq, Repr

/-- A validation finding (R80, R91). -/
structure Finding where
  check : BankCheck
  table : TableId
  index : Nat
  deriving DecidableEq, Repr

/-- A bank (R80): its four tables, state, bind count and finding (`none` is NONE). -/
structure Bank where
  segments : Vector Segment 40
  causes : Vector Byte 6
  duty : Vector DutyBand 8
  limits : BankLimits
  state : BankState
  binds : Nat
  finding : Option Finding
  deriving DecidableEq, Repr

/-! ## Cycle Engine -/

/-- The hold timer of a SOAK (R111): stopped, running, or standing with time left. -/
inductive Hold where
  | stopped
  | running (expires : Time)
  | standing (left : Time)
  deriving DecidableEq, Repr

/-- The elapsed timer (R116): counting since a moment, or stopped at a time. -/
inductive Elapsed where
  | stopped (time : Time)
  | running (since : Time)
  deriving DecidableEq, Repr

/-- An entry of the recovery stack (R134). -/
structure StackEntry where
  segment : Nat
  cause : Cause
  longLeft : Option Time
  holdLeft : Option Time
  deriving DecidableEq, Repr

/-- The first fault record (R124); the elapsed time is in seconds. -/
structure FaultRecord where
  reason : Reason
  segment : Option Nat
  depth : Nat
  temperature : Option Int
  elapsed : Nat
  deriving DecidableEq, Repr

/-- A Cavity Context (R96). The stack's first entry is its top. -/
structure CavCtx where
  state : CavState
  stage : SurveyStage
  doorSeen : Bool
  probeSeen : Bool
  doorReport : Option (Door × Latch)
  bank : Option BankId
  entry : Option Nat
  segment : Option Nat
  zeroRun : Nat
  entryTemp : Option Int
  litWait : Bool
  backOff : BackOff
  marker : Nat
  blower : BlowLevel
  converter : ConvField
  survey : Timer
  long : Timer
  short : Timer
  hold : Hold
  elapsed : Elapsed
  dwell : Timer
  blind : Timer
  blindExpired : Bool
  reason : Reason
  stack : List StackEntry
  pending : Vector Bool 6
  counts : Vector Nat 6
  firstFault : Option FaultRecord
  deriving DecidableEq, Repr

/-! ## Lock Units -/

/-- A Lock Unit (R144). -/
structure LockUnit where
  state : LockState
  attempt : Nat
  purpose : Purpose
  held : Bool
  leaveMet : Bool
  latch : Option Latch
  leave : Timer
  finish : Timer
  travel : Timer
  jam : Jam
  deriving DecidableEq, Repr

/-! ## Airflow Unit and LIMITS -/

/-- The Airflow Unit (R159). The highest demand is computed from the four. -/
structure Airflow where
  cavDemand : Two BlowLevel
  controllerDemand : BlowLevel
  bayDemand : BlowLevel
  level : BlowLevel
  runOn : Timer
  stall : StallCheck
  arming : Timer
  stallTimer : Timer
  convCav : Two ConvField
  convDemand : Bool
  lit : Bool
  deriving DecidableEq, Repr

/-- One item for each of the blower levels LOW, MID and HIGH. -/
structure PerLevel where
  low : Nat
  mid : Nat
  high : Nat
  deriving DecidableEq, Repr

/-- The LIMITS record (R175), each field in the unit of its range. -/
structure Limits where
  budget : Nat
  window : Nat
  hold : Nat
  reply : Nat
  silence : Nat
  poll : Nat
  stale : Nat
  dip : Nat
  duct : Int
  light : Int
  bay : Int
  tacho : PerLevel
  mode : Two ConfirmMode
  engageLeave : Nat
  engageFinish : Nat
  releaseLeave : Nat
  releaseFinish : Nat
  timedTravel : Nat
  runOn : Nat
  map : PerLevel
  stallWindow : Nat
  deriving DecidableEq, Repr

/-- The access pointer (R173). -/
structure Pointer where
  table : TableId
  bank : BankId
  index : Nat
  deriving DecidableEq, Repr

/-- The three notice pending flags (R180). -/
structure Notices where
  cav : Two Bool
  part : Bool
  deriving DecidableEq, Repr

/-! ## Reports between blocks -/

/-- What a Lock Unit reports to its context (R158). -/
inductive LockReport where
  | locked
  | unlocked
  | engageFailed
  | engageAborted
  | jammed (jam : Jam)
  deriving DecidableEq, Repr

/-- A report on its way from one block to its subscribers inside the part (log 6). -/
inductive Event where
  /-- A state or binding report of a use (R64, R71). -/
  | chanState (use : Use) (left entered : ChanState)
  /-- A watch became MET (`true`) or LAPSED (`false`) (R72). -/
  | watch (w : WatchId) (met : Bool)
  /-- A door report (R77). -/
  | doorReport (c : Cav) (door : Door) (latch : Latch) (doorConfirmed : Option Door) (latchConfirmed : Option Latch)
  /-- A GOOD reading of PROBEc has been tapped (R97, R111). -/
  | probeReading (c : Cav)
  /-- A STATE has been tapped for a load (R102). -/
  | stateTapped (load : Fin 16)
  /-- An engine off has failed for good and left its load faulted and not confirmed off (R102). -/
  | offFailed (load : Fin 16)
  /-- A load fault or a refused engine grant request of a load other than the CONVERTER (R51, R53, R55). -/
  | loadFault (load : Fin 16)
  /-- The same of the CONVERTER, for each context that demanded it at that moment (R168). -/
  | converterFault (zero one : Bool)
  /-- A Lock Unit's report (R158). -/
  | lock (c : Cav) (r : LockReport)
  /-- The blower has become STALLED (R165). -/
  | stalled
  /-- The converter has become LIT (`true`) or UNLIT (R169). -/
  | lit (now : Bool)
  /-- The hold of a SOAK entered or re-entered with 0 s is complete (R111, R139). -/
  | holdDone (c : Cav)
  deriving DecidableEq, Repr

/-! ## The machine -/

/-- The whole state of the part. -/
structure State where
  now : Time
  pending : List Instr
  events : List Event
  resetHeld : Bool
  stopAsserted : Bool
  faultOut : Bool
  pointer : Pointer
  notices : Notices
  up : PortState
  bus : PortState
  upTx : Transmitter
  busTx : Transmitter
  outQueue : List Frame
  live : Bool
  silence : Timer
  tagSeq : Byte
  relay : List RelayEntry
  admission : Vector AdmissionRecord 4
  urgent : List QItem
  normal : List QItem
  exchange : Option Exchange
  loads : Vector LoadSlot 16
  grantQueue : List GrantRequest
  minOff : Timer
  windows : Two DutyWindow
  chans : Vector ChanSlot 8
  pollDue : Time
  watches : Watches
  banks : Two Bank
  cavs : Two CavCtx
  locks : Two LockUnit
  air : Airflow
  limits : Limits
  deriving DecidableEq, Repr

/-- No event of the manual stops the part, so no step ends in a fault. -/
inductive Fault where
  deriving DecidableEq, Repr

/-- Why a step refuses a command. -/
inductive Refusal where
  /-- A command that has no meaning in the model yet, by its mnemonic; raised by `exec` only; safe. No arm raises it. -/
  | notModelled (mnemonic : String)
  deriving DecidableEq, Repr

/-! ## Reset values -/

/-- A receiver after power-on reset (R18); the registers a SYNC starts hold the values log 29 names. -/
def Receiver.reset : Receiver :=
  { stage := .hunt, stored := [], crc := 0xFFFF, checkHigh := none, gap := none, awaitHigh := false }

/-- The counters at 0 (R12). -/
def Counters.zero : Counters :=
  { accepted := 0, crcErrors := 0, charErrors := 0, gapAborts := 0, lengthErrors := 0, discarded := 0 }

/-- A port after power-on reset (R18). -/
def PortState.reset : PortState := { rx := Receiver.reset, count := Counters.zero }

/-- An idle transmitter that has kept its idle time since a moment (R2, R18). -/
def Transmitter.idleSince (t : Time) : Transmitter := { frame := none, sentAt := t, freeAt := t }

/-- An unused Load Table entry after power-on reset (R42). -/
def LoadEntry.reset : LoadEntry :=
  { node := 1, cls := .unused, cavity := .of .zero, position := .nowhere, rated := 0, minOff := 0, kind := .switched }

/-- A fresh Load Record (R44). -/
def LoadRecord.fresh : LoadRecord :=
  { commanded := none, owner := .nobody, confirmed := none, condition := .ok, grant := .noGrant, offSince := none,
    fault := .noFault, attempt := .noAttempt }

/-- A window after power-on reset (R62). -/
def DutyWindow.reset : DutyWindow :=
  { running := false, start := none, period := none, duty := none, offMark := { top := none, bottom := none, rear := none } }

/-- An unused binding after power-on reset (R63). -/
def Binding.reset : Binding := { use := .unused, node := 1, channel := 0, poll := false }

/-- The record of an unused binding (R66): UNBOUND and no other fields. -/
def ChanRecord.unbound : ChanRecord :=
  { state := .unbound, latest := none, previous := none, quality := none, goodRun := 0, badRun := 0, lastGood := none,
    stale := none }

/-- A cleared watch (R72). -/
def Watch.clear : Watch := { side := .above, level := 0, state := .cleared }

/-- A context's watches after power-on reset (R79). -/
def CavWatches.reset : CavWatches :=
  { ceiling := Watch.clear, goal := Watch.clear, rise := Watch.clear, release := Watch.clear }

/-- The watches after power-on reset (R75, R79). -/
def Watches.reset : Watches :=
  { cav := { zero := CavWatches.reset, one := CavWatches.reset }
    dip := { side := .below, level := 190, state := .notMet }
    ductHot := { side := .above, level := 900, state := .notMet }
    light := { side := .atOrAbove, level := 500, state := .notMet }
    bayHot := { side := .above, level := 150, state := .notMet }
    bayCool := { side := .atOrBelow, level := 140, state := .notMet }
    speed := Watch.clear }

/-- The zero form of a segment record (R82). -/
def Segment.zero : Segment :=
  { kind := .fin, target := 0, band := 0, duration := 0, short := 0, cond := .tempAtOrBelow, next := 0, alternate := 0,
    marker := 0, blower := .off, fan := 0, converter := .off }

/-- The zero form of a duty band (R82). -/
def DutyBand.zero : DutyBand := { threshold := none, top := 0, bottom := 0, rear := 0 }

/-- The zero form of a bank limits record (R82). -/
def BankLimits.zero : BankLimits :=
  { startLimit := 0, release := 0, dwell := 0, blind := 0, maxCycle := 0, overshoot := 0, riseMin := 0, ceiling := 0,
    causeLimit := Vector.replicate 6 0, coolFan := 0 }

/-- A bank after power-on reset (R82, R95). -/
def Bank.reset : Bank :=
  { segments := Vector.replicate 40 Segment.zero, causes := Vector.replicate 6 0xFF,
    duty := Vector.replicate 8 DutyBand.zero, limits := BankLimits.zero, state := .empty, binds := 0, finding := none }

/-- A Cavity Context after power-on reset (R96). -/
def CavCtx.reset : CavCtx :=
  { state := .survey, stage := .waiting, doorSeen := false, probeSeen := false, doorReport := none, bank := none,
    entry := none, segment := none, zeroRun := 0, entryTemp := none, litWait := false, backOff := .noBackOff, marker := 0,
    blower := .off, converter := .off, survey := none, long := none, short := none, hold := .stopped,
    elapsed := .stopped 0, dwell := none, blind := none, blindExpired := false, reason := .noReason, stack := [],
    pending := Vector.replicate 6 false, counts := Vector.replicate 6 0, firstFault := none }

/-- A Lock Unit after power-on reset (R144). -/
def LockUnit.reset : LockUnit :=
  { state := .unknown, attempt := 0, purpose := .noPurpose, held := false, leaveMet := false, latch := none,
    leave := none, finish := none, travel := none, jam := .noJam }

/-- The Airflow Unit after power-on reset (R159). -/
def Airflow.reset : Airflow :=
  { cavDemand := { zero := .off, one := .off }, controllerDemand := .off, bayDemand := .off, level := .off, runOn := none,
    stall := .idle, arming := none, stallTimer := none, convCav := { zero := .off, one := .off }, convDemand := false,
    lit := false }

/-- LIMITS after power-on reset (R175). -/
def Limits.reset : Limits :=
  { budget := 130, window := 20, hold := 1000, reply := 40, silence := 3000, poll := 1000, stale := 5, dip := 190,
    duct := 900, light := 500, bay := 150, tacho := { low := 600, mid := 1000, high := 1500 },
    mode := { zero := .position, one := .position }, engageLeave := 2, engageFinish := 8, releaseLeave := 2,
    releaseFinish := 8, timedTravel := 4, runOn := 300, map := { low := 40, mid := 70, high := 100 }, stallWindow := 8 }

/-- The part right after a power-on reset that ends at moment `t` (R18, R41, R62, R79, R95, R96, R144, R159, R185). -/
def State.resetAt (t : Time) : State :=
  { now := t, pending := [], events := [], resetHeld := false, stopAsserted := false, faultOut := false,
    pointer := { table := .loads, bank := .zero, index := 0 },
    notices := { cav := { zero := false, one := false }, part := false },
    up := PortState.reset, bus := PortState.reset, upTx := Transmitter.idleSince t, busTx := Transmitter.idleSince t,
    outQueue := [], live := false, silence := none, tagSeq := 0, relay := [],
    admission := Vector.replicate 4 { action := .pass, limit := 0 }, urgent := [], normal := [], exchange := none,
    loads := Vector.replicate 16 { entry := LoadEntry.reset, record := LoadRecord.fresh }, grantQueue := [], minOff := none,
    windows := { zero := DutyWindow.reset, one := DutyWindow.reset },
    chans := Vector.replicate 8 { binding := Binding.reset, record := ChanRecord.unbound },
    pollDue := t + Limits.reset.poll * Config.msec, watches := Watches.reset,
    banks := { zero := Bank.reset, one := Bank.reset }, cavs := { zero := CavCtx.reset, one := CavCtx.reset },
    locks := { zero := LockUnit.reset, one := LockUnit.reset }, air := Airflow.reset, limits := Limits.reset }

/-- The machine right after reset, with an empty queue. -/
def State.reset : State := State.resetAt 0

end Sys2Proof.Machine
end

