-- ==== Sys2Proof/Machine/Ops.lean ====
section
/-! DEFINITION. The named operations every block shares: time and timers, the items of one cavity, lock, load or channel, the
reports between blocks, the CRC of a frame, and the upstream output queue. -/

namespace Sys2Proof.Machine

/-! ## Time and timers -/

/-- A length of `n` seconds. -/
def seconds (n : Nat) : Time := n * Config.sec

/-- A length of `n` milliseconds. -/
def millis (n : Nat) : Time := n * Config.msec

/-- The moment an expiry command stands for: the timer's own, or now where that has passed (log 3). -/
def State.advance (s : State) (t : Time) : State := { s with now := max s.now t }

/-- A timer started now with a length (R96, R144). -/
def State.timer (s : State) (length : Time) : Timer := some (s.now + length)

/-- The time left on a running timer. -/
def timeLeft (now expires : Time) : Time := expires - now

/-- A time in a whole unit, rounded up: a count down in that unit (log 8). -/
def unitsUp (unit t : Time) : Nat := (t + (unit - 1)) / unit

/-- A time in a whole unit, rounded down: a count up in that unit (log 8). -/
def unitsDown (unit t : Time) : Nat := t / unit

/-! ## Items of one cavity, lock, window, bank, load or channel -/

def State.cav (s : State) (c : Cav) : CavCtx := s.cavs.get c

def State.modCav (s : State) (c : Cav) (f : CavCtx → CavCtx) : State := { s with cavs := s.cavs.set c (f (s.cavs.get c)) }

def State.lock (s : State) (c : Cav) : LockUnit := s.locks.get c

def State.modLock (s : State) (c : Cav) (f : LockUnit → LockUnit) : State :=
  { s with locks := s.locks.set c (f (s.locks.get c)) }

def State.window (s : State) (c : Cav) : DutyWindow := s.windows.get c

def State.modWindow (s : State) (c : Cav) (f : DutyWindow → DutyWindow) : State :=
  { s with windows := s.windows.set c (f (s.windows.get c)) }

def State.bank (s : State) (b : BankId) : Bank := s.banks.get b

def State.modBank (s : State) (b : BankId) (f : Bank → Bank) : State := { s with banks := s.banks.set b (f (s.banks.get b)) }

def State.modAir (s : State) (f : Airflow → Airflow) : State := { s with air := f s.air }

/-- Load Table entry `i` (R42). -/
def State.entry (s : State) (i : Fin 16) : LoadEntry := (s.loads.get i).entry

/-- The Load Record of entry `i` (R44). -/
def State.record (s : State) (i : Fin 16) : LoadRecord := (s.loads.get i).record

def State.modRecord (s : State) (i : Fin 16) (f : LoadRecord → LoadRecord) : State :=
  { s with loads := s.loads.set i { entry := s.entry i, record := f (s.record i) } }

/-- Binding `n` (R63). -/
def State.binding (s : State) (n : Fin 8) : Binding := (s.chans.get n).binding

/-- The Channel Record of binding `n` (R66). -/
def State.chanRecord (s : State) (n : Fin 8) : ChanRecord := (s.chans.get n).record

def State.modChan (s : State) (n : Fin 8) (f : ChanRecord → ChanRecord) : State :=
  { s with chans := s.chans.set n { binding := s.binding n, record := f (s.chanRecord n) } }

def PerPos.get {α : Type} (p : PerPos α) : HeatPos → α
  | .top => p.top
  | .bottom => p.bottom
  | .rear => p.rear

def PerPos.set {α : Type} (p : PerPos α) (h : HeatPos) (a : α) : PerPos α :=
  match h with
  | .top => { p with top := a }
  | .bottom => { p with bottom := a }
  | .rear => { p with rear := a }

/-- The other cavity. -/
def otherCav : Cav → Cav
  | .zero => .one
  | .one => .zero

/-- The indexes of a table of `n` records, in order. -/
def indexes (n : Nat) : List (Fin n) := List.finRange n

/-! ## Reports between blocks -/

/-- Delivers a report: it is acted on after those delivered before it (R106, log 6). -/
def State.emit (s : State) (e : Event) : State := { s with events := s.events ++ [e] }

/-- Delivers a report where a condition holds. -/
def State.emitIf (s : State) (b : Bool) (e : Event) : State := if b then s.emit e else s

/-- Drops the undelivered reports that a condition picks out: those of a watch or timer that is cleared (R109, R141). -/
def State.purge (s : State) (p : Event → Bool) : State := { s with events := s.events.filter (fun e => !p e) }

/-! ## Frames -/

/-- R4: one bit into the CRC register. -/
def crcBit (reg : Word16) (b : Bool) : Word16 := if reg.msb ^^ b then (reg <<< 1) ^^^ 0x1021 else reg <<< 1

/-- R4: one byte into the CRC register, most significant bit first. -/
def crcByte (reg : Word16) (b : Byte) : Word16 :=
  [7, 6, 5, 4, 3, 2, 1, 0].foldl (fun r i => crcBit r (b.getLsbD i)) reg

/-- R4: bytes into the CRC register, in order. -/
def crcBytes (reg : Word16) (bs : List Byte) : Word16 := bs.foldl crcByte reg

/-- R4: the register starts with all sixteen bits set. -/
def crcStart : Word16 := 0xFFFF

/-- R3: DEST, SRC, KIND, TAG, LEN and the payload. -/
def frameCovered (f : Frame) : List Byte :=
  [f.dest, f.src, f.kind, f.tag, BitVec.ofNat 8 f.payload.length] ++ f.payload

/-- R4: a frame's CHECK. -/
def frameCheck (f : Frame) : Word16 := crcBytes crcStart (frameCovered f)

/-- The high byte of a 16-bit value, which goes first on the link (R186). -/
def highByte (w : Word16) : Byte := w.extractLsb' 8 8

/-- The low byte of a 16-bit value. -/
def lowByte (w : Word16) : Byte := w.extractLsb' 0 8

/-- R3: SYNC. -/
def syncByte : Byte := 0xA7

/-- R3: the frame's bytes on the line. -/
def frameWire (f : Frame) : List Byte := syncByte :: (frameCovered f) ++ [highByte (frameCheck f), lowByte (frameCheck f)]

/-- Section 1.1: the time a frame of `payload` bytes takes on the line, 8 characters and its payload. -/
def frameLineTime (f : Frame) : Time := (8 + f.payload.length) * Config.charTime

/-- R2: the idle time between two frames, four character times. -/
def idleTime : Time := 4 * Config.charTime

/-- R9: the gap timer's length, three character times. -/
def gapTime : Time := 3 * Config.charTime

/-- R2: a transmitter that begins a frame at a moment. -/
def Transmitter.begin (f : Frame) (t : Time) : Transmitter :=
  { frame := some f, sentAt := t + frameLineTime f, freeAt := t + frameLineTime f + idleTime }

/-! ## The upstream output queue -/

/-- R14: the queue's 16 places. -/
def outPlaces : Nat := 16

/-- The free places of the upstream output queue. -/
def State.freePlaces (s : State) : Nat := outPlaces - s.outQueue.length

/-- R15: an open frame or a new relay entry finds a place while free places are more than open relay entries. -/
def State.placeTest (s : State) : Bool := decide (s.relay.length < s.freePlaces)

/-- Places a frame at the tail of the upstream output queue (R14). -/
def State.place (s : State) (f : Frame) : State := { s with outQueue := s.outQueue ++ [f] }

/-- R13: a frame of the part's own to the controller. -/
def partFrame (kind tag : Byte) (payload : List Byte) : Frame :=
  { dest := 121, src := 120, kind := kind, tag := tag, payload := payload }

/-- R13, R187: a RELAY-FAIL for a node with a reason code. -/
def relayFail (tag node reason : Byte) : Frame := partFrame 0x31 tag [node, reason]

/-- R13, R187: an ANSWER with a result code and data. -/
def answerFrame (tag code : Byte) (data : List Byte) : Frame := partFrame 0x30 tag (code :: data)

end Sys2Proof.Machine
end

