-- ==== Sys2Proof/Machine/Flags.lean ====
section
/-! DEFINITION. The part's flags and counters: the port counters (R12), the notice pending flags (R180) and the condition of
the FAULT line (R184). -/

namespace Sys2Proof.Machine

/-- R12: a counter goes up by one and stops at 65535. -/
def bump (n : Nat) : Nat := min 65535 (n + 1)

def State.port (s : State) : Port → PortState
  | .upstream => s.up
  | .bus => s.bus

def State.modPort (s : State) (p : Port) (f : PortState → PortState) : State :=
  match p with
  | .upstream => { s with up := f s.up }
  | .bus => { s with bus := f s.bus }

/-- Counts on one port (R12). -/
def State.count (s : State) (p : Port) (f : Counters → Counters) : State :=
  s.modPort p (fun q => { q with count := f q.count })

def Counters.addAccepted (k : Counters) : Counters := { k with accepted := bump k.accepted }
def Counters.addCrc (k : Counters) : Counters := { k with crcErrors := bump k.crcErrors }
def Counters.addChar (k : Counters) : Counters := { k with charErrors := bump k.charErrors }
def Counters.addGap (k : Counters) : Counters := { k with gapAborts := bump k.gapAborts }
def Counters.addLength (k : Counters) : Counters := { k with lengthErrors := bump k.lengthErrors }
def Counters.addDiscarded (k : Counters) : Counters := { k with discarded := bump k.discarded }

/-- Sets the pending flag of a cavity's notice (R180). -/
def State.flagCav (s : State) (c : Cav) : State := { s with notices := { s.notices with cav := s.notices.cav.set c true } }

/-- Sets the pending flag of the PART notice (R180). -/
def State.flagPart (s : State) : State := { s with notices := { s.notices with part := true } }

/-- R156, R184: a lock counts as JAMMED for the FAULT line from its jam until its release has succeeded, the travel of that
release (DISENGAGING by R146) included; the jam reason, kept until UNLOCKED (R152), tells it (the model's choice, log 36). -/
def LockUnit.faulty (k : LockUnit) : Bool := k.state == .jammed || k.jam != .noJam

/-- R184: some cavity is HALTED or some lock is JAMMED (log 36), and the part is not held in reset. -/
def State.faultCondition (s : State) : Bool :=
  !s.resetHeld &&
    ((s.cav .zero).state == .halted || (s.cav .one).state == .halted || (s.lock .zero).faulty || (s.lock .one).faulty)

/-- The FAULT output follows its condition (R184). -/
def State.driveFault (s : State) : State := { s with faultOut := s.faultCondition }

/-- R96: a change of a context's state sets its notice flag. -/
def State.setCavState (s : State) (c : Cav) (st : CavState) : State :=
  if (s.cav c).state = st then s else (s.modCav c (fun k => { k with state := st })).flagCav c

/-- R144: a change of a Lock Unit's state sets its cavity's notice flag. -/
def State.setLockState (s : State) (c : Cav) (st : LockState) : State :=
  if (s.lock c).state = st then s else (s.modLock c (fun k => { k with state := st })).flagCav c

end Sys2Proof.Machine
end

