-- ==== Sys2Proof/Machine/Operands.lean ====
section
/-! DEFINITION. How values and records are laid out in payloads (chapter 11): the codes of R186, the records of the tables as
WRITE reads them, with the ranges it tests (R42, R63, R83, R87, R88, R173, R175), and as READ returns them (R188). -/

namespace Sys2Proof.Machine

/-! ## Values (R186) -/

/-- Two bytes, high byte first, as an unsigned value. -/
def natOf (hi lo : Byte) : Nat := hi.toNat * 256 + lo.toNat

/-- Two bytes, high byte first, as a signed temperature in 0.5 °C steps. -/
def tempOf (hi lo : Byte) : Int := (hi ++ lo : BitVec 16).toInt

/-- A one-byte count, level or index. -/
def byteOf (n : Nat) : Byte := BitVec.ofNat 8 n

/-- A 16-bit value, high byte first. -/
def wordBytes (w : Word16) : List Byte := [highByte w, lowByte w]

/-- A two-byte unsigned value. -/
def natBytes (n : Nat) : List Byte := wordBytes (BitVec.ofNat 16 n)

/-- A two-byte signed value. -/
def intBytes (t : Int) : List Byte := wordBytes (BitVec.ofInt 16 t)

/-- A temperature, absent as 0x8000. -/
def tempBytes : Option Int → List Byte
  | none => [0x80, 0x00]
  | some t => intBytes t

/-- A level, UNKNOWN as 0xFF. -/
def levelByte : Option Nat → Byte
  | none => 0xFF
  | some n => byteOf n

/-- A bank named, entry index or segment index, none as 0xFF. -/
def indexByte : Option Nat → Byte
  | none => 0xFF
  | some n => byteOf n

/-- A yes-or-no item. -/
def flagByte (b : Bool) : Byte := if b then 1 else 0

/-- A timer in a report: the time left in its unit, at most 65534; stopped is 0xFFFF. -/
def timerBytes (now unit : Time) : Timer → List Byte
  | none => [0xFF, 0xFF]
  | some e => natBytes (min 65534 (unitsUp unit (timeLeft now e)))

/-- An age in a report, at most 65534; absent is 0xFFFF. -/
def ageBytes (now unit : Time) : Option Time → List Byte
  | none => [0xFF, 0xFF]
  | some t => natBytes (min 65534 (unitsDown unit (now - t)))

/-- The number of a cavity or bank. -/
def whichByte : Which → Byte
  | .zero => 0
  | .one => 1

/-- The cavity or bank a byte names, if any. -/
def whichOf (b : Byte) : Option Which := ([.zero, .one] : List Which)[b.toNat]?

/-- `b` where a condition holds. -/
def inRange (p : Bool) : Option Unit := if p then some () else none

/-- The yes-or-no item a byte names, if any. -/
def flagOf (b : Byte) : Option Bool := ([false, true] : List Bool)[b.toNat]?

/-! ## Codes (R186) -/

/-- R186: the code of a node condition. -/
def nodeCondCode : NodeCond → Byte
  | .ok => 0
  | .hot => 1
  | .fault => 2

/-- R186: the node condition a byte names, if any. -/
def nodeCondOf (b : Byte) : Option NodeCond :=
  ([.ok, .hot, .fault] : List NodeCond)[b.toNat]?

/-- R186: the code of a quality. -/
def qualityCode : Quality → Byte
  | .good => 0
  | .openCircuit => 1
  | .shortCircuit => 2
  | .outOfRange => 3

/-- R186: the quality a byte names, if any. -/
def qualityOf (b : Byte) : Option Quality :=
  ([.good, .openCircuit, .shortCircuit, .outOfRange] : List Quality)[b.toNat]?

/-- R186: the code of a door. -/
def doorCode : Door → Byte
  | .opened => 0
  | .closed => 1

/-- R186: the door a byte names, if any. -/
def doorOf (b : Byte) : Option Door :=
  ([.opened, .closed] : List Door)[b.toNat]?

/-- R186: the code of a latch. -/
def latchCode : Latch → Byte
  | .retracted => 0
  | .travel => 1
  | .extended => 2
  | .absent => 3

/-- R186: the latch a byte names, if any. -/
def latchOf (b : Byte) : Option Latch :=
  ([.retracted, .travel, .extended, .absent] : List Latch)[b.toNat]?

/-- R186: the code of a load class. -/
def loadClassCode : LoadClass → Byte
  | .unused => 0
  | .heater => 1
  | .fan => 2
  | .lamp => 3
  | .lock => 4
  | .blower => 5
  | .converter => 6

/-- R186: the load class a byte names, if any. -/
def loadClassOf (b : Byte) : Option LoadClass :=
  ([.unused, .heater, .fan, .lamp, .lock, .blower, .converter] : List LoadClass)[b.toNat]?

/-- R186: the code of a cavity. -/
def loadCavCode : LoadCav → Byte
  | .of .zero => 0
  | .of .one => 1
  | .shared => 2

/-- R186: the cavity a byte names, if any. -/
def loadCavOf (b : Byte) : Option LoadCav :=
  ([.of .zero, .of .one, .shared] : List LoadCav)[b.toNat]?

/-- R186: the code of a position. -/
def loadPosCode : LoadPos → Byte
  | .nowhere => 0
  | .at .top => 1
  | .at .bottom => 2
  | .at .rear => 3

/-- R186: the position a byte names, if any. -/
def loadPosOf (b : Byte) : Option LoadPos :=
  ([.nowhere, .at .top, .at .bottom, .at .rear] : List LoadPos)[b.toNat]?

/-- R186: the code of a level kind. -/
def levelKindCode : LevelKind → Byte
  | .switched => 0
  | .levelled => 1

/-- R186: the level kind a byte names, if any. -/
def levelKindOf (b : Byte) : Option LevelKind :=
  ([.switched, .levelled] : List LevelKind)[b.toNat]?

/-- R186: the code of a channel use. -/
def useCode : Use → Byte
  | .unused => 0
  | .probe .zero => 1
  | .probe .one => 2
  | .door .zero => 3
  | .door .one => 4
  | .mains => 5
  | .tacho => 6
  | .bay => 7
  | .duct => 8

/-- R186: the channel use a byte names, if any. -/
def useOf (b : Byte) : Option Use :=
  ([.unused, .probe .zero, .probe .one, .door .zero, .door .one, .mains, .tacho, .bay, .duct] : List Use)[b.toNat]?

/-- R186: the code of a admission action. -/
def actionCode : AdmissionAction → Byte
  | .pass => 0
  | .clamp => 1
  | .refuse => 2

/-- R186: the admission action a byte names, if any. -/
def actionOf (b : Byte) : Option AdmissionAction :=
  ([.pass, .clamp, .refuse] : List AdmissionAction)[b.toNat]?

/-- R186: the code of a segment kind. -/
def segKindCode : SegKind → Byte
  | .fin => 0
  | .ramp => 1
  | .soak => 2
  | .cool => 3
  | .check => 4
  | .mark => 5
  | .ret => 6

/-- R186: the segment kind a byte names, if any. -/
def segKindOf (b : Byte) : Option SegKind :=
  ([.fin, .ramp, .soak, .cool, .check, .mark, .ret] : List SegKind)[b.toNat]?

/-- R186: the code of a CHECK condition. -/
def checkCondCode : CheckCond → Byte
  | .tempAtOrBelow => 0
  | .tempAtOrAbove => 1
  | .cycleTimeAtLeast => 2
  | .otherCavityActive => 3
  | .mainsNormal => 4
  | .converterLit => 5

/-- R186: the CHECK condition a byte names, if any. -/
def checkCondOf (b : Byte) : Option CheckCond :=
  ([.tempAtOrBelow, .tempAtOrAbove, .cycleTimeAtLeast, .otherCavityActive, .mainsNormal, .converterLit] : List CheckCond)[b.toNat]?

/-- R186: the code of a blower demand or level. -/
def blowLevelCode : BlowLevel → Byte
  | .off => 0
  | .low => 1
  | .mid => 2
  | .high => 3

/-- R186: the blower demand or level a byte names, if any. -/
def blowLevelOf (b : Byte) : Option BlowLevel :=
  ([.off, .low, .mid, .high] : List BlowLevel)[b.toNat]?

/-- R186: the code of a converter field. -/
def convFieldCode : ConvField → Byte
  | .off => 0
  | .on => 1
  | .onNeedsLit => 2

/-- R186: the converter field a byte names, if any. -/
def convFieldOf (b : Byte) : Option ConvField :=
  ([.off, .on, .onNeedsLit] : List ConvField)[b.toNat]?

/-- R186: the code of a confirm mode. -/
def confirmModeCode : ConfirmMode → Byte
  | .position => 0
  | .timed => 1

/-- R186: the confirm mode a byte names, if any. -/
def confirmModeOf (b : Byte) : Option ConfirmMode :=
  ([.position, .timed] : List ConfirmMode)[b.toNat]?

/-- R186: the code of a table identity. -/
def tableIdCode : TableId → Byte
  | .loads => 0
  | .channels => 1
  | .admission => 2
  | .limits => 3
  | .segments => 4
  | .causes => 5
  | .duty => 6
  | .bankLimits => 7

/-- R186: the table identity a byte names, if any. -/
def tableIdOf (b : Byte) : Option TableId :=
  ([.loads, .channels, .admission, .limits, .segments, .causes, .duty, .bankLimits] : List TableId)[b.toNat]?

/-- R186: the code of a cause. -/
def causeCode : Cause → Byte
  | .overheat => 0
  | .ductHot => 1
  | .loadFault => 2
  | .mainsDip => 3
  | .timeout => 4
  | .linkLost => 5

/-- R186: the code of a VALIDATE check. -/
def bankCheckCode : BankCheck → Byte
  | .limitsUnset => 1
  | .releaseAboveCeiling => 2
  | .startAboveRelease => 3
  | .nextIndex => 4
  | .alternateIndex => 5
  | .rampDuration => 6
  | .vectorIndex => 7
  | .bandOrder => 8
  | .bandDescent => 9

/-- R186: the code of a cavity state. -/
def cavStateCode : CavState → Byte
  | .survey => 0
  | .opened => 1
  | .prepare => 2
  | .locking => 3
  | .run => 4
  | .cooldown => 5
  | .release => 6
  | .halted => 7

/-- R186: the code of a survey stage. -/
def surveyStageCode : SurveyStage → Byte
  | .noStage => 0
  | .waiting => 1
  | .reading => 2

/-- R186: the code of a cavity reason. -/
def reasonCode : Reason → Byte
  | .noReason => 0
  | .complete => 1
  | .recoveryEnd => 2
  | .cancelled => 3
  | .overtime => 4
  | .loop => 5
  | .stackFull => 6
  | .causeLimit => 7
  | .unhandled => 8
  | .timeoutInRecovery => 9
  | .strayReturn => 10
  | .probeLost => 11
  | .doorSensor => 12
  | .latchLost => 13
  | .lockJam => 14
  | .blowerStall => 15
  | .stop => 16
  | .survey => 17
  | .startLoad => 18
  | .door => 19
  | .lockEngage => 20

/-- R186: the code of a back-off reason. -/
def backOffCode : BackOff → Byte
  | .noBackOff => 0
  | .cancelled => 1
  | .door => 2
  | .probeLost => 3

/-- R186: the code of a lock state. -/
def lockStateCode : LockState → Byte
  | .unknown => 0
  | .unlocked => 1
  | .engaging => 2
  | .locked => 3
  | .disengaging => 4
  | .jammed => 5

/-- R186: the code of a jam reason. -/
def jamCode : Jam → Byte
  | .noJam => 0
  | .latchLost => 1
  | .engageTimeout => 2
  | .releaseTimeout => 3
  | .doorOpenHeld => 4
  | .motorFault => 5

/-- R186: the code of a owner. -/
def ownerCode : Owner → Byte
  | .nobody => 0
  | .controller => 1
  | .engine => 2

/-- R186: the code of a grant. -/
def grantCode : Grant → Byte
  | .noGrant => 0
  | .waiting => 1
  | .held => 2

/-- R186: the code of a load fault. -/
def loadFaultCode : LoadFault → Byte
  | .noFault => 0
  | .unresponsive => 1
  | .mismatch => 2
  | .nodeFault => 3

/-- R186: the code of a attempt. -/
def attemptCode : Attempt → Byte
  | .noAttempt => 0
  | .first => 1
  | .again => 2

/-- R186: the code of a channel state. -/
def chanStateCode : ChanState → Byte
  | .unbound => 0
  | .unknown => 1
  | .live => 2
  | .stale => 3
  | .failed => 4

/-- R186: the code of a bank state. -/
def bankStateCode : BankState → Byte
  | .empty => 0
  | .written => 1
  | .valid => 2

/-- R186: the code of a stall check. -/
def stallCheckCode : StallCheck → Byte
  | .idle => 0
  | .arming => 1
  | .watching => 2
  | .stalled => 3

/-! ## Records as WRITE reads them: `none` where a field lies outside its range -/

/-- A LOADS record (R42, R188); each field is tested in a record of class NONE too (the model's choice, log 10). -/
def loadEntryOf : List Byte → Option LoadEntry
  | [node, cls, cav, pos, rated, minOff, kind] => do
    inRange (isNodeAddress node)
    let cls ← loadClassOf cls
    let cav ← loadCavOf cav
    let pos ← loadPosOf pos
    inRange (decide (rated.toNat ≤ 160))
    let kind ← levelKindOf kind
    return { node := node, cls := cls, cavity := cav, position := pos, rated := rated.toNat, minOff := minOff.toNat, kind := kind }
  | _ => none

/-- A CHANNELS record (R63, R188). -/
def bindingOf : List Byte → Option Binding
  | [use, node, channel, poll] => do
    let use ← useOf use
    inRange (isNodeAddress node)
    inRange (decide (channel.toNat ≤ 15))
    let poll ← flagOf poll
    return { use := use, node := node, channel := channel.toNat, poll := poll }
  | _ => none

/-- An ADMIT record (R173, R188). -/
def admissionOf : List Byte → Option AdmissionRecord
  | [action, limit] => do
    let action ← actionOf action
    inRange (decide (limit.toNat ≤ 100))
    return { action := action, limit := limit.toNat }
  | _ => none

/-- A DUTY record (R87, R188): the duties of an UNUSED band are not tested and are stored as 0. -/
def dutyBandOf : List Byte → Option DutyBand
  | [hi, lo, top, bottom, rear] =>
    if natOf hi lo = 0x8000 then some DutyBand.zero
    else do
      inRange (decide (0 ≤ tempOf hi lo ∧ tempOf hi lo ≤ 600))
      inRange (decide (top.toNat ≤ 100 ∧ bottom.toNat ≤ 100 ∧ rear.toNat ≤ 100))
      return { threshold := some (tempOf hi lo), top := top.toNat, bottom := bottom.toNat, rear := rear.toNat }
  | _ => none

/-- R83: a target of 0.0 to 550.0 °C. -/
def targetInRange (t : Int) : Bool := decide (0 ≤ t ∧ t ≤ 1100)

/-- R83: the fields a timed segment (RAMP, SOAK, COOL) always uses. `short` and `band` are given by the kind. -/
def timedSegmentOf (kind : SegKind) (target : Int) (band duration short : Nat) (next blower fan converter : Byte) :
    Option Segment := do
  inRange (targetInRange target)
  let blower ← blowLevelOf blower
  inRange (decide (fan.toNat ≤ 100))
  let converter ← convFieldOf converter
  return { Segment.zero with
    kind := kind, target := target, band := band, duration := duration, short := short, next := next, blower := blower,
    fan := fan.toNat, converter := converter }

/-- R83: a CHECK, whose condition says which further field it uses. -/
def checkSegmentOf (target : Int) (duration : Nat) (cond next alternate : Byte) : Option Segment := do
  let cond ← checkCondOf cond
  let base := { Segment.zero with kind := .check, cond := cond, next := next, alternate := alternate }
  match cond with
  | .tempAtOrBelow | .tempAtOrAbove => do
    inRange (targetInRange target)
    return { base with target := target }
  | .cycleTimeAtLeast => return { base with duration := duration }
  | .otherCavityActive | .mainsNormal | .converterLit => return base

/-- A SEGMENTS record (R83, R90, R188): the kind first, then the fields it uses; the rest are stored as 0. -/
def segmentOf : List Byte → Option Segment
  | [kind, tHi, tLo, band, dHi, dLo, sHi, sLo, cond, next, alternate, marker, blower, fan, converter] => do
    let kind ← segKindOf kind
    let target := tempOf tHi tLo
    let duration := natOf dHi dLo
    match kind with
    | .ramp => do
      inRange (decide (1 ≤ band.toNat ∧ band.toNat ≤ 40))
      timedSegmentOf .ramp target band.toNat duration (natOf sHi sLo) next blower fan converter
    | .soak => do
      inRange (decide (1 ≤ band.toNat ∧ band.toNat ≤ 40))
      timedSegmentOf .soak target band.toNat duration 0 next blower fan converter
    | .cool => timedSegmentOf .cool target 0 duration 0 next blower fan converter
    | .check => checkSegmentOf target duration cond next alternate
    | .mark => do
      inRange (decide (marker.toNat ≤ 15))
      return { Segment.zero with kind := .mark, marker := marker.toNat, next := next }
    | .ret => return { Segment.zero with kind := .ret }
    | .fin => return Segment.zero
  | _ => none

/-- R88: every field of a bank limits record in its range. -/
def bankLimitsInRange (l : BankLimits) : Bool :=
  decide (40 ≤ l.startLimit ∧ l.startLimit ≤ 300) && decide (100 ≤ l.release ∧ l.release ≤ 600) &&
  decide (l.dwell ≤ 600) && decide (600 ≤ l.blind ∧ l.blind ≤ 14400) && decide (600 ≤ l.maxCycle ∧ l.maxCycle ≤ 21600) &&
  decide (10 ≤ l.overshoot ∧ l.overshoot ≤ 120) && decide (2 ≤ l.riseMin ∧ l.riseMin ≤ 100) &&
  decide (600 ≤ l.ceiling ∧ l.ceiling ≤ 1100) && l.causeLimit.toList.all (fun n => decide (1 ≤ n ∧ n ≤ 15)) &&
  decide (l.coolFan ≤ 100)

/-- A BANKLIMITS record (R88, R188). -/
def bankLimitsOf : List Byte → Option BankLimits
  | [s1, s0, r1, r0, d1, d0, b1, b0, m1, m0, shoot, rise, c1, c0, k0, k1, k2, k3, k4, k5, fan] => do
    let l : BankLimits :=
      { startLimit := tempOf s1 s0, release := tempOf r1 r0, dwell := natOf d1 d0, blind := natOf b1 b0,
        maxCycle := natOf m1 m0, overshoot := shoot.toNat, riseMin := rise.toNat, ceiling := tempOf c1 c0,
        causeLimit := #v[k0.toNat, k1.toNat, k2.toNat, k3.toNat, k4.toNat, k5.toNat], coolFan := fan.toNat }
    inRange (bankLimitsInRange l)
    return l
  | _ => none

/-- R175: every field of a LIMITS record in its range. -/
def limitsInRange (l : Limits) : Bool :=
  decide (l.budget ≤ 400) && decide (10 ≤ l.window ∧ l.window ≤ 120) && decide (100 ≤ l.hold ∧ l.hold ≤ 10000) &&
  decide (10 ≤ l.reply ∧ l.reply ≤ 200) && decide (250 ≤ l.silence ∧ l.silence ≤ 60000) &&
  decide (250 ≤ l.poll ∧ l.poll ≤ 5000) && decide (2 ≤ l.stale ∧ l.stale ≤ 30) && decide (100 ≤ l.dip ∧ l.dip ≤ 250) &&
  decide (400 ≤ l.duct ∧ l.duct ≤ 1100) && decide (200 ≤ l.light ∧ l.light ≤ 800) && decide (80 ≤ l.bay ∧ l.bay ≤ 200) &&
  decide (l.tacho.low ≤ 9000) && decide (l.tacho.mid ≤ 9000) && decide (l.tacho.high ≤ 9000) &&
  decide (1 ≤ l.engageLeave ∧ l.engageLeave ≤ 10) && decide (2 ≤ l.engageFinish ∧ l.engageFinish ≤ 30) &&
  decide (1 ≤ l.releaseLeave ∧ l.releaseLeave ≤ 10) && decide (2 ≤ l.releaseFinish ∧ l.releaseFinish ≤ 30) &&
  decide (1 ≤ l.timedTravel ∧ l.timedTravel ≤ 30) && decide (l.runOn ≤ 1800) &&
  decide (1 ≤ l.map.low ∧ l.map.low ≤ 100) && decide (1 ≤ l.map.mid ∧ l.map.mid ≤ 100) &&
  decide (1 ≤ l.map.high ∧ l.map.high ≤ 100) && decide (2 ≤ l.stallWindow ∧ l.stallWindow ≤ 60)

/-- A LIMITS record (R175, R188). -/
def limitsOf : List Byte → Option Limits
  | b1 :: b0 :: win :: h1 :: h0 :: reply :: s1 :: s0 :: p1 :: p0 :: stale :: dip :: d1 :: d0 :: l1 :: l0 :: y1 :: y0 :: tl1 :: tl0 ::
      tm1 :: tm0 :: th1 :: th0 :: mode0 :: mode1 :: eLeave :: eFinish :: rLeave :: rFinish :: travel :: o1 :: o0 :: mapLow :: mapMid :: mapHigh :: stall :: [] => do
    let mode0 ← confirmModeOf mode0
    let mode1 ← confirmModeOf mode1
    let l : Limits :=
      { budget := natOf b1 b0, window := win.toNat, hold := natOf h1 h0, reply := reply.toNat, silence := natOf s1 s0,
        poll := natOf p1 p0, stale := stale.toNat, dip := dip.toNat, duct := tempOf d1 d0, light := tempOf l1 l0,
        bay := tempOf y1 y0, tacho := { low := natOf tl1 tl0, mid := natOf tm1 tm0, high := natOf th1 th0 },
        mode := { zero := mode0, one := mode1 }, engageLeave := eLeave.toNat, engageFinish := eFinish.toNat,
        releaseLeave := rLeave.toNat, releaseFinish := rFinish.toNat, timedTravel := travel.toNat, runOn := natOf o1 o0,
        map := { low := mapLow.toNat, mid := mapMid.toNat, high := mapHigh.toNat }, stallWindow := stall.toNat }
    inRange (limitsInRange l)
    return l
  | _ => none

/-! ## Records as READ returns them (R188) -/

def loadEntryBytes (e : LoadEntry) : List Byte :=
  [e.node, loadClassCode e.cls, loadCavCode e.cavity, loadPosCode e.position, byteOf e.rated, byteOf e.minOff,
    levelKindCode e.kind]

def bindingBytes (b : Binding) : List Byte := [useCode b.use, b.node, byteOf b.channel, flagByte b.poll]

def admissionBytes (a : AdmissionRecord) : List Byte := [actionCode a.action, byteOf a.limit]

def dutyBandBytes (d : DutyBand) : List Byte := tempBytes d.threshold ++ [byteOf d.top, byteOf d.bottom, byteOf d.rear]

def segmentBytes (g : Segment) : List Byte :=
  [segKindCode g.kind] ++ intBytes g.target ++ [byteOf g.band] ++ natBytes g.duration ++ natBytes g.short ++
    [checkCondCode g.cond, g.next, g.alternate, byteOf g.marker, blowLevelCode g.blower, byteOf g.fan,
      convFieldCode g.converter]

def bankLimitsBytes (l : BankLimits) : List Byte :=
  intBytes l.startLimit ++ intBytes l.release ++ natBytes l.dwell ++ natBytes l.blind ++ natBytes l.maxCycle ++
    [byteOf l.overshoot, byteOf l.riseMin] ++ intBytes l.ceiling ++ l.causeLimit.toList.map byteOf ++ [byteOf l.coolFan]

def limitsBytes (l : Limits) : List Byte :=
  natBytes l.budget ++ [byteOf l.window] ++ natBytes l.hold ++ [byteOf l.reply] ++ natBytes l.silence ++ natBytes l.poll ++
    [byteOf l.stale, byteOf l.dip] ++ intBytes l.duct ++ intBytes l.light ++ intBytes l.bay ++ natBytes l.tacho.low ++
    natBytes l.tacho.mid ++ natBytes l.tacho.high ++
    [confirmModeCode l.mode.zero, confirmModeCode l.mode.one, byteOf l.engageLeave, byteOf l.engageFinish,
      byteOf l.releaseLeave, byteOf l.releaseFinish, byteOf l.timedTravel] ++
    natBytes l.runOn ++ [byteOf l.map.low, byteOf l.map.mid, byteOf l.map.high, byteOf l.stallWindow]

/-! ## Tables (R173, R188) -/

/-- R188: the size of a table's records. -/
def recordSize : TableId → Nat
  | .loads => 7
  | .channels => 4
  | .admission => 2
  | .limits => 37
  | .segments => 15
  | .causes => 1
  | .duty => 5
  | .bankLimits => 21

/-- R173: the number of a table's records. -/
def recordCount : TableId → Nat
  | .loads => 16
  | .channels => 8
  | .admission => 4
  | .limits => 1
  | .segments => 40
  | .causes => 6
  | .duty => 8
  | .bankLimits => 1

/-- R173: SEGMENTS, CAUSES, DUTY and BANKLIMITS belong to a bank; the others are part-wide. -/
def isBankTable : TableId → Bool
  | .loads => false
  | .channels => false
  | .admission => false
  | .limits => false
  | .segments => true
  | .causes => true
  | .duty => true
  | .bankLimits => true

/-- `n` records of `size` bytes each, in order. -/
def chunks (size : Nat) : Nat → List Byte → List (List Byte)
  | 0, _ => []
  | n + 1, bs => bs.take size :: chunks size n (bs.drop size)

/-! ## Readings (R67, R187) -/

/-- R67: the value of a GOOD reading by its use, where it lies in the accepted range. -/
def goodValue (u : Use) (hi lo : Byte) : Option ChanValue :=
  match u with
  | .unused => none
  | .probe _ | .bay | .duct =>
    if -100 ≤ tempOf hi lo ∧ tempOf hi lo ≤ 1400 then some (.num (tempOf hi lo)) else none
  | .mains => if natOf hi lo ≤ 300 then some (.num (natOf hi lo)) else none
  | .tacho => if natOf hi lo ≤ 9000 then some (.num (natOf hi lo)) else none
  | .door _ => do
    let d ← doorOf hi
    let l ← latchOf lo
    return .door d l

/-- R67, R187: a reading's quality after its value has been read, and the value of one that is GOOD. -/
def readValue (u : Use) (q hi lo : Byte) : Quality × Option ChanValue :=
  match qualityOf q with
  | some .good =>
    match goodValue u hi lo with
    | some v => (.good, some v)
    | none => (.outOfRange, none)
  | some q => (q, none)
  | none => (.outOfRange, none)

/-- R186, R188: a channel's value in a report; an absent temperature is 0x8000, an absent door and latch position 0xFF each
(log 33), any other absent value 0. -/
def chanValueBytes (u : Use) : Option ChanValue → List Byte
  | some (.num v) => intBytes v
  | some (.door d l) => [doorCode d, latchCode l]
  | none =>
    match u with
    | .probe _ | .bay | .duct => [0x80, 0x00]
    | .door _ => [0xFF, 0xFF]
    | .unused | .mains | .tacho => [0, 0]

/-! ## STATE (R186, R187) -/

/-- R187: the level and condition a STATE carries for a load; `none` where the level is above 100 (above 2 for a LOCK load)
or the condition is no code. -/
def stateOf (cls : LoadClass) (level cond : Byte) : Option (Nat × NodeCond) := do
  let c ← nodeCondOf cond
  inRange (decide (level.toNat ≤ if cls = .lock then 2 else 100))
  return (level.toNat, c)

end Sys2Proof.Machine
end

