-- ==== Sys2Proof/Machine/Channels.lean ====
section
/-! DEFINITION. The Channel Unit (chapter 4): channel records and states, confirmation, watches, door reports and the poller. -/

namespace Sys2Proof.Machine

/-! ## Channels by use (R63, R70) -/

/-- The binding that names a use, if any. -/
def State.bindingOfUse (s : State) (u : Use) : Option (Fin 8) :=
  if u = .unused then none else (indexes 8).find? (fun n => (s.binding n).use = u)

/-- The record of a use; that of an unbound use is UNBOUND. -/
def State.channel (s : State) (u : Use) : ChanRecord :=
  match s.bindingOfUse u with
  | some n => s.chanRecord n
  | none => ChanRecord.unbound

/-- A use is LIVE. -/
def State.isLive (s : State) (u : Use) : Bool := (s.channel u).state == .live

/-- The number a value holds; a door value holds none. -/
def numOf : Option ChanValue → Option Int
  | some (.num v) => some v
  | some (.door _ _) => none
  | none => none

/-- The latest value of PROBEc, or absent. -/
def State.probeTemp (s : State) (c : Cav) : Option Int := numOf (s.channel (.probe c)).latest

/-- R70: a number lies on the side of a level. -/
def onSide (side : Side) (level v : Int) : Bool :=
  match side with
  | .above => level < v
  | .atOrAbove => level ≤ v
  | .below => v < level
  | .atOrBelow => v ≤ level

/-- R70: a value meets a condition on a number. -/
def valueMeets (side : Side) (level : Int) (v : Option ChanValue) : Bool :=
  match numOf v with
  | some x => onSide side level x
  | none => false

/-- R70: a condition is confirmed on a record. -/
def confirmedOn (r : ChanRecord) (side : Side) (level : Int) : Bool :=
  r.state == .live && r.goodRun == 2 && valueMeets side level r.latest && valueMeets side level r.previous

/-- R77: the door position that the latest two GOOD readings both carry, with good run 2. -/
def doorPair (r : ChanRecord) : Option Door :=
  match r.latest, r.previous with
  | some (.door d _), some (.door d' _) => if r.goodRun = 2 ∧ d = d' then some d else none
  | _, _ => none

/-- R77: the latch position that the latest two GOOD readings both carry, with good run 2. -/
def latchPair (r : ChanRecord) : Option Latch :=
  match r.latest, r.previous with
  | some (.door _ l), some (.door _ l') => if r.goodRun = 2 ∧ l = l' then some l else none
  | _, _ => none

/-- R70, R100: the door is confirmed CLOSED on DOORc. -/
def State.doorConfirmedClosed (s : State) (c : Cav) : Bool :=
  s.isLive (.door c) && doorPair (s.channel (.door c)) == some .closed

/-! ## Watches (R72 to R76) -/

/-- The use a watch stands on. -/
def watchUse : WatchId → Use
  | .ceiling c => .probe c
  | .goal c => .probe c
  | .rise c => .probe c
  | .release c => .probe c
  | .dip => .mains
  | .ductHot => .duct
  | .light => .duct
  | .bayHot => .bay
  | .bayCool => .bay
  | .speed => .tacho

/-- The watches on a use, in the order of the tables of R74 to R76. -/
def watchesOn : Use → List WatchId
  | .probe c => [.ceiling c, .goal c, .rise c, .release c]
  | .mains => [.dip]
  | .duct => [.ductHot, .light]
  | .bay => [.bayHot, .bayCool]
  | .tacho => [.speed]
  | .door _ => []
  | .unused => []

def Watches.get (w : Watches) : WatchId → Watch
  | .ceiling c => (w.cav.get c).ceiling
  | .goal c => (w.cav.get c).goal
  | .rise c => (w.cav.get c).rise
  | .release c => (w.cav.get c).release
  | .dip => w.dip
  | .ductHot => w.ductHot
  | .light => w.light
  | .bayHot => w.bayHot
  | .bayCool => w.bayCool
  | .speed => w.speed

def Watches.put (w : Watches) (i : WatchId) (x : Watch) : Watches :=
  match i with
  | .ceiling c => { w with cav := w.cav.set c { w.cav.get c with ceiling := x } }
  | .goal c => { w with cav := w.cav.set c { w.cav.get c with goal := x } }
  | .rise c => { w with cav := w.cav.set c { w.cav.get c with rise := x } }
  | .release c => { w with cav := w.cav.set c { w.cav.get c with release := x } }
  | .dip => { w with dip := x }
  | .ductHot => { w with ductHot := x }
  | .light => { w with light := x }
  | .bayHot => { w with bayHot := x }
  | .bayCool => { w with bayCool := x }
  | .speed => { w with speed := x }

def State.watch (s : State) (i : WatchId) : Watch := s.watches.get i

def State.putWatch (s : State) (i : WatchId) (x : Watch) : State := { s with watches := s.watches.put i x }

/-- A watch is MET. -/
def State.isMet (s : State) (i : WatchId) : Bool := (s.watch i).state == .met

/-- R72: the state of a watch set now on a record. -/
def freshWatchState (r : ChanRecord) (side : Side) (level : Int) : WatchState :=
  if confirmedOn r side level then .met else .notMet

/-- A report of this watch. -/
def isWatchEvent (i : WatchId) : Event → Bool
  | .watch j _ => i == j
  | _ => false

/-- R72: setting a watch evaluates it at once, and delivers an event only when its state changes, a CLEARED watch counting as
NOT-MET. Its events not yet acted on stand, and are acted on in the order they were delivered (R106). -/
def State.setWatch (s : State) (i : WatchId) (side : Side) (level : Int) : State :=
  let was := (s.watch i).state
  let becomes := freshWatchState (s.channel (watchUse i)) side level
  let s1 := s.putWatch i { side := side, level := level, state := becomes }
  (s1.emitIf (becomes == .met && was != .met) (.watch i true)).emitIf (becomes == .notMet && was == .met) (.watch i false)

/-- R72: clearing a watch delivers nothing; its events not yet acted on concern a cleared watch (R109, R141). -/
def State.clearWatch (s : State) (i : WatchId) : State := (s.putWatch i Watch.clear).purge (isWatchEvent i)

/-- R72: the state of a watch after a tapped reading has updated its record. -/
def nextWatchState (r : ChanRecord) (w : Watch) : WatchState :=
  match w.state with
  | .cleared => .cleared
  | .notMet => if confirmedOn r w.side w.level then .met else .notMet
  | .met => if r.quality == some .good && !valueMeets w.side w.level r.latest then .notMet else .met

/-- R72: evaluates one watch at a tapped reading and delivers MET or LAPSED where it changes. -/
def State.evalWatch (s : State) (i : WatchId) : State :=
  let w := s.watch i
  let becomes := nextWatchState (s.channel (watchUse i)) w
  if becomes = w.state then s
  else (s.putWatch i { w with state := becomes }).emit (.watch i (becomes == .met))

/-- R72: evaluates every watch on a use, in table order. -/
def State.evalWatches (s : State) (u : Use) : State := (watchesOn u).foldl State.evalWatch s

/-- R73: a MET watch of a channel that leaves LIVE becomes NOT-MET with no LAPSED. -/
def State.loseWatch (s : State) (i : WatchId) : State :=
  if (s.watch i).state = .met then s.putWatch i { s.watch i with state := .notMet } else s

/-- R71, R73, R64: a state or binding report of a use; a use that leaves LIVE loses its MET watches. -/
def State.announce (s : State) (u : Use) (left entered : ChanState) : State :=
  (if left = .live then (watchesOn u).foldl State.loseWatch s else s).emit (.chanState u left entered)

/-- R71: a change of a use's state is reported. -/
def State.reportChange (s : State) (u : Use) (left entered : ChanState) : State :=
  if left = entered then s else s.announce u left entered

/-! ## Readings (R67 to R69, R77, R78) -/

/-- R68, R69: a record after a GOOD reading. -/
def goodReading (now length : Time) (r : ChanRecord) (v : ChanValue) : ChanRecord :=
  let run := min 2 (r.goodRun + 1)
  let entered : ChanState :=
    match r.state with
    | .unbound => .unbound
    | .unknown => .live
    | .live => .live
    | .stale => .live
    | .failed => if run = 2 then .live else .failed
  { state := entered, latest := some v, previous := r.latest, quality := some .good, goodRun := run, badRun := 0,
    lastGood := some now, stale := if entered = .live then some (now + length) else r.stale }

/-- R68, R69: a record after a reading that is not GOOD. -/
def badReading (r : ChanRecord) (q : Quality) : ChanRecord :=
  let run := min 2 (r.badRun + 1)
  let entered : ChanState := if r.state = .unbound then .unbound else if run = 2 then .failed else r.state
  { r with state := entered, quality := some q, goodRun := 0, badRun := run,
           stale := if entered = .failed then none else r.stale }

/-- R68: a record after a reading of any quality. -/
def readInto (now length : Time) (r : ChanRecord) (reading : Quality × Option ChanValue) : ChanRecord :=
  match reading with
  | (.good, some v) => goodReading now length r v
  | (q, _) => badReading r q

/-- R77: the door report of a GOOD door reading, and the note of a GOOD probe reading to its context. -/
def State.reportReading (s : State) (u : Use) (r : ChanRecord) : State :=
  match u, r.latest with
  | .door c, some (.door d l) => s.emit (.doorReport c d l (doorPair r) (latchPair r))
  | .probe c, some (.num _) => s.emit (.probeReading c)
  | _, _ => s

/-- R78: one reading of a binding, start to finish. -/
def State.takeReading (s : State) (n : Fin 8) (q hi lo : Byte) : State :=
  let u := (s.binding n).use
  let left := (s.chanRecord n).state
  let r := readInto s.now (seconds s.limits.stale) (s.chanRecord n) (readValue u q hi lo)
  let s1 := ((s.modChan n (fun _ => r)).reportChange u left r.state).evalWatches u
  if r.quality = some .good then s1.reportReading u r else s1

/-- R38: the binding whose node and node channel a READING names. -/
def State.bindingFor (s : State) (node channel : Byte) : Option (Fin 8) :=
  (indexes 8).find? (fun n =>
    (s.binding n).use != .unused && (s.binding n).node == node && (s.binding n).channel == channel.toNat)

/-- R38, R78: taps an accepted READING. -/
def State.tapReading (s : State) (f : Frame) : State :=
  match f.payload with
  | [channel, q, hi, lo] =>
    match s.bindingFor f.src channel with
    | some n => s.takeReading n q hi lo
    | none => s
  | _ => s

/-- R69: the stale timer of a binding expires. -/
def State.goStale (s : State) (n : Fin 8) : State :=
  (s.modChan n (fun r => { r with state := .stale, goodRun := 0, stale := none })).reportChange (s.binding n).use
    (s.chanRecord n).state .stale

/-! ## The poller (R65) -/

/-- R35, R65: one binding's turn in a poller run. -/
def State.pollBinding (s : State) (n : Fin 8) : State :=
  if (s.binding n).use != .unused && (s.binding n).poll && !s.normal.contains (.ask n) then
    { s with normal := s.normal ++ [.ask n] }
  else s

/-- R65: a poller run, and the time of the next. -/
def State.runPoller (s : State) : State :=
  let s1 := (indexes 8).foldl State.pollBinding s
  { s1 with pollDue := s1.now + millis s1.limits.poll }

end Sys2Proof.Machine
end

