-- ==== Sys2Proof/Machine/Loads.lean ====
section
/-! DEFINITION. The Load Unit (chapter 3) with the parts of the Relay Table and the bus queues it acts on: closing a relay entry
(R19, R26), the merge of engine DRIVEs (R34), engine requests (R48, R49), judgment (R50, R51), the Grant Queue (R53 to R56),
tapping of a STATE (R46, R47) and release of a grant (R57). -/

namespace Sys2Proof.Machine

/-! ## Relay entries (R19, R26) -/

/-- R187: the codes of the RELAY-FAIL reasons. -/
def failBusy : Byte := 1
def failTagOpen : Byte := 2
def failWithheld : Byte := 3
def failSuperseded : Byte := 4
def failExpired : Byte := 5
def failNoReply : Byte := 6

/-- R187: the KIND of a DRIVE. -/
def kindDrive : Byte := 0x10
/-- R187: the KIND of a STATE. -/
def kindState : Byte := 0x11
/-- R187: the KIND of an ASK. -/
def kindAsk : Byte := 0x12
/-- R187: the KIND of a READING. -/
def kindReading : Byte := 0x13

/-- The open entry that holds a TAG. -/
def State.relayEntry (s : State) (tag : Byte) : Option RelayEntry := s.relay.find? (fun e => e.frame.tag == tag)

def State.modRelay (s : State) (tag : Byte) (f : RelayEntry → RelayEntry) : State :=
  { s with relay := s.relay.map (fun e => if e.frame.tag = tag then f e else e) }

/-- R19: an entry leaves the table. -/
def State.dropRelay (s : State) (tag : Byte) : State := { s with relay := s.relay.filter (fun e => e.frame.tag != tag) }

/-- R15, R19: a closing frame is placed and the entry closes. -/
def State.closeRelay (s : State) (tag : Byte) (f : Frame) : State :=
  match s.relayEntry tag with
  | some _ => (s.dropRelay tag).place f
  | none => s

/-- R26: an entry closes with a RELAY-FAIL. -/
def State.closeFail (s : State) (tag reason : Byte) : State :=
  match s.relayEntry tag with
  | some e => s.closeRelay tag (relayFail tag e.frame.dest reason)
  | none => s

/-- The level of a DRIVE frame. -/
def driveLevel (f : Frame) : Option Nat :=
  if f.kind = kindDrive then
    match f.payload with
    | [l] => some l.toNat
    | _ => none
  else none

/-- A DRIVE frame with a level above 0. -/
def isDriveOn (f : Frame) : Bool :=
  match driveLevel f with
  | some l => decide (0 < l)
  | none => false

/-- An entry that waits or is queued, and so has not been sent (R29). -/
def RelayEntry.unsent (e : RelayEntry) : Bool :=
  match e.stage with
  | .grantWait => true
  | .queued => true
  | .inFlight => false

/-! ## Loads (R42) -/

/-- Class other than NONE. -/
def LoadEntry.used (e : LoadEntry) : Bool := e.cls != .unused

/-- R42: HEATER, FAN, LAMP and CONVERTER are budgeted. -/
def budgeted : LoadClass → Bool
  | .heater => true
  | .fan => true
  | .lamp => true
  | .converter => true
  | .unused => false
  | .lock => false
  | .blower => false

/-- The first entry with a property, in Load Table order. -/
def State.findLoad (s : State) (p : LoadEntry → Bool) : Option (Fin 16) := (indexes 16).find? (fun i => p (s.entry i))

/-- R37: the used entry that names a node. -/
def State.loadAt (s : State) (node : Byte) : Option (Fin 16) := s.findLoad (fun e => e.used && e.node == node)

/-- R93: the cavity's HEATER of a position. -/
def State.heater (s : State) (c : Cav) (p : HeatPos) : Option (Fin 16) :=
  s.findLoad (fun e => e.cls == .heater && e.cavity == .of c && e.position == .at p)

/-- R93: the cavity's load of a class. -/
def State.cavLoad (s : State) (c : Cav) (k : LoadClass) : Option (Fin 16) :=
  s.findLoad (fun e => e.cls == k && e.cavity == .of c)

/-- The SHARED load of a class. -/
def State.sharedLoad (s : State) (k : LoadClass) : Option (Fin 16) := s.findLoad (fun e => e.cls == k)

/-- The HEATER, FAN and LAMP loads of a cavity, in Load Table entry order (R97, R102). -/
def State.cavityLoads (s : State) (c : Cav) : List (Fin 16) :=
  (indexes 16).filter (fun i =>
    ((s.entry i).cls == .heater || (s.entry i).cls == .fan || (s.entry i).cls == .lamp) && (s.entry i).cavity == .of c)

/-- Does `f` on the load found, if any. -/
def State.onLoad (s : State) (i : Option (Fin 16)) (f : State → Fin 16 → State) : State :=
  match i with
  | some i => f s i
  | none => s

/-- R48: any level above 0 of a SWITCHED load is 100; a LOCK load's level kind is not used (section 3.1). -/
def kindLevel (e : LoadEntry) (level : Nat) : Nat :=
  if e.kind = .switched ∧ e.cls ≠ .lock ∧ 0 < level then 100 else level

/-- R48: a HEATER may be driven above 0 by the engine only while its cavity is in RUN and its lock LOCKED. -/
def State.heaterCheck (s : State) (i : Fin 16) : Bool :=
  match (s.entry i).cls, (s.entry i).cavity with
  | .heater, .of c => (s.cav c).state == .run && (s.lock c).state == .locked
  | .heater, .shared => false
  | _, _ => true

/-! ## Engine DRIVEs in the bus queues (R30, R34, R45) -/

/-- An engine DRIVE for load `i`. -/
def isDriveFor (i : Fin 16) : QItem → Bool
  | .drive j _ _ => i == j
  | .ask _ => false
  | .relayed _ => false

/-- R30: the engine DRIVEs that join the urgent queue. -/
def urgentDrive (k : LoadClass) (level : Nat) : Bool := level == 0 || k == .lock || k == .blower

/-- R34: one queue with a new DRIVE for a load in the place of the one it holds, or at its tail. -/
def mergeInto (q : List QItem) (i : Fin 16) (item : QItem) : List QItem :=
  if q.any (isDriveFor i) then q.map (fun x => if isDriveFor i x then item else x) else q ++ [item]

/-- R34: one queue without the DRIVE for a load. -/
def withoutDrive (q : List QItem) (i : Fin 16) : List QItem := q.filter (fun x => !isDriveFor i x)

/-- R34: a newly queued engine DRIVE is merged by load. -/
def State.mergeDrive (s : State) (i : Fin 16) (level : Nat) : State :=
  if urgentDrive (s.entry i).cls level then
    { s with urgent := mergeInto s.urgent i (.drive i level false), normal := withoutDrive s.normal i }
  else
    { s with normal := mergeInto s.normal i (.drive i level false), urgent := withoutDrive s.urgent i }

/-- R45, R48, R49: the Load Unit queues an engine DRIVE; the attempt field is FIRST from then on. -/
def State.queueDrive (s : State) (i : Fin 16) (level : Nat) : State :=
  (s.modRecord i (fun r => { r with commanded := some level, owner := .engine, attempt := .first })).mergeDrive i level

/-- R34, R50: a failed DRIVE is placed once more at the head of its queue, unless a newer one is queued. -/
def State.repeatDrive (s : State) (i : Fin 16) (level : Nat) (urgent : Bool) : State :=
  if s.urgent.any (isDriveFor i) || s.normal.any (isDriveFor i) then
    s.modRecord i (fun r => { r with attempt := .first })
  else
    let s1 := s.modRecord i (fun r => { r with attempt := .again })
    if urgent then { s1 with urgent := .drive i level true :: s1.urgent }
    else { s1 with normal := .drive i level true :: s1.normal }

/-! ## The budget and the Grant Queue (R52 to R56) -/

/-- R52: the rated current a load adds to the held sum. -/
def State.heldCurrent (s : State) (i : Fin 16) : Nat := if (s.record i).grant = .held then (s.entry i).rated else 0

/-- R52: the total of the rated currents of the loads whose grant is HELD. -/
def State.heldSum (s : State) : Nat := ((indexes 16).map s.heldCurrent).sum

/-- R53: the held sum plus the load's rated current is at most the budget limit. -/
def State.fits (s : State) (i : Fin 16) : Bool := decide (s.heldSum + (s.entry i).rated ≤ s.limits.budget)

/-- R53: the minimum off time has passed since off-since. -/
def State.offTimePassed (s : State) (i : Fin 16) : Bool :=
  match (s.record i).offSince with
  | some t => decide (t + seconds (s.entry i).minOff ≤ s.now)
  | none => false

/-- R53: the off condition of a grant. -/
def State.offCondition (s : State) (i : Fin 16) : Bool :=
  match (s.record i).confirmed with
  | some 0 => s.offTimePassed i
  | some (_ + 1) => false
  | none => (s.record i).offSince.isNone

def State.setGrant (s : State) (i : Fin 16) (g : Grant) : State := s.modRecord i (fun r => { r with grant := g })

/-- R54: rank 0 is an engine request. -/
def Requester.isEngine : Requester → Bool
  | .engine => true
  | .relay _ => false

/-- R24, R45: a relayed DRIVE for a load has entered the normal queue. -/
def State.commandByController (s : State) (i : Fin 16) (level : Nat) : State :=
  s.modRecord i (fun r => { r with commanded := some level, owner := .controller })

/-- R22, R55: the relay entry of a granted request sets carries grant YES, moves to QUEUED and joins the normal queue. -/
def State.promoteRelay (s : State) (i : Fin 16) (tag : Byte) (level : Nat) : State :=
  let s1 := s.modRelay tag (fun e =>
    { e with stage := .queued, stageSince := s.now, hold := s.timer (millis s.limits.hold), carriesGrant := true })
  ({ s1 with normal := s1.normal ++ [QItem.relayed tag] }).commandByController i level

/-- R45: an engine request that R48 answers with nothing queued makes the owner ENGINE. -/
def State.ownByEngine (s : State) (i : Fin 16) : State := s.modRecord i (fun r => { r with owner := .engine })

/-- R55: a request is granted. Where the heater check of R48 finds otherwise the grant is not made: nothing is queued, and the
owner becomes ENGINE (R45). -/
def State.grantTo (s : State) (i : Fin 16) (who : Requester) (level : Nat) : State :=
  match who with
  | .engine => if s.heaterCheck i then (s.setGrant i .held).queueDrive i level else (s.setGrant i .noGrant).ownByEngine i
  | .relay tag => (s.setGrant i .held).promoteRelay i tag level

/-- R167: a posted converter demand that asks for the converter. -/
def ConvField.wants : ConvField → Bool
  | .off => false
  | .on => true
  | .onNeedsLit => true

/-- R51, R168: the report of a load's fault, or of its refused engine request; a converter fault is for the contexts that demand
the converter at this moment. -/
def State.faultReport (s : State) (i : Fin 16) : Event :=
  if (s.entry i).cls = .converter then .converterFault (s.air.convCav.get .zero).wants (s.air.convCav.get .one).wants
  else .loadFault i

/-- R55: a head whose load is faulted is refused; the owner stays (the model's choice, log 46). -/
def State.refuseRequest (s : State) (i : Fin 16) (who : Requester) : State :=
  match who with
  | .engine => (s.setGrant i .noGrant).emit (s.faultReport i)
  | .relay tag => (s.setGrant i .noGrant).closeFail tag failWithheld

/-- R56: the minimum off timer of a head that waits. -/
def State.minOffOf (s : State) (i : Fin 16) : Timer :=
  match (s.record i).confirmed, (s.record i).offSince with
  | some 0, some t => if s.now < t + seconds (s.entry i).minOff then some (t + seconds (s.entry i).minOff) else none
  | _, _ => none

/-- R54, R55: considers the head, and after a refusal or a grant the new head, for at most `n` requests. -/
def considerUpTo : Nat → State → State
  | 0, s => { s with minOff := none }
  | n + 1, s =>
    match s.grantQueue with
    | [] => { s with minOff := none }
    | h :: rest =>
      if (s.record h.load).fault ≠ .noFault then
        considerUpTo n (({ s with grantQueue := rest }).refuseRequest h.load h.requester)
      else if s.fits h.load && s.offCondition h.load then
        considerUpTo n (({ s with grantQueue := rest }).grantTo h.load h.requester h.level)
      else { s with minOff := s.minOffOf h.load }

/-- R54: the Grant Queue considers its head. -/
def State.considerHead (s : State) : State := considerUpTo s.grantQueue.length s

/-- The load's request is at the head of the Grant Queue. -/
def State.isHead (s : State) (i : Fin 16) : Bool :=
  match s.grantQueue with
  | [] => false
  | h :: _ => h.load == i

/-- The load's waiting request. -/
def State.requestOf (s : State) (i : Fin 16) : Option GrantRequest := s.grantQueue.find? (fun r => r.load == i)

/-- A request leaves the queue and its load's grant becomes NONE; the head is not considered yet. -/
def State.dropRequest (s : State) (i : Fin 16) : State :=
  ({ s with grantQueue := s.grantQueue.filter (fun r => r.load != i) }).setGrant i .noGrant

/-- R54: considers the head where the request that left was at the head. -/
def State.considerIf (s : State) (wasHead : Bool) : State := if wasHead then s.considerHead else s

/-- R48, R49: a waiting request is withdrawn; a rank 1 request's relay entry closes with RELAY-FAIL WITHHELD. -/
def State.withdrawRequest (s : State) (i : Fin 16) : State :=
  match s.requestOf i with
  | none => s
  | some r =>
    let s1 := s.dropRequest i
    let s2 :=
      match r.requester with
      | .engine => s1
      | .relay tag => s1.closeFail tag failWithheld
    s2.considerIf (s.isHead i)

/-- R54: a new request joins after every entry of its own rank. -/
def joinQueue (q : List GrantRequest) (r : GrantRequest) : List GrantRequest :=
  if r.requester.isEngine then
    q.takeWhile (fun x => x.requester.isEngine) ++ [r] ++ q.dropWhile (fun x => x.requester.isEngine)
  else q ++ [r]

/-- R53, R54: a request that is not granted at once joins the Grant Queue; a new head is considered. -/
def State.joinRequest (s : State) (i : Fin 16) (who : Requester) (level : Nat) : State :=
  let s1 := ({ s with
    grantQueue := joinQueue s.grantQueue { load := i, requester := who, level := level, joined := s.now } }).setGrant i .waiting
  s1.considerIf (s1.isHead i)

/-- R53: a grant request of a load whose fault field is NONE: granted at once, or it joins. -/
def State.requestGrant (s : State) (i : Fin 16) (who : Requester) (level : Nat) : State :=
  if s.grantQueue.isEmpty && s.fits i && s.offCondition i then s.grantTo i who level else s.joinRequest i who level

/-- R53: an engine request, refused with a load fault where the load is faulted, which leaves the owner as it was (the model's
choice, log 46). -/
def State.engineGrant (s : State) (i : Fin 16) (level : Nat) : State :=
  if (s.record i).fault ≠ .noFault then s.emit (s.faultReport i) else s.requestGrant i .engine level

/-! ## Engine requests (R48, R49) -/

/-- R48: the load is already at the level, confirmed and without fault. -/
def LoadRecord.standsAt (r : LoadRecord) (level : Nat) : Bool :=
  r.commanded == some level && r.confirmed == some level && r.fault == .noFault

/-- R48: an engine request on a budgeted load that is HELD. Where the load stands at the level already, or the heater check fails,
nothing is queued and the owner becomes ENGINE (R45). -/
def State.driveHeld (s : State) (i : Fin 16) (level : Nat) : State :=
  if !(s.record i).standsAt level && s.heaterCheck i then s.queueDrive i level else s.ownByEngine i

/-- R48: a request still waiting takes a new pending level. -/
def State.setPendingLevel (s : State) (i : Fin 16) (level : Nat) : State :=
  { s with grantQueue := s.grantQueue.map (fun r => if r.load = i then { r with level := level } else r) }

/-- R48: a load's request is waiting with rank 0. -/
def State.engineWaits (s : State) (i : Fin 16) : Bool :=
  match s.requestOf i with
  | some r => r.requester.isEngine
  | none => false

/-- R48: an engine request to drive a load at a level above 0. -/
def State.engineOn (s : State) (i : Fin 16) (level : Nat) : State :=
  let l := kindLevel (s.entry i) level
  if budgeted (s.entry i).cls then
    match (s.record i).grant with
    | .held => s.driveHeld i l
    | .waiting => if s.engineWaits i then s.setPendingLevel i l else (s.withdrawRequest i).engineGrant i l
    | .noGrant => s.engineGrant i l
  else s.queueDrive i l

/-- R49: commanded and confirmed 0. -/
def LoadRecord.alreadyOff (r : LoadRecord) : Bool := r.commanded == some 0 && r.confirmed == some 0

/-- R49: an engine request to drive a load off. -/
def State.engineOff (s : State) (i : Fin 16) : State :=
  let s1 := s.withdrawRequest i
  if (s1.record i).alreadyOff then s1 else s1.queueDrive i 0

/-- An engine request at a level that may be 0 (R93, R107, R163). -/
def State.engineDrive (s : State) (i : Fin 16) (level : Nat) : State :=
  if level = 0 then s.engineOff i else s.engineOn i level

/-- Engine offs for several loads, in order. -/
def State.engineOffs (s : State) (is : List (Fin 16)) : State := is.foldl State.engineOff s

/-! ## Release of a grant (R57) and tapping of a STATE (R46, R47) -/

/-- R57: a frame in the normal queue that is a DRIVE above 0 for a load. -/
def State.isOnFor (s : State) (i : Fin 16) : QItem → Bool
  | .drive j level _ => i == j && decide (0 < level)
  | .ask _ => false
  | .relayed tag =>
    match s.relayEntry tag with
    | some e => e.frame.dest == (s.entry i).node && isDriveOn e.frame
    | none => false

/-- R57: the load is HELD and confirmed 0. -/
def State.releaseGrant (s : State) (i : Fin 16) : State :=
  let s1 := s.modRecord i (fun r => { r with offSince := some s.now })
  match s.normal.find? (s.isOnFor i) with
  | none => (s1.setGrant i .noGrant).considerHead
  | some (.relayed tag) => s1.modRelay tag (fun e => { e with carriesGrant := true })
  | some _ => s1

/-- R46 steps 1 and 2: a record takes a STATE; `none` is a malformed one (R187). -/
def LoadRecord.tapped (now : Time) (r : LoadRecord) (reply : Option (Nat × NodeCond)) : LoadRecord :=
  match reply with
  | none => { r with confirmed := none, condition := .fault }
  | some (l, c) =>
    { r with confirmed := some l, condition := c,
             offSince := if l = 0 ∧ r.confirmed ≠ some 0 then some now else r.offSince }

/-- R46 step 4: a STATE at the commanded level in good condition clears the fault. -/
def LoadRecord.cleared (r : LoadRecord) (reply : Option (Nat × NodeCond)) : LoadRecord :=
  match reply with
  | none => r
  | some (l, c) => if r.commanded = some l ∧ c ≠ .fault then { r with fault := .noFault } else r

/-- R47: a budgeted load confirmed above 0 while its grant is NONE. -/
def State.isStray (s : State) (i : Fin 16) : Bool :=
  budgeted (s.entry i).cls && (s.record i).grant == .noGrant &&
    match (s.record i).confirmed with
    | some (_ + 1) => true
    | some 0 => false
    | none => false

/-- R46: a STATE is tapped for load `i`. -/
def State.tapLoad (s : State) (i : Fin 16) (reply : Option (Nat × NodeCond)) : State :=
  let s1 := s.modRecord i (fun r => r.tapped s.now reply)
  let s2 := if (s1.record i).grant = .held ∧ (s1.record i).confirmed = some 0 then s1.releaseGrant i else s1
  let s3 := s2.modRecord i (fun r => r.cleared reply)
  let s4 := if s3.isStray i then s3.engineOff i else s3
  (s4.considerIf (s4.isHead i)).emit (.stateTapped i)

/-- R37: taps an accepted STATE. -/
def State.tapState (s : State) (f : Frame) : State :=
  match f.payload with
  | [level, cond] =>
    match s.loadAt f.src with
    | some i => s.tapLoad i (stateOf (s.entry i).cls level cond)
    | none => s
  | _ => s

/-! ## Judgment of an engine DRIVE (R50, R51) -/

/-- R50: what an engine DRIVE ended with: no STATE, a malformed STATE, or a STATE's level and condition. -/
inductive DriveEnd where
  | noReply
  | malformed
  | state (level : Nat) (cond : NodeCond)
  deriving DecidableEq, Repr

/-- R50: the fault an outcome leads to on the second failure; `none` is success. -/
def driveFailure (sent : Nat) : DriveEnd → Option LoadFault
  | .noReply => some .unresponsive
  | .malformed => some .nodeFault
  | .state level cond => if cond = .fault then some .nodeFault else if level = sent then none else some .mismatch

/-- R51: the second failure of an engine DRIVE. -/
def State.secondFailure (s : State) (i : Fin 16) (sent : Nat) (f : LoadFault) : State :=
  let was := (s.record i).fault
  let s1 := (s.modRecord i (fun r => { r with fault := f, attempt := .noAttempt })).emitIf (was == .noFault) (s.faultReport i)
  s1.emitIf (sent == 0 && (s.record i).confirmed != some 0) (.offFailed i)

/-- R50: judges an engine DRIVE when its exchange ends, after the STATE has been tapped. -/
def State.judgeDrive (s : State) (i : Fin 16) (sent : Nat) (urgent : Bool) (e : DriveEnd) : State :=
  match driveFailure sent e with
  | none => s.modRecord i (fun r => { r with attempt := .noAttempt })
  | some f => if (s.record i).attempt = .first then s.repeatDrive i sent urgent else s.secondFailure i sent f

end Sys2Proof.Machine
end

