-- ==== Sys2Proof/Machine/Lock.lean ====
section
/-! DEFINITION. The Lock Units (chapter 8): travels, engagement, release, HOLD, the latch watch and JAMMED. -/

namespace Sys2Proof.Machine

/-! ## Travels (R146, R147) -/

/-- R187: the motor codes. -/
def motorCode : Travel → Nat
  | .engage => 1
  | .release => 2

/-- The cavity's LOCK load. -/
def State.motor (s : State) (c : Cav) : Option (Fin 16) := s.cavLoad c .lock

/-- An engine off request for the motor (R49). -/
def State.motorOff (s : State) (c : Cav) : State := s.onLoad (s.motor c) State.engineOff

/-- An engine request for a travel's code (R48). -/
def State.motorRun (s : State) (c : Cav) (d : Travel) : State := s.onLoad (s.motor c) (fun s i => s.engineOn i (motorCode d))

/-- The motor's confirmed code, if known. -/
def State.motorConfirmed (s : State) (c : Cav) : Option Nat :=
  match s.motor c with
  | some i => (s.record i).confirmed
  | none => none

/-- Hands a report to the unit's context (R158). -/
def State.lockReport (s : State) (c : Cav) (r : LockReport) : State := s.emit (.lock c r)

/-- Every timer of the unit stops. -/
def LockUnit.stopTimers (k : LockUnit) : LockUnit := { k with leave := none, finish := none, travel := none }

/-- R146 step 3: the latch has left its starting position. -/
def hasLeft (d : Travel) : Option Latch → Bool
  | none => false
  | some l =>
    match d with
    | .engage => l != .retracted
    | .release => l != .extended

/-- R146 step 3, R145: the leave and finish times of a direction. -/
def Limits.leaveTime (l : Limits) : Travel → Nat
  | .engage => l.engageLeave
  | .release => l.releaseLeave

def Limits.finishTime (l : Limits) : Travel → Nat
  | .engage => l.engageFinish
  | .release => l.releaseFinish

/-- R146: the state of a travel. -/
def travelState : Travel → LockState
  | .engage => .engaging
  | .release => .disengaging

/-- R146 steps 3 and 4: the timers of a travel. -/
def State.travelTimers (s : State) (c : Cav) (d : Travel) : State :=
  match s.limits.mode.get c with
  | .position =>
    let left := hasLeft d (s.lock c).latch
    s.modLock c (fun k => { k with
      leaveMet := left, finish := s.timer (seconds (s.limits.finishTime d)),
      leave := if left then none else s.timer (seconds (s.limits.leaveTime d)) })
  | .timed => s.modLock c (fun k => { k with travel := s.timer (seconds s.limits.timedTravel) })

/-- R146: starts a travel. -/
def State.startTravel (s : State) (c : Cav) (d : Travel) : State :=
  ((((s.modLock c LockUnit.stopTimers).setLockState c (travelState d)).motorRun c d)).travelTimers c d

/-- R147: a travel ends in success. -/
def State.endTravel (s : State) (c : Cav) (st : LockState) : State :=
  ((s.modLock c (fun k => { k.stopTimers with leaveMet := false })).motorOff c).setLockState c st

def State.setPurpose (s : State) (c : Cav) (p : Purpose) : State := s.modLock c (fun k => { k with purpose := p })

def State.setAttempt (s : State) (c : Cav) (n : Nat) : State := s.modLock c (fun k => { k with attempt := n })

/-- A RELEASE travel with a back-off purpose. -/
def State.backOffLock (s : State) (c : Cav) (p : Purpose) : State := (s.setPurpose c p).startTravel c .release

/-! ## JAMMED (R157) -/

/-- R157: a lock that is not JAMMED enters JAMMED. -/
def State.jamLock (s : State) (c : Cav) (j : Jam) : State :=
  if (s.lock c).state = .jammed then s
  else
    let s1 := s.modLock c (fun k => { k.stopTimers with leaveMet := false, purpose := .noPurpose, attempt := 0 })
    ((((s1.motorOff c).modLock c (fun k => { k with jam := j })).setLockState c .jammed)).lockReport c (.jammed j)

/-! ## Engagement (R148 to R151) -/

/-- R148: an ENGAGE request. -/
def State.engageLock (s : State) (c : Cav) : State :=
  match (s.lock c).state with
  | .unknown | .unlocked =>
    if (s.motor c).isNone then (s.setLockState c .unlocked).lockReport c .engageFailed
    else (s.setAttempt c 1).startTravel c .engage
  | .engaging => s
  | .locked => s.lockReport c .locked
  | .disengaging => ((s.setAttempt c 1).setPurpose c .noPurpose).startTravel c .engage
  | .jammed => s.lockReport c (.jammed (s.lock c).jam)

/-- R148: an engagement succeeds. -/
def State.engaged (s : State) (c : Cav) : State := ((s.endTravel c .locked).setAttempt c 0).lockReport c .locked

/-- R150: an engagement fails. -/
def State.engageFails (s : State) (c : Cav) : State :=
  if (s.lock c).held then s.jamLock c .engageTimeout
  else if (s.lock c).attempt = 1 then s.backOffLock c .nextAttempt
  else s.backOffLock c .failed

/-- R151: the door opens in ENGAGING. -/
def State.abortEngage (s : State) (c : Cav) : State :=
  if (s.lock c).held then s.jamLock c .doorOpenHeld else (s.backOffLock c .plain).lockReport c .engageAborted

/-- R149, R153: a latch away from its starting position has left it. -/
def State.noteLeave (s : State) (c : Cav) (d : Travel) (latch : Latch) : State :=
  if hasLeft d (some latch) && !(s.lock c).leaveMet then s.modLock c (fun k => { k with leaveMet := true, leave := none })
  else s

/-! ## Release (R152, R153) -/

/-- R152: a release succeeds, and acts by its back-off purpose. -/
def State.released (s : State) (c : Cav) : State :=
  let s1 := (s.endTravel c .unlocked).setPurpose c .noPurpose
  match (s.lock c).purpose with
  | .nextAttempt => (s1.setAttempt c 2).startTravel c .engage
  | .failed => (s1.setAttempt c 0).lockReport c .engageFailed
  | .plain | .noPurpose => (s1.modLock c (fun k => { k with attempt := 0, jam := .noJam })).lockReport c .unlocked

/-- R152: a RELEASE request. A JAMMED lock becomes DISENGAGING by R146 and keeps its jam reason, by which FAULT stays asserted
until the release has succeeded (R156, R184; the model's choice, log 36). -/
def State.releaseLock (s : State) (c : Cav) : State :=
  let s1 := s.modLock c (fun k => { k with held := false })
  if (s1.motor c).isNone then
    ((s1.modLock c (fun k => { k.stopTimers with jam := .noJam, attempt := 0 })).setLockState c .unlocked).lockReport c .unlocked
  else
    match (s1.lock c).state with
    | .unknown | .engaging => (s1.setAttempt c 0).backOffLock c .plain
    | .unlocked => s1.lockReport c .unlocked
    | .locked | .jammed => s1.backOffLock c .plain
    | .disengaging => s1.setPurpose c .plain

/-- R153: a release fails. -/
def State.releaseFails (s : State) (c : Cav) : State := s.jamLock c .releaseTimeout

/-! ## HOLD (R154) and the survey's findings (R158) -/

/-- R154: HOLD. -/
def State.holdLock (s : State) (c : Cav) : State :=
  let s1 := s.modLock c (fun k => { k with held := true })
  match (s1.lock c).state with
  | .disengaging => (s1.setPurpose c .noPurpose).startTravel c .engage
  | .unknown | .unlocked | .engaging | .locked | .jammed => s1

/-! ## Door reports (R144, R149, R151, R153, R155) -/

/-- R149, R151: a door report in ENGAGING. -/
def State.reportEngaging (s : State) (c : Cav) (door : Door) (latch : Latch) (latchConfirmed : Option Latch) : State :=
  match door with
  | .opened => s.abortEngage c
  | .closed =>
    match s.limits.mode.get c with
    | .timed => s
    | .position =>
      let s1 := s.noteLeave c .engage latch
      if latchConfirmed = some .extended then s1.engaged c else s1

/-- R151: a door opening in a NEXT-ATTEMPT back-off. -/
def State.cancelAttempt (s : State) (c : Cav) (door : Door) : State :=
  if door = .opened ∧ (s.lock c).purpose = .nextAttempt then (s.setPurpose c .plain).lockReport c .engageAborted else s

/-- R151, R153: a door report in DISENGAGING. -/
def State.reportDisengaging (s : State) (c : Cav) (door : Door) (latch : Latch) (latchConfirmed : Option Latch) : State :=
  let s1 := s.cancelAttempt c door
  match s.limits.mode.get c with
  | .timed => s1
  | .position =>
    let s2 := s1.noteLeave c .release latch
    if latchConfirmed = some .retracted then s2.released c else s2

/-- R155: a report that shows a LOCKED latch lost. -/
def latchLost (mode : ConfirmMode) (door : Door) (latchConfirmed : Option Latch) : Bool :=
  match door with
  | .opened => true
  | .closed =>
    match mode with
    | .timed => false
    | .position => latchConfirmed.isSome && latchConfirmed != some .extended

/-- R155: a door report in LOCKED. -/
def State.reportLocked (s : State) (c : Cav) (door : Door) (latchConfirmed : Option Latch) : State :=
  if latchLost (s.limits.mode.get c) door latchConfirmed then s.jamLock c .latchLost else s

/-- R144: a door report for the unit's cavity. -/
def State.lockDoorReport (s : State) (c : Cav) (door : Door) (latch : Latch) (latchConfirmed : Option Latch) : State :=
  let s1 := s.modLock c (fun k => { k with latch := some latch })
  match (s1.lock c).state with
  | .engaging => s1.reportEngaging c door latch latchConfirmed
  | .disengaging => s1.reportDisengaging c door latch latchConfirmed
  | .locked => s1.reportLocked c door latchConfirmed
  | .unknown | .unlocked | .jammed => s1

/-! ## Expiries and the motor fault (R148 to R150, R153, R156) -/

/-- R149, R153: the leave or finish timer has expired. -/
def State.travelTimeout (s : State) (c : Cav) : State :=
  match (s.lock c).state with
  | .engaging => s.engageFails c
  | .disengaging => s.releaseFails c
  | .unknown | .unlocked | .locked | .jammed => s

/-- R148, R149, R152, R153: the travel timer of a TIMED travel has expired. -/
def State.travelTimed (s : State) (c : Cav) : State :=
  match (s.lock c).state with
  | .engaging => if s.motorConfirmed c = some (motorCode .engage) then s.engaged c else s.engageFails c
  | .disengaging => if s.motorConfirmed c = some (motorCode .release) then s.released c else s.releaseFails c
  | .unknown | .unlocked | .locked | .jammed => s

/-- R156: a load fault of the motor. -/
def State.motorFault (s : State) (c : Cav) : State := s.jamLock c .motorFault

end Sys2Proof.Machine
end

