-- ==== Sys2Proof/Machine/Air.lean ====
section
/-! DEFINITION. The Airflow Unit (chapter 9): blower demands, level and run-on, the stall check, and the converter. -/

namespace Sys2Proof.Machine

/-! ## The blower (R160, R162, R163) -/

/-- R159: the levels in order, OFF lowest. -/
def blowRank : BlowLevel → Nat
  | .off => 0
  | .low => 1
  | .mid => 2
  | .high => 3

/-- The higher of two levels. -/
def blowMax (a b : BlowLevel) : BlowLevel := if blowRank a < blowRank b then b else a

/-- R159: the highest of the four demands. -/
def Airflow.highest (a : Airflow) : BlowLevel :=
  blowMax (blowMax a.cavDemand.zero a.cavDemand.one) (blowMax a.controllerDemand a.bayDemand)

/-- A per-level item at LOW, MID or HIGH; 0 at OFF. -/
def PerLevel.at (p : PerLevel) : BlowLevel → Nat
  | .off => 0
  | .low => p.low
  | .mid => p.mid
  | .high => p.high

/-- R163: asks for a blower DRIVE at the present level. -/
def State.driveBlower (s : State) : State :=
  s.onLoad (s.sharedLoad .blower) (fun s i => s.engineDrive i (s.limits.map.at s.air.level))

/-- R76: SPEED stands at the minimum of the present level, and is cleared at OFF. -/
def State.aimSpeed (s : State) : State :=
  if s.air.level = .off then s.clearWatch .speed
  else s.setWatch .speed .atOrAbove (s.limits.tacho.at s.air.level)

/-- R164: the stall check is able to run. -/
def State.stallAble (s : State) : Bool :=
  s.air.level != .off && (s.bindingOfUse .tacho).isSome && (s.sharedLoad .blower).isSome

/-- The stall window as a timer started now (R164). -/
def State.stallWindow (s : State) : Timer := s.timer (seconds s.limits.stallWindow)

/-- R164: the check enters ARMING. -/
def State.armStall (s : State) : State := s.modAir (fun a => { a with stall := .arming, arming := s.stallWindow, stallTimer := none })

/-- R164: the check becomes IDLE. -/
def State.idleStall (s : State) : State := s.modAir (fun a => { a with stall := .idle, arming := none, stallTimer := none })

/-- R164, R166: the stall check at a change of the level. -/
def State.stallAtLevel (s : State) : State :=
  if s.air.level = .off then
    if s.air.stall = .stalled then s.idleStall.flagPart else s.idleStall
  else if s.stallAble && s.air.stall != .stalled then s.armStall
  else s

/-- R162, R163: the level becomes `l`. -/
def State.setLevel (s : State) (l : BlowLevel) : State :=
  if s.air.level = l then s
  else ((s.modAir (fun a => { a with level := l })).driveBlower).aimSpeed.stallAtLevel

/-- R162: the level follows the highest demand, which was `before`. -/
def State.followDemand (s : State) (before : BlowLevel) : State :=
  let after := s.air.highest
  if after = before then s
  else if after = .off then
    if s.limits.runOn = 0 then s.setLevel .off
    else (s.setLevel .low).modAir (fun a => { a with runOn := s.timer (seconds s.limits.runOn) })
  else (s.modAir (fun a => { a with runOn := none })).setLevel after

/-- R160: a change of the demands, taken at once. -/
def State.changeDemands (s : State) (f : Airflow → Airflow) : State := (s.modAir f).followDemand s.air.highest

/-- R160: a Cavity Context posts its blower demand. -/
def State.postBlower (s : State) (c : Cav) (d : BlowLevel) : State :=
  (s.modCav c (fun k => { k with blower := d })).changeDemands (fun a => { a with cavDemand := a.cavDemand.set c d })

/-- R25: the mapping of a controller DRIVE's level. -/
def controllerLevel (level : Nat) : BlowLevel :=
  if level = 0 then .off else if level ≤ 33 then .low else if level ≤ 66 then .mid else .high

/-- R160: the controller's blower demand. -/
def State.postController (s : State) (d : BlowLevel) : State := s.changeDemands (fun a => { a with controllerDemand := d })

/-- R161: the bay demand. -/
def State.postBay (s : State) (d : BlowLevel) : State := s.changeDemands (fun a => { a with bayDemand := d })

/-- R161: a state or binding report of BAY. -/
def State.bayReport (s : State) (left entered : ChanState) : State :=
  match entered with
  | .unbound => s.postBay .off
  | .live => s
  | .unknown | .stale | .failed => if left = .live then s.postBay .high else s

/-- R162: the run-on timer has expired. -/
def State.endRunOn (s : State) : State := (s.modAir (fun a => { a with runOn := none })).setLevel .off

/-! ## The stall check (R164 to R166) -/

/-- R164: the stall timer starts if it is stopped. -/
def State.startStallTimer (s : State) : State :=
  if s.air.stallTimer.isNone then s.modAir (fun a => { a with stallTimer := s.stallWindow }) else s

/-- R164: SPEED LAPSED, or TACHO leaves LIVE. -/
def State.speedLost (s : State) : State :=
  match s.air.stall with
  | .watching => s.startStallTimer
  | .idle | .arming | .stalled => s

/-- R164, R166: SPEED MET. It clears a stall while SPEED is MET at the minimum for the present level, to which it may have been
set since, and only while TACHO is bound and there is a BLOWER entry (log 38). -/
def State.speedMet (s : State) : State :=
  match s.air.stall with
  | .watching => s.modAir (fun a => { a with stallTimer := none })
  | .stalled =>
    if s.isMet .speed && s.stallAble then (s.modAir (fun a => { a with stall := .watching, stallTimer := none })).flagPart
    else s
  | .idle | .arming => s

/-- R164: the arming timer has expired. -/
def State.endArming (s : State) : State :=
  let s1 := s.modAir (fun a => { a with stall := .watching, arming := none })
  if s1.isMet .speed then s1 else s1.startStallTimer

/-- R165: the stall timer has expired in WATCHING. -/
def State.becomeStalled (s : State) : State :=
  (((s.modAir (fun a => { a with stall := .stalled, stallTimer := none })).driveBlower).flagPart).emit .stalled

/-- R164: the stall check after a table write. -/
def State.refreshAble (s : State) : State :=
  match s.air.stall with
  | .idle => if s.stallAble then s.armStall else s
  | .arming | .watching => if s.stallAble then s else s.idleStall
  | .stalled => s

/-! ## The converter (R167 to R169) -/

/-- R167: asks the Load Unit to drive the CONVERTER at 100. -/
def State.converterOn (s : State) : State := s.onLoad (s.sharedLoad .converter) (fun s i => s.engineOn i 100)

/-- R167: asks the Load Unit to drive the CONVERTER off. -/
def State.converterOff (s : State) : State := s.onLoad (s.sharedLoad .converter) State.engineOff

/-- R167: a Cavity Context posts its converter demand. -/
def State.postConverter (s : State) (c : Cav) (d : ConvField) : State :=
  let was := s.air.convDemand
  let s1 := (s.modCav c (fun k => { k with converter := d })).modAir (fun a => { a with convCav := a.convCav.set c d })
  let wants := s1.air.convCav.zero.wants || s1.air.convCav.one.wants
  let s2 := s1.modAir (fun a => { a with convDemand := wants })
  if wants then
    if d.wants then s2.converterOn else s2
  else if was then s2.converterOff
  else s2

/-- R169: the converter is LIT while there is a CONVERTER entry and LIGHT is MET; a change is reported. -/
def State.refreshLit (s : State) : State :=
  let now := (s.sharedLoad .converter).isSome && s.isMet .light
  if s.air.lit = now then s else (s.modAir (fun a => { a with lit := now })).emit (.lit now)

end Sys2Proof.Machine
end

