-- ==== Sys2Proof/Machine/Relay.lean ====
section
/-! DEFINITION. The Relay Unit (chapter 2): arrival (R20), admission (R21 to R23), the blower's generated reply (R25), expiry
(R27), the return of a carried grant (R28), withdrawal (R29, R39) and the link reset (R40). -/

namespace Sys2Proof.Machine

/-! ## Leaving without being sent (R27 to R29, R40) -/

/-- R28: the oldest open relay entry for the load that is QUEUED with a level above 0. -/
def State.queuedOn (s : State) (i : Fin 16) : Option RelayEntry :=
  s.relay.find? (fun e => e.stage == .queued && e.frame.dest == (s.entry i).node && isDriveOn e.frame)

/-- R28: a carried grant passes to another entry of its load, or returns; the entry that held it has left the table. -/
def State.returnGrant (s : State) (i : Fin 16) : State :=
  match s.queuedOn i with
  | some e => s.modRelay e.frame.tag (fun e => { e with carriesGrant := true })
  | none => s.modRecord i (fun r => { r with grant := .noGrant, commanded := r.confirmed })

/-- A QUEUED entry leaves the normal queue unsent, and the table, with R28; its closing frame is placed by the caller. -/
def State.unqueue (s : State) (e : RelayEntry) : State :=
  let s1 := ({ s with normal := s.normal.filter (fun q => q != QItem.relayed e.frame.tag) }).dropRelay e.frame.tag
  if e.carriesGrant then s1.onLoad (s1.loadAt e.frame.dest) State.returnGrant else s1

/-- The load whose waiting request belongs to a relay entry. -/
def State.waitingLoad (s : State) (tag : Byte) : Option (Fin 16) :=
  (s.grantQueue.find? (fun r => r.requester == .relay tag)).map (fun r => r.load)

/-- A GRANT-WAIT entry's request leaves the Grant Queue. -/
def State.dropWait (s : State) (e : RelayEntry) : State :=
  match e.stage with
  | .grantWait => s.onLoad (s.waitingLoad e.frame.tag) State.dropRequest
  | .queued | .inFlight => s

/-- A QUEUED entry, as it stands now, leaves the normal queue. -/
def State.dropQueued (s : State) (e : RelayEntry) : State :=
  match s.relayEntry e.frame.tag with
  | some e' => if e'.stage = .queued then s.unqueue e' else s
  | none => s

/-- The load of the Grant Queue's head. -/
def State.headLoad (s : State) : Option (Fin 16) := s.grantQueue.head?.map (fun r => r.load)

/-- Some load that was HELD no longer is. -/
def grantsReleased (before after : State) : Bool :=
  (indexes 16).any (fun i => (before.record i).grant == .held && (after.record i).grant != .held)

/-- R54: considers the head after a group of removals and returns, where there was one (log 9). -/
def considerAfter (before after : State) : State :=
  if grantsReleased before after || before.headLoad != after.headLoad then after.considerHead else after

/-- R29: closes a withdrawn entry with RELAY-FAIL WITHHELD. -/
def State.placeWithheld (s : State) (e : RelayEntry) : State :=
  (s.dropRelay e.frame.tag).place (relayFail e.frame.tag e.frame.dest failWithheld)

/-- R29: withdraws the unsent entries that a condition picks out, in opening order. -/
def State.withdrawEntries (s : State) (p : RelayEntry → Bool) : State :=
  let es := s.relay.filter (fun e => e.unsent && p e)
  considerAfter s (es.foldl State.placeWithheld (es.foldl State.dropQueued (es.foldl State.dropWait s)))

/-- R29: an admitted entry for a load of one kind. -/
def State.admittedFor (s : State) (p : LoadEntry → Bool) (e : RelayEntry) : Bool :=
  e.admitted &&
    match s.loadAt e.frame.dest with
    | some i => p (s.entry i)
    | none => false

/-- HEATER, FAN or LAMP. -/
def LoadClass.cavityClass : LoadClass → Bool
  | .heater => true
  | .fan => true
  | .lamp => true
  | .unused => false
  | .lock => false
  | .blower => false
  | .converter => false

/-- HEATER or CONVERTER. -/
def LoadClass.heating : LoadClass → Bool
  | .heater => true
  | .converter => true
  | .unused => false
  | .fan => false
  | .lamp => false
  | .lock => false
  | .blower => false

/-- R29: a cavity leaves OPEN. -/
def State.withdrawCavity (s : State) (c : Cav) : State :=
  s.withdrawEntries (s.admittedFor (fun e => e.cls.cavityClass && e.cavity == .of c))

/-- R29: a cavity enters RUN. -/
def State.withdrawConverter (s : State) : State := s.withdrawEntries (s.admittedFor (fun e => e.cls == .converter))

/-- R29: STOP is asserted, or the blower becomes STALLED. -/
def State.withdrawHeating (s : State) : State := s.withdrawEntries (s.admittedFor (fun e => e.cls.heating))

/-- R39 step 1: unsent DRIVEs above 0 for budgeted loads. -/
def State.withdrawOns (s : State) : State :=
  s.withdrawEntries (fun e => isDriveOn e.frame &&
    match s.loadAt e.frame.dest with
    | some i => budgeted (s.entry i).cls
    | none => false)

/-- R27: an entry expires in GRANT-WAIT or QUEUED. -/
def State.expireRelay (s : State) (e : RelayEntry) : State :=
  let s1 := (s.dropWait e).dropQueued e
  considerAfter s ((s1.dropRelay e.frame.tag).place (relayFail e.frame.tag e.frame.dest failExpired))

/-- R36, R40: the exchange in flight after a link reset has closed its entry. -/
def Exchange.closed (x : Exchange) : Exchange :=
  match x.party with
  | .relay _ => { x with party := .closedRelay }
  | .closedRelay => x
  | .drive _ _ _ => x
  | .poller => x

/-- R40: every relay entry is closed without a frame; the head is considered by the caller (R182). -/
def State.resetRelay (s : State) : State :=
  let s1 := s.relay.foldl State.dropQueued (s.relay.foldl State.dropWait s)
  { s1 with relay := [], exchange := s1.exchange.map Exchange.closed }

/-! ## Arrival (R20 to R25) -/

/-- Opens a relay entry (R19, R27). -/
def State.openEntry (s : State) (f : Frame) (stage : RelayStage) (admitted : Bool) : State :=
  { s with relay := s.relay ++
      [{ frame := f, stage := stage, openedAt := s.now, stageSince := s.now, hold := s.timer (millis s.limits.hold),
         carriesGrant := false, admitted := admitted }] }

/-- Opens an entry in QUEUED, its frame at the tail of the normal queue. -/
def State.openQueued (s : State) (f : Frame) (admitted : Bool) : State :=
  let s1 := s.openEntry f .queued admitted
  { s1 with normal := s1.normal ++ [QItem.relayed f.tag] }

/-- R24: opens an admitted DRIVE in QUEUED and changes its load's record. -/
def State.openDrive (s : State) (i : Fin 16) (f : Frame) (level : Nat) : State :=
  (s.openQueued f true).commandByController i level

/-- R16: an open frame that refuses an arriving frame. -/
def State.refuseFrame (s : State) (f : Frame) (reason : Byte) : State := s.place (relayFail f.tag f.dest reason)

/-- A cavity of the part is in a state. -/
def State.anyCavIn (s : State) (st : CavState) : Bool := (s.cav .zero).state == st || (s.cav .one).state == st

/-- The load's cavity is OPEN. -/
def State.ownCavityOpen (s : State) (i : Fin 16) : Bool :=
  match (s.entry i).cavity with
  | .of c => (s.cav c).state == .opened
  | .shared => false

/-- R21, refusals 3 to 6. -/
def State.admissionRefuses (s : State) (i : Fin 16) : Bool :=
  ((s.entry i).cls.cavityClass && !s.ownCavityOpen i) ||
  ((s.entry i).cls == .converter && s.anyCavIn .run) ||
  ((s.entry i).cls.heating && (s.stopAsserted || s.air.stall == .stalled)) ||
  ((s.record i).grant == .waiting && s.engineWaits i)

/-- R22, R173: the Admission Table's entry of a class. -/
def admissionIndex : LoadClass → Fin 4
  | .heater => 0
  | .fan => 1
  | .lamp => 2
  | .converter => 3
  | .unused => 0
  | .lock => 0
  | .blower => 0

/-- R22: the level after the Admission Table; `none` is refused. -/
def admissionLevel (a : AdmissionRecord) (level : Nat) : Option Nat :=
  match a.action with
  | .pass => some level
  | .clamp => some (min level a.limit)
  | .refuse => none

/-- R23: the waiting request of a load goes to another relay entry and keeps its place. -/
def State.handRequest (s : State) (i : Fin 16) (tag : Byte) (level : Nat) : State :=
  let hand (r : GrantRequest) : GrantRequest := if r.load = i then { r with requester := .relay tag, level := level } else r
  { s with grantQueue := s.grantQueue.map hand }

/-- R23: the newer DRIVE takes the place of the entry whose request waits. An off joins the normal queue first and a new head is
considered after it, an order the rule leaves open (the model's choice, log 39). -/
def State.supersede (s : State) (i : Fin 16) (old : Byte) (f : Frame) (level : Nat) : State :=
  if 0 < level then
    ((s.closeFail old failSuperseded).openEntry f .grantWait true).handRequest i f.tag level
  else
    ((((s.dropRequest i).closeFail old failSuperseded).openDrive i f level)).considerIf (s.isHead i)

/-- R22: an admitted DRIVE opens its entry by its load's grant. -/
def State.openByGrant (s : State) (i : Fin 16) (f : Frame) (level : Nat) : State :=
  match (s.record i).grant with
  | .held => s.openDrive i f level
  | .noGrant =>
    if level = 0 then s.openDrive i f level
    else if (s.record i).fault ≠ .noFault then s.refuseFrame f failWithheld
    else (s.openEntry f .grantWait true).requestGrant i (.relay f.tag) level
  | .waiting =>
    match s.requestOf i with
    | some { requester := .relay old, .. } => s.supersede i old f level
    | some { requester := .engine, .. } => s.refuseFrame f failWithheld
    | none => s.refuseFrame f failWithheld

/-- R25: a controller DRIVE to the blower. -/
def State.blowerDrive (s : State) (i : Fin 16) (f : Frame) (level : Nat) : State :=
  let s1 := s.postController (controllerLevel level)
  s1.place { dest := 121, src := f.dest, kind := kindState, tag := f.tag,
             payload := [byteOf (((s1.record i).commanded).getD 0), nodeCondCode (s1.record i).condition] }

/-- R21, R22, R25: admission of a DRIVE for load `i`. -/
def State.admitDrive (s : State) (i : Fin 16) (f : Frame) : State :=
  match driveLevel f with
  | none => s.refuseFrame f failWithheld
  | some level =>
    if 100 < level then s.refuseFrame f failWithheld
    else
      match (s.entry i).cls with
      | .lock => s.refuseFrame f failWithheld
      | .blower => s.blowerDrive i f level
      | .heater | .fan | .lamp | .converter | .unused =>
        if s.admissionRefuses i then s.refuseFrame f failWithheld
        else
          match admissionLevel (s.admission.get (admissionIndex (s.entry i).cls)) level with
          | none => s.refuseFrame f failWithheld
          | some l =>
            s.openByGrant i { f with payload := [byteOf (kindLevel (s.entry i) l)] } (kindLevel (s.entry i) l)

/-- R20: the load a frame is a DRIVE for, if any. -/
def State.driveTarget (s : State) (f : Frame) : Option (Fin 16) := if f.kind = kindDrive then s.loadAt f.dest else none

/-- R16, R20: a controller frame for a node. -/
def State.nodeFrame (s : State) (f : Frame) : State :=
  if s.placeTest then
    if 8 ≤ s.relay.length then s.refuseFrame f failBusy
    else if (s.relayEntry f.tag).isSome then s.refuseFrame f failTagOpen
    else
      match s.driveTarget f with
      | some i => s.admitDrive i f
      | none => s.openQueued f false
  else s.count .upstream Counters.addDiscarded

/-! ## The link falls silent (R39) -/

/-- R39 step 2: a load the controller left on. -/
def State.leftOn (s : State) (i : Fin 16) : Bool :=
  budgeted (s.entry i).cls && (s.record i).owner == .controller &&
    match (s.record i).commanded with
    | some (_ + 1) => true
    | some 0 => false
    | none => false

/-- R39: the silence takeover. Its engine offs are queued in Load Table entry order, which step 2 leaves open (the model's
choice, log 40). -/
def State.takeOver (s : State) : State :=
  let s1 := s.withdrawOns
  (s1.engineOffs ((indexes 16).filter s1.leftOn)).postController .off

end Sys2Proof.Machine
end

