-- ==== Sys2Proof/Machine/Cycle.lean ====
section
/-! DEFINITION. The Cycle Engine (chapters 6 and 7) with the duty windows it starts (section 3.6): survey, START, the segment
walk, causes and recovery chains, COOLDOWN, RELEASE, HALTED, CANCEL and CLEAR. -/

namespace Sys2Proof.Machine

/-! ## The limits in use (R88, R89) -/

/-- The bank limits record of the bank a context names. -/
def State.limitsOfCav (s : State) (c : Cav) : Option BankLimits := (s.cav c).bank.map (fun b => (s.bank b).limits)

def State.releaseTemp (s : State) (c : Cav) : Int := ((s.limitsOfCav c).map BankLimits.release).getD 300
def State.dwellLimit (s : State) (c : Cav) : Nat := ((s.limitsOfCav c).map BankLimits.dwell).getD 120
def State.blindLimit (s : State) (c : Cav) : Nat := ((s.limitsOfCav c).map BankLimits.blind).getD 7200
def State.absCeiling (s : State) (c : Cav) : Int := ((s.limitsOfCav c).map BankLimits.ceiling).getD 1100
def State.coolFan (s : State) (c : Cav) : Nat := ((s.limitsOfCav c).map BankLimits.coolFan).getD 100
def State.overshoot (s : State) (c : Cav) : Nat := ((s.limitsOfCav c).map BankLimits.overshoot).getD 0
def State.riseMin (s : State) (c : Cav) : Nat := ((s.limitsOfCav c).map BankLimits.riseMin).getD 0

/-! ## Small steps -/

/-- R93: drives the cavity's FAN at a level. -/
def State.driveFan (s : State) (c : Cav) (level : Nat) : State := s.onLoad (s.cavLoad c .fan) (fun s i => s.engineDrive i level)

/-- The positions in the order of R59 and R61. -/
def positions : List HeatPos := [.top, .bottom, .rear]

/-- An engine off request for every HEATER of the cavity, in the order TOP, BOTTOM, REAR (R61, R122, log 22). -/
def State.heatersOff (s : State) (c : Cav) : State :=
  positions.foldl (fun s p => s.onLoad (s.heater c p) State.engineOff) s

/-- R116: the elapsed time. -/
def elapsedTime (now : Time) : Elapsed → Time
  | .stopped t => t
  | .running since => now - since

/-- R116: the elapsed timer stops and keeps its time. -/
def stopElapsed (now : Time) (e : Elapsed) : Elapsed := .stopped (elapsedTime now e)

/-- R124: the first fault record as it would be filled now. -/
def State.faultNow (s : State) (c : Cav) (r : Reason) : FaultRecord :=
  let k := s.cav c
  { reason := r, segment := if k.state = .run then k.segment else none, depth := k.stack.length,
    temperature := s.probeTemp c, elapsed := unitsDown Config.sec (elapsedTime s.now k.elapsed) }

/-- R124: fills the first fault record if it is empty. -/
def State.fillFault (s : State) (c : Cav) (r : Reason) : State :=
  if (s.cav c).firstFault.isNone then s.modCav c (fun k => { k with firstFault := some (s.faultNow c r) }) else s

/-- R96, R124: sets the reason of an abnormal end. -/
def State.setReason (s : State) (c : Cav) (r : Reason) : State := (s.modCav c (fun k => { k with reason := r })).fillFault c r

/-- The event of a hold of 0 s of this cavity. -/
def isHoldEvent (c : Cav) : Event → Bool
  | .holdDone d => c == d
  | _ => false

/-- R111, R133: the hold timer stops. -/
def State.stopHold (s : State) (c : Cav) : State := (s.modCav c (fun k => { k with hold := .stopped })).purge (isHoldEvent c)

/-- R109, R133: a timed segment is left: its timers stop, GOAL and RISE are cleared, lit wait becomes NO. -/
def State.leaveSegment (s : State) (c : Cav) : State :=
  (((s.modCav c (fun k => { k with long := none, short := none, litWait := false })).stopHold c).clearWatch (.goal c)).clearWatch
    (.rise c)

/-- R134, R131: the recovery stack and the pending set are emptied. -/
def State.emptyStack (s : State) (c : Cav) : State :=
  s.modCav c (fun k => { k with stack := [], pending := Vector.replicate 6 false })

/-! ## Duty windows (R58, R59, R61) -/

/-- R61: a window ends, with its end actions. -/
def State.endWindow (s : State) (c : Cav) : State :=
  (s.modWindow c (fun w => { w with running := false, offMark := { top := none, bottom := none, rear := none } })).heatersOff c

/-- R59 steps 1 and 2: a duty after its treatment. -/
def treatDuty (period duty : Nat) : Nat :=
  if duty < 5 then 0 else if 95 < duty then 100 else if duty * period / 100 = 0 then 0 else duty

/-- R59 steps 2 and 3: the off mark of a treated duty. -/
def offMarkOf (start : Time) (period duty : Nat) : Timer :=
  if duty = 0 ∨ 100 ≤ duty then none else some (start + seconds (duty * period / 100))

/-- R59: switches one position at a window start. -/
def State.switchHeater (c : Cav) (duties : PerPos Nat) (s : State) (p : HeatPos) : State :=
  s.onLoad (s.heater c p) (fun s i => s.engineDrive i (if duties.get p = 0 then 0 else 100))

/-- R87, R113: the duties of the first used band whose threshold the error reaches. -/
def bandDuties (bands : List DutyBand) (error : Int) : PerPos Nat :=
  match bands.find? (fun b => match b.threshold with
    | some t => decide (t ≤ error)
    | none => false) with
  | some b => { top := b.top, bottom := b.bottom, rear := b.rear }
  | none => { top := 0, bottom := 0, rear := 0 }

/-- R113: the duties the context computes for a target. -/
def State.dutiesFor (s : State) (c : Cav) (target : Int) : PerPos Nat :=
  match (s.cav c).bank, s.probeTemp c with
  | some b, some t =>
    if (s.cav c).litWait then { top := 0, bottom := 0, rear := 0 }
    else bandDuties (s.bank b).duty.toList (target - t)
  | _, _ => { top := 0, bottom := 0, rear := 0 }

/-- R58, R59: a window starts with a target. -/
def State.startWindow (s : State) (c : Cav) (target : Int) : State :=
  let period := s.limits.window
  let raw := s.dutiesFor c target
  let d : PerPos Nat :=
    { top := treatDuty period raw.top, bottom := treatDuty period raw.bottom, rear := treatDuty period raw.rear }
  let s1 := s.modWindow c (fun _ =>
    { running := true, start := some s.now, period := some period, duty := some d,
      offMark := { top := offMarkOf s.now period d.top, bottom := offMarkOf s.now period d.bottom,
                   rear := offMarkOf s.now period d.rear } })
  positions.foldl (State.switchHeater c d) s1

/-! ## OPEN, COOLDOWN, RELEASE and HALTED (R105, R118, R120, R122) -/

/-- R92: a bank's bind count goes up by one. -/
def State.bindBank (s : State) (b : BankId) : State := s.modBank b (fun k => { k with binds := k.binds + 1 })

/-- R92: the bank a context names is unbound. -/
def State.unbind (s : State) (c : Cav) : State :=
  match (s.cav c).bank with
  | some b => (s.modBank b (fun k => { k with binds := k.binds - 1 })).modCav c (fun k => { k with bank := none })
  | none => s

/-- The context's four watches on its probe are cleared. -/
def State.clearCavWatches (s : State) (c : Cav) : State :=
  (((s.clearWatch (.ceiling c)).clearWatch (.goal c)).clearWatch (.rise c)).clearWatch (.release c)

/-- R105 steps 2 to 5. -/
def State.openCavity (s : State) (c : Cav) : State :=
  let s1 := ((s.unbind c).modCav c (fun k => { k with
    segment := none, entryTemp := none, backOff := .noBackOff, survey := none, long := none, short := none, dwell := none,
    blind := none, blindExpired := false, elapsed := stopElapsed s.now k.elapsed })).stopHold c
  ((((s1.clearCavWatches c).postBlower c .off).postConverter c .off)).setCavState c .opened

/-- R105: a return to OPEN from PREPARE or LOCKING. -/
def State.backToOpen (s : State) (c : Cav) (r : Reason) : State := (s.setReason c r).openCavity c

/-- R118 steps 5 to 8, R98: the entry actions of COOLDOWN. -/
def State.enterCooldown (s : State) (c : Cav) : State :=
  ((((((s.postConverter c .off).driveFan c (s.coolFan c)).postBlower c .high).setCavState c .cooldown)).modCav c
    (fun k => { k with dwell := none })).setWatch (.release c) .atOrBelow (s.releaseTemp c)

/-- R118: the items a cycle's end leaves at rest (steps 2 to 4). -/
def State.endRun (s : State) (c : Cav) : State :=
  let s1 := ((s.endWindow c).emptyStack c).leaveSegment c
  (s1.modCav c (fun k => { k with elapsed := stopElapsed s.now k.elapsed })).clearWatch (.ceiling c)

/-- R118: a cycle ends. -/
def State.endCycle (s : State) (c : Cav) (r : Reason) : State :=
  let s1 := if r = .complete then s.modCav c (fun k => { k with reason := r }) else s.setReason c r
  (s1.endRun c).enterCooldown c

/-- R120: a cavity enters RELEASE. -/
def State.enterRelease (s : State) (c : Cav) : State :=
  (((s.setCavState c .release).clearWatch (.release c)).modCav c
    (fun k => { k with dwell := none, blind := none, blindExpired := false })).releaseLock c

/-- R122 step 2: every HEATER of the cavity is switched off. -/
def State.haltHeaters (s : State) (c : Cav) : State := if (s.cav c).state = .run then s.endWindow c else s.heatersOff c

/-- R122 steps 6 and 7; the mark of a blind cool timer that has expired is dropped (the model's choice, log 26). -/
def State.haltItems (s : State) (c : Cav) : State :=
  let s1 := ((s.emptyStack c).leaveSegment c).clearCavWatches c
  s1.modCav c (fun k => { k with
    dwell := none, survey := none, stage := .noStage, backOff := .noBackOff, elapsed := stopElapsed s.now k.elapsed,
    blind := s.timer (seconds (s.blindLimit c)), blindExpired := false })

/-- R122: a cavity enters HALTED. -/
def State.halt (s : State) (c : Cav) (r : Reason) : State :=
  let s1 := (((((s.setReason c r).haltHeaters c).postConverter c .off).driveFan c (s.coolFan c)).postBlower c .high)
  ((s1.haltItems c).holdLock c).setCavState c .halted

/-- R117: an event that halts a cavity in PREPARE, LOCKING, RUN, COOLDOWN or RELEASE. -/
def State.haltActive (s : State) (c : Cav) (r : Reason) : State :=
  match (s.cav c).state with
  | .prepare | .locking | .run | .cooldown | .release => s.halt c r
  | .survey | .opened | .halted => s

/-! ## Segments (R106 to R115) -/

/-- The segment record at an index of the bank a context names. -/
def State.segmentAt (s : State) (c : Cav) (g : Nat) : Segment :=
  match (s.cav c).bank with
  | some b => (s.bank b).segments.toList.getD g Segment.zero
  | none => Segment.zero

/-- The present segment record. -/
def State.presentSegment (s : State) (c : Cav) : Segment := s.segmentAt c ((s.cav c).segment.getD 0)

/-- R108: the CEILING level of a RAMP or SOAK. -/
def State.ceilingFor (s : State) (c : Cav) (g : Segment) : Int := min (g.target + s.overshoot c) (s.absCeiling c)

/-- R108: sets the CEILING watch. -/
def State.setCeiling (s : State) (c : Cav) (level : Int) : State := s.setWatch (.ceiling c) .above level

/-- R107: applies the outputs of a timed segment. -/
def State.applyOutputs (s : State) (c : Cav) (g : Segment) : State :=
  ((s.postBlower c g.blower).driveFan c g.fan).postConverter c g.converter

/-- R109 step 4: the RISE watch and the short timer start, where the RAMP has a short. -/
def State.startShort (s : State) (c : Cav) (g : Segment) : State :=
  match (s.cav c).entryTemp with
  | some t =>
    if 0 < g.short then
      (s.setWatch (.rise c) .atOrAbove (t + s.riseMin c)).modCav c (fun k => { k with short := s.timer (seconds g.short) })
    else s
  | none => s

/-- R109 step 1, R110: the entry temperature is taken. -/
def State.takeEntryTemp (s : State) (c : Cav) : State := s.modCav c (fun k => { k with entryTemp := s.probeTemp c })

/-- R109, R110, R139: the timers and watches of a RAMP, with its long time. -/
def State.startRamp (s : State) (c : Cav) (g : Segment) (long : Time) : State :=
  let s1 := ((s.takeEntryTemp c).setWatch (.goal c) .atOrAbove (g.target - g.band)).modCav c
    (fun k => { k with long := s.timer long })
  if g.converter = .onNeedsLit ∧ s1.air.lit = false then s1.modCav c (fun k => { k with litWait := true })
  else s1.startShort c g

/-- R111: the hold timer runs while the latest value is at or above the level, and stands below it. -/
def State.placeHold (s : State) (c : Cav) (g : Segment) (left : Time) : State :=
  match s.probeTemp c with
  | some t =>
    if g.target - g.band ≤ t then s.modCav c (fun k => { k with hold := .running (s.now + left) })
    else s.modCav c (fun k => { k with hold := .standing left })
  | none => s.modCav c (fun k => { k with hold := .standing left })

/-- R112: the timers and watches of a COOL, with its long time if it has one. -/
def State.startCool (s : State) (c : Cav) (g : Segment) (long : Option Time) : State :=
  (s.setWatch (.goal c) .atOrBelow g.target).modCav c (fun k => { k with long := long.bind s.timer })

/-- What a resumed segment brings: its remaining long and hold times (R134). -/
abbrev Resume := Option Time × Option Time

/-- R111, R139: a SOAK's hold and window; a hold of 0 s is complete once they have started, and its completion is acted on
behind the reports that the entry has delivered, a CEILING MET or a load fault among them (R141 lets either be first; the
model's choice, log 49). -/
def State.startSoak (s : State) (c : Cav) (g : Segment) (left : Time) : State :=
  if left = 0 then ((s.stopHold c).startWindow c g.target).emit (.holdDone c)
  else (s.placeHold c g left).startWindow c g.target

/-- R112: a COOL's long time at entry; a duration of 0 is none. -/
def coolTime (g : Segment) : Option Time := if g.duration = 0 then none else some (seconds g.duration)

/-- R106, R107 to R112, R139: a timed segment is entered, or re-entered with its saved times. -/
def State.enterTimed (s : State) (c : Cav) (g : Nat) (resume : Option Resume) : State :=
  let seg := s.segmentAt c g
  let s1 := (s.modCav c (fun k => { k with zeroRun := 0, segment := some g })).applyOutputs c seg
  match seg.kind with
  | .ramp =>
    let long := ((resume.map (fun r => r.1)).join).getD (seconds seg.duration)
    (((s1.setCeiling c (s.ceilingFor c seg)).startRamp c seg long)).startWindow c seg.target
  | .soak =>
    let left := ((resume.map (fun r => r.2)).join).getD (seconds seg.duration)
    (s1.setCeiling c (s.ceilingFor c seg)).startSoak c seg left
  | .cool =>
    let long := match resume with
      | some r => r.1
      | none => coolTime seg
    ((s1.setCeiling c (s.absCeiling c)).startCool c seg long).endWindow c
  | .check | .mark | .ret | .fin => s1

/-- RAMP, SOAK and COOL are the timed kinds (section 5.2). -/
def SegKind.timed : SegKind → Bool
  | .ramp => true
  | .soak => true
  | .cool => true
  | .check => false
  | .mark => false
  | .ret => false
  | .fin => false

/-- R114: a CHECK's condition. -/
def State.checkHolds (s : State) (c : Cav) (g : Segment) : Bool :=
  match g.cond with
  | .tempAtOrBelow => (s.probeTemp c).any (fun t => decide (t ≤ g.target))
  | .tempAtOrAbove => (s.probeTemp c).any (fun t => decide (g.target ≤ t))
  | .cycleTimeAtLeast => decide (g.duration ≤ unitsDown Config.sec (elapsedTime s.now (s.cav c).elapsed))
  | .otherCavityActive => (s.cav (otherCav c)).state == .locking || (s.cav (otherCav c)).state == .run
  | .mainsNormal => s.isLive .mains && !s.isMet .dip
  | .converterLit => s.air.lit

/-! ## Causes (R125 to R138) -/

/-- R125: the causes in priority order, the highest first. -/
def causes : List Cause := [.overheat, .ductHot, .loadFault, .mainsDip, .timeout, .linkLost]

/-- R125: a cause's place in the priority order, 0 the highest. -/
def Cause.index : Cause → Fin 6
  | .overheat => 0
  | .ductHot => 1
  | .loadFault => 2
  | .mainsDip => 3
  | .timeout => 4
  | .linkLost => 5

/-- R125: a cause outranks another. -/
def outranks (a b : Cause) : Bool := decide (a.index.val < b.index.val)

/-- R131: the pending cause of highest priority. -/
def CavCtx.topPending (k : CavCtx) : Option Cause := causes.find? (fun a => k.pending.get a.index)

/-- R132: the pending cause the take test takes, if any. -/
def CavCtx.takeable (k : CavCtx) : Option Cause :=
  match k.topPending, k.stack with
  | some a, [] => some a
  | some a, e :: _ => if outranks a e.cause then some a else none
  | none, _ => none

def State.setPending (s : State) (c : Cav) (a : Cause) (b : Bool) : State :=
  s.modCav c (fun k => { k with pending := k.pending.set a.index b })

/-- R134: the time left of a timer that may have expired. -/
def leftOf (now : Time) : Timer → Time
  | some e => timeLeft now e
  | none => 0

/-- R134: the time left of a hold. -/
def holdLeft (now : Time) : Hold → Time
  | .stopped => 0
  | .running e => timeLeft now e
  | .standing l => l

/-- R134: the remaining times of the present segment. -/
def State.resumeTimes (s : State) (c : Cav) : Resume :=
  match (s.presentSegment c).kind with
  | .ramp => (some (leftOf s.now (s.cav c).long), none)
  | .soak => (none, some (holdLeft s.now (s.cav c).hold))
  | .cool => (if (s.presentSegment c).duration = 0 then none else some (leftOf s.now (s.cav c).long), none)
  | .check | .mark | .ret | .fin => (none, none)

/-- R134: the resume point of the present segment: its index and remaining times. -/
def State.resumePoint (s : State) (c : Cav) : Nat × Resume := ((s.cav c).segment.getD 0, s.resumeTimes c)

/-- R133 step 4: leaves the segment and pushes its resume point. -/
def State.pushCause (s : State) (c : Cav) (a : Cause) (r : Nat × Resume) : State :=
  ((s.leaveSegment c).modCav c (fun k => { k with
    stack := { segment := r.1, cause := a, longLeft := r.2.1, holdLeft := r.2.2 } :: k.stack })).flagCav c

/-- R133: takes a cause. The answer's index is the vector segment to enter; `none` where the cycle has ended. -/
def State.takeCause (s : State) (c : Cav) (a : Cause) (r : Nat × Resume) : State × Option Nat :=
  let s1 := (s.setPending c a false).modCav c (fun k => { k with counts := k.counts.set a.index (k.counts.get a.index + 1) })
  match (s1.cav c).bank with
  | none => (s1, none)
  | some b =>
    if (s1.bank b).limits.causeLimit.get a.index < (s1.cav c).counts.get a.index then (s1.endCycle c .causeLimit, none)
    else if (s1.bank b).causes.get a.index = 0xFF then (s1.endCycle c .unhandled, none)
    else if 4 ≤ (s1.cav c).stack.length then (s1.endCycle c .stackFull, none)
    else (s1.pushCause c a r, some ((s1.bank b).causes.get a.index).toNat)

/-! ## The walk (R106, R114, R115, R138, R140) -/

/-- R106: a zero-time segment is entered: the run goes up by one and CEILING stands at the absolute ceiling. -/
def State.passZero (s : State) (c : Cav) (g : Nat) : State :=
  (s.modCav c (fun k => { k with zeroRun := k.zeroRun + 1, segment := some g })).setCeiling c (s.absCeiling c)

/-- Where a zero-time segment leads: on to a segment, back into a timed one, or nowhere. -/
inductive ZeroExit where
  | goto (g : Nat)
  | resume (g : Nat) (r : Resume)
  | done
  deriving DecidableEq, Repr

/-- R138 steps 3 and 4: after the pop, a pending cause is taken with the popped resume point, or that point is re-entered. -/
def State.afterPop (s : State) (c : Cav) (e : StackEntry) : State × ZeroExit :=
  match (s.cav c).takeable with
  | some a =>
    match s.takeCause c a (e.segment, (e.longLeft, e.holdLeft)) with
    | (s1, some v) => (s1, .goto v)
    | (s1, none) => (s1, .done)
  | none => (s, .resume e.segment (e.longLeft, e.holdLeft))

/-- R138: a RETURN. -/
def State.doReturn (s : State) (c : Cav) : State × ZeroExit :=
  match (s.cav c).stack with
  | [] => (s.endCycle c .strayReturn, .done)
  | e :: rest => ((s.modCav c (fun k => { k with stack := rest })).flagCav c).afterPop c e

/-- R114, R115, R138: a zero-time segment acts by its kind. -/
def State.actZero (s : State) (c : Cav) (g : Segment) : State × ZeroExit :=
  match g.kind with
  | .check => (s, .goto (if s.checkHolds c g then g.next.toNat else g.alternate.toNat))
  | .mark => (s.modCav c (fun k => { k with marker := g.marker }), .goto g.next.toNat)
  | .fin => (s.endCycle c (if (s.cav c).stack.isEmpty then .complete else .recoveryEnd), .done)
  | .ret => s.doReturn c
  | .ramp | .soak | .cool => (s, .done)

/-- R106: enters a segment and passes through the zero-time run it begins; `n` more zero-time segments may be entered. -/
def walk : Nat → State → Cav → Nat → State
  | n, s, c, g =>
    if (s.segmentAt c g).kind.timed then s.enterTimed c g none
    else
      match n with
      | 0 => (s.modCav c (fun k => { k with segment := some g })).endCycle c .loop
      | m + 1 =>
        match (s.passZero c g).actZero c (s.segmentAt c g) with
        | (s1, .goto v) => walk m s1 c v
        | (s1, .resume v r) => s1.enterTimed c v (some r)
        | (s1, .done) => s1

/-- R106: enters a segment; the zero-time run is at most 8. -/
def State.enterSegment (s : State) (c : Cav) (g : Nat) : State := walk (8 - (s.cav c).zeroRun) s c g

/-- R109, R111, R112: the present segment is complete. -/
def State.completeSegment (s : State) (c : Cav) : State :=
  (s.leaveSegment c).enterSegment c ((s.presentSegment c).next.toNat)

/-- R126, R132, R137: a cause is raised. -/
def State.raise (s : State) (c : Cav) (a : Cause) : State :=
  match (s.cav c).state with
  | .run =>
    let s1 := s.setPending c a true
    match (s1.cav c).takeable with
    | some b =>
      match s1.takeCause c b (s1.resumePoint c) with
      | (s2, some v) => s2.enterSegment c v
      | (s2, none) => s2
    | none => if a = .timeout then s1.endCycle c .timeoutInRecovery else s1
  | .survey | .opened | .prepare | .locking | .cooldown | .release | .halted => s

/-! ## The survey (R97 to R99) -/

/-- R97: the cavity's three bindings are present. -/
def State.surveyBound (s : State) (c : Cav) : Bool :=
  (s.bindingOfUse (.probe c)).isSome && (s.bindingOfUse (.door c)).isSome && (s.cavLoad c .lock).isSome

/-- R97: the survey starts. -/
def State.startSurvey (s : State) (c : Cav) : State :=
  ((s.modCav c (fun k => { k with stage := .reading, doorSeen := false, probeSeen := false, doorReport := none })).engineOffs
    (s.cavityLoads c)).modCav c (fun k => { k with survey := s.timer (seconds 10) })

/-- R97: the test for the survey's bindings, made in WAITING. -/
def State.surveyTest (s : State) (c : Cav) : State :=
  if (s.cav c).state = .survey ∧ (s.cav c).stage = .waiting ∧ s.surveyBound c = true then s.startSurvey c else s

/-- R99: a table write that touches the cavity's bindings restarts a survey; any other leaves it, with the test of R97. -/
def State.surveyAfterWrite (s : State) (c : Cav) (touched : Bool) : State :=
  if (s.cav c).state = .survey ∧ touched = true then
    (s.modCav c (fun k => { k with survey := none, stage := .waiting })).surveyTest c
  else s.surveyTest c

/-- R98: what the survey finds. -/
inductive Finding98 where
  | unlocked
  | locked
  | engageHold
  | halt
  deriving DecidableEq, Repr

/-- R98: the table of findings. -/
def surveyFinding (mode : ConfirmMode) (door : Door) (latch : Latch) : Finding98 :=
  match latch, door, mode with
  | .retracted, _, _ => .unlocked
  | .extended, .closed, _ => .locked
  | .travel, .closed, _ => .engageHold
  | .extended, .opened, _ => .halt
  | .travel, .opened, _ => .halt
  | .absent, .closed, .timed => .locked
  | .absent, .opened, .timed => .unlocked
  | .absent, _, .position => .halt

/-- R98: a cavity the survey sends to COOLDOWN, and what STOP or a stall makes of it. -/
def State.surveyCooldown (s : State) (c : Cav) : State :=
  let s1 := (s.modCav c (fun k => { k with reason := .noReason })).enterCooldown c
  if s1.stopAsserted then s1.halt c .stop
  else if s1.air.stall = .stalled then s1.halt c .blowerStall
  else s1

/-- R98: the survey decides. -/
def State.decideSurvey (s : State) (c : Cav) (door : Door) (latch : Latch) : State :=
  let s1 := s.modCav c (fun k => { k with survey := none, stage := .noStage })
  match surveyFinding (s.limits.mode.get c) door latch with
  | .unlocked => ((s1.setLockState c .unlocked).modCav c (fun k => { k with reason := .noReason })).openCavity c
  | .locked => (s1.setLockState c .locked).surveyCooldown c
  | .engageHold => ((s1.engageLock c).holdLock c).surveyCooldown c
  | .halt => s1.halt c .survey

/-- R97, R98: the survey decides once door and probe have both been seen. -/
def State.surveyCheck (s : State) (c : Cav) : State :=
  match (s.cav c).doorReport with
  | some (d, l) => if (s.cav c).doorSeen && (s.cav c).probeSeen then s.decideSurvey c d l else s
  | none => s

/-- The cavity is in SURVEY and its survey is READING. -/
def State.surveyReading (s : State) (c : Cav) : Bool := (s.cav c).state == .survey && (s.cav c).stage == .reading

/-! ## START to RUN (R100 to R104) -/

/-- R102: every HEATER, FAN and LAMP of the cavity is commanded and confirmed 0. -/
def State.prepared (s : State) (c : Cav) : Bool := (s.cavityLoads c).all (fun i => (s.record i).alreadyOff)

/-- R103: entry to LOCKING; the back-off reason is NONE. -/
def State.enterLocking (s : State) (c : Cav) : State :=
  ((s.modCav c (fun k => { k with backOff := .noBackOff })).setCavState c .locking).engageLock c

/-- R102: PREPARE is complete, and the cavity enters LOCKING. -/
def State.prepareTest (s : State) (c : Cav) : State :=
  if (s.cav c).state = .prepare ∧ s.prepared c = true then s.enterLocking c else s

/-- R102: entry to PREPARE. -/
def State.enterPrepare (s : State) (c : Cav) : State := ((s.setCavState c .prepare).engineOffs (s.cavityLoads c)).prepareTest c

/-- R101: an accepted START. -/
def State.acceptStart (s : State) (c : Cav) (b : BankId) (entry : Nat) : State :=
  let s1 := (s.bindBank b).modCav c (fun k => { k with
    bank := some b, entry := some entry, firstFault := none, counts := Vector.replicate 6 0, elapsed := .stopped 0, marker := 0,
    reason := .noReason })
  (s1.withdrawCavity c).enterPrepare c

/-- R103: the cavity enters RUN, with a zero-time run of 0 (the model's choice, log 16). -/
def State.enterRun (s : State) (c : Cav) : State :=
  let s1 := (s.setCavState c .run).withdrawConverter
  (s1.modCav c (fun k => { k with elapsed := .running s.now, zeroRun := 0 })).enterSegment c ((s.cav c).entry.getD 0)

/-- R103: a back-off starts, with its reason. -/
def State.startBackOff (s : State) (c : Cav) (b : BackOff) : State :=
  if (s.cav c).backOff = .noBackOff then (s.modCav c (fun k => { k with backOff := b })).releaseLock c else s

/-- R104: the reason of a return to OPEN after a back-off. -/
def backOffReason : BackOff → Reason
  | .noBackOff => .noReason
  | .cancelled => .cancelled
  | .door => .door
  | .probeLost => .probeLost

/-- R103, R104: a lock report in LOCKING. -/
def State.lockInLocking (s : State) (c : Cav) (r : LockReport) : State :=
  match r with
  | .jammed _ => s.halt c .lockJam
  | .locked => if (s.cav c).backOff = .noBackOff then s.enterRun c else s
  | .engageFailed => if (s.cav c).backOff = .noBackOff then s.backToOpen c .lockEngage else s
  | .engageAborted =>
    if (s.cav c).backOff = .noBackOff then s.modCav c (fun k => { k with backOff := .door }) else s
  | .unlocked => if (s.cav c).backOff = .noBackOff then s else s.backToOpen c (backOffReason (s.cav c).backOff)

/-- R117, R157: the halt reason of a JAMMED report in RUN or COOLDOWN. -/
def jamReason : Jam → Reason
  | .latchLost => .latchLost
  | .noJam | .engageTimeout | .releaseTimeout | .doorOpenHeld | .motorFault => .lockJam

/-- R117, R119: a lock report in RUN or COOLDOWN. -/
def State.lockInRun (s : State) (c : Cav) (r : LockReport) : State :=
  match r with
  | .jammed j => s.halt c (jamReason j)
  | .locked | .unlocked | .engageFailed | .engageAborted => s

/-- R120: a lock report in RELEASE. -/
def State.lockInRelease (s : State) (c : Cav) (r : LockReport) : State :=
  match r with
  | .jammed _ => s.halt c .lockJam
  | .unlocked => (s.driveFan c 0).openCavity c
  | .locked | .engageFailed | .engageAborted => s

/-- R158: a context acts on its Lock Unit's report. -/
def State.onLockReport (s : State) (c : Cav) (r : LockReport) : State :=
  match (s.cav c).state with
  | .locking => s.lockInLocking c r
  | .run | .cooldown => s.lockInRun c r
  | .release => s.lockInRelease c r
  | .survey | .opened | .prepare | .halted => s

/-! ## Readings and losses as a context sees them (R97, R102, R103, R111, R117, R119) -/

/-- R111: a reading moves the hold of a SOAK between running and standing. -/
def State.moveHold (s : State) (c : Cav) : State :=
  match (s.cav c).hold with
  | .stopped => s
  | .running e => s.placeHold c (s.presentSegment c) (timeLeft s.now e)
  | .standing l => s.placeHold c (s.presentSegment c) l

/-- R97, R111: a GOOD reading of PROBEc. -/
def State.onProbeReading (s : State) (c : Cav) : State :=
  match (s.cav c).state with
  | .survey =>
    if s.surveyReading c && s.isLive (.probe c) then (s.modCav c (fun k => { k with probeSeen := true })).surveyCheck c else s
  | .run => s.moveHold c
  | .opened | .prepare | .locking | .cooldown | .release | .halted => s

/-- R97, R102: a door report, after the Lock Unit has acted on it. -/
def State.onDoorReport (s : State) (c : Cav) (door : Door) (latch : Latch) : State :=
  match (s.cav c).state with
  | .survey =>
    if s.surveyReading c && s.isLive (.door c) then
      (s.modCav c (fun k => { k with doorSeen := true, doorReport := some (door, latch) })).surveyCheck c
    else s
  | .prepare => if door = .opened then s.backToOpen c .door else s
  | .opened | .locking | .run | .cooldown | .release | .halted => s

/-- PROBEc leaves LIVE. -/
def State.onProbeLost (s : State) (c : Cav) : State :=
  match (s.cav c).state with
  | .survey => s.modCav c (fun k => { k with probeSeen := false })
  | .prepare => s.backToOpen c .probeLost
  | .locking => s.startBackOff c .probeLost
  | .run | .cooldown => s.halt c .probeLost
  | .opened | .release | .halted => s

/-- DOORc leaves LIVE. -/
def State.onDoorLost (s : State) (c : Cav) : State :=
  match (s.cav c).state with
  | .survey => s.modCav c (fun k => { k with doorSeen := false, doorReport := none })
  | .prepare => s.backToOpen c .door
  | .locking => s.startBackOff c .door
  | .run | .cooldown => s.halt c .doorSensor
  | .opened | .release | .halted => s

/-! ## Watch events as a context sees them (R109, R112, R119, R125) -/

/-- R109, R112: GOAL MET in RUN. -/
def State.onGoal (s : State) (c : Cav) : State := if (s.cav c).state = .run then s.completeSegment c else s

/-- R109: RISE MET. -/
def State.onRise (s : State) (c : Cav) : State :=
  (s.modCav c (fun k => { k with short := none })).clearWatch (.rise c)

/-- R119: RELEASE MET or LAPSED in COOLDOWN. -/
def State.onRelease (s : State) (c : Cav) (met : Bool) : State :=
  if (s.cav c).state = .cooldown then
    if met then
      if s.dwellLimit c = 0 then s.enterRelease c
      else s.modCav c (fun k => { k with dwell := s.timer (seconds (s.dwellLimit c)) })
    else s.modCav c (fun k => { k with dwell := none })
  else s

/-- R110: the converter is reported LIT. -/
def State.onLit (s : State) (c : Cav) : State :=
  if (s.cav c).litWait then
    ((s.modCav c (fun k => { k with litWait := false })).takeEntryTemp c).startShort c (s.presentSegment c)
  else s

/-- R111: the hold of a SOAK is complete. -/
def State.onHoldDone (s : State) (c : Cav) : State := if (s.cav c).state = .run then s.completeSegment c else s

/-- R102, R129: a load fault of one of the cavity's HEATER, FAN or LAMP loads. -/
def State.onLoadFault (s : State) (c : Cav) : State :=
  match (s.cav c).state with
  | .prepare => s.backToOpen c .startLoad
  | .run => s.raise c .loadFault
  | .survey | .opened | .locking | .cooldown | .release | .halted => s

/-- R102: an off that failed for good, in PREPARE. -/
def State.onOffFailed (s : State) (c : Cav) : State :=
  if (s.cav c).state = .prepare then s.backToOpen c .startLoad else s

/-! ## CANCEL and CLEAR (R121, R123) -/

/-- R121: CANCEL's effect; `false` answers NOT-RUNNING. -/
def State.cancelCavity (s : State) (c : Cav) : State × Bool :=
  match (s.cav c).state with
  | .prepare => (s.backToOpen c .cancelled, true)
  | .locking => (s.startBackOff c .cancelled, true)
  | .run => (s.endCycle c .cancelled, true)
  | .survey | .opened | .cooldown | .release | .halted => (s, false)

/-- R123: the conditions for CLEAR. -/
def State.clearSafe (s : State) (c : Cav) : Bool :=
  !s.stopAsserted && s.air.stall != .stalled &&
    (if s.isLive (.probe c) then confirmedOn (s.channel (.probe c)) .atOrBelow (s.releaseTemp c) else (s.cav c).blindExpired)

end Sys2Proof.Machine
end

