-- ==== Sys2Proof/Machine/Events.lean ====
section
/-! DEFINITION. The reports between blocks: what each subscriber does with one (R51, R71, R72, R77, R158, R165, R169), and
acting on them in the order they were delivered (R106, log 6). -/

namespace Sys2Proof.Machine

/-- R71: a report of a channel that leaves LIVE. -/
def isLoss (left entered : ChanState) : Bool := left == .live && entered != .live

/-- R71: a state or binding report reaches its use's subscribers. -/
def State.onChanState (s : State) (u : Use) (left entered : ChanState) : State :=
  match u with
  | .probe c => if isLoss left entered then s.onProbeLost c else s
  | .door c => if isLoss left entered then s.onDoorLost c else s
  | .tacho => if isLoss left entered then s.speedLost else s
  | .duct => s.refreshLit
  | .bay => s.bayReport left entered
  | .mains => s
  | .unused => s

/-- R75: an event of DIP or DUCT-HOT goes to both contexts, whose MET raises a cause. -/
def State.raiseBoth (s : State) (a : Cause) : State := (s.raise .zero a).raise .one a

/-- R72, R74 to R76: a watch event reaches its owner; `met` is MET, else LAPSED. -/
def State.onWatch (s : State) (w : WatchId) (met : Bool) : State :=
  match w with
  | .ceiling c => if met then s.raise c .overheat else s
  | .goal c => if met then s.onGoal c else s
  | .rise c => if met then s.onRise c else s
  | .release c => s.onRelease c met
  | .dip => if met then s.raiseBoth .mainsDip else s
  | .ductHot => if met then s.raiseBoth .ductHot else s
  | .light => s.refreshLit
  | .bayHot => if met then s.postBay .high else s
  | .bayCool => if met then s.postBay .off else s
  | .speed => if met then s.speedMet else s.speedLost

/-- Does `f` for the cavity of a HEATER, FAN or LAMP load. -/
def State.onCavityLoad (s : State) (i : Fin 16) (f : State → Cav → State) : State :=
  match (s.entry i).cls.cavityClass, (s.entry i).cavity with
  | true, .of c => f s c
  | true, .shared => s
  | false, _ => s

/-- R129, R168: a converter fault goes to each context that demanded the converter when the fault was handed over. -/
def State.onConverterFault (s : State) (zero one : Bool) : State :=
  let tell (s : State) (c : Cav) (demanded : Bool) : State := if demanded then s.raise c .loadFault else s
  tell (tell s .zero zero) .one one

/-- R51: the fault destination of a load's class; a BLOWER's fault changes nothing (R163), and a CONVERTER's is reported as a
converter fault (R168). -/
def State.onFault (s : State) (i : Fin 16) : State :=
  match (s.entry i).cls, (s.entry i).cavity with
  | .heater, .of c => s.onLoadFault c
  | .fan, .of c => s.onLoadFault c
  | .lamp, .of c => s.onLoadFault c
  | .lock, .of c => s.motorFault c
  | .converter, _ => s
  | .blower, _ => s
  | .unused, _ => s
  | .heater, .shared => s
  | .fan, .shared => s
  | .lamp, .shared => s
  | .lock, .shared => s

/-- R165 step 4, R117, R29: STALLED reaches both contexts and the Relay Unit, in the rule's order (log 30). -/
def State.onStalled (s : State) : State :=
  ((s.haltActive .zero .blowerStall).haltActive .one .blowerStall).withdrawHeating

/-- Acts on one report. -/
def State.handle (s : State) : Event → State
  | .chanState u left entered => s.onChanState u left entered
  | .watch w met => s.onWatch w met
  | .doorReport c d l _ lc => (s.lockDoorReport c d l lc).onDoorReport c d l
  | .probeReading c => s.onProbeReading c
  | .stateTapped i => s.onCavityLoad i State.prepareTest
  | .offFailed i => s.onCavityLoad i State.onOffFailed
  | .loadFault i => s.onFault i
  | .converterFault zero one => s.onConverterFault zero one
  | .lock c r => s.onLockReport c r
  | .stalled => s.onStalled
  | .lit now => if now then (s.onLit .zero).onLit .one else s
  | .holdDone c => s.onHoldDone c

/-- Acts on at most `n` reports, first delivered first. -/
def settleUpTo : Nat → State → State
  | 0, s => s
  | n + 1, s =>
    match s.events with
    | [] => s
    | e :: rest => settleUpTo n (({ s with events := rest }).handle e)

/-- Acts on the reports delivered so far and on those they lead to (log 6). -/
def State.settle (s : State) : State := settleUpTo Config.reportsPerStep s

/-! ## STOP (R183) and the silent link (R17) -/

/-- R183: the loads STOP switches off, in Load Table entry order. -/
def State.stopLoads (s : State) : List (Fin 16) := (indexes 16).filter (fun i => (s.entry i).cls.heating)

/-- R183: an assertion of STOP. -/
def State.assertStop (s : State) : State :=
  if s.stopAsserted then s
  else
    let s1 := ({ s with stopAsserted := true }).flagPart
    (((s1.engineOffs s1.stopLoads).withdrawHeating).haltActive .zero .stop).haltActive .one .stop

/-- R183: a deassertion of STOP. -/
def State.deassertStop (s : State) : State :=
  if s.stopAsserted then ({ s with stopAsserted := false }).flagPart else s

/-- R17, R39, R130: the link becomes SILENT. -/
def State.goSilent (s : State) : State :=
  (((({ s with live := false, silence := none }).takeOver).raiseBoth .linkLost)).flagPart

end Sys2Proof.Machine
end

