-- ==== Sys2Proof/Machine/Bus.lean ====
section
/-! DEFINITION. The Bus Scheduler (R31 to R36, R11) and the upstream transmitter (R14). -/

namespace Sys2Proof.Machine

/-! ## Taking a frame (R31) -/

/-- R11: the reply a frame of a KIND expects. -/
def expectOf (kind : Byte) : Expect :=
  if kind = kindDrive then .state else if kind = kindAsk then .reading else .any

/-- R13: a frame of the engine, with the present value of the TAG sequence. -/
def State.engineFrame (s : State) (node kind : Byte) (payload : List Byte) : Frame :=
  { dest := node, src := 120, kind := kind, tag := s.tagSeq, payload := payload }

/-- R31, R32: a frame becomes the exchange in flight and its sending begins. -/
def State.beginExchange (s : State) (f : Frame) (p : Party) : State :=
  let tx := Transmitter.begin f s.now
  { s with
    busTx := tx
    exchange := some { frame := f, phase := .sending tx.sentAt, windowLength := millis s.limits.reply,
                       expects := expectOf f.kind, party := p } }

/-- R13: the engine TAG sequence steps. -/
def State.stepTag (s : State) : State := { s with tagSeq := s.tagSeq + 1 }

/-- R31: sends the frame an item of a bus queue stands for. -/
def State.sendItem (s : State) (q : QItem) (urgent : Bool) : State :=
  match q with
  | .drive i level again =>
    ((s.modRecord i (fun r => { r with attempt := if again then .again else .first })).beginExchange
      (s.engineFrame (s.entry i).node kindDrive [byteOf level]) (.drive i level urgent)).stepTag
  | .ask n =>
    (s.beginExchange (s.engineFrame (s.binding n).node kindAsk [byteOf (s.binding n).channel]) .poller).stepTag
  | .relayed tag =>
    match s.relayEntry tag with
    | some e =>
      (s.modRelay tag (fun e => { e with stage := .inFlight, stageSince := s.now, hold := none, carriesGrant := false })).beginExchange
        e.frame (.relay tag)
    | none => s

/-- R31: with no exchange in flight, takes the head of the urgent queue, else of the normal queue. -/
def State.takeFrame (s : State) : State :=
  match s.exchange with
  | some _ => s
  | none =>
    match s.urgent, s.normal with
    | q :: rest, _ => ({ s.advance s.busTx.freeAt with urgent := rest }).sendItem q true
    | [], q :: rest => ({ s.advance s.busTx.freeAt with normal := rest }).sendItem q false
    | [], [] => s

/-- R32: the exchange's frame has been sent, and the reply window opens. -/
def State.openReplyWindow (s : State) : State :=
  match s.exchange with
  | some x =>
    match x.phase with
    | .sending t => { s.advance t with exchange := some { x with phase := .window (t + x.windowLength) } }
    | .window _ => s
  | none => s

/-! ## Ending an exchange (R11, R33, R36, R50) -/

/-- R187: a STATE or READING carries its LEN. -/
def replyLenGood (f : Frame) : Bool :=
  if f.kind = kindState then f.payload.length == 2 else if f.kind = kindReading then f.payload.length == 4 else true

/-- R11: the KIND is the one expected. -/
def Expect.admits (x : Expect) (kind : Byte) : Bool :=
  match x with
  | .state => kind == kindState
  | .reading => kind == kindReading
  | .any => true

/-- R11, R32: a received frame is the reply of an exchange (log 19). -/
def Exchange.isReply (now : Time) (x : Exchange) (f : Frame) : Bool :=
  match x.phase with
  | .sending _ => false
  | .window expires =>
    decide (now ≤ expires) && f.src == x.frame.dest && f.dest == x.frame.src && f.tag == x.frame.tag &&
      x.expects.admits f.kind && replyLenGood f

/-- R37, R38: an accepted STATE or READING is tapped. -/
def State.tap (s : State) (f : Frame) : State :=
  if f.kind = kindState then s.tapState f else if f.kind = kindReading then s.tapReading f else s

/-- R50, R187: what an engine DRIVE ended with, by its STATE. -/
def State.driveEnd (s : State) (i : Fin 16) (f : Frame) : DriveEnd :=
  match f.payload with
  | [level, cond] =>
    match stateOf (s.entry i).cls level cond with
    | some (l, c) => .state l c
    | none => .malformed
  | _ => .malformed

/-- R33: a reply goes to its exchange's party, after it has been tapped. -/
def State.handReply (s : State) (p : Party) (f : Frame) : State :=
  match p with
  | .relay tag => s.closeRelay tag f
  | .closedRelay => s
  | .drive i level urgent => s.judgeDrive i level urgent (s.driveEnd i f)
  | .poller => s

/-- R33: an accepted reply ends the exchange. The reports its tapping delivers are acted on before an engine DRIVE is judged, an
order R50 leaves open (the model's choice, log 41). -/
def State.endByReply (s : State) (x : Exchange) (f : Frame) : State :=
  (((({ s with exchange := none }).count .bus Counters.addAccepted).tap f).settle).handReply x.party f

/-- R11: a received bus frame is a reply or a stray. -/
def State.busFrame (s : State) (f : Frame) : State :=
  match s.exchange with
  | some x => if x.isReply s.now f then s.endByReply x f else s.count .bus Counters.addDiscarded
  | none => s.count .bus Counters.addDiscarded

/-- R33: the expiry of an exchange's reply window goes to its party. -/
def State.handExpiry (s : State) (p : Party) : State :=
  match p with
  | .relay tag => s.closeFail tag failNoReply
  | .closedRelay => s
  | .drive i level urgent => s.judgeDrive i level urgent .noReply
  | .poller => s

/-- R33: the reply window expires. -/
def State.expireWindow (s : State) : State :=
  match s.exchange with
  | some x =>
    match x.phase with
    | .window t => ({ s.advance t with exchange := none }).handExpiry x.party
    | .sending _ => s
  | none => s

/-! ## Upstream (R14) -/

/-- R14: the upstream transmitter takes the head of the output queue. -/
def State.transmit (s : State) : State :=
  match s.outQueue with
  | f :: rest =>
    let s1 := s.advance s.upTx.freeAt
    { s1 with outQueue := rest, upTx := Transmitter.begin f s1.now }
  | [] => s

end Sys2Proof.Machine
end

