-- ==== Sys2Proof/Machine/Report.lean ====
section
/-! DEFINITION. REPORT's snapshots (R178, R179, R188) and the notices (R180, R181). -/

namespace Sys2Proof.Machine

/-- R186: the bank a context names. -/
def bankByte : Option BankId → Byte
  | none => 0xFF
  | some b => whichByte b

/-- R178: PART. -/
def State.reportPart (s : State) : List Byte :=
  [flagByte s.stopAsserted, flagByte s.faultCondition, flagByte s.live] ++ natBytes s.heldSum ++ natBytes s.limits.budget ++
    [byteOf s.grantQueue.length, byteOf s.relay.length, blowLevelCode s.air.level, blowLevelCode s.air.cavDemand.zero,
      blowLevelCode s.air.cavDemand.one, blowLevelCode s.air.controllerDemand, blowLevelCode s.air.bayDemand] ++
    timerBytes s.now Config.sec s.air.runOn ++
    [stallCheckCode s.air.stall, flagByte s.air.convDemand, flagByte s.air.lit, flagByte s.notices.cav.zero,
      flagByte s.notices.cav.one, flagByte s.notices.part]

/-- R12: the six counters of a port. -/
def countBytes (k : Counters) : List Byte :=
  natBytes k.accepted ++ natBytes k.crcErrors ++ natBytes k.charErrors ++ natBytes k.gapAborts ++ natBytes k.lengthErrors ++
    natBytes k.discarded

/-- R178: PORTS. -/
def State.reportPorts (s : State) : List Byte := countBytes s.up.count ++ countBytes s.bus.count

/-- R178, log 13: the place of a load's waiting request, counted from 0. -/
def State.queuePlace (s : State) (i : Fin 16) : Option Nat :=
  if (s.record i).grant = .waiting then s.grantQueue.findIdx? (fun r => r.load == i) else none

/-- R44, R188: a Load Record and the place of its request. -/
def State.loadRecordBytes (s : State) (i : Fin 16) : List Byte :=
  let r := s.record i
  [levelByte r.commanded, ownerCode r.owner, levelByte r.confirmed, nodeCondCode r.condition, grantCode r.grant] ++
    ageBytes s.now Config.sec r.offSince ++
    [loadFaultCode r.fault, attemptCode r.attempt, indexByte (s.queuePlace i)]

/-- R178: LOAD n. -/
def State.reportLoad (s : State) (i : Fin 16) : List Byte :=
  loadEntryBytes (s.entry i) ++ if (s.entry i).used then s.loadRecordBytes i else []

/-- R188: the presence byte of a CHANNEL report. -/
def presenceByte (r : ChanRecord) : Byte :=
  flagByte r.latest.isSome ||| (flagByte r.previous.isSome <<< 1) ||| (flagByte r.quality.isSome <<< 2) |||
    (flagByte r.lastGood.isSome <<< 3)

/-- R66, R188: a Channel Record. -/
def chanRecordBytes (now : Time) (u : Use) (r : ChanRecord) : List Byte :=
  [chanStateCode r.state] ++ chanValueBytes u r.latest ++ chanValueBytes u r.previous ++
    [(r.quality.map qualityCode).getD 0, byteOf r.goodRun, byteOf r.badRun] ++ ageBytes now Config.msec r.lastGood ++
    [presenceByte r]

/-- R66, R178, R188: CHANNEL n; of an unused binding, which has no record, the binding and a presence byte with every bit clear
(log 44). -/
def State.reportChannel (s : State) (n : Fin 8) : List Byte :=
  bindingBytes (s.binding n) ++
    if (s.binding n).use = .unused then [0] else chanRecordBytes s.now (s.binding n).use (s.chanRecord n)

/-- R80, R94: a validation finding; what NONE is sent as is free (log 14). -/
def findingBytes : Option Finding → List Byte
  | some f => [bankCheckCode f.check, tableIdCode f.table, byteOf f.index]
  | none => [Config.noFindingByte 0, Config.noFindingByte 1, Config.noFindingByte 2]

/-- R94: BANK n. -/
def State.reportBank (s : State) (b : BankId) : List Byte :=
  [bankStateCode (s.bank b).state, byteOf (s.bank b).binds, flagByte ((s.cav .zero).bank == some b),
    flagByte ((s.cav .one).bank == some b)] ++ findingBytes (s.bank b).finding

/-- R96: the hold timer as a timer of a report: the time left, running or standing. -/
def holdBytes (now : Time) : Hold → List Byte
  | .stopped => [0xFF, 0xFF]
  | .running e => timerBytes now Config.sec (some e)
  | .standing l => natBytes (min 65534 (unitsUp Config.sec l))

/-- R179: the latest door report. -/
def doorReportBytes : Option (Door × Latch) → List Byte
  | some (d, l) => [doorCode d, latchCode l]
  | none => [0xFF, 0xFF]

/-- R116: the elapsed time in whole seconds. -/
def State.elapsedBytes (s : State) (c : Cav) : List Byte :=
  natBytes (min 65534 (unitsDown Config.sec (elapsedTime s.now (s.cav c).elapsed)))

/-- R179 page 0, the context. -/
def State.pageContext (s : State) (c : Cav) : List Byte :=
  let k := s.cav c
  let t := timerBytes s.now Config.sec
  [cavStateCode k.state, surveyStageCode k.stage, flagByte k.doorSeen, flagByte k.probeSeen] ++ doorReportBytes k.doorReport ++
    [bankByte k.bank, indexByte k.entry, indexByte k.segment, byteOf k.marker, byteOf k.zeroRun] ++ tempBytes k.entryTemp ++
    [flagByte k.litWait, backOffCode k.backOff, reasonCode k.reason, blowLevelCode k.blower, convFieldCode k.converter] ++
    t k.survey ++ t k.long ++ t k.short ++ holdBytes s.now k.hold ++ t k.dwell ++ t k.blind ++ s.elapsedBytes c ++
    tempBytes (s.probeTemp c)

/-- R179: the window's period in use; free before the first window (log 15). -/
def periodBytes : Option Nat → List Byte
  | some p => natBytes p
  | none => [Config.noPeriodByte 0, Config.noPeriodByte 1]

/-- R179: the duties in use; free before the first window (log 15). -/
def dutyBytes : Option (PerPos Nat) → List Byte
  | some d => [byteOf d.top, byteOf d.bottom, byteOf d.rear]
  | none => [Config.noDutyByte 0, Config.noDutyByte 1, Config.noDutyByte 2]

/-- R179 page 1, lock and window. The time since the window's start is counted in seconds, a unit that R188 does not give (the
model's choice, log 48). -/
def State.pageLock (s : State) (c : Cav) : List Byte :=
  let k := s.lock c
  let w := s.window c
  [lockStateCode k.state, byteOf k.attempt, flagByte k.held, jamCode k.jam, confirmModeCode (s.limits.mode.get c),
    flagByte w.running] ++ periodBytes w.period ++ ageBytes s.now Config.sec w.start ++ dutyBytes w.duty

/-- R188: a remaining time on the stack. -/
def remainingBytes : Option Time → List Byte
  | none => [0xFF, 0xFF]
  | some t => natBytes (min 65534 (unitsUp Config.sec t))

/-- R188: a stack entry, or an unfilled one. -/
def stackBytes : Option StackEntry → List Byte
  | some e => [byteOf e.segment, causeCode e.cause] ++ remainingBytes e.longLeft ++ remainingBytes e.holdLeft
  | none => [0xFF, 0xFF, 0xFF, 0xFF, 0xFF, 0xFF]

/-- R179 page 2, recovery. -/
def State.pageRecovery (s : State) (c : Cav) : List Byte :=
  let k := s.cav c
  [byteOf k.stack.length] ++ stackBytes k.stack[0]? ++ stackBytes k.stack[1]? ++ stackBytes k.stack[2]? ++
    stackBytes k.stack[3]? ++ k.pending.toList.map flagByte ++ k.counts.toList.map byteOf

/-- R124, R179 page 3, first fault; what the empty record is sent as is free (log 14). -/
def faultBytes : Option FaultRecord → List Byte
  | some f =>
    [reasonCode f.reason, indexByte f.segment, byteOf f.depth] ++ tempBytes f.temperature ++ natBytes (min 65534 f.elapsed)
  | none => (indexes 7).map Config.noFaultByte

/-- R179: a page of a cavity's report; `none` is no page. -/
def State.reportCavity (s : State) (c : Cav) (page : Byte) : Option (List Byte) :=
  ([s.pageContext c, s.pageLock c, s.pageRecovery c, faultBytes (s.cav c).firstFault])[page.toNat]?

/-- R178, R186: the snapshot of a subject and number; `none` is RANGE. -/
def State.snapshot (s : State) (subject number : Byte) : Option (List Byte) :=
  match subject.toNat with
  | 0 => if number = 0 then some s.reportPart else none
  | 1 => if number = 0 then some s.reportPorts else none
  | 2 => if h : number.toNat < 16 then some (s.reportLoad ⟨number.toNat, h⟩) else none
  | 3 => if h : number.toNat < 8 then some (s.reportChannel ⟨number.toNat, h⟩) else none
  | 4 => (whichOf number).map s.reportBank
  | 5 => s.reportCavity .zero number
  | 6 => s.reportCavity .one number
  | _ => none

/-! ## Notices (R180, R181, R187) -/

/-- R125, R181: the cause of the top stack entry. -/
def topCauseByte : List StackEntry → Byte
  | [] => 0xFF
  | e :: _ => causeCode e.cause

/-- R181, R187: a cavity's snapshot. -/
def State.noticeCavity (s : State) (c : Cav) : List Byte :=
  let k := s.cav c
  [cavStateCode k.state, reasonCode k.reason, bankByte k.bank, indexByte k.segment, byteOf k.marker, byteOf k.stack.length,
    topCauseByte k.stack, lockStateCode (s.lock c).state, jamCode (s.lock c).jam] ++ s.elapsedBytes c

/-- R181, R187: the part's snapshot. -/
def State.noticePart (s : State) : List Byte :=
  [flagByte s.stopAsserted, flagByte s.faultCondition, flagByte s.live, blowLevelCode s.air.level, stallCheckCode s.air.stall,
    flagByte s.air.lit] ++ natBytes s.heldSum

/-- R187: a NOTICE: PART 0, CAVITY0 5, CAVITY1 6. -/
def notice (subject : Byte) (snapshot : List Byte) : Frame := partFrame 0x32 0 (subject :: snapshot)

/-- R187: a cavity's subject code. -/
def cavSubject : Cav → Byte
  | .zero => 5
  | .one => 6

/-- R181: serves a cavity's flag. -/
def State.serveCav (s : State) (c : Cav) : State :=
  if s.notices.cav.get c && s.placeTest then
    let s1 := s.place (notice (cavSubject c) (s.noticeCavity c))
    { s1 with notices := { s1.notices with cav := s1.notices.cav.set c false } }
  else s

/-- R181: serves the PART flag. -/
def State.servePart (s : State) : State :=
  if s.notices.part && s.placeTest then
    let s1 := s.place (notice 0 s.noticePart)
    { s1 with notices := { s1.notices with part := false } }
  else s

/-- R181: serves the flags in order; after a failed place test nothing changes, so the later ones fail too. -/
def State.serveNotices (s : State) : State := ((s.serveCav .zero).serveCav .one).servePart

/-- What ends every command: the notices are served and the FAULT line follows its condition (R181, R184, log 7). -/
def State.conclude (s : State) : State := s.serveNotices.driveFault

end Sys2Proof.Machine
end

