-- ==== Sys2Proof/Machine/Banks.lean ====
section
/-! DEFINITION. The Program Store (chapter 5): VALIDATE's checks (R91) and the writing of a bank (R81, R90). -/

namespace Sys2Proof.Machine

/-! ## VALIDATE (R91) -/

/-- The first finding of a check made on each item of a list, from index `n`. -/
def firstFinding {α : Type} (check : Nat → α → Option Finding) : Nat → List α → Option Finding
  | _, [] => none
  | n, a :: as =>
    match check n a with
    | some f => some f
    | none => firstFinding check (n + 1) as

/-- R91 checks 1 to 3. -/
def checkLimits (l : BankLimits) : Option Finding :=
  if bankLimitsInRange l then
    if l.release < l.ceiling then
      if l.startLimit < l.release then none
      else some { check := .startAboveRelease, table := .bankLimits, index := 0 }
    else some { check := .releaseAboveCeiling, table := .bankLimits, index := 0 }
  else some { check := .limitsUnset, table := .bankLimits, index := 0 }

/-- R83: the kinds that use next. -/
def SegKind.usesNext : SegKind → Bool
  | .ramp => true
  | .soak => true
  | .cool => true
  | .check => true
  | .mark => true
  | .ret => false
  | .fin => false

/-- R91 checks 4 to 6 on one record. -/
def checkSegment (n : Nat) (g : Segment) : Option Finding :=
  if g.kind.usesNext && decide (40 ≤ g.next.toNat) then some { check := .nextIndex, table := .segments, index := n }
  else if g.kind = .check ∧ 40 ≤ g.alternate.toNat then some { check := .alternateIndex, table := .segments, index := n }
  else if g.kind = .ramp ∧ g.duration = 0 then some { check := .rampDuration, table := .segments, index := n }
  else none

/-- R91 check 7 on one entry. -/
def checkVector (n : Nat) (v : Byte) : Option Finding :=
  if v ≠ 0xFF ∧ 40 ≤ v.toNat then some { check := .vectorIndex, table := .causes, index := n } else none

/-- R91 check 8 on a band and the one before it. -/
def checkOrder (n : Nat) (p : DutyBand × DutyBand) : Option Finding :=
  if p.1.threshold.isNone && p.2.threshold.isSome then some { check := .bandOrder, table := .duty, index := n } else none

/-- R91 check 9 on a band and the one before it. -/
def checkDescent (n : Nat) (p : DutyBand × DutyBand) : Option Finding :=
  match p.1.threshold, p.2.threshold with
  | some a, some b => if b < a then none else some { check := .bandDescent, table := .duty, index := n }
  | _, _ => none

/-- Neighbouring items of a list, as pairs. -/
def neighbours {α : Type} : List α → List (α × α)
  | a :: b :: rest => (a, b) :: neighbours (b :: rest)
  | _ => []

/-- R91: the first failing check of a bank. -/
def validateBank (b : Bank) : Option Finding :=
  (checkLimits b.limits).or
    ((firstFinding checkSegment 0 b.segments.toList).or
      ((firstFinding checkVector 0 b.causes.toList).or
        ((firstFinding checkOrder 1 (neighbours b.duty.toList)).or (firstFinding checkDescent 1 (neighbours b.duty.toList)))))

/-- R81, R91: a bank after VALIDATE. -/
def Bank.validated (b : Bank) : Bank :=
  match validateBank b with
  | none => { b with state := .valid, finding := none }
  | some f => { b with finding := some f }

/-! ## Storing records -/

/-- Reads records in order; the other answer is the index, from `n`, of the first that does not read. -/
def parseFrom {α : Type} (parse : List Byte → Option α) : Nat → List (List Byte) → Except Nat (List α)
  | _, [] => .ok []
  | n, r :: rs =>
    match parse r with
    | none => .error n
    | some a =>
      match parseFrom parse (n + 1) rs with
      | .ok as => .ok (a :: as)
      | .error m => .error m

/-- Stores records from an index upwards. -/
def storeFrom {α : Type} {m : Nat} (v : Vector α m) : Nat → List α → Vector α m
  | _, [] => v
  | n, a :: as => storeFrom (v.setIfInBounds n a) (n + 1) as

/-- A cause vector entry is stored as written (R86). -/
def vectorEntryOf : List Byte → Option Byte
  | [v] => some v
  | _ => none

/-- R90: a bank with records stored in one of its tables; the other answer is the index of the first failing record. -/
def Bank.store (b : Bank) (t : TableId) (index : Nat) (records : List (List Byte)) : Except Nat Bank :=
  match t with
  | .segments => (parseFrom segmentOf index records).map (fun rs => { b with segments := storeFrom b.segments index rs })
  | .causes => (parseFrom vectorEntryOf index records).map (fun rs => { b with causes := storeFrom b.causes index rs })
  | .duty => (parseFrom dutyBandOf index records).map (fun rs => { b with duty := storeFrom b.duty index rs })
  | .bankLimits => (parseFrom bankLimitsOf index records).map (fun rs => { b with limits := rs.headD b.limits })
  | .loads | .channels | .admission | .limits => .ok b

/-- R81, R90: a bank that has been written. -/
def Bank.written (b : Bank) : Bank := { b with state := .written, finding := none }

end Sys2Proof.Machine
end

