-- ==== Sys2Proof/Machine/Tables.lean ====
section
/-! DEFINITION. WRITE (R174) with its owners' tests and consequences (R42, R43, R64, R90, R97, R99, R163, R164, R169, R175),
and READ's records (R176). -/

namespace Sys2Proof.Machine

/-- A refusal of a management command: its result code and data. -/
abbrev Refused := Byte × List Byte

/-! ## Result codes (R186) -/

def codeDone : Byte := 0
def codeBadFrame : Byte := 1
def codeNoTable : Byte := 2
def codeRange : Byte := 3
def codeConflict : Byte := 4
def codeNotQuiet : Byte := 5
def codeBankBound : Byte := 6
def codeBankInvalid : Byte := 7
def codeLoadActive : Byte := 8
def codeLimitBelowHeld : Byte := 9
def codeCavityBusy : Byte := 10
def codePrecondition : Byte := 11
def codeNotRunning : Byte := 12
def codeNotSafe : Byte := 13

/-- RANGE on a WRITE: the index of the first failing record. -/
def rangeAt (n : Nat) : Refused := (codeRange, [byteOf n])

/-- R173: the part is quiet. -/
def State.quiet (s : State) : Bool :=
  let still (st : CavState) : Bool := st == .survey || st == .opened
  still (s.cav .zero).state && still (s.cav .one).state

/-! ## LOADS (R42, R43) -/

/-- R43: the load is busy. -/
def State.loadBusy (s : State) (i : Fin 16) : Bool :=
  (s.record i).grant != .noGrant || s.urgent.any (isDriveFor i) || s.normal.any (isDriveFor i) ||
    match s.exchange with
    | some { party := .drive j _ _, .. } => i == j
    | some { party := .relay _, .. } => false
    | some { party := .closedRelay, .. } => false
    | some { party := .poller, .. } => false
    | none => false

/-- R42: two used entries that may not stand in one table. -/
def loadsClash (a b : LoadEntry) : Bool :=
  a.used && b.used &&
    (a.node == b.node ||
      (a.cls == b.cls &&
        (a.cls == .blower || a.cls == .converter ||
          (a.cavity == b.cavity && (a.cls != .heater || a.position == b.position)))))

/-- R42: an entry whose own fields do not fit its class. -/
def entryMisfit (e : LoadEntry) : Bool :=
  match e.cls with
  | .unused => false
  | .blower | .converter => e.cavity != .shared || e.position != .nowhere
  | .lock | .fan | .lamp => e.cavity == .shared || e.position != .nowhere
  | .heater => e.cavity == .shared || e.position == .nowhere

/-- R42, log 11: the entry breaks a constraint of the table. -/
def loadBreaks (t : Fin 16 → LoadEntry) (i : Fin 16) : Bool :=
  entryMisfit (t i) || (indexes 16).any (fun j => i != j && loadsClash (t i) (t j))

/-- R43: a slot after a write of its entry. -/
def LoadSlot.write (old : LoadSlot) (e : LoadEntry) : LoadSlot :=
  if e.used && old.entry.used && e.node == old.entry.node && e.cls == old.entry.cls then { old with entry := e }
  else { entry := e, record := LoadRecord.fresh }

/-- The entries a write leaves, index by index. -/
def State.loadsAfter (s : State) (index : Nat) (es : List LoadEntry) (i : Fin 16) : LoadEntry :=
  if index ≤ i.val then es.getD (i.val - index) (s.entry i) else s.entry i

/-- R43: the touched, busy, used entries that would differ. -/
def State.loadActive (s : State) (after : Fin 16 → LoadEntry) : Option (Fin 16) :=
  (indexes 16).find? (fun i => (s.entry i).used && s.loadBusy i && after i != s.entry i)

/-- R163: the write makes a fresh BLOWER record. -/
def State.freshBlower (s : State) (after : Fin 16 → LoadEntry) : Bool :=
  (indexes 16).any (fun i => (after i).cls == .blower && ((s.entry i).cls != .blower || (s.entry i).node != (after i).node))

/-- R97, R99: an entry that is one of a cavity's survey bindings. -/
def surveyLoad (c : Cav) (e : LoadEntry) : Bool := (e.cls == .lock || e.cls.cavityClass) && e.cavity == .of c

/-- R99: the write creates, removes or changes a LOCK, HEATER, FAN or LAMP entry of the cavity. -/
def State.touchesLoads (s : State) (after : Fin 16 → LoadEntry) (c : Cav) : Bool :=
  (indexes 16).any (fun i => after i != s.entry i && (surveyLoad c (s.entry i) || surveyLoad c (after i)))

/-- R174: the consequences of a write of LOADS, on the part that holds the new table. R174 lists them without an order: the blower
is driven first, then the stall check and LIT are found anew, then the surveys are tested, cavity 0 first, so that the blower's
DRIVE stands before a survey's offs in the urgent queue (the model's choice, log 47). -/
def State.afterLoads (s : State) (fresh : Bool) (touched : Cav → Bool) : State :=
  let s1 := if fresh then s.driveBlower else s
  ((s1.refreshAble.refreshLit).surveyAfterWrite .zero (touched .zero)).surveyAfterWrite .one (touched .one)

/-- R42, R43, R174: a WRITE of LOADS. -/
def State.writeLoads (s : State) (index : Nat) (records : List (List Byte)) : Except Refused State :=
  match parseFrom loadEntryOf index records with
  | .error n => .error (rangeAt n)
  | .ok es =>
    let after := s.loadsAfter index es
    match s.loadActive after, (indexes 16).find? (loadBreaks after) with
    | some i, _ => .error (codeLoadActive, [byteOf i.val])
    | none, some i => .error (codeConflict, [byteOf i.val])
    | none, none =>
      .ok (({ s with loads := Vector.ofFn (fun i => (s.loads.get i).write (after i)) }).afterLoads (s.freshBlower after)
        (s.touchesLoads after))

/-! ## CHANNELS (R63, R64) -/

/-- R64: two used bindings that may not stand in one table. -/
def bindingsClash (a b : Binding) : Bool :=
  a.use != .unused && b.use != .unused && (a.use == b.use || (a.node == b.node && a.channel == b.channel))

/-- R64, log 11: the binding breaks a constraint of the table. -/
def bindingBreaks (t : Fin 8 → Binding) (n : Fin 8) : Bool := (indexes 8).any (fun m => n != m && bindingsClash (t n) (t m))

/-- R64: a write keeps a binding's use, node address and node channel. -/
def sameBinding (a b : Binding) : Bool := a.use == b.use && a.node == b.node && a.channel == b.channel

/-- R64, R66, R69: a slot after a write of its binding. -/
def ChanSlot.write (stale : Timer) (old : ChanSlot) (b : Binding) : ChanSlot :=
  if b.use = .unused then { binding := b, record := ChanRecord.unbound }
  else if sameBinding b old.binding then { old with binding := b }
  else { binding := b, record := { ChanRecord.unbound with state := .unknown, stale := stale } }

/-- The bindings a write leaves, index by index. -/
def State.bindingsAfter (s : State) (index : Nat) (bs : List Binding) (n : Fin 8) : Binding :=
  if index ≤ n.val then bs.getD (n.val - index) (s.binding n) else s.binding n

/-- R64: a queued poller ASK whose binding's node or node channel changed, or that became NONE. -/
def State.dropsAsk (s : State) (after : Fin 8 → Binding) : QItem → Bool
  | .ask n => (after n).use == .unused || (after n).node != (s.binding n).node || (after n).channel != (s.binding n).channel
  | .drive _ _ _ => false
  | .relayed _ => false

/-- Every use but NONE. -/
def uses : List Use := [.probe .zero, .probe .one, .door .zero, .door .one, .mains, .tacho, .bay, .duct]

/-- R97, R99: a binding that is one of a cavity's survey bindings. -/
def surveyBinding (c : Cav) (b : Binding) : Bool := b.use == .probe c || b.use == .door c

/-- R99, log 21: the write creates, removes or changes the cavity's PROBE or DOOR binding. -/
def State.touchesChannels (s : State) (after : Fin 8 → Binding) (c : Cav) : Bool :=
  (indexes 8).any (fun n => after n != s.binding n && (surveyBinding c (s.binding n) || surveyBinding c (after n)))

/-- R64: a binding of the use was created, removed or changed since `before`. -/
def State.rebound (s before : State) (u : Use) : Bool :=
  (indexes 8).any (fun n =>
    ((before.binding n).use == u || (s.binding n).use == u) && !sameBinding (s.binding n) (before.binding n))

/-- R64: the binding reports of a write, `before` being the part before it; of several uses in the order of `uses`, which the
rule leaves open (the model's choice, log 37). -/
def State.bindingReports (s before : State) : State :=
  (uses.filter (fun u => s.rebound before u)).foldl (fun t u => t.announce u (before.channel u).state (s.channel u).state) s

/-- R64, R174: a WRITE of CHANNELS. -/
def State.writeChannels (s : State) (index : Nat) (records : List (List Byte)) : Except Refused State :=
  match parseFrom bindingOf index records with
  | .error n => .error (rangeAt n)
  | .ok bs =>
    let after := s.bindingsAfter index bs
    match (indexes 8).find? (bindingBreaks after) with
    | some n => .error (codeConflict, [byteOf n.val])
    | none =>
      let stale := s.timer (seconds s.limits.stale)
      let s1 := { s with
        chans := Vector.ofFn (fun n => ChanSlot.write stale (s.chans.get n) (after n))
        normal := s.normal.filter (fun q => !s.dropsAsk after q) }
      .ok ((((s1.bindingReports s).refreshAble).surveyAfterWrite .zero (s.touchesChannels after .zero)).surveyAfterWrite .one
        (s.touchesChannels after .one))

/-! ## ADMIT and LIMITS (R173, R175) -/

/-- R173, R174: a WRITE of ADMIT. -/
def State.writeAdmission (s : State) (index : Nat) (records : List (List Byte)) : Except Refused State :=
  match parseFrom admissionOf index records with
  | .error n => .error (rangeAt n)
  | .ok rs => .ok { s with admission := storeFrom s.admission index rs }

/-- R75: sets a part-wide watch again where its level has changed. -/
def State.resetWatch (s : State) (w : WatchId) (side : Side) (was level : Int) : State :=
  if was = level then s else s.setWatch w side level

/-- R175: each field that changed takes effect; the part holds the new record, `old` is the former one. -/
def State.afterLimits (s : State) (old : Limits) : State :=
  let l := s.limits
  let s1 := { s with silence := s.timer (millis l.silence) }
  let s2 := if old.budget = l.budget then s1 else s1.considerHead
  let s3 := ((((s2.resetWatch .dip .below old.dip l.dip).resetWatch .ductHot .above old.duct l.duct).resetWatch .light .atOrAbove
    old.light l.light).resetWatch .bayHot .above old.bay l.bay).resetWatch .bayCool .atOrBelow (old.bay - 10) (l.bay - 10)
  let s4 := if old.tacho.at s.air.level = l.tacho.at s.air.level then s3 else s3.aimSpeed
  if old.map.at s.air.level = l.map.at s.air.level then s4 else s4.driveBlower

/-- R175: a WRITE of LIMITS. -/
def State.writeLimits (s : State) (records : List (List Byte)) : Except Refused State :=
  match parseFrom limitsOf 0 records with
  | .error n => .error (rangeAt n)
  | .ok [] => .ok s
  | .ok (l :: _) =>
    if l.budget < s.heldSum then .error (codeLimitBelowHeld, natBytes s.heldSum)
    else .ok (({ s with limits := l }).afterLimits s.limits)

/-! ## Banks (R90) -/

/-- R90: a WRITE to a bank table. -/
def State.writeBank (s : State) (t : TableId) (b : BankId) (index : Nat) (records : List (List Byte)) : Except Refused State :=
  if 0 < (s.bank b).binds then .error (codeBankBound, [])
  else
    match (s.bank b).store t index records with
    | .error n => .error (rangeAt n)
    | .ok k => .ok (s.modBank b (fun _ => k.written))

/-! ## WRITE and READ (R174, R176) -/

/-- R174 test 4: the owner's tests and the storing. -/
def State.writeOwner (s : State) (t : TableId) (b : BankId) (index : Nat) (records : List (List Byte)) : Except Refused State :=
  match t with
  | .loads => s.writeLoads index records
  | .channels => s.writeChannels index records
  | .admission => s.writeAdmission index records
  | .limits => s.writeLimits records
  | .segments | .causes | .duty | .bankLimits => s.writeBank t b index records

/-- R174: a WRITE of records at the pointer, up to the move of the pointer. -/
def State.writeAt (s : State) (payload : List Byte) : Except Refused State :=
  let t := s.pointer.table
  let n := payload.length / recordSize t
  if payload.length % recordSize t ≠ 0 ∨ n = 0 then .error (codeBadFrame, [])
  else if recordCount t < s.pointer.index + n then .error (rangeAt (recordCount t))
  else if !isBankTable t && !s.quiet then .error (codeNotQuiet, [])
  else s.writeOwner t s.pointer.bank s.pointer.index (chunks (recordSize t) n payload)

/-- R173: the pointer moves forward. -/
def State.movePointer (s : State) (n : Nat) : State := { s with pointer := { s.pointer with index := s.pointer.index + n } }

/-- R176, R188: one record as READ returns it. -/
def State.recordBytes (s : State) (t : TableId) (b : BankId) (n : Nat) : List Byte :=
  match t with
  | .loads => (s.loads[n]?.map (fun k => loadEntryBytes k.entry)).getD []
  | .channels => (s.chans[n]?.map (fun k => bindingBytes k.binding)).getD []
  | .admission => (s.admission[n]?.map admissionBytes).getD []
  | .limits => limitsBytes s.limits
  | .segments => ((s.bank b).segments[n]?.map segmentBytes).getD []
  | .causes => ((s.bank b).causes[n]?.map (fun v => [v])).getD []
  | .duty => ((s.bank b).duty[n]?.map dutyBandBytes).getD []
  | .bankLimits => bankLimitsBytes (s.bank b).limits

/-- R176: how many records a READ returns. -/
def State.readCount (s : State) (count : Nat) : Nat :=
  min count (min (recordCount s.pointer.table - s.pointer.index) (37 / recordSize s.pointer.table))

/-- R176: the records from the pointer upwards. -/
def State.readRecords (s : State) (n : Nat) : List Byte :=
  (List.range n).flatMap (fun k => s.recordBytes s.pointer.table s.pointer.bank (s.pointer.index + k))

end Sys2Proof.Machine
end

