-- ==== Sys2Proof/Machine/Manage.lean ====
section
/-! DEFINITION. The Management Unit's commands (chapter 10): the form tests of R172, then each command by its own rule, with
the result code and data of its ANSWER. -/

namespace Sys2Proof.Machine

/-- What a management command leaves and answers. -/
structure Answered where
  state : State
  code : Byte
  data : List Byte

def answerDone (s : State) : Answered := { state := s, code := codeDone, data := [] }
def answerCode (s : State) (code : Byte) : Answered := { state := s, code := code, data := [] }

/-- R173: SEEK. -/
def State.doSeek (s : State) (payload : List Byte) : Answered :=
  match payload with
  | [table, bank, index] =>
    match tableIdOf table with
    | none => answerCode s codeNoTable
    | some t =>
      match (if isBankTable t then whichOf bank else some s.pointer.bank) with
      | none => answerCode s codeNoTable
      | some b =>
        if recordCount t ≤ index.toNat then answerCode s codeRange
        else answerDone { s with pointer := { table := t, bank := b, index := index.toNat } }
  | _ => answerCode s codeBadFrame

/-- R174: WRITE. -/
def State.doWrite (s : State) (payload : List Byte) : Answered :=
  match s.writeAt payload with
  | .error (code, data) => { state := s, code := code, data := data }
  | .ok s1 =>
    let s2 := s1.movePointer (payload.length / recordSize s.pointer.table)
    { state := s2, code := codeDone, data := [byteOf s2.pointer.index] }

/-- R176: READ. With no record to return (the pointer at its table's end) the ANSWER carries the pointer's index, since there is no
first record whose index it could carry (the model's choice, log 43). -/
def State.doRead (s : State) (payload : List Byte) : Answered :=
  match payload with
  | [count] =>
    if count = 0 then answerCode s codeBadFrame
    else if 40 < count.toNat then answerCode s codeRange
    else
      let n := s.readCount count.toNat
      { state := s.movePointer n, code := codeDone, data := byteOf s.pointer.index :: byteOf n :: s.readRecords n }
  | _ => answerCode s codeBadFrame

/-- R187: the data of BANK-INVALID on VALIDATE. -/
def findingData (f : Finding) : List Byte := [bankCheckCode f.check, tableIdCode f.table, byteOf f.index]

/-- R91, R177: VALIDATE. -/
def State.doValidate (s : State) (payload : List Byte) : Answered :=
  match payload with
  | [bank] =>
    match whichOf bank with
    | none => answerCode s codeRange
    | some b =>
      let s1 := s.modBank b Bank.validated
      match validateBank (s.bank b) with
      | none => answerDone s1
      | some f => { state := s1, code := codeBankInvalid, data := findingData f }
  | _ => answerCode s codeBadFrame

/-- R100: the condition that refuses a START, with its data; `none` accepts it. -/
def State.startRefusal (s : State) (c : Cav) (b : BankId) (entry : Nat) : Option Refused :=
  if (s.cav c).state ≠ .opened then some (codeCavityBusy, [])
  else if (s.bank b).state ≠ .valid then some (codeBankInvalid, [])
  else if ((s.bank b).segments.toList.getD entry Segment.zero).kind = .ret then some (codePrecondition, [0])
  else if s.stopAsserted then some (codePrecondition, [1])
  else if s.air.stall = .stalled then some (codePrecondition, [2])
  else if s.doorConfirmedClosed c = false then some (codePrecondition, [3])
  else if s.isLive (.probe c) = false then some (codePrecondition, [4])
  else
    match s.probeTemp c with
    | some t => if t ≤ (s.bank b).limits.startLimit then none else some (codePrecondition, [5])
    | none => some (codePrecondition, [5])

/-- R100, R101: START. -/
def State.doStart (s : State) (payload : List Byte) : Answered :=
  match payload with
  | [cavity, bank, entry] =>
    match whichOf cavity, whichOf bank with
    | some c, some b =>
      if 40 ≤ entry.toNat then answerCode s codeRange
      else
        match s.startRefusal c b entry.toNat with
        | some (code, data) => { state := s, code := code, data := data }
        | none => answerDone (s.acceptStart c b entry.toNat)
    | _, _ => answerCode s codeRange
  | _ => answerCode s codeBadFrame

/-- R121: CANCEL. -/
def State.doCancel (s : State) (payload : List Byte) : Answered :=
  match payload with
  | [cavity] =>
    match whichOf cavity with
    | none => answerCode s codeRange
    | some c =>
      match s.cancelCavity c with
      | (s1, true) => answerDone s1
      | (_, false) => answerCode s codeNotRunning
  | _ => answerCode s codeBadFrame

/-- R123: CLEAR. -/
def State.doClear (s : State) (payload : List Byte) : Answered :=
  match payload with
  | [cavity] =>
    match whichOf cavity with
    | none => answerCode s codeRange
    | some c =>
      if (s.cav c).state ≠ .halted then answerCode s codeNotRunning
      else if s.clearSafe c then answerDone (s.enterRelease c)
      else answerCode s codeNotSafe
  | _ => answerCode s codeBadFrame

/-- R178: REPORT. -/
def State.doReport (s : State) (payload : List Byte) : Answered :=
  match payload with
  | [subject, number] =>
    match s.snapshot subject number with
    | some data => { state := s, code := codeDone, data := data }
    | none => answerCode s codeRange
  | _ => answerCode s codeBadFrame

/-- R172: a KIND that is no management command. -/
def State.doBadKind (s : State) (_payload : List Byte) : Answered := answerCode s codeBadFrame

/-- Places a command's ANSWER (R13, R172), after the reports the command delivered have been acted on (log 35). -/
def Answered.placed (a : Answered) (tag : Byte) : State := a.state.settle.place (answerFrame tag a.code a.data)

/-- R16, R172: a management command is place-tested, carried out whole, and answered. -/
def State.manage (s : State) (body : State → List Byte → Answered) (tag : Byte) (payload : List Byte) : State :=
  if s.placeTest then (body s payload).placed tag else s.count .upstream Counters.addDiscarded

/-- R182 steps 1 to 5: LINK-RESET up to its ANSWER. -/
def State.resetLink (s : State) (tag : Byte) : State :=
  let s1 := { s.resetRelay with outQueue := [], pointer := { table := .loads, bank := .zero, index := 0 } }
  (((s1.modPort .upstream (fun q => { q with count := Counters.zero })).modPort .bus
    (fun q => { q with count := Counters.zero }))).place (answerFrame tag codeDone [])

/-- R182: LINK-RESET; the head of the Grant Queue is considered once its actions are done. -/
def State.linkReset (s : State) (tag : Byte) : State :=
  ((((s.resetLink tag).flagCav .zero).flagCav .one).flagPart).serveNotices.considerHead

end Sys2Proof.Machine
end

