-- ==== Sys2Proof/Machine/Frames.lean ====
section
/-! DEFINITION. The receivers (R1, R6 to R9) and acceptance (R10, R11, R17). -/

namespace Sys2Proof.Machine

/-! ## Acceptance upstream (R10, R17, R172) -/

/-- R172, R187: a frame to the part, by its KIND. -/
def State.managementFrame (s : State) (f : Frame) : State :=
  match f.kind.toNat with
  | 0x20 => s.manage State.doSeek f.tag f.payload
  | 0x21 => s.manage State.doWrite f.tag f.payload
  | 0x22 => s.manage State.doRead f.tag f.payload
  | 0x23 => s.manage State.doValidate f.tag f.payload
  | 0x24 => s.manage State.doStart f.tag f.payload
  | 0x25 => s.manage State.doCancel f.tag f.payload
  | 0x26 => s.manage State.doClear f.tag f.payload
  | 0x27 => s.manage State.doReport f.tag f.payload
  | 0x28 => s.linkReset f.tag
  | _ => s.manage State.doBadKind f.tag f.payload

/-- R17: an accepted frame restarts the silence timer, and makes a SILENT link LIVE. -/
def State.hearController (s : State) : State :=
  let s1 := { s with live := true, silence := s.timer (millis s.limits.silence) }
  if s.live then s1 else s1.flagPart

/-- R10, R17: a frame that the upstream port accepts. -/
def State.acceptUpstream (s : State) (f : Frame) : State :=
  let s1 := (s.count .upstream Counters.addAccepted).hearController
  if f.dest = 120 then s1.managementFrame f else s1.nodeFrame f

/-- R10: a received upstream frame. -/
def State.upstreamFrame (s : State) (f : Frame) : State :=
  if acceptedUpstream f then s.acceptUpstream f else s.count .upstream Counters.addDiscarded

/-! ## Receivers (R6 to R9) -/

/-- A receiver back in HUNT, its gap timer stopped. -/
def Receiver.hunt (r : Receiver) : Receiver := { r with stage := .hunt, stored := [], checkHigh := none, gap := none }

def State.modRx (s : State) (p : Port) (f : Receiver → Receiver) : State := s.modPort p (fun q => { q with rx := f q.rx })

/-- A frame in reception is abandoned with a count (R7 to R9). -/
def State.abandon (s : State) (p : Port) (f : Counters → Counters) : State := (s.count p f).modRx p Receiver.hunt

/-- R8: a complete frame is handed to acceptance. -/
def State.deliver (s : State) (p : Port) (f : Frame) : State :=
  match p with
  | .upstream => s.upstreamFrame f
  | .bus => s.busFrame f

/-- R6 to R8: a frame that is received whole; its LEN is tested as R7 gives. -/
def State.frameArrives (s : State) (p : Port) (f : Frame) : State :=
  if payloadFits f.payload then (s.modRx p Receiver.hunt).deliver p f else s.abandon p Counters.addLength

/-- The frame a receiver has stored. -/
def frameOfStored : List Byte → Option Frame
  | dest :: src :: kind :: tag :: _ :: payload => some { dest := dest, src := src, kind := kind, tag := tag, payload := payload }
  | _ => none

/-- R7, R8: a byte is stored and fed to the CRC register, and the gap timer starts again. -/
def State.storeByte (s : State) (p : Port) (b : Byte) : State :=
  s.modRx p (fun r => { r with stored := r.stored ++ [b], crc := crcByte r.crc b, gap := s.timer gapTime })

def State.rxStage (s : State) (p : Port) (st : RxStage) : State := s.modRx p (fun r => { r with stage := st })

/-- R7: HEADER, after a byte has been stored. -/
def State.afterHeader (s : State) (p : Port) : State :=
  match (s.port p).rx.stored with
  | [_, _, _, _, len] =>
    if 40 < len.toNat then s.abandon p Counters.addLength
    else if len = 0 then s.rxStage p .check
    else s.rxStage p .body
  | _ => s

/-- R8: BODY, after a byte has been stored. -/
def State.afterBody (s : State) (p : Port) : State :=
  match (s.port p).rx.stored with
  | _ :: _ :: _ :: _ :: len :: payload => if len.toNat ≤ payload.length then s.rxStage p .check else s
  | _ => s

/-- R8: both CHECK bytes have been received. -/
def State.endCheck (s : State) (p : Port) (hi lo : Byte) : State :=
  let r := (s.port p).rx
  if hi = highByte r.crc ∧ lo = lowByte r.crc then
    match frameOfStored r.stored with
    | some f => (s.modRx p Receiver.hunt).deliver p f
    | none => s.modRx p Receiver.hunt
  else s.abandon p Counters.addCrc

/-- R8: CHECK. -/
def State.checkByte (s : State) (p : Port) (b : Byte) : State :=
  match (s.port p).rx.checkHigh with
  | none => s.modRx p (fun r => { r with checkHigh := some b, gap := s.timer gapTime })
  | some hi => s.endCheck p hi b

/-- R6: HUNT. -/
def State.huntByte (s : State) (p : Port) (b : Byte) : State :=
  if b = syncByte then
    s.modRx p (fun r => { r with stage := .header, stored := [], crc := crcStart, checkHigh := none, gap := s.timer gapTime })
  else s

/-- R6 to R8: a good byte arrives at a port's receiver; its stop bit was high (R1). -/
def State.goodByte (s : State) (p : Port) (b : Byte) : State :=
  let s1 := s.modRx p (fun r => { r with awaitHigh := false })
  match (s1.port p).rx.stage with
  | .hunt => s1.huntByte p b
  | .header => (s1.storeByte p b).afterHeader p
  | .body => (s1.storeByte p b).afterBody p
  | .check => s1.checkByte p b

/-- R1, R6, R9: a character arrives as sampled; one without error is a good byte (log 25). -/
def State.character (s : State) (p : Port) (ch : RawChar) : State :=
  if ch.good then s.goodByte p ch.data
  else (s.abandon p Counters.addChar).modRx p (fun r => { r with awaitHigh := !ch.stop })

/-- R9: the gap timer of a port expires. -/
def State.gapExpires (s : State) (p : Port) : State :=
  match (s.port p).rx.gap with
  | some t => (s.advance t).abandon p Counters.addGap
  | none => s

end Sys2Proof.Machine
end

