-- ==== Sys2Proof/Machine/ExecLines.lean ====
section
/-! DEFINITION. What surrounds every command's effect, and the commands of the lines: POWER_ON_RESET, RESET_INPUT_HELD,
STOP_ASSERTED, STOP_DEASSERTED (R183, R185). -/

namespace Sys2Proof.Machine

/-- A command's effect as one whole step: reports that stand over are acted on, then the effect, then the reports it
delivered; last the notices and the FAULT line (log 6, log 7). A part held in reset takes nothing (R185). So a segment re-entered
with a long remainder of 0 s and its GOAL MET as it is set acts on GOAL first, which R139 leaves open (the model's choice, log 42). -/
def State.whole (f : State → State) (s : State) : State := if s.resetHeld then s else (f s.settle).settle.conclude

/-- The outcome of a command with an effect. -/
def act (f : State → State) (s : State) : Host.Outcome State Fault Refusal := .next (s.whole f)

/-- R185: the part leaves reset with the power-on reset state; the commands that wait and the time go on. -/
def execPowerOnReset (s : State) : Host.Outcome State Fault Refusal :=
  .next { State.resetAt s.now with pending := s.pending }

/-- R185: the part is held in reset: transmitters idle, a frame cut short with its exchange, FAULT released (log 20). -/
def State.holdReset (s : State) : State :=
  { s with resetHeld := true, faultOut := false, exchange := none,
           upTx := Transmitter.idleSince s.now, busTx := Transmitter.idleSince s.now }

/-- R185. -/
def execResetInputHeld (s : State) : Host.Outcome State Fault Refusal := .next s.holdReset

/-- R183. -/
def execStopAsserted (s : State) : Host.Outcome State Fault Refusal := act State.assertStop s

/-- R183. -/
def execStopDeasserted (s : State) : Host.Outcome State Fault Refusal := act State.deassertStop s

end Sys2Proof.Machine
end

