-- ==== Sys2Proof/Machine/ExecLink.lean ====
section
/-! DEFINITION. The commands of characters and frames on both ports: bad characters, abandoned frames, good bytes (R6 to R9),
address errors (R10), controller frames for nodes (R20), and the start of a transmission upstream (R14). -/

namespace Sys2Proof.Machine

/-- R1, R6, R9. -/
def execBadCharacter (p : Port) (ch : RawChar) (s : State) : Host.Outcome State Fault Refusal := act (fun s => s.character p ch) s

/-- R7. -/
def execLengthError (p : Port) (s : State) : Host.Outcome State Fault Refusal :=
  act (fun s => s.abandon p Counters.addLength) s

/-- R8. -/
def execCrcError (p : Port) (s : State) : Host.Outcome State Fault Refusal := act (fun s => s.abandon p Counters.addCrc) s

/-- R9. -/
def execGapAbort (p : Port) (s : State) : Host.Outcome State Fault Refusal := act (fun s => s.gapExpires p) s

/-- R10. -/
def execUpstreamAddressError (f : Frame) (s : State) : Host.Outcome State Fault Refusal :=
  act (fun s => s.frameArrives .upstream f) s

/-- R10, R20: a frame of the controller, SRC 121. -/
def execControllerNodeFrame (dest kind tag : Byte) (payload : List Byte) (s : State) : Host.Outcome State Fault Refusal :=
  act (fun s => s.frameArrives .upstream { dest := dest, src := 121, kind := kind, tag := tag, payload := payload }) s

/-- R6 to R8. -/
def execGoodByteArrives (p : Port) (b : Byte) (s : State) : Host.Outcome State Fault Refusal := act (fun s => s.goodByte p b) s

/-- R14. -/
def execUpstreamTransmitStart (s : State) : Host.Outcome State Fault Refusal := act State.transmit s

end Sys2Proof.Machine
end

