-- ==== Sys2Proof/Machine/ExecManage.lean ====
section
/-! DEFINITION. The management commands (chapter 10). Each arrives as a frame of its KIND from the controller to the part. -/

namespace Sys2Proof.Machine

/-- R187: a frame from the controller to the part. -/
def toPart (kind tag : Byte) (payload : List Byte) : Frame :=
  { dest := 120, src := 121, kind := kind, tag := tag, payload := payload }

/-- R172. -/
def execManagementBadKind (kind tag : Byte) (payload : List Byte) (s : State) : Host.Outcome State Fault Refusal :=
  act (fun s => s.frameArrives .upstream (toPart kind tag payload)) s

/-- R173. -/
def execSeek (tag : Byte) (payload : List Byte) (s : State) : Host.Outcome State Fault Refusal :=
  act (fun s => s.frameArrives .upstream (toPart 0x20 tag payload)) s

/-- R174. -/
def execWrite (tag : Byte) (payload : List Byte) (s : State) : Host.Outcome State Fault Refusal :=
  act (fun s => s.frameArrives .upstream (toPart 0x21 tag payload)) s

/-- R176. -/
def execRead (tag : Byte) (payload : List Byte) (s : State) : Host.Outcome State Fault Refusal :=
  act (fun s => s.frameArrives .upstream (toPart 0x22 tag payload)) s

/-- R91. -/
def execValidate (tag : Byte) (payload : List Byte) (s : State) : Host.Outcome State Fault Refusal :=
  act (fun s => s.frameArrives .upstream (toPart 0x23 tag payload)) s

/-- R101. -/
def execStart (tag : Byte) (payload : List Byte) (s : State) : Host.Outcome State Fault Refusal :=
  act (fun s => s.frameArrives .upstream (toPart 0x24 tag payload)) s

/-- R121. -/
def execCancel (tag : Byte) (payload : List Byte) (s : State) : Host.Outcome State Fault Refusal :=
  act (fun s => s.frameArrives .upstream (toPart 0x25 tag payload)) s

/-- R123. -/
def execClear (tag : Byte) (payload : List Byte) (s : State) : Host.Outcome State Fault Refusal :=
  act (fun s => s.frameArrives .upstream (toPart 0x26 tag payload)) s

/-- R178. -/
def execReport (tag : Byte) (payload : List Byte) (s : State) : Host.Outcome State Fault Refusal :=
  act (fun s => s.frameArrives .upstream (toPart 0x27 tag payload)) s

/-- R182. -/
def execLinkReset (tag : Byte) (payload : List Byte) (s : State) : Host.Outcome State Fault Refusal :=
  act (fun s => s.frameArrives .upstream (toPart 0x28 tag payload)) s

end Sys2Proof.Machine
end

