-- ==== Sys2Proof/Machine/ExecBus.lean ====
section
/-! DEFINITION. The commands of the load bus: taking a frame (R31), its end (R32), a reply or a stray (R11, R33), the expiry of
the reply window (R33), the poller (R65) and a channel gone STALE (R69). -/

namespace Sys2Proof.Machine

/-- An expiry command (log 3): nothing while the timer is stopped; else `f` at the moment it expires, or now if later. -/
def State.expire (s : State) (t : Timer) (f : State → State) : State :=
  match t with
  | some e => f (s.advance e)
  | none => s

/-- R31. -/
def execBusTakeFrame (s : State) : Host.Outcome State Fault Refusal := act State.takeFrame s

/-- R32. -/
def execBusFrameSent (s : State) : Host.Outcome State Fault Refusal := act State.openReplyWindow s

/-- R11, R33. -/
def execExchangeReply (f : Frame) (s : State) : Host.Outcome State Fault Refusal := act (fun s => s.frameArrives .bus f) s

/-- R11. -/
def execBusStray (f : Frame) (s : State) : Host.Outcome State Fault Refusal := act (fun s => s.frameArrives .bus f) s

/-- R33. -/
def execReplyWindowExpired (s : State) : Host.Outcome State Fault Refusal := act State.expireWindow s

/-- R65. -/
def execPollerRun (s : State) : Host.Outcome State Fault Refusal := act (fun s => (s.advance s.pollDue).runPoller) s

/-- R69. -/
def execChannelStale (n : Fin 8) (s : State) : Host.Outcome State Fault Refusal :=
  act (fun s => s.expire (s.chanRecord n).stale (fun s => s.goStale n)) s

end Sys2Proof.Machine
end

