-- ==== Sys2Proof/Machine/ExecTimers.lean ====
section
/-! DEFINITION. The commands of timers: the silent link (R17), relay entries (R27), the minimum off time (R56), the duty windows
(R58, R60), the timers of a cavity (R99, R109, R111, R116, R119, R123, R130), of a lock (R148, R149, R153) and of the blower
(R162, R164, R165). -/

namespace Sys2Proof.Machine

/-- R17. -/
def execLinkSilent (s : State) : Host.Outcome State Fault Refusal :=
  act (fun s => if s.live then s.expire s.silence State.goSilent else s) s

/-- R27: the hold timer of a TAG's entry. -/
def State.holdExpires (s : State) (tag : Byte) : State :=
  match s.relayEntry tag with
  | some e => s.expire e.hold (fun s => s.expireRelay e)
  | none => s

/-- R27. -/
def execRelayEntryExpired (tag : Byte) (s : State) : Host.Outcome State Fault Refusal := act (fun s => s.holdExpires tag) s

/-- R56. -/
def execMinOffTimerExpired (s : State) : Host.Outcome State Fault Refusal := act (fun s => s.expire s.minOff State.considerHead) s

/-- R58: the end of the period in use of a RUNNING window. -/
def DutyWindow.ends (w : DutyWindow) : Timer :=
  match w.running, w.start, w.period with
  | true, some t, some p => some (t + seconds p)
  | true, some _, none => none
  | true, none, _ => none
  | false, _, _ => none

/-- R58: the next window starts. -/
def State.nextWindow (s : State) (c : Cav) : State := s.startWindow c (s.presentSegment c).target

/-- R58. -/
def execWindowStart (c : Cav) (s : State) : Host.Outcome State Fault Refusal :=
  act (fun s => s.expire (s.window c).ends (fun s => s.nextWindow c)) s

/-- R60: a heater's off mark in a RUNNING window. -/
def State.reachOffMark (s : State) (c : Cav) (p : HeatPos) : State :=
  (s.modWindow c (fun w => { w with offMark := w.offMark.set p none })).onLoad (s.heater c p) State.engineOff

/-- R60. -/
def execOffMark (c : Cav) (p : HeatPos) (s : State) : Host.Outcome State Fault Refusal :=
  act (fun s => s.expire ((s.window c).offMark.get p) (fun s => s.reachOffMark c p)) s

/-- R99. -/
def execSurveyExpired (c : Cav) (s : State) : Host.Outcome State Fault Refusal :=
  act (fun s => s.expire (s.cav c).survey (fun s => s.halt c .survey)) s

/-- R109, R130: the short timer stops and raises TIMEOUT. -/
def State.shortExpires (s : State) (c : Cav) : State := (s.modCav c (fun k => { k with short := none })).raise c .timeout

/-- R109. -/
def execShortTimerExpired (c : Cav) (s : State) : Host.Outcome State Fault Refusal :=
  act (fun s => s.expire (s.cav c).short (fun s => s.shortExpires c)) s

/-- R130: the long timer stops and raises TIMEOUT. -/
def State.longExpires (s : State) (c : Cav) : State := (s.modCav c (fun k => { k with long := none })).raise c .timeout

/-- R130. -/
def execLongTimerExpired (c : Cav) (s : State) : Host.Outcome State Fault Refusal :=
  act (fun s => s.expire (s.cav c).long (fun s => s.longExpires c)) s

/-- R111: when a hold reaches 0; one that stands at 0 has reached it. -/
def Hold.ends (now : Time) : Hold → Timer
  | .stopped => none
  | .running e => some e
  | .standing l => if l = 0 then some now else none

/-- R111. -/
def execSoakHoldComplete (c : Cav) (s : State) : Host.Outcome State Fault Refusal :=
  act (fun s => s.expire ((s.cav c).hold.ends s.now) (fun s => s.completeSegment c)) s

/-- R116: when the elapsed timer reaches the maximum cycle time. -/
def State.overtimeAt (s : State) (c : Cav) : Timer :=
  match (s.cav c).elapsed with
  | .running since => (s.limitsOfCav c).map (fun l => since + seconds l.maxCycle)
  | .stopped _ => none

/-- R116. -/
def execOvertime (c : Cav) (s : State) : Host.Outcome State Fault Refusal :=
  act (fun s => s.expire (s.overtimeAt c) (fun s => s.endCycle c .overtime)) s

/-- R119. -/
def execDwellExpired (c : Cav) (s : State) : Host.Outcome State Fault Refusal :=
  act (fun s => s.expire (s.cav c).dwell (fun s => s.enterRelease c)) s

/-- R123: the blind cool time is over. -/
def State.blindExpires (s : State) (c : Cav) : State := s.modCav c (fun k => { k with blind := none, blindExpired := true })

/-- R123. -/
def execBlindCoolExpired (c : Cav) (s : State) : Host.Outcome State Fault Refusal :=
  act (fun s => s.expire (s.cav c).blind (fun s => s.blindExpires c)) s

/-- R149, R153: the leave timer stops, and the travel has failed. -/
def State.leaveExpires (s : State) (c : Cav) : State := (s.modLock c (fun k => { k with leave := none })).travelTimeout c

/-- R149. -/
def execLockLeaveTimerExpired (c : Cav) (s : State) : Host.Outcome State Fault Refusal :=
  act (fun s => s.expire (s.lock c).leave (fun s => s.leaveExpires c)) s

/-- R149, R153: the finish timer stops, and the travel has failed. -/
def State.finishExpires (s : State) (c : Cav) : State := (s.modLock c (fun k => { k with finish := none })).travelTimeout c

/-- R153. -/
def execLockFinishTimerExpired (c : Cav) (s : State) : Host.Outcome State Fault Refusal :=
  act (fun s => s.expire (s.lock c).finish (fun s => s.finishExpires c)) s

/-- R148, R152: the travel timer stops, and the travel has succeeded or failed. -/
def State.travelExpires (s : State) (c : Cav) : State := (s.modLock c (fun k => { k with travel := none })).travelTimed c

/-- R148. -/
def execLockTravelTimerExpired (c : Cav) (s : State) : Host.Outcome State Fault Refusal :=
  act (fun s => s.expire (s.lock c).travel (fun s => s.travelExpires c)) s

/-- R162. -/
def execRunOnExpired (s : State) : Host.Outcome State Fault Refusal := act (fun s => s.expire s.air.runOn State.endRunOn) s

/-- R164. -/
def execArmingExpired (s : State) : Host.Outcome State Fault Refusal := act (fun s => s.expire s.air.arming State.endArming) s

/-- R165. -/
def execStallTimerExpired (s : State) : Host.Outcome State Fault Refusal :=
  act (fun s => s.expire s.air.stallTimer State.becomeStalled) s

end Sys2Proof.Machine
end

