-- ==== Sys2Proof/Machine/Dispatch.lean ====
section
/-! DEFINITION. The meaning of every command, one arm for each. -/

namespace Sys2Proof.Machine

def exec (i : Instr) (s : State) : Host.Outcome State Fault Refusal :=
  match i with
  | .powerOnReset => Sys2Proof.Machine.execPowerOnReset s
  | .resetInputHeld => Sys2Proof.Machine.execResetInputHeld s
  | .stopAsserted => Sys2Proof.Machine.execStopAsserted s
  | .stopDeasserted => Sys2Proof.Machine.execStopDeasserted s
  | .badCharacter p ch => Sys2Proof.Machine.execBadCharacter p ch s
  | .lengthError p => Sys2Proof.Machine.execLengthError p s
  | .crcError p => Sys2Proof.Machine.execCrcError p s
  | .gapAbort p => Sys2Proof.Machine.execGapAbort p s
  | .upstreamAddressError f => Sys2Proof.Machine.execUpstreamAddressError f s
  | .controllerNodeFrame dest kind tag payload => Sys2Proof.Machine.execControllerNodeFrame dest kind tag payload s
  | .managementBadKind kind tag payload => Sys2Proof.Machine.execManagementBadKind kind tag payload s
  | .seek tag payload => Sys2Proof.Machine.execSeek tag payload s
  | .write tag payload => Sys2Proof.Machine.execWrite tag payload s
  | .read tag payload => Sys2Proof.Machine.execRead tag payload s
  | .validate tag payload => Sys2Proof.Machine.execValidate tag payload s
  | .start tag payload => Sys2Proof.Machine.execStart tag payload s
  | .cancel tag payload => Sys2Proof.Machine.execCancel tag payload s
  | .clear tag payload => Sys2Proof.Machine.execClear tag payload s
  | .report tag payload => Sys2Proof.Machine.execReport tag payload s
  | .linkReset tag payload => Sys2Proof.Machine.execLinkReset tag payload s
  | .busTakeFrame => Sys2Proof.Machine.execBusTakeFrame s
  | .busFrameSent => Sys2Proof.Machine.execBusFrameSent s
  | .exchangeReply f => Sys2Proof.Machine.execExchangeReply f s
  | .busStray f => Sys2Proof.Machine.execBusStray f s
  | .replyWindowExpired => Sys2Proof.Machine.execReplyWindowExpired s
  | .upstreamTransmitStart => Sys2Proof.Machine.execUpstreamTransmitStart s
  | .linkSilent => Sys2Proof.Machine.execLinkSilent s
  | .relayEntryExpired tag => Sys2Proof.Machine.execRelayEntryExpired tag s
  | .pollerRun => Sys2Proof.Machine.execPollerRun s
  | .channelStale n => Sys2Proof.Machine.execChannelStale n s
  | .minOffTimerExpired => Sys2Proof.Machine.execMinOffTimerExpired s
  | .windowStart c => Sys2Proof.Machine.execWindowStart c s
  | .offMark c p => Sys2Proof.Machine.execOffMark c p s
  | .surveyExpired c => Sys2Proof.Machine.execSurveyExpired c s
  | .shortTimerExpired c => Sys2Proof.Machine.execShortTimerExpired c s
  | .longTimerExpired c => Sys2Proof.Machine.execLongTimerExpired c s
  | .soakHoldComplete c => Sys2Proof.Machine.execSoakHoldComplete c s
  | .overtime c => Sys2Proof.Machine.execOvertime c s
  | .dwellExpired c => Sys2Proof.Machine.execDwellExpired c s
  | .blindCoolExpired c => Sys2Proof.Machine.execBlindCoolExpired c s
  | .lockLeaveTimerExpired c => Sys2Proof.Machine.execLockLeaveTimerExpired c s
  | .lockFinishTimerExpired c => Sys2Proof.Machine.execLockFinishTimerExpired c s
  | .lockTravelTimerExpired c => Sys2Proof.Machine.execLockTravelTimerExpired c s
  | .runOnExpired => Sys2Proof.Machine.execRunOnExpired s
  | .armingExpired => Sys2Proof.Machine.execArmingExpired s
  | .stallTimerExpired => Sys2Proof.Machine.execStallTimerExpired s
  | .goodByteArrives p b => Sys2Proof.Machine.execGoodByteArrives p b s

end Sys2Proof.Machine
end

