-- ==== Sys2Proof/Machine/Step.lean ====
section
/-! DEFINITION. One step: the command at the front of the queue, or 1 ms of time on an empty queue (log 2). -/

namespace Sys2Proof.Machine

/-- A step on an empty queue: reports that stand over are acted on; with none, or held in reset, 1 ms passes (log 2, log 6). -/
def State.tick (s : State) : State :=
  if s.resetHeld || s.events.isEmpty then { s with now := s.now + Config.msec } else s.whole id

/-- One step of the part. -/
def step (s : State) : Host.Outcome State Fault Refusal :=
  match s.pending with
  | [] => .next s.tick
  | c :: rest => exec c { s with pending := rest }

/-- `s` with the command a word spells at the front of its queue; no word of the table spells one. -/
def State.withFetchWord (s : State) (nbits w : Nat) : State :=
  match decodeTableWord nbits w with
  | some c => { s with pending := c :: s.pending }
  | none => s

end Sys2Proof.Machine
end

