-- ==== Sys2Proof/WellFormed.lean ====
section
/-! DEFINITION. Which commands can occur at the part's ports at all, whatever its state: a frame's payload holds at most 40
bytes (R3), a row's frame has the addresses and the KIND the row names (R10, R20, R172), and a character given as bad is
bad (R1). -/

namespace Sys2Proof

/-- A command that can occur in some state of the part. -/
def Instr.wellFormed : Instr → Bool
  | .powerOnReset => true
  | .resetInputHeld => true
  | .stopAsserted => true
  | .stopDeasserted => true
  | .badCharacter _ c => !c.good
  | .lengthError _ => true
  | .crcError _ => true
  | .gapAbort _ => true
  | .upstreamAddressError f => payloadFits f.payload && !acceptedUpstream f
  | .controllerNodeFrame dest _ _ payload => payloadFits payload && isNodeAddress dest
  | .managementBadKind kind _ payload => payloadFits payload && !isManagementKind kind
  | .seek _ payload => payloadFits payload
  | .write _ payload => payloadFits payload
  | .read _ payload => payloadFits payload
  | .validate _ payload => payloadFits payload
  | .start _ payload => payloadFits payload
  | .cancel _ payload => payloadFits payload
  | .clear _ payload => payloadFits payload
  | .report _ payload => payloadFits payload
  | .linkReset _ payload => payloadFits payload
  | .busTakeFrame => true
  | .busFrameSent => true
  | .exchangeReply f => payloadFits f.payload
  | .busStray f => payloadFits f.payload
  | .replyWindowExpired => true
  | .upstreamTransmitStart => true
  | .linkSilent => true
  | .relayEntryExpired _ => true
  | .pollerRun => true
  | .channelStale _ => true
  | .minOffTimerExpired => true
  | .windowStart _ => true
  | .offMark _ _ => true
  | .surveyExpired _ => true
  | .shortTimerExpired _ => true
  | .longTimerExpired _ => true
  | .soakHoldComplete _ => true
  | .overtime _ => true
  | .dwellExpired _ => true
  | .blindCoolExpired _ => true
  | .lockLeaveTimerExpired _ => true
  | .lockFinishTimerExpired _ => true
  | .lockTravelTimerExpired _ => true
  | .runOnExpired => true
  | .armingExpired => true
  | .stallTimerExpired => true
  | .goodByteArrives _ _ => true

end Sys2Proof
end

