-- ==== Sys2Proof/Safety.lean ====
section
/-! DEFINITION. What the statements about the part speak of: a part that is ready for a command, the outcome of a command by
its own effect, the invariants of the part, and what a WRITE and a VALIDATE go by. -/

namespace Sys2Proof.Machine

/-- The part is out of reset and no report stands over (log 6): the state between two commands. -/
def State.Ready (s : State) : Prop := s.resetHeld = false ∧ s.events = []

/-- A command answers the next state whose own effect is `u`: the reports `u` delivered have been acted on, then the notices
served and the FAULT line driven (log 6, log 7). -/
def Answers (c : Instr) (s u : State) : Prop := exec c s = .next u.settle.conclude

/-- R184: the FAULT output stands as its condition says. -/
def State.FaultPinRight (s : State) : Prop := s.faultOut = s.faultCondition

/-- R15, R19: the free places of the upstream output queue are at least the open relay entries, and these at most 8. -/
def State.PlacesKept (s : State) : Prop := s.outQueue.length + s.relay.length ≤ outPlaces ∧ s.relay.length ≤ 8

/-- R52: the held sum does not exceed the budget limit. -/
def State.BudgetKept (s : State) : Prop := s.heldSum ≤ s.limits.budget

/-- R12: each counter of a port is 0 to 65535. -/
def Counters.Bounded (k : Counters) : Prop :=
  k.accepted ≤ 65535 ∧ k.crcErrors ≤ 65535 ∧ k.charErrors ≤ 65535 ∧ k.gapAborts ≤ 65535 ∧ k.lengthErrors ≤ 65535 ∧
    k.discarded ≤ 65535

/-- R12 for both ports, and R175's range of the level map: each level of the blower is at least 1 %. -/
def State.RangesKept (s : State) : Prop :=
  s.up.count.Bounded ∧ s.bus.count.Bounded ∧ 1 ≤ s.limits.map.low ∧ 1 ≤ s.limits.map.mid ∧ 1 ≤ s.limits.map.high

/-- The tables, the state and the finding of a bank, without its bind count. -/
def Bank.content (b : Bank) : Vector Segment 40 × Vector Byte 6 × Vector DutyBand 8 × BankLimits × BankState × Option Finding :=
  (b.segments, b.causes, b.duty, b.limits, b.state, b.finding)

/-- R135: each entry's cause outranks the cause of the entry below it. -/
def stackOrdered : List StackEntry → Bool
  | a :: b :: rest => outranks a.cause b.cause && stackOrdered (b :: rest)
  | [_] => true
  | [] => true

/-- R135: a recovery stack holds at most 4 entries, in falling order of their causes' ranks. -/
def StackSound (l : List StackEntry) : Prop := l.length ≤ 4 ∧ stackOrdered l = true

/-- R135, for both cavities. -/
def State.StacksSound (s : State) : Prop := ∀ c, StackSound (s.cav c).stack

/-- What only the controller writes: LIMITS, the Load Table, the Channel Table, the Admission Table and the banks. -/
def State.SameTables (s t : State) : Prop :=
  t.limits = s.limits ∧ (∀ i, t.entry i = s.entry i) ∧ (∀ n, t.binding n = s.binding n) ∧ t.admission = s.admission ∧
    ∀ b, (t.bank b).content = (s.bank b).content

/-- The commands that are frames of the controller, accepted upstream when they are well formed (R10). -/
def fromController : Instr → Bool
  | .controllerNodeFrame _ _ _ _ => true
  | .managementBadKind _ _ _ => true
  | .seek _ _ => true
  | .write _ _ => true
  | .read _ _ => true
  | .validate _ _ => true
  | .start _ _ => true
  | .cancel _ _ => true
  | .clear _ _ => true
  | .report _ _ => true
  | .linkReset _ _ => true
  | _ => false

/-- The expiries of timers inside the part: of a load, a duty window, a channel, a cavity, a lock, the blower. -/
def insideExpiry : Instr → Bool
  | .channelStale _ => true
  | .minOffTimerExpired => true
  | .windowStart _ => true
  | .offMark _ _ => true
  | .surveyExpired _ => true
  | .shortTimerExpired _ => true
  | .longTimerExpired _ => true
  | .soakHoldComplete _ => true
  | .overtime _ => true
  | .dwellExpired _ => true
  | .blindCoolExpired _ => true
  | .lockLeaveTimerExpired _ => true
  | .lockFinishTimerExpired _ => true
  | .lockTravelTimerExpired _ => true
  | .runOnExpired => true
  | .armingExpired => true
  | .stallTimerExpired => true
  | _ => false

/-- The commands that may end a WRITE, a VALIDATE or a power-on reset: those that change the tables. -/
def mayWriteTables : Instr → Bool
  | .write _ _ => true
  | .validate _ _ => true
  | .powerOnReset => true
  | .goodByteArrives .upstream _ => true
  | _ => false

/-- The cavity is in one of the five states from which STOP and a stall halt it (R117). -/
def State.Active (s : State) (c : Cav) : Prop :=
  (s.cav c).state = .prepare ∨ (s.cav c).state = .locking ∨ (s.cav c).state = .run ∨ (s.cav c).state = .cooldown ∨
    (s.cav c).state = .release

/-- R20 to R22: a DRIVE at level `l` for node `dest` finds a place, a free entry and its TAG free, names the budgeted load `i`,
meets none of the refusals of R21, and is left at level `v` by the Admission Table and the level kind. -/
def State.Admits (s : State) (dest tag l : Byte) (i : Fin 16) (v : Nat) : Prop :=
  isNodeAddress dest = true ∧ s.placeTest = true ∧ s.relay.length < 8 ∧ (∀ e ∈ s.relay, e.frame.tag ≠ tag) ∧
    s.loadAt dest = some i ∧ l.toNat ≤ 100 ∧ budgeted (s.entry i).cls = true ∧ s.admissionRefuses i = false ∧
    ∃ x, admissionLevel (s.admission.get (admissionIndex (s.entry i).cls)) l.toNat = some x ∧
      v = if (s.entry i).kind = .switched ∧ 0 < x then 100 else x

/-- The receiver of a port after a good byte has been stored (R7, R8). -/
def storedRx (now : Time) (r : Receiver) (b : Byte) : Receiver :=
  { r with stored := r.stored ++ [b], crc := crcByte r.crc b, gap := some (now + gapTime), awaitHigh := false }

/-- A frame accepted upstream (R10, R17): the counter, the LIVE link, the silence timer, and the notice of a link that was
SILENT. -/
def State.heard (s : State) : State := ((s.modRx .upstream Receiver.hunt).count .upstream Counters.addAccepted).hearController

/-! ## What a WRITE and a VALIDATE go by -/

/-- Of the records of a WRITE, number `n`, from 0, is the first that does not read (R174). -/
def FirstBad {α : Type} (read : List Byte → Option α) (records : List (List Byte)) (n : Nat) : Prop :=
  ∃ good bad rest, records = good ++ bad :: rest ∧ good.length = n ∧ (∀ r ∈ good, read r ≠ none) ∧ read bad = none

/-- Entry `i` of a table, which held `old`, after records have been stored from an index upwards (R174). -/
def storedAt {α : Type} (index : Nat) (new : List α) (i : Nat) (old : α) : α :=
  if index ≤ i then new.getD (i - index) old else old

/-- R91: the bank fails a check, at the table and the index that the finding names. -/
def Bank.Fails (b : Bank) (f : Finding) : Prop :=
  let limits := f.table = .bankLimits ∧ f.index = 0
  let segment (p : Segment → Prop) := f.table = .segments ∧ ∃ i : Fin 40, i.val = f.index ∧ p (b.segments.get i)
  let band (p : Option Int → Option Int → Prop) :=
    f.table = .duty ∧ ∃ i j : Fin 8, j.val = f.index ∧ j.val = i.val + 1 ∧ p (b.duty.get i).threshold (b.duty.get j).threshold
  match f.check with
  | .limitsUnset => limits ∧ bankLimitsInRange b.limits = false
  | .releaseAboveCeiling => limits ∧ ¬b.limits.release < b.limits.ceiling
  | .startAboveRelease => limits ∧ ¬b.limits.startLimit < b.limits.release
  | .nextIndex => segment (fun g => g.kind.usesNext = true ∧ 40 ≤ g.next.toNat)
  | .alternateIndex => segment (fun g => g.kind = .check ∧ 40 ≤ g.alternate.toNat)
  | .rampDuration => segment (fun g => g.kind = .ramp ∧ g.duration = 0)
  | .vectorIndex => f.table = .causes ∧ ∃ a : Fin 6, a.val = f.index ∧ b.causes.get a ≠ 0xFF ∧ 40 ≤ (b.causes.get a).toNat
  | .bandOrder => band (fun x y => x = none ∧ y ≠ none)
  | .bandDescent => band (fun x y => ∃ m n : Int, x = some m ∧ y = some n ∧ m ≤ n)

/-- R91: where a check at an index comes in the order of a validation; checks 4 to 6 go record by record. -/
def Finding.place (f : Finding) : Nat :=
  match f.check with
  | .limitsUnset => 1
  | .releaseAboveCeiling => 2
  | .startAboveRelease => 3
  | .nextIndex => 4 + 3 * f.index
  | .alternateIndex => 5 + 3 * f.index
  | .rampDuration => 6 + 3 * f.index
  | .vectorIndex => 200 + f.index
  | .bandOrder => 300 + f.index
  | .bandDescent => 400 + f.index

end Sys2Proof.Machine
end

