-- ==== Sys2Proof/Certificates/Slice0/Obligations.lean ====
section
/-! DEFINITION. The statements about the part, one definition each. `Ready` is the state between two commands; a command's
outcome is given by its own effect `u` through `Answers`, or as the state after the notices are served (`conclude`). -/

open Sys2Proof Sys2Proof.Machine

/-! ## Steps and resets -/

/-- A step runs the command at the front of the queue on the part with the queue's rest; on an empty queue 1 ms passes and
nothing else happens (the model's choice, log 2). -/
def Obligations.StepRunsTheFrontOfTheQueue : Prop :=
  (∀ (s : State) (c : Instr) (rest : List Instr), s.pending = c :: rest → step s = exec c { s with pending := rest }) ∧
  ∀ s : State, s.pending = [] → s.resetHeld = true ∨ s.events = [] → step s = .next { s with now := s.now + Config.msec }

/-- No command ends in a fault or a refusal, in any state, and none touches the queue (log 5). -/
def Obligations.EveryCommandAnswersAndLeavesTheQueue : Prop :=
  ∀ (c : Instr) (s : State), ∃ t, exec c s = .next t ∧ t.pending = s.pending

/-- R41: the traffic state after a power-on reset; a reply that completes afterwards is a stray. -/
def Obligations.PowerOnResetClearsTheTraffic : Prop :=
  ∀ s : State, ∃ t, exec .powerOnReset s = .next t ∧ t.relay = [] ∧ (∀ k, (t.admission.get k).action = .pass) ∧ t.urgent = [] ∧
    t.normal = [] ∧ t.exchange = none ∧ t.busTx.frame = none ∧ t.limits.hold = 1000 ∧ t.limits.reply = 40 ∧
    t.air.controllerDemand = .off ∧
    ∀ f : Frame, f.payload.length ≤ 40 →
      ∃ u, exec (.exchangeReply f) t = .next u ∧ u.bus.count = { t.bus.count with discarded := 1 } ∧ u.exchange = none

/-- R18, R62, R79, R95, R96, R144, R159, R185: POWER_ON_RESET gives the power-on reset state, in reset or out of it, the
commands that wait and the time going on (log 35); what that state holds in the blocks other than the traffic. -/
def Obligations.PowerOnResetClearsTheBlocks : Prop :=
  ∀ s : State, exec .powerOnReset s = .next { State.resetAt s.now with pending := s.pending } ∧
    ∃ t, exec .powerOnReset s = .next t ∧
    (t.up.rx.stage = .hunt ∧ t.bus.rx.stage = .hunt ∧ t.upTx.frame = none ∧ t.outQueue = [] ∧
      t.up.count = Counters.zero ∧ t.bus.count = Counters.zero ∧ t.live = false ∧ t.silence = none ∧
      t.limits.silence = 3000 ∧ t.tagSeq = 0) ∧
    ((∀ i, (t.entry i).cls = .unused) ∧ t.heldSum = 0 ∧ t.limits.budget = 130 ∧ t.grantQueue = [] ∧
      (∀ c, (t.window c).running = false ∧ (t.window c).duty = none ∧ ∀ p, (t.window c).offMark.get p = none) ∧
      t.limits.window = 20) ∧
    ((∀ n, (t.binding n).use = .unused ∧ (t.chanRecord n).state = .unbound) ∧ t.pollDue = s.now + millis 1000 ∧
      (t.watch .dip).state = .notMet ∧ (t.watch .ductHot).state = .notMet ∧ (t.watch .light).state = .notMet) ∧
    (∀ b, (t.bank b).state = .empty ∧ (t.bank b).binds = 0 ∧ (t.bank b).finding = none ∧
      (t.bank b).segments = Vector.replicate 40 Segment.zero ∧ (t.bank b).causes = Vector.replicate 6 0xFF ∧
      (t.bank b).duty = Vector.replicate 8 DutyBand.zero ∧ (t.bank b).limits = BankLimits.zero) ∧
    (∀ c, (t.cav c).state = .survey ∧ (t.cav c).stage = .waiting ∧ (t.cav c).bank = none ∧ (t.cav c).stack = [] ∧
      (t.cav c).reason = .noReason ∧ (t.cav c).firstFault = none) ∧
    (∀ c, (t.lock c).state = .unknown ∧ (t.lock c).attempt = 0 ∧ (t.lock c).purpose = .noPurpose ∧ (t.lock c).held = false ∧
      (t.lock c).leave = none ∧ (t.lock c).finish = none ∧ (t.lock c).travel = none ∧ (t.lock c).jam = .noJam) ∧
    (t.air.highest = .off ∧ t.air.level = .off ∧ t.air.runOn = none ∧ t.air.stall = .idle ∧ t.air.convDemand = false ∧
      t.air.lit = false) ∧
    t.pointer.table = .loads ∧ t.pointer.index = 0 ∧ t.stopAsserted = false ∧ t.faultOut = false ∧ t.resetHeld = false ∧
    t.notices.cav.zero = false ∧ t.notices.cav.one = false ∧ t.notices.part = false ∧ t.limits = Limits.reset

/-- R185: while RESET is held both transmitters idle, a frame is cut short with its exchange, and FAULT is released, the rest
standing until the release (log 20); no other command is taken. -/
def Obligations.ResetHeldIdlesTheLinesAndTakesNothing : Prop :=
  (∀ s : State, exec .resetInputHeld s = .next
    { s with resetHeld := true, faultOut := false, exchange := none, upTx := { frame := none, sentAt := s.now, freeAt := s.now },
             busTx := { frame := none, sentAt := s.now, freeAt := s.now } }) ∧
  ∀ (s : State) (c : Instr), s.resetHeld = true → c ≠ .powerOnReset → c ≠ .resetInputHeld → exec c s = .next s

/-! ## Invariants -/

/-- R184: every step keeps the FAULT output as its condition says: some cavity is HALTED or some lock is JAMMED, a lock whose
release has not yet succeeded counted as JAMMED by its jam reason (the model's choice, log 36), and the part is not in reset. -/
def Obligations.EveryStepKeepsTheFaultPinRight : Prop :=
  (∀ s t : State, s.FaultPinRight → step s = .next t → t.FaultPinRight) ∧
  ∀ s : State, s.faultCondition = true ↔ s.resetHeld = false ∧
    ∃ c, (s.cav c).state = .halted ∨ (s.lock c).state = .jammed ∨ (s.lock c).jam ≠ .noJam

/-- R15: every step keeps the free places upstream at least equal to the open relay entries, and these at most 8. -/
def Obligations.EveryStepKeepsAPlaceForEveryClosingFrame : Prop := ∀ s t : State, s.PlacesKept → step s = .next t → t.PlacesKept

/-- R52: every step keeps the held sum within the budget limit. -/
def Obligations.EveryStepKeepsTheHeldSumWithinTheBudget : Prop := ∀ s t : State, s.BudgetKept → step s = .next t → t.BudgetKept

/-- R135: every step keeps both recovery stacks at 4 entries or fewer, each entry outranking the one below it. -/
def Obligations.EveryStepKeepsTheRecoveryStacksSound : Prop := ∀ s t : State, s.StacksSound → step s = .next t → t.StacksSound

/-- R12, R175: every step keeps all twelve counters from 0 to 65535, and each level of the blower at 1 % or more. -/
def Obligations.EveryStepKeepsCountersAndLevelMapInRange : Prop :=
  ∀ s t : State, s.RangesKept → step s = .next t → t.RangesKept

/-- The invariants hold right after reset. -/
def Obligations.InvariantsHoldAtReset : Prop :=
  State.reset.FaultPinRight ∧ State.reset.PlacesKept ∧ State.reset.BudgetKept ∧ State.reset.StacksSound ∧ State.reset.RangesKept

/-- R83, R90, R173: only a WRITE, a VALIDATE or a power-on reset changes a table or a bank's content. -/
def Obligations.OnlyWritesChangeTheTables : Prop :=
  ∀ (s t : State) (c : Instr), c.wellFormed = true → mayWriteTables c = false → exec c s = .next t → s.SameTables t

/-! ## Ports and receivers (chapter 1) -/

/-- R6, R7: a good byte in HUNT: 0xA7 opens a frame, any other is discarded without a count; a bad character is counted, and
the receiver stays in HUNT; a receiver that returns to HUNT keeps no byte of the frame. HEADER stores five bytes, feeds each
into the CRC register, tests nothing on the first four, and goes by LEN. -/
def Obligations.ReceiverHuntsAndStoresTheHeader : Prop :=
  ((∀ (s : State) (p : Port) (b : Byte), s.Ready → (s.port p).rx.stage = .hunt →
      exec (.goodByteArrives p b) s = .next (State.conclude (s.modRx p (fun r =>
        if b = 0xA7 then
          { stage := .header, stored := [], crc := 0xFFFF, checkHigh := none, gap := some (s.now + gapTime), awaitHigh := false }
        else { r with awaitHigh := false })))) ∧
    (∀ (s : State) (p : Port) (ch : RawChar), s.Ready → ch.good = false → (s.port p).rx.stage = .hunt →
      ∃ t, exec (.badCharacter p ch) s = .next t ∧ (t.port p).rx.stage = .hunt ∧
        (t.port p).count = { (s.port p).count with charErrors := min 65535 ((s.port p).count.charErrors + 1) }) ∧
    ∀ r : Receiver, r.hunt.stage = .hunt ∧ r.hunt.stored = [] ∧ r.hunt.checkHigh = none ∧ r.hunt.gap = none) ∧
  ∀ (s : State) (p : Port) (b : Byte), s.Ready → (s.port p).rx.stage = .header →
    ((s.port p).rx.stored.length < 4 →
      exec (.goodByteArrives p b) s = .next (s.modRx p (fun r => storedRx s.now r b)).conclude) ∧
    ((s.port p).rx.stored.length = 4 → 40 < b.toNat →
      exec (.goodByteArrives p b) s =
        .next ((s.modRx p (fun r => (storedRx s.now r b).hunt)).count p Counters.addLength).conclude) ∧
    ((s.port p).rx.stored.length = 4 → b = 0 →
      exec (.goodByteArrives p b) s = .next (s.modRx p (fun r => { storedRx s.now r b with stage := .check })).conclude) ∧
    ((s.port p).rx.stored.length = 4 → 1 ≤ b.toNat → b.toNat ≤ 40 →
      exec (.goodByteArrives p b) s = .next (s.modRx p (fun r => { storedRx s.now r b with stage := .body })).conclude)

/-- R8: BODY stores LEN bytes; CHECK stores two bytes and compares them with the CRC register. -/
def Obligations.BodyAndCheckEndTheFrame : Prop :=
  (∀ (s : State) (p : Port) (b dest src kind tag len : Byte) (payload : List Byte), s.Ready →
    (s.port p).rx.stage = .body → (s.port p).rx.stored = dest :: src :: kind :: tag :: len :: payload →
    exec (.goodByteArrives p b) s = .next (State.conclude (s.modRx p (fun r =>
      { storedRx s.now r b with stage := if len.toNat ≤ payload.length + 1 then .check else .body })))) ∧
  (∀ (s : State) (p : Port) (b : Byte), s.Ready → (s.port p).rx.stage = .check → (s.port p).rx.checkHigh = none →
    exec (.goodByteArrives p b) s = .next (State.conclude (s.modRx p (fun r =>
      { r with checkHigh := some b, gap := some (s.now + gapTime), awaitHigh := false })))) ∧
  (∀ (s : State) (p : Port) (b hi : Byte), s.Ready → (s.port p).rx.stage = .check → (s.port p).rx.checkHigh = some hi →
    ¬(hi = highByte (s.port p).rx.crc ∧ b = lowByte (s.port p).rx.crc) →
    exec (.goodByteArrives p b) s = .next (State.conclude
      ((s.modRx p (fun r => { r.hunt with awaitHigh := false })).count p Counters.addCrc))) ∧
  ∀ (s : State) (p : Port) (b hi dest src kind tag len : Byte) (payload : List Byte), s.Ready →
    (s.port p).rx.stage = .check → (s.port p).rx.checkHigh = some hi →
    (s.port p).rx.stored = dest :: src :: kind :: tag :: len :: payload →
    hi = highByte (s.port p).rx.crc → b = lowByte (s.port p).rx.crc →
    Answers (.goodByteArrives p b) s ((s.modRx p (fun r => { r.hunt with awaitHigh := false })).deliver p
      { dest := dest, src := src, kind := kind, tag := tag, payload := payload })

/-- R3, R4, R6 to R8: a receiver in HUNT that gets a frame's bytes as they stand on the line, the CHECK computed by R4 among
them, hands exactly that frame to acceptance. -/
def Obligations.FrameOnTheLineIsReceivedWhole : Prop :=
  ∀ (s : State) (p : Port) (f : Frame), (s.port p).rx.stage = .hunt → f.payload.length ≤ 40 →
    (frameWire f).foldl (fun t b => t.goodByte p b) s =
      State.deliver (s.modRx p (fun _ => { stage := .hunt, stored := [], crc := frameCheck f, checkHigh := none, gap := none,
                                           awaitHigh := false })) p f

/-- R7 to R11: the four ends of a frame in reception by an error: each counts once on its port, stops the gap timer and leaves
the receiver in HUNT; the moment of a gap abort is the model's choice (log 3). A frame that fails acceptance, on either port,
is counted once and changes nothing else. -/
def Obligations.AbandonedAndUnacceptedFramesOnlyCount : Prop :=
  (∀ (s : State) (p : Port), s.Ready →
    exec (.lengthError p) s = .next (((s.count p Counters.addLength).modRx p Receiver.hunt).conclude)) ∧
  (∀ (s : State) (p : Port), s.Ready →
    exec (.crcError p) s = .next (((s.count p Counters.addCrc).modRx p Receiver.hunt).conclude)) ∧
  (∀ (s : State) (p : Port) (e : Time), s.Ready → (s.port p).rx.gap = some e →
    exec (.gapAbort p) s =
      .next ((({ s with now := max s.now e }.count p Counters.addGap).modRx p Receiver.hunt).conclude)) ∧
  (∀ (s : State) (p : Port) (ch : RawChar), s.Ready → ch.good = false →
    exec (.badCharacter p ch) s = .next (((s.count p Counters.addChar).modRx p
      (fun r => { r.hunt with awaitHigh := !ch.stop })).conclude)) ∧
  (∀ (s : State) (f : Frame), s.Ready → f.payload.length ≤ 40 →
    ¬(f.src = 121 ∧ 1 ≤ f.dest.toNat ∧ f.dest.toNat ≤ 120) →
    exec (.upstreamAddressError f) s =
      .next (((s.modRx .upstream Receiver.hunt).count .upstream Counters.addDiscarded).conclude)) ∧
  ∀ (s : State) (f : Frame), s.Ready → f.payload.length ≤ 40 → (∀ x, s.exchange = some x → x.isReply s.now f = false) →
    exec (.busStray f) s = .next (((s.modRx .bus Receiver.hunt).count .bus Counters.addDiscarded).conclude)

/-- R10, R17: a frame accepted upstream counts, makes the link LIVE with the PART notice pending where it was SILENT, and
restarts the silence timer. -/
def Obligations.AcceptedFrameMakesTheLinkLive : Prop :=
  (∀ s : State, s.heard = { s with
    up := { rx := s.up.rx.hunt, count := s.up.count.addAccepted }, live := true,
    silence := some (s.now + millis s.limits.silence),
    notices := if s.live then s.notices else { s.notices with part := true } }) ∧
  ∀ (c : Instr) (s t : State), s.Ready → fromController c = true → c.wellFormed = true → exec c s = .next t →
    t.live = true ∧ t.silence = some (s.now + millis t.limits.silence) ∧ t.now = s.now

/-- R14: a frame is placed behind those that wait; the upstream transmitter takes the head of the output queue, whatever the
link's state, and the frames behind it keep their order; a power-on reset leaves the queue empty, and a link reset empties it
and lets a frame already begun complete. The moments a sending begins and ends are the model's (log 3, log 23). -/
def Obligations.UpstreamSendsInOrderPlaced : Prop :=
  (∀ (s : State) (f : Frame), (s.place f).outQueue = s.outQueue ++ [f]) ∧
  (∀ (s : State) (f : Frame) (rest : List Frame), s.Ready → s.outQueue = f :: rest →
    exec .upstreamTransmitStart s = .next (State.conclude { s with
      now := max s.now s.upTx.freeAt, outQueue := rest,
      upTx := { frame := some f, sentAt := max s.now s.upTx.freeAt + frameLineTime f,
                freeAt := max s.now s.upTx.freeAt + frameLineTime f + idleTime } })) ∧
  (∀ (s : State), ∃ t, exec .powerOnReset s = .next t ∧ t.outQueue = []) ∧
  ∀ (s : State) (tag : Byte) (payload : List Byte), s.Ready → payload.length ≤ 40 →
    ∃ t fs, exec (.linkReset tag payload) s = .next t ∧ t.outQueue = answerFrame tag codeDone [] :: fs ∧ t.upTx = s.upTx ∧
      ∀ f ∈ fs, f.kind = 0x32

/-! ## Traffic: controller frames for nodes (chapter 2) -/

/-- R16: a node frame or a management command, one of no known KIND too, that finds no place has no effect and no answer; it
still counted as accepted and kept the link alive, and it counts an address error. -/
def Obligations.NoPlaceMeansNoEffect : Prop :=
  (∀ (s : State) (dest kind tag : Byte) (payload : List Byte), s.Ready → payload.length ≤ 40 → isNodeAddress dest = true →
    s.placeTest = false →
    exec (.controllerNodeFrame dest kind tag payload) s = .next ((s.heard.count .upstream Counters.addDiscarded).conclude)) ∧
  (∀ (s : State) (kind tag : Byte) (payload : List Byte), s.Ready → payload.length ≤ 40 → s.placeTest = false →
    isManagementKind kind = false →
    exec (.managementBadKind kind tag payload) s = .next ((s.heard.count .upstream Counters.addDiscarded).conclude)) ∧
  ∀ (s : State) (tag : Byte) (payload : List Byte) (c : Instr), s.Ready → payload.length ≤ 40 → s.placeTest = false →
    c ∈ [Instr.seek tag payload, .write tag payload, .read tag payload, .validate tag payload, .start tag payload,
      .cancel tag payload, .clear tag payload, .report tag payload] →
    exec c s = .next ((s.heard.count .upstream Counters.addDiscarded).conclude)

/-- R20, checks 1, 2 and 4: a node frame finds all eight entries open and is refused BUSY, or its TAG open and is refused
TAG-OPEN; one that is no DRIVE for a used load opens an entry in QUEUED and joins the normal queue as it is. -/
def Obligations.NodeFramesAreCheckedInOrder : Prop :=
  ∀ (s : State) (dest kind tag : Byte) (payload : List Byte), s.Ready → payload.length ≤ 40 → isNodeAddress dest = true →
    s.placeTest = true →
    (8 ≤ s.relay.length →
      exec (.controllerNodeFrame dest kind tag payload) s = .next ((s.heard.place (relayFail tag dest failBusy)).conclude)) ∧
    (s.relay.length < 8 → (∃ e ∈ s.relay, e.frame.tag = tag) →
      exec (.controllerNodeFrame dest kind tag payload) s = .next ((s.heard.place (relayFail tag dest failTagOpen)).conclude)) ∧
    (s.relay.length < 8 → (∀ e ∈ s.relay, e.frame.tag ≠ tag) →
      (kind ≠ 0x10 ∨ ∀ i, (s.entry i).cls = .unused ∨ (s.entry i).node ≠ dest) →
      exec (.controllerNodeFrame dest kind tag payload) s = .next (State.conclude { s.heard with
        relay := s.relay ++ [{
          frame := { dest := dest, src := 121, kind := kind, tag := tag, payload := payload }, stage := .queued, openedAt := s.now,
          stageSince := s.now, hold := some (s.now + millis s.limits.hold), carriesGrant := false, admitted := false }]
        normal := s.normal ++ [QItem.relayed tag] }))

/-- R21, R22: a DRIVE that admission refuses, by one of the six refusals of R21 or by the Admission Table, is answered WITHHELD
and changes nothing. -/
def Obligations.AdmissionRefusesWithheld : Prop :=
  ∀ (s : State) (dest tag : Byte) (payload : List Byte) (i : Fin 16), s.Ready → payload.length ≤ 40 →
    isNodeAddress dest = true → s.placeTest = true → s.relay.length < 8 → (∀ e ∈ s.relay, e.frame.tag ≠ tag) →
    s.loadAt dest = some i →
    ((∀ l : Byte, payload ≠ [l]) ∨ (∃ l : Byte, payload = [l] ∧ 100 < l.toNat) ∨ (s.entry i).cls = .lock ∨
      ((s.entry i).cls.cavityClass = true ∧ ∃ c, (s.entry i).cavity = .of c ∧ (s.cav c).state ≠ .opened) ∨
      ((s.entry i).cls = .converter ∧ ∃ c, (s.cav c).state = .run) ∨
      ((s.entry i).cls.heating = true ∧ (s.stopAsserted = true ∨ s.air.stall = .stalled)) ∨
      (budgeted (s.entry i).cls = true ∧ (s.record i).grant = .waiting ∧ ∃ r, s.requestOf i = some r ∧ r.requester = .engine) ∨
      (budgeted (s.entry i).cls = true ∧ (s.admission.get (admissionIndex (s.entry i).cls)).action = .refuse)) →
    exec (.controllerNodeFrame dest 0x10 tag payload) s = .next ((s.heard.place (relayFail tag dest failWithheld)).conclude)

/-- R22 to R24, R48, R53: an admitted DRIVE goes by its load's grant. HELD, or NONE at level 0: it opens in QUEUED. NONE above
0: refused WITHHELD for a faulted load; granted at once where the Grant Queue is empty and the load fits and may come on; else
it waits in GRANT-WAIT at the queue's tail. WAITING on a controller request: the older entry closes SUPERSEDED, an on takes the
request over, an off withdraws it and is queued (before the new head is considered, the model's choice, log 39). -/
def Obligations.AdmittedDriveGoesByItsGrant : Prop :=
  ∀ (s : State) (dest tag l : Byte) (i : Fin 16) (v : Nat), s.Ready → s.Admits dest tag l i v →
    let cmd : Instr := .controllerNodeFrame dest 0x10 tag [l]
    let opened (stage : RelayStage) (carries : Bool) : RelayEntry := {
      frame := { dest := dest, src := 121, kind := 0x10, tag := tag, payload := [BitVec.ofNat 8 v] }, stage := stage,
      openedAt := s.now, stageSince := s.now, hold := some (s.now + millis s.limits.hold), carriesGrant := carries,
      admitted := true }
    let same (t : State) : Prop :=
      (∀ j, j ≠ i → t.record j = s.record j) ∧ t.urgent = s.urgent ∧ t.cavs = s.cavs ∧ t.locks = s.locks ∧ t.air = s.air ∧
        t.chans = s.chans ∧ t.exchange = s.exchange ∧ s.SameTables t
    ((s.record i).grant = .held ∨ ((s.record i).grant = .noGrant ∧ v = 0) →
      ∃ t, exec cmd s = .next t ∧ t.relay = s.relay ++ [opened .queued false] ∧ t.normal = s.normal ++ [QItem.relayed tag] ∧
        t.record i = { s.record i with commanded := some v, owner := .controller } ∧ t.grantQueue = s.grantQueue ∧ same t) ∧
    ((s.record i).grant = .noGrant → 0 < v → (s.record i).fault ≠ .noFault →
      exec cmd s = .next ((s.heard.place (relayFail tag dest failWithheld)).conclude)) ∧
    ((s.record i).grant = .noGrant → 0 < v → (s.record i).fault = .noFault → s.grantQueue = [] → s.fits i = true →
      s.offCondition i = true →
      ∃ t, exec cmd s = .next t ∧ t.relay = s.relay ++ [opened .queued true] ∧ t.normal = s.normal ++ [QItem.relayed tag] ∧
        t.record i = { s.record i with grant := .held, commanded := some v, owner := .controller } ∧ t.grantQueue = [] ∧ same t) ∧
    ((s.record i).grant = .noGrant → 0 < v → (s.record i).fault = .noFault → (∀ r ∈ s.grantQueue, r.load ≠ i) →
      s.grantQueue ≠ [] ∨ s.fits i = false ∨ s.offCondition i = false →
      ∃ t, exec cmd s = .next t ∧ t.relay = s.relay ++ [opened .grantWait false] ∧ t.normal = s.normal ∧
        t.record i = { s.record i with grant := .waiting } ∧
        t.grantQueue = s.grantQueue ++ [{ load := i, requester := .relay tag, level := v, joined := s.now }] ∧ same t) ∧
    ∀ (r : GrantRequest) (old : Byte) (e : RelayEntry), (s.record i).grant = .waiting → s.requestOf i = some r →
      r.requester = .relay old → s.relayEntry old = some e →
      (0 < v →
        ∃ t, exec cmd s = .next t ∧ s.outQueue ++ [relayFail old e.frame.dest failSuperseded] <+: t.outQueue ∧
          t.relay = s.relay.filter (fun x => x.frame.tag != old) ++ [opened .grantWait false] ∧
          t.grantQueue = s.grantQueue.map (fun q => if q.load = i then { q with requester := .relay tag, level := v } else q) ∧
          t.record i = s.record i ∧ t.normal = s.normal ∧ same t) ∧
      (v = 0 →
        ∃ u : State, Answers cmd s (u.considerIf (s.isHead i)) ∧
          u.outQueue = s.outQueue ++ [relayFail old e.frame.dest failSuperseded] ∧
          u.relay = s.relay.filter (fun x => x.frame.tag != old) ++ [opened .queued false] ∧
          u.grantQueue = s.grantQueue.filter (fun q => q.load != i) ∧ u.normal = s.normal ++ [QItem.relayed tag] ∧
          u.record i = { s.record i with grant := .noGrant, commanded := some 0, owner := .controller } ∧ same u)

/-- R27, R28: the hold timer of a relay entry that was not sent ends it with RELAY-FAIL EXPIRED, and the entry leaves the
table. In GRANT-WAIT its request leaves the Grant Queue and its load's grant is NONE; in QUEUED its frame leaves the normal
queue, and a grant it carries passes to the oldest other queued on of its load, or returns: the grant NONE, the commanded level
the confirmed one, the head considered. The command's moment is the model's choice (log 3). -/
def Obligations.HoldExpiryClosesTheEntry : Prop :=
  ∀ (s : State) (tag : Byte) (e : RelayEntry) (h : Time), s.Ready → s.relayEntry tag = some e → e.hold = some h →
    let cmd : Instr := .relayEntryExpired tag
    let w : State := { s with now := max s.now h }
    let rest : List RelayEntry := s.relay.filter (fun x => x.frame.tag != tag)
    let out : List Frame := s.outQueue ++ [relayFail tag e.frame.dest failExpired]
    let unqueued : List QItem := s.normal.filter (fun q => q != QItem.relayed tag)
    let other (i : Fin 16) : Option RelayEntry :=
      rest.find? (fun x => x.stage == .queued && x.frame.dest == (s.entry i).node && isDriveOn x.frame)
    (∃ t, exec cmd s = .next t ∧ t.now = max s.now h ∧ t.relayEntry tag = none ∧
      List.Sublist (t.relay.map (fun x => x.frame.tag)) (rest.map (fun x => x.frame.tag)) ∧ out <+: t.outQueue ∧ s.SameTables t) ∧
    (∀ i, e.stage = .grantWait → s.waitingLoad tag = some i → (s.record i).grant = .waiting →
      Answers cmd s (State.considerIf
        { w.setGrant i .noGrant with grantQueue := s.grantQueue.filter (fun r => r.load != i), relay := rest, outQueue := out }
        (s.isHead i))) ∧
    (e.stage = .queued → e.carriesGrant = false →
      exec cmd s = .next (State.conclude { w with normal := unqueued, relay := rest, outQueue := out })) ∧
    ∀ i, e.stage = .queued → e.carriesGrant = true → s.loadAt e.frame.dest = some i →
      (∀ x, other i = some x →
        exec cmd s = .next (State.conclude { w with
          normal := unqueued, outQueue := out
          relay := rest.map (fun y => if y.frame.tag = x.frame.tag then { y with carriesGrant := true } else y) })) ∧
      (other i = none → (s.record i).grant = .held →
        Answers cmd s (State.considerHead
          { w.modRecord i (fun r => { r with grant := .noGrant, commanded := r.confirmed }) with
            normal := unqueued, relay := rest, outQueue := out }))

/-- R17, R39, R130: the silence timer makes the link SILENT, drops the controller's blower demand and raises the PART notice.
Step 1: each unsent DRIVE above 0 for a HEATER, FAN, LAMP or CONVERTER is withdrawn with WITHHELD. Step 2, with no unsent
entry, no request waiting and no cavity in RUN: each such load whose owner is CONTROLLER and whose commanded level is above 0
gets an engine off in the urgent queue. LINK-LOST is raised after the takeover, in cavity 0 before cavity 1 (log 30); a cavity
in RUN outside a chain and with nothing pending takes it. The command's moment is the model's choice (log 3). -/
def Obligations.SilenceTakesOver : Prop :=
  ∀ (s : State) (e : Time), s.Ready → s.live = true → s.silence = some e →
    (∃ u t, Answers .linkSilent s u ∧ exec .linkSilent s = .next t ∧ t.live = false ∧ t.silence = none ∧ t.now = max s.now e ∧
      t.air.controllerDemand = .off ∧ u.notices.part = true ∧ s.SameTables t ∧
      u = (((State.takeOver { s with now := max s.now e, live := false, silence := none }).raise .zero .linkLost).raise .one
        .linkLost).flagPart ∧
      ∀ c, (s.cav c).state = .run → (s.cav c).bank ≠ none → (s.cav c).stack = [] → (s.cav c).pending = Vector.replicate 6 false →
        (u.cav c).counts.get Cause.linkLost.index = (s.cav c).counts.get Cause.linkLost.index + 1) ∧
    (∀ (x : RelayEntry) (i : Fin 16), x ∈ s.relay → x.unsent = true → isDriveOn x.frame = true → s.loadAt x.frame.dest = some i →
      budgeted (s.entry i).cls = true →
      ∃ t, exec .linkSilent s = .next t ∧ (∀ y ∈ t.relay, y.frame.tag ≠ x.frame.tag) ∧
        relayFail x.frame.tag x.frame.dest failWithheld ∈ t.outQueue) ∧
    ((∀ x ∈ s.relay, x.unsent = false) → s.grantQueue = [] → (∀ c, (s.cav c).state ≠ .run) →
      ∃ u, Answers .linkSilent s u ∧ ∀ (i : Fin 16) (n : Nat), budgeted (s.entry i).cls = true →
        (s.record i).owner = .controller → (s.record i).commanded = some (n + 1) →
        (u.record i).owner = .engine ∧ (u.record i).commanded = some 0 ∧ QItem.drive i 0 false ∈ u.urgent)

/-! ## The load bus (chapter 2) -/

/-- R13, R31, R32, R44: an engine DRIVE at the head of the urgent queue, or, the urgent queue being empty, at the head of the
normal queue, is taken, and its load's attempt field says whether it is a first sending or the repeat; so is a relayed frame,
unchanged, its entry in flight with no hold timer and no carried grant, and a poller ASK as an engine frame; with both queues
empty, or an exchange in flight, nothing is taken. The reply window opens when the last stop bit has been sent, with the length
in use when the frame was taken. The commands' moments are the model's choice (log 3). -/
def Obligations.BusTakesThenTheReplyWindowOpens : Prop :=
  (∀ (s : State) (i : Fin 16) (level : Nat) (again urgent : Bool) (rest : List QItem), s.Ready → s.exchange = none →
    (urgent = true ∧ s.urgent = .drive i level again :: rest) ∨
      (urgent = false ∧ s.urgent = [] ∧ s.normal = .drive i level again :: rest) →
    ∃ t, exec .busTakeFrame s = .next t ∧ t.now = max s.now s.busTx.freeAt ∧ t.urgent = (if urgent then rest else []) ∧
      t.normal = (if urgent then s.normal else rest) ∧ t.tagSeq = s.tagSeq + 1 ∧
      t.exchange = some {
        frame := { dest := (s.entry i).node, src := 120, kind := 0x10, tag := s.tagSeq, payload := [BitVec.ofNat 8 level] },
        phase := .sending (t.now + 9 * Config.charTime), windowLength := millis s.limits.reply, expects := .state,
        party := .drive i level urgent } ∧
      t.busTx.frame = t.exchange.map (fun x => x.frame) ∧
      t.record i = { s.record i with attempt := if again then .again else .first } ∧
      (∀ j, j ≠ i → t.record j = s.record j) ∧ t.relay = s.relay ∧ t.chans = s.chans ∧ t.cavs = s.cavs ∧ s.SameTables t) ∧
  (∀ (s : State) (tag : Byte) (rest : List QItem) (e : RelayEntry), s.Ready → s.exchange = none → s.urgent = [] →
    s.normal = .relayed tag :: rest → s.relayEntry tag = some e →
    ∃ t, exec .busTakeFrame s = .next t ∧ t.now = max s.now s.busTx.freeAt ∧ t.urgent = [] ∧ t.normal = rest ∧
      t.tagSeq = s.tagSeq ∧ t.busTx.frame = some e.frame ∧
      (∃ x, t.exchange = some x ∧ x.frame = e.frame ∧ x.party = .relay tag ∧ x.windowLength = millis s.limits.reply ∧
        x.expects = (if e.frame.kind = 0x10 then .state else if e.frame.kind = 0x12 then .reading else .any)) ∧
      t.relayEntry tag = some { e with stage := .inFlight, stageSince := t.now, hold := none, carriesGrant := false } ∧
      t.loads = s.loads ∧ t.chans = s.chans ∧ t.cavs = s.cavs ∧ s.SameTables t) ∧
  (∀ (s : State) (n : Fin 8) (rest : List QItem), s.Ready → s.exchange = none → s.urgent = [] → s.normal = .ask n :: rest →
    ∃ t x, exec .busTakeFrame s = .next t ∧ t.normal = rest ∧ t.tagSeq = s.tagSeq + 1 ∧ t.exchange = some x ∧
      x.frame = { dest := (s.binding n).node, src := 120, kind := 0x12, tag := s.tagSeq,
                  payload := [BitVec.ofNat 8 (s.binding n).channel] } ∧
      x.expects = .reading ∧ x.party = .poller ∧ t.loads = s.loads ∧ t.chans = s.chans ∧ t.cavs = s.cavs ∧ s.SameTables t) ∧
  (∀ s : State, s.Ready → (s.exchange.isSome = true ∨ (s.urgent = [] ∧ s.normal = [])) →
    exec .busTakeFrame s = .next s.conclude) ∧
  ∀ (s : State) (x : Exchange) (e : Time), s.Ready → s.exchange = some x → x.phase = .sending e →
    exec .busFrameSent s = .next (State.conclude { s with
      now := max s.now e, exchange := some { x with phase := .window (e + x.windowLength) } })

/-- R11, R33, R36, R37, R46, R47, R50, R57: an accepted reply ends the exchange and counts once; a tapped STATE sets the
confirmed level and the node condition of its load, and a tapped READING updates the record of its binding. Its party then
takes it: a relayed frame's reply is placed upstream unchanged and its entry closes; an engine DRIVE is judged (after the
reports of the tapping have been acted on, the model's choice, log 41). A confirmed 0 of a HELD load releases its grant, or
keeps it for an on still in the normal queue; a load without a grant confirmed above 0 is switched off. -/
def Obligations.AcceptedReplyEndsTheExchange : Prop :=
  (∀ (s : State) (x : Exchange) (w : Time) (f : Frame), s.Ready → f.payload.length ≤ 40 → s.exchange = some x →
    x.phase = .window w → s.now ≤ w → f.src = x.frame.dest → f.dest = x.frame.src → f.tag = x.frame.tag →
    x.expects.admits f.kind = true → replyLenGood f = true →
    let cmd : Instr := .exchangeReply f
    let v : State :=
      (State.tap (State.count { s.modRx .bus Receiver.hunt with exchange := none } .bus Counters.addAccepted) f).settle
    (∃ t, exec cmd s = .next t ∧ t.exchange = none ∧ t.bus.count = s.bus.count.addAccepted ∧ t.now = s.now ∧
      t.live = s.live ∧ s.SameTables t ∧
      (∀ (i : Fin 16) (level cond : Byte) (v : Nat) (k : NodeCond), f.kind = 0x11 → f.payload = [level, cond] →
        s.loadAt f.src = some i → stateOf (s.entry i).cls level cond = some (v, k) →
        (t.record i).confirmed = some v ∧ (t.record i).condition = k) ∧
      (∀ (n : Fin 8) (ch q hi lo : Byte), f.kind = 0x13 → f.payload = [ch, q, hi, lo] → s.bindingFor f.src ch = some n →
        t.chanRecord n = readInto s.now (seconds s.limits.stale) (s.chanRecord n) (readValue (s.binding n).use q hi lo) ∧
        ∀ m, m ≠ n → t.chanRecord m = s.chanRecord m)) ∧
    (∀ (tag : Byte) (e : RelayEntry), x.party = .relay tag → v.relayEntry tag = some e →
      Answers cmd s { v with relay := v.relay.filter (fun r => r.frame.tag != tag), outQueue := v.outQueue ++ [f] }) ∧
    (x.party = .closedRelay ∨ x.party = .poller → Answers cmd s v) ∧
    ∀ (i : Fin 16) (sent : Nat) (urgent : Bool) (level cond : Byte), x.party = .drive i sent urgent → f.payload = [level, cond] →
      let fails (g : LoadFault) : Prop :=
        ((v.record i).attempt = .first → Answers cmd s (v.repeatDrive i sent urgent)) ∧
        ((v.record i).attempt ≠ .first → Answers cmd s (v.secondFailure i sent g))
      (stateOf (s.entry i).cls level cond = none → fails .nodeFault) ∧
      ∀ (n : Nat) (k : NodeCond), stateOf (s.entry i).cls level cond = some (n, k) →
        (k = .fault → fails .nodeFault) ∧ (k ≠ .fault → n ≠ sent → fails .mismatch) ∧
        (k ≠ .fault → n = sent → Answers cmd s (v.modRecord i (fun r => { r with attempt := .noAttempt })))) ∧
  ∀ (s : State) (i : Fin 16) (k : NodeCond), (∀ r ∈ s.grantQueue, r.load ≠ i) →
    ((s.record i).grant = .held → s.normal.find? (s.isOnFor i) = none →
      let u := s.tapLoad i (some (0, k))
      (u.record i).grant = .noGrant ∧ (u.record i).offSince = some s.now) ∧
    (∀ q, (s.record i).grant = .held → s.normal.find? (s.isOnFor i) = some q →
      let u := s.tapLoad i (some (0, k))
      (u.record i).grant = .held ∧ (u.record i).offSince = some s.now ∧
        ∀ tag, q = .relayed tag → ∀ e ∈ u.relay, e.frame.tag = tag → e.carriesGrant = true) ∧
    ∀ n : Nat, budgeted (s.entry i).cls = true → (s.record i).grant = .noGrant →
      let u := s.tapLoad i (some (n + 1, k))
      (u.record i).commanded = some 0 ∧ (u.record i).owner = .engine ∧ QItem.drive i 0 false ∈ u.urgent

/-- R33, R36, R50, R51: the reply window's expiry: a relayed frame closes NO-REPLY; an engine DRIVE that fails first goes once
more to the head of its queue, and at its second failure leaves its load UNRESPONSIVE; a poller ASK leaves its record alone.
What counts as a failed off is the model's (log 18), and so is the command's moment (log 3). -/
def Obligations.ExpiredWindowGoesToItsParty : Prop :=
  ∀ (s : State) (x : Exchange) (w : Time), s.Ready → s.exchange = some x → x.phase = .window w →
    (∀ tag e, x.party = .relay tag → s.relayEntry tag = some e →
      exec .replyWindowExpired s = .next (State.conclude { s with
        now := max s.now w, exchange := none, relay := s.relay.filter (fun r => r.frame.tag != tag),
        outQueue := s.outQueue ++ [relayFail tag e.frame.dest failNoReply] })) ∧
    (∀ i level urgent, x.party = .drive i level urgent → (s.record i).attempt = .first →
      s.urgent.any (isDriveFor i) = false → s.normal.any (isDriveFor i) = false →
      ∃ t, exec .replyWindowExpired s = .next t ∧ t.exchange = none ∧
        t.urgent = (if urgent then .drive i level true :: s.urgent else s.urgent) ∧
        t.normal = (if urgent then s.normal else .drive i level true :: s.normal) ∧
        t.record i = { s.record i with attempt := .again } ∧
        (∀ j, j ≠ i → t.record j = s.record j) ∧ s.SameTables t) ∧
    (∀ i level urgent, x.party = .drive i level urgent → (s.record i).attempt = .again →
      ∃ u, Answers .replyWindowExpired s u ∧ u.exchange = none ∧
        u.record i = { s.record i with fault := .unresponsive, attempt := .noAttempt } ∧
        (∀ j, j ≠ i → u.record j = s.record j) ∧
        ((s.record i).fault = .noFault → s.faultReport i ∈ u.events) ∧
        (level = 0 → (s.record i).confirmed ≠ some 0 → Event.offFailed i ∈ u.events)) ∧
    (x.party = .poller →
      exec .replyWindowExpired s = .next (State.conclude { s with now := max s.now w, exchange := none }))

/-- R35, R65: a poller run queues an ASK for each used binding with poll YES that has none queued, and sets the next run. The
command's moment is the model's choice (log 3). -/
def Obligations.PollerQueuesOneAskForEachBinding : Prop :=
  ∀ s : State, s.Ready →
    ∃ t, exec .pollerRun s = .next t ∧ t.now = max s.now s.pollDue ∧ t.pollDue = t.now + millis s.limits.poll ∧
      s.normal <+: t.normal ∧ (∀ n, (s.binding n).use ≠ .unused → (s.binding n).poll = true → .ask n ∈ t.normal) ∧
      (∀ n, s.normal.count (.ask n) ≤ 1 → t.normal.count (.ask n) ≤ 1) ∧
      (∀ q, q ∈ t.normal → q ∈ s.normal ∨ ∃ n, q = .ask n ∧ (s.binding n).use ≠ .unused ∧ (s.binding n).poll = true) ∧
      t.urgent = s.urgent ∧ t.loads = s.loads ∧ t.chans = s.chans ∧ t.relay = s.relay ∧ s.SameTables t

/-! ## Management over the link (chapters 5 and 10) -/

/-- R173, R176: SEEK sets the access pointer; a table or bank that does not exist is NO-TABLE, an index past its end RANGE.
READ answers the index, the number of records and the records, and moves the pointer past them; a count of 0 is BAD-FRAME, one
above 40 RANGE. With the pointer at its table's end there is no record, and the index answered is the pointer's own, which R176
does not give (the model's choice, log 43). -/
def Obligations.SeekAndReadUseThePointer : Prop :=
  (∀ (s : State) (tag table bank index : Byte), s.Ready → s.placeTest = true →
    (∀ t b, tableIdOf table = some t → (if isBankTable t then whichOf bank else some s.pointer.bank) = some b →
      index.toNat < recordCount t →
      exec (.seek tag [table, bank, index]) s = .next (State.conclude
        (State.place { s.heard with pointer := { table := t, bank := b, index := index.toNat } } (answerFrame tag codeDone [])))) ∧
    ((tableIdOf table = none ∨ ∃ t, tableIdOf table = some t ∧ isBankTable t = true ∧ whichOf bank = none) →
      exec (.seek tag [table, bank, index]) s = .next ((s.heard.place (answerFrame tag codeNoTable [])).conclude)) ∧
    ∀ t, tableIdOf table = some t → (isBankTable t = true → whichOf bank ≠ none) → recordCount t ≤ index.toNat →
      exec (.seek tag [table, bank, index]) s = .next ((s.heard.place (answerFrame tag codeRange [])).conclude)) ∧
  ∀ (s : State) (tag count : Byte), s.Ready → s.placeTest = true →
    (1 ≤ count.toNat → count.toNat ≤ 40 →
      let n := min count.toNat (min (recordCount s.pointer.table - s.pointer.index) (37 / recordSize s.pointer.table))
      exec (.read tag [count]) s = .next (State.conclude
        (State.place { s.heard with pointer := { s.pointer with index := s.pointer.index + n } }
          (answerFrame tag codeDone (BitVec.ofNat 8 s.pointer.index :: BitVec.ofNat 8 n ::
            (List.range n).flatMap (fun k => s.recordBytes s.pointer.table s.pointer.bank (s.pointer.index + k))))))) ∧
    (count = 0 → exec (.read tag [count]) s = .next ((s.heard.place (answerFrame tag codeBadFrame [])).conclude)) ∧
    (40 < count.toNat → exec (.read tag [count]) s = .next ((s.heard.place (answerFrame tag codeRange [])).conclude))

/-- R174: a WRITE is tested for LEN, for the table's end, for quiet and by its owner, in this order; refused, it changes
nothing but its ANSWER; taken, its records are stored and the pointer moves past them. The index that a WRITE past the table's
end is refused with is the model's (log 12). -/
def Obligations.WriteIsWholeOrNothing : Prop :=
  ∀ (s : State) (tag : Byte) (payload : List Byte), s.Ready → payload.length ≤ 40 → s.placeTest = true →
    let size := recordSize s.pointer.table
    let n := payload.length / size
    let refused (code : Byte) (data : List Byte) : Prop :=
      exec (.write tag payload) s = .next ((s.heard.place (answerFrame tag code data)).conclude)
    (payload.length % size ≠ 0 ∨ n = 0 → refused codeBadFrame []) ∧
    (payload.length % size = 0 → 0 < n → recordCount s.pointer.table < s.pointer.index + n →
      refused codeRange [BitVec.ofNat 8 (recordCount s.pointer.table)]) ∧
    (payload.length % size = 0 → 0 < n → s.pointer.index + n ≤ recordCount s.pointer.table →
      isBankTable s.pointer.table = false → s.quiet = false → refused codeNotQuiet []) ∧
    (payload.length % size = 0 → 0 < n → s.pointer.index + n ≤ recordCount s.pointer.table →
      (isBankTable s.pointer.table = true ∨ s.quiet = true) →
      (∀ code data,
        s.heard.writeOwner s.pointer.table s.pointer.bank s.pointer.index (chunks size n payload) = .error (code, data) →
        refused code data) ∧
      ∀ u, s.heard.writeOwner s.pointer.table s.pointer.bank s.pointer.index (chunks size n payload) = .ok u →
        Answers (.write tag payload) s
          ((u.movePointer n).settle.place (answerFrame tag codeDone [BitVec.ofNat 8 (u.pointer.index + n)])))

/-- R42, R43, R97, R99, R163, R164, R169, R174: a WRITE of LOADS. A record is an entry in the layout of R188 with each field in
its range, tested in a record of class NONE too (the model's choice, log 10); the first that is none is RANGE. Then a used,
busy entry that would differ is LOAD-ACTIVE, and an entry of the new table that breaks a constraint is CONFLICT, each with the
lowest such index (log 11). Taken, each entry keeps its record where it stays used with its node address and class, and has a
fresh one otherwise; then the blower is driven where its record is fresh, the stall check and LIT are found anew, and each
cavity's survey is tested, restarted where its entries changed, in this order (the model's choice, log 47). -/
def Obligations.LoadsWriteIsTestedThenStored : Prop :=
  (∀ (r : List Byte) (e : LoadEntry), loadEntryOf r = some e ↔ r = loadEntryBytes e ∧ 1 ≤ e.node.toNat ∧ e.node.toNat ≤ 119 ∧
    e.rated ≤ 160 ∧ e.minOff ≤ 255) ∧
  ∀ (s : State) (b : BankId) (index : Nat) (records : List (List Byte)),
    let write := s.writeOwner .loads b index records
    (∀ n, FirstBad loadEntryOf records n → write = .error (codeRange, [BitVec.ofNat 8 (index + n)])) ∧
    ∀ new : List LoadEntry, records.map loadEntryOf = new.map some →
      let after (i : Fin 16) : LoadEntry := storedAt index new i.val (s.entry i)
      let active (i : Fin 16) : Prop := (s.entry i).cls ≠ .unused ∧ after i ≠ s.entry i ∧
        ((s.record i).grant ≠ .noGrant ∨ (∃ l a, QItem.drive i l a ∈ s.urgent ∨ QItem.drive i l a ∈ s.normal) ∨
          ∃ x l u, s.exchange = some x ∧ x.party = .drive i l u)
      let breaks (i : Fin 16) : Prop :=
        ((after i).cls ∈ [LoadClass.blower, .converter] ∧ (after i).cavity ≠ .shared) ∨
        ((after i).cls ∈ [LoadClass.lock, .fan, .lamp, .heater] ∧ (after i).cavity = .shared) ∨
        ((after i).cls = .heater ∧ (after i).position = .nowhere) ∨
        ((after i).cls ≠ .heater ∧ (after i).cls ≠ .unused ∧ (after i).position ≠ .nowhere) ∨
        ∃ j, j ≠ i ∧ (after i).cls ≠ .unused ∧ (after j).cls ≠ .unused ∧
          ((after i).node = (after j).node ∨ ((after i).cls = (after j).cls ∧ ((after i).cls ∈ [LoadClass.blower, .converter] ∨
            ((after i).cavity = (after j).cavity ∧ ((after i).cls = .heater → (after i).position = (after j).position)))))
      (∀ i, active i → (∀ j, j < i → ¬active j) → write = .error (codeLoadActive, [BitVec.ofNat 8 i.val])) ∧
      (∀ i, (∀ j, ¬active j) → breaks i → (∀ j, j < i → ¬breaks j) → write = .error (codeConflict, [BitVec.ofNat 8 i.val])) ∧
      ((∀ j, ¬active j) → (∀ j, ¬breaks j) →
        ∃ (table : Vector LoadSlot 16) (fresh : Bool) (touched : Cav → Bool),
          (∀ i, table.get i = {
            entry := after i,
            record := if (after i).cls ≠ .unused ∧ (s.entry i).cls ≠ .unused ∧ (after i).node = (s.entry i).node ∧
              (after i).cls = (s.entry i).cls then s.record i else LoadRecord.fresh }) ∧
          (fresh = true ↔ ∃ i, (after i).cls = .blower ∧ ((s.entry i).cls ≠ .blower ∨ (s.entry i).node ≠ (after i).node)) ∧
          (∀ c, touched c = true ↔ ∃ i, after i ≠ s.entry i ∧ ∃ e ∈ [s.entry i, after i], e.cavity = .of c ∧
            e.cls ∈ [LoadClass.lock, .heater, .fan, .lamp]) ∧
          let v : State := { s with loads := table }
          let w : State := (if fresh then v.driveBlower else v).refreshAble.refreshLit
          write = .ok ((w.surveyAfterWrite .zero (touched .zero)).surveyAfterWrite .one (touched .one)))

/-- R64, R66, R71, R73, R97, R99, R164, R174: a WRITE of CHANNELS. A record is a binding in the layout of R188 with each field
in its range; the first that is none is RANGE. Then a binding of the new table that breaks a constraint is CONFLICT with the
lowest such index (log 11). Taken, each binding keeps its record where it stays used with its use, node address and node
channel; else an unused one has none, a used one a fresh record in UNKNOWN with its stale timer running. A queued ASK of a
binding that moved or became NONE is removed. Each use concerned is reported, in the order of R63 (the model's choice, log 37),
and loses its MET watches where it was LIVE. Then the stall check is found anew and each cavity's survey tested, restarted
where its bindings changed (any field: log 21), in this order (the model's choice, log 47). -/
def Obligations.ChannelsWriteIsTestedThenStored : Prop :=
  (∀ (r : List Byte) (k : Binding), bindingOf r = some k ↔ r = bindingBytes k ∧ 1 ≤ k.node.toNat ∧ k.node.toNat ≤ 119 ∧
    k.channel ≤ 15) ∧
  ∀ (s : State) (b : BankId) (index : Nat) (records : List (List Byte)),
    let write := s.writeOwner .channels b index records
    (∀ n, FirstBad bindingOf records n → write = .error (codeRange, [BitVec.ofNat 8 (index + n)])) ∧
    ∀ new : List Binding, records.map bindingOf = new.map some →
      let after (n : Fin 8) : Binding := storedAt index new n.val (s.binding n)
      let same (n : Fin 8) : Prop := (after n).use = (s.binding n).use ∧ (after n).node = (s.binding n).node ∧
        (after n).channel = (s.binding n).channel
      let breaks (n : Fin 8) : Prop := ∃ m, m ≠ n ∧ (after n).use ≠ .unused ∧ (after m).use ≠ .unused ∧
        ((after n).use = (after m).use ∨ ((after n).node = (after m).node ∧ (after n).channel = (after m).channel))
      (∀ n, breaks n → (∀ m, m < n → ¬breaks m) → write = .error (codeConflict, [BitVec.ofNat 8 n.val])) ∧
      ((∀ n, ¬breaks n) →
        ∃ (table : Vector ChanSlot 8) (asks : List QItem) (reported : List Use) (w : State) (touched : Cav → Bool),
          (∀ n, (table.get n).binding = after n ∧
            ((after n).use = .unused → (table.get n).record = ChanRecord.unbound) ∧
            ((after n).use ≠ .unused → same n → (table.get n).record = s.chanRecord n) ∧
            ((after n).use ≠ .unused → ¬same n → (table.get n).record =
              { state := .unknown, latest := none, previous := none, quality := none, goodRun := 0, badRun := 0, lastGood := none,
                stale := some (s.now + seconds s.limits.stale) })) ∧
          asks = s.normal.filter (fun q => match q with
            | .ask n => decide ((after n).use ≠ .unused ∧ (after n).node = (s.binding n).node ∧
                (after n).channel = (s.binding n).channel)
            | _ => true) ∧
          List.Sublist reported [.probe .zero, .probe .one, .door .zero, .door .one, .mains, .tacho, .bay, .duct] ∧
          (∀ u, u ∈ reported ↔ u ≠ .unused ∧ ∃ n, ((s.binding n).use = u ∨ (after n).use = u) ∧ ¬same n) ∧
          (∀ c, touched c = true ↔ ∃ n, after n ≠ s.binding n ∧ ((s.binding n).use ∈ [Use.probe c, .door c] ∨
            (after n).use ∈ [Use.probe c, .door c])) ∧
          (let v : State := { s with chans := table, normal := asks }
           w = { v with
             watches := w.watches,
             events := s.events ++ reported.map (fun u => .chanState u (s.channel u).state (v.channel u).state) }) ∧
          (∀ i, w.watch i = if (s.watch i).state = .met ∧ watchUse i ∈ reported ∧ (s.channel (watchUse i)).state = .live
            then { s.watch i with state := .notMet } else s.watch i) ∧
          write = .ok ((w.refreshAble.surveyAfterWrite .zero (touched .zero)).surveyAfterWrite .one (touched .one)))

/-- R173 to R175, with R17, R54, R75, R76, R163: a WRITE of ADMIT stores its records, the first out of range being RANGE. A
WRITE of LIMITS out of range is RANGE, one with a budget limit below the held sum LIMIT-BELOW-HELD with that sum. Taken, it is
stored and the silence timer restarts; a changed budget limit has the head considered; each part-wide watch whose level changed
is set again, and SPEED where the minimum of the present level changed; where the percentage of the present level changed, the
BLOWER is driven. -/
def Obligations.AdmissionAndLimitsWritesTakeEffect : Prop :=
  ((∀ (r : List Byte) (a : AdmissionRecord), admissionOf r = some a ↔ r = admissionBytes a ∧ a.limit ≤ 100) ∧
    ∀ (s : State) (b : BankId) (index : Nat) (records : List (List Byte)),
      let write := s.writeOwner .admission b index records
      (∀ n, FirstBad admissionOf records n → write = .error (codeRange, [BitVec.ofNat 8 (index + n)])) ∧
      ∀ new : List AdmissionRecord, records.map admissionOf = new.map some →
        ∃ table : Vector AdmissionRecord 4, write = .ok { s with admission := table } ∧
          ∀ i, table.get i = storedAt index new i.val (s.admission.get i)) ∧
  (∀ (r : List Byte) (l : Limits), limitsOf r = some l ↔ r = limitsBytes l ∧
    l.budget ≤ 400 ∧ (10 ≤ l.window ∧ l.window ≤ 120) ∧ (100 ≤ l.hold ∧ l.hold ≤ 10000) ∧ (10 ≤ l.reply ∧ l.reply ≤ 200) ∧
    (250 ≤ l.silence ∧ l.silence ≤ 60000) ∧ (250 ≤ l.poll ∧ l.poll ≤ 5000) ∧ (2 ≤ l.stale ∧ l.stale ≤ 30) ∧
    (100 ≤ l.dip ∧ l.dip ≤ 250) ∧ (400 ≤ l.duct ∧ l.duct ≤ 1100) ∧ (200 ≤ l.light ∧ l.light ≤ 800) ∧ (80 ≤ l.bay ∧ l.bay ≤ 200) ∧
    (l.tacho.low ≤ 9000 ∧ l.tacho.mid ≤ 9000 ∧ l.tacho.high ≤ 9000) ∧ (1 ≤ l.engageLeave ∧ l.engageLeave ≤ 10) ∧
    (2 ≤ l.engageFinish ∧ l.engageFinish ≤ 30) ∧ (1 ≤ l.releaseLeave ∧ l.releaseLeave ≤ 10) ∧
    (2 ≤ l.releaseFinish ∧ l.releaseFinish ≤ 30) ∧ (1 ≤ l.timedTravel ∧ l.timedTravel ≤ 30) ∧ l.runOn ≤ 1800 ∧
    (1 ≤ l.map.low ∧ l.map.low ≤ 100) ∧ (1 ≤ l.map.mid ∧ l.map.mid ≤ 100) ∧ (1 ≤ l.map.high ∧ l.map.high ≤ 100) ∧
    2 ≤ l.stallWindow ∧ l.stallWindow ≤ 60) ∧
  ∀ (s : State) (b : BankId) (r : List Byte),
    let write := s.writeOwner .limits b 0 [r]
    (limitsOf r = none → write = .error (codeRange, [0])) ∧
    ∀ l, limitsOf r = some l →
      (l.budget < s.heldSum →
        write = .error (codeLimitBelowHeld, [BitVec.ofNat 8 (s.heldSum / 256), BitVec.ofNat 8 s.heldSum])) ∧
      (s.heldSum ≤ l.budget →
        let o := s.limits
        let lv := s.air.level
        let stored : State := { s with limits := l, silence := some (s.now + millis l.silence) }
        let fresh (w : WatchId) (side : Side) (level : Int) : Watch :=
          { side := side, level := level, state := if confirmedOn (s.channel (watchUse w)) side level then .met else .notMet }
        ∃ u, write = .ok u ∧ u.limits = l ∧ u.silence = stored.silence ∧ u.cavs = s.cavs ∧ u.locks = s.locks ∧ u.air = s.air ∧
          (l.dip = o.dip → l.duct = o.duct → l.light = o.light → l.bay = o.bay → l.tacho.at lv = o.tacho.at lv →
            l.map.at lv = o.map.at lv → u = if l.budget = o.budget then stored else stored.considerHead) ∧
          u.watch .dip = (if l.dip = o.dip then s.watch .dip else fresh .dip .below l.dip) ∧
          u.watch .ductHot = (if l.duct = o.duct then s.watch .ductHot else fresh .ductHot .above l.duct) ∧
          u.watch .light = (if l.light = o.light then s.watch .light else fresh .light .atOrAbove l.light) ∧
          u.watch .bayHot = (if l.bay = o.bay then s.watch .bayHot else fresh .bayHot .above l.bay) ∧
          u.watch .bayCool = (if l.bay = o.bay then s.watch .bayCool else fresh .bayCool .atOrBelow (l.bay - 10)) ∧
          u.watch .speed = (if l.tacho.at lv = o.tacho.at lv then s.watch .speed
            else fresh .speed .atOrAbove (l.tacho.at lv)) ∧
          (l.map.at lv ≠ o.map.at lv → ∀ i, s.sharedLoad .blower = some i →
            let level := if (s.entry i).kind = .switched then 100 else l.map.at lv
            (u.record i).commanded = some level ∧ (u.record i).owner = .engine ∧ QItem.drive i level false ∈ u.urgent))

/-- R81, R83, R86 to R88, R90: a WRITE to a table of an unbound bank stores its records, makes the bank WRITTEN and drops its
finding; a bound bank is refused with BANK-BOUND, and the first record out of range with RANGE and its index. A vector entry is
any byte; a duty band and a bank limits record are the layouts of R188 with each field in its range, an UNUSED band being
stored with duties of 0; a segment record is the layout of R188 with the fields its kind uses in the ranges of R83, the others
being stored as 0, and the stored form reads as itself. -/
def Obligations.BankWriteMakesTheBankWritten : Prop :=
  (∀ (s : State) (t : TableId) (b : BankId) (index : Nat) (records : List (List Byte)), isBankTable t = true →
    (0 < (s.bank b).binds → s.writeOwner t b index records = .error (codeBankBound, [])) ∧
    ((s.bank b).binds = 0 →
      (∀ n, (s.bank b).store t index records = .error n →
        s.writeOwner t b index records = .error (codeRange, [BitVec.ofNat 8 n])) ∧
      ∀ k, (s.bank b).store t index records = .ok k →
        s.writeOwner t b index records = .ok (s.modBank b (fun _ => { k with state := .written, finding := none })))) ∧
  (∀ (k : Bank) (index : Nat) (records : List (List Byte)),
    (∀ n, FirstBad segmentOf records n → k.store .segments index records = .error (index + n)) ∧
    (∀ new : List Segment, records.map segmentOf = new.map some →
      ∃ table : Vector Segment 40, k.store .segments index records = .ok { k with segments := table } ∧
        ∀ i, table.get i = storedAt index new i.val (k.segments.get i)) ∧
    (∀ n, FirstBad dutyBandOf records n → k.store .duty index records = .error (index + n)) ∧
    (∀ new : List DutyBand, records.map dutyBandOf = new.map some →
      ∃ table : Vector DutyBand 8, k.store .duty index records = .ok { k with duty := table } ∧
        ∀ i, table.get i = storedAt index new i.val (k.duty.get i)) ∧
    (∀ new : List Byte, records = new.map (fun v => [v]) →
      ∃ table : Vector Byte 6, k.store .causes index records = .ok { k with causes := table } ∧
        ∀ i, table.get i = storedAt index new i.val (k.causes.get i)) ∧
    ∀ r : List Byte, (bankLimitsOf r = none → k.store .bankLimits index [r] = .error index) ∧
      ∀ l, bankLimitsOf r = some l → k.store .bankLimits index [r] = .ok { k with limits := l }) ∧
  (∀ (r : List Byte) (d : DutyBand), dutyBandOf r = some d ↔
    (∃ x y z, r = [0x80, 0, x, y, z] ∧ d = { threshold := none, top := 0, bottom := 0, rear := 0 }) ∨
    ∃ t : Int, d.threshold = some t ∧ r = dutyBandBytes d ∧ 0 ≤ t ∧ t ≤ 600 ∧ d.top ≤ 100 ∧ d.bottom ≤ 100 ∧ d.rear ≤ 100) ∧
  (∀ (r : List Byte) (l : BankLimits), bankLimitsOf r = some l ↔ r = bankLimitsBytes l ∧
    (40 ≤ l.startLimit ∧ l.startLimit ≤ 300) ∧ (100 ≤ l.release ∧ l.release ≤ 600) ∧ l.dwell ≤ 600 ∧
    (600 ≤ l.blind ∧ l.blind ≤ 14400) ∧ (600 ≤ l.maxCycle ∧ l.maxCycle ≤ 21600) ∧ (10 ≤ l.overshoot ∧ l.overshoot ≤ 120) ∧
    (2 ≤ l.riseMin ∧ l.riseMin ≤ 100) ∧ (600 ≤ l.ceiling ∧ l.ceiling ≤ 1100) ∧
    (∀ a : Fin 6, 1 ≤ l.causeLimit.get a ∧ l.causeLimit.get a ≤ 15) ∧ l.coolFan ≤ 100) ∧
  (∀ (r : List Byte) (g : Segment), segmentOf r = some g ↔
    ∃ kind t1 t0 band d1 d0 s1 s0 cond next alternate marker blower fan converter : Byte,
      r = [kind, t1, t0, band, d1, d0, s1, s0, cond, next, alternate, marker, blower, fan, converter] ∧
      let target : Int := (t1 ++ t0 : BitVec 16).toInt
      let duration : Nat := d1.toNat * 256 + d0.toNat
      let tempFits : Prop := 0 ≤ target ∧ target ≤ 1100
      let banded : Prop := 1 ≤ band.toNat ∧ band.toNat ≤ 40
      let timed (k : Segment) : Prop := tempFits ∧ fan.toNat ≤ 100 ∧ ∃ (b : BlowLevel) (v : ConvField),
        blower = blowLevelCode b ∧ converter = convFieldCode v ∧
        g = { k with target := target, duration := duration, next := next, blower := b, fan := fan.toNat, converter := v }
      let zero := Segment.zero
      (kind = 1 ∧ banded ∧ timed { zero with kind := .ramp, band := band.toNat, short := s1.toNat * 256 + s0.toNat }) ∨
      (kind = 2 ∧ banded ∧ timed { zero with kind := .soak, band := band.toNat }) ∨
      (kind = 3 ∧ timed { zero with kind := .cool }) ∨
      (kind = 4 ∧ ∃ k : CheckCond, cond = checkCondCode k ∧
        let check := { zero with kind := .check, cond := k, next := next, alternate := alternate }
        ((k = .tempAtOrBelow ∨ k = .tempAtOrAbove) → tempFits ∧ g = { check with target := target }) ∧
        (k = .cycleTimeAtLeast → g = { check with duration := duration }) ∧
        ((k = .otherCavityActive ∨ k = .mainsNormal ∨ k = .converterLit) → g = check)) ∨
      (kind = 5 ∧ marker.toNat ≤ 15 ∧ g = { zero with kind := .mark, marker := marker.toNat, next := next }) ∨
      (kind = 6 ∧ g = { zero with kind := .ret }) ∨ (kind = 0 ∧ g = zero)) ∧
  ∀ (r : List Byte) (g : Segment), segmentOf r = some g → segmentOf (segmentBytes g) = some g

/-- R91: VALIDATE finds nothing exactly when a bank meets all nine checks, and else the first of them that fails, in the rule's
order, with its table and index; it makes the bank VALID, or keeps the finding and answers it. -/
def Obligations.ValidateGivesTheFirstFinding : Prop :=
  (∀ b : Bank, (validateBank b = none ↔ ∀ f, ¬b.Fails f) ∧
    ∀ f, validateBank b = some f ↔ b.Fails f ∧ ∀ g, b.Fails g → f.place ≤ g.place) ∧
  (∀ b : Bank, validateBank b = none ↔
    (bankLimitsInRange b.limits = true ∧ b.limits.release < b.limits.ceiling ∧ b.limits.startLimit < b.limits.release) ∧
    (∀ i : Fin 40, ((b.segments.get i).kind.usesNext = true → (b.segments.get i).next.toNat < 40) ∧
      ((b.segments.get i).kind = .check → (b.segments.get i).alternate.toNat < 40) ∧
      ((b.segments.get i).kind = .ramp → (b.segments.get i).duration ≠ 0)) ∧
    (∀ a : Fin 6, b.causes.get a = 0xFF ∨ (b.causes.get a).toNat < 40) ∧
    (∀ i j : Fin 8, j.val = i.val + 1 → (b.duty.get i).threshold = none → (b.duty.get j).threshold = none) ∧
    ∀ (i j : Fin 8) (x y : Int), j.val = i.val + 1 → (b.duty.get i).threshold = some x → (b.duty.get j).threshold = some y →
      y < x) ∧
  ∀ (s : State) (tag bank : Byte) (b : BankId), s.Ready → s.placeTest = true → whichOf bank = some b →
    (validateBank (s.bank b) = none →
      exec (.validate tag [bank]) s = .next (State.conclude
        ((s.heard.modBank b (fun k => { k with state := .valid, finding := none })).place (answerFrame tag codeDone [])))) ∧
    ∀ f, validateBank (s.bank b) = some f →
      exec (.validate tag [bank]) s = .next (State.conclude
        ((s.heard.modBank b (fun k => { k with finding := some f })).place
          (answerFrame tag codeBankInvalid [bankCheckCode f.check, tableIdCode f.table, BitVec.ofNat 8 f.index])))

/-- R100, R121, R123, R172, R177, R178: REPORT answers the snapshot and changes nothing; a KIND or a LEN that is no command's
is BAD-FRAME; a VALIDATE, START, CANCEL or CLEAR that names a cavity or bank other than 0 or 1, or an entry index of 40 or
more, is RANGE and changes nothing. -/
def Obligations.ReportAndMalformedCommandsChangeNothing : Prop :=
  ∀ (s : State) (tag : Byte), s.Ready → s.placeTest = true →
    (∀ subject number data, s.heard.snapshot subject number = some data →
      exec (.report tag [subject, number]) s = .next ((s.heard.place (answerFrame tag codeDone data)).conclude)) ∧
    (∀ subject number, s.heard.snapshot subject number = none →
      exec (.report tag [subject, number]) s = .next ((s.heard.place (answerFrame tag codeRange [])).conclude)) ∧
    (∀ (kind : Byte) (payload : List Byte), payload.length ≤ 40 → isManagementKind kind = false →
      exec (.managementBadKind kind tag payload) s = .next ((s.heard.place (answerFrame tag codeBadFrame [])).conclude)) ∧
    (∀ (payload : List Byte) (c : Instr), payload.length ≤ 40 →
      (c = .seek tag payload ∧ payload.length ≠ 3) ∨ (c = .read tag payload ∧ payload.length ≠ 1) ∨
      (c = .validate tag payload ∧ payload.length ≠ 1) ∨ (c = .start tag payload ∧ payload.length ≠ 3) ∨
      (c = .cancel tag payload ∧ payload.length ≠ 1) ∨ (c = .clear tag payload ∧ payload.length ≠ 1) ∨
      (c = .report tag payload ∧ payload.length ≠ 2) →
      exec c s = .next ((s.heard.place (answerFrame tag codeBadFrame [])).conclude)) ∧
    ∀ (which bank entry : Byte) (c : Instr),
      (c ∈ [Instr.validate tag [which], .cancel tag [which], .clear tag [which]] ∧ 1 < which.toNat) ∨
      (c = .start tag [which, bank, entry] ∧ (1 < which.toNat ∨ 1 < bank.toNat ∨ 40 ≤ entry.toNat)) →
      exec c s = .next ((s.heard.place (answerFrame tag codeRange [])).conclude)

/-- R12, R94, R124, R178, R179, R186, R188: the snapshot of each subject, item by item in the order of its table; a subject or
a number that is none has no snapshot. Times left are rounded up and ages down (the model's choice, log 8), the place of a
request counts from 0 (log 13), the age of a window is in seconds (log 48), an absent door and latch read 0xFF (log 33) and the
presence byte of an unused binding is 0 (log 44); the bytes of a finding NONE, of a window before its first start and of an
empty fault record are pinned in number only (log 14, log 15). -/
def Obligations.SnapshotsCarryTheirItems : Prop :=
  ∀ s : State,
    let byte (n : Nat) : Byte := BitVec.ofNat 8 n
    let two (n : Nat) : List Byte := [byte (n / 256), byte n]
    let temp (t : Option Int) : List Byte := match t with
      | some t => [(BitVec.ofInt 16 t).extractLsb' 8 8, (BitVec.ofInt 16 t).extractLsb' 0 8]
      | none => [0x80, 0]
    let left (unit : Time) (t : Timer) : List Byte := match t with
      | some e => two (min 65534 ((e - s.now + (unit - 1)) / unit))
      | none => [0xFF, 0xFF]
    let age (unit : Time) (t : Option Time) : List Byte := match t with
      | some e => two (min 65534 ((s.now - e) / unit))
      | none => [0xFF, 0xFF]
    let one (n : Option Nat) : Byte := match n with | some n => byte n | none => 0xFF
    let bit (b : Bool) : Byte := if b then 1 else 0
    let ports (k : Counters) : List Byte := two k.accepted ++ two k.crcErrors ++ two k.charErrors ++ two k.gapAborts ++
      two k.lengthErrors ++ two k.discarded
    s.snapshot 0 0 = some ([bit s.stopAsserted, bit s.faultCondition, bit s.live] ++ two s.heldSum ++ two s.limits.budget ++
      [byte s.grantQueue.length, byte s.relay.length, blowLevelCode s.air.level, blowLevelCode (s.air.cavDemand.get .zero),
        blowLevelCode (s.air.cavDemand.get .one), blowLevelCode s.air.controllerDemand, blowLevelCode s.air.bayDemand] ++
      left Config.sec s.air.runOn ++ [stallCheckCode s.air.stall, bit s.air.convDemand, bit s.air.lit,
        bit (s.notices.cav.get .zero), bit (s.notices.cav.get .one), bit s.notices.part]) ∧
    s.snapshot 1 0 = some (ports s.up.count ++ ports s.bus.count) ∧
    (∀ i : Fin 16, let r := s.record i
      s.snapshot 2 (byte i.val) = some (loadEntryBytes (s.entry i) ++ if (s.entry i).cls = .unused then [] else
        [one r.commanded, ownerCode r.owner, one r.confirmed, nodeCondCode r.condition, grantCode r.grant] ++
        age Config.sec r.offSince ++ [loadFaultCode r.fault, attemptCode r.attempt,
          if r.grant = .waiting then one (s.grantQueue.findIdx? (fun q => q.load == i)) else 0xFF])) ∧
    (∀ n : Fin 8, let r := s.chanRecord n
      let u := (s.binding n).use
      s.snapshot 3 (byte n.val) = some (bindingBytes (s.binding n) ++ if u = .unused then [0] else
        [chanStateCode r.state] ++ chanValueBytes u r.latest ++ chanValueBytes u r.previous ++
        [(r.quality.map qualityCode).getD 0, byte r.goodRun, byte r.badRun] ++ age Config.msec r.lastGood ++
        [(if r.latest.isSome then 1 else 0) + (if r.previous.isSome then 2 else 0) + (if r.quality.isSome then 4 else 0) +
          if r.lastGood.isSome then 8 else 0])) ∧
    (∀ (b : BankId) (k : Byte), whichOf k = some b → ∃ finding,
      s.snapshot 4 k = some ([bankStateCode (s.bank b).state, byte (s.bank b).binds, bit ((s.cav .zero).bank == some b),
        bit ((s.cav .one).bank == some b)] ++ finding) ∧ finding.length = 3 ∧
      ∀ f, (s.bank b).finding = some f → finding = [bankCheckCode f.check, tableIdCode f.table, byte f.index]) ∧
    (∀ c : Cav, let subject : Byte := match c with | .zero => 5 | .one => 6
      let k := s.cav c
      let l := s.lock c
      let w := s.window c
      let entry (e : Option StackEntry) : List Byte := match e with
        | some e => [byte e.segment, causeCode e.cause] ++
            (match e.longLeft with | some t => two (min 65534 ((t + (Config.sec - 1)) / Config.sec)) | none => [0xFF, 0xFF]) ++
            (match e.holdLeft with | some t => two (min 65534 ((t + (Config.sec - 1)) / Config.sec)) | none => [0xFF, 0xFF])
        | none => List.replicate 6 0xFF
      s.snapshot subject 0 = some ([cavStateCode k.state, surveyStageCode k.stage, bit k.doorSeen, bit k.probeSeen] ++
        (match k.doorReport with | some (d, l) => [doorCode d, latchCode l] | none => [0xFF, 0xFF]) ++
        [one (k.bank.map (fun b => match b with | .zero => 0 | .one => 1)), one k.entry, one k.segment, byte k.marker,
          byte k.zeroRun] ++ temp k.entryTemp ++ [bit k.litWait, backOffCode k.backOff, reasonCode k.reason,
          blowLevelCode k.blower, convFieldCode k.converter] ++ left Config.sec k.survey ++ left Config.sec k.long ++
        left Config.sec k.short ++ (match k.hold with
          | .stopped => [0xFF, 0xFF]
          | .running e => left Config.sec (some e)
          | .standing t => two (min 65534 ((t + (Config.sec - 1)) / Config.sec))) ++
        left Config.sec k.dwell ++ left Config.sec k.blind ++ two (min 65534 (elapsedTime s.now k.elapsed / Config.sec)) ++
        temp (s.probeTemp c)) ∧
      (∃ period duties, s.snapshot subject 1 = some ([lockStateCode l.state, byte l.attempt, bit l.held, jamCode l.jam,
          confirmModeCode (s.limits.mode.get c), bit w.running] ++ period ++ age Config.sec w.start ++ duties) ∧
        period.length = 2 ∧ duties.length = 3 ∧ (∀ p, w.period = some p → period = two p) ∧
        ∀ d, w.duty = some d → duties = [byte d.top, byte d.bottom, byte d.rear]) ∧
      s.snapshot subject 2 = some ([byte k.stack.length] ++ entry k.stack[0]? ++ entry k.stack[1]? ++ entry k.stack[2]? ++
        entry k.stack[3]? ++ k.pending.toList.map bit ++ k.counts.toList.map byte) ∧
      ∃ fault, s.snapshot subject 3 = some fault ∧ fault.length = 7 ∧ ∀ f, k.firstFault = some f →
        fault = [reasonCode f.reason, one f.segment, byte f.depth] ++ temp f.temperature ++ two (min 65534 f.elapsed)) ∧
    ∀ subject number : Byte, (subject.toNat ≤ 1 ∧ number ≠ 0) ∨ (subject = 2 ∧ 16 ≤ number.toNat) ∨
      (subject = 3 ∧ 8 ≤ number.toNat) ∨ (subject = 4 ∧ 2 ≤ number.toNat) ∨
      ((subject = 5 ∨ subject = 6) ∧ 4 ≤ number.toNat) ∨ 7 ≤ subject.toNat → s.snapshot subject number = none

/-- R15, R96, R144, R180, R181, R184, R187: what ends every command's effect, once for all that the command did (the model's
choice, log 7): of the flagged subjects, in the order CAVITY0, CAVITY1, PART, as many as there are places above the open relay
entries get a NOTICE with their snapshot, in that order, and lose their flag; the others keep it; then FAULT follows its
condition, under which a lock in release from JAMMED still counts (the model's choice, log 36). A change of a cavity's or a
lock's state sets its cavity's flag. -/
def Obligations.NoticesAreServedInOrder : Prop :=
  (∀ s : State,
    let byte (n : Nat) : Byte := BitVec.ofNat 8 n
    let two (n : Nat) : List Byte := [byte (n / 256), byte n]
    let bit (b : Bool) : Byte := if b then 1 else 0
    let cavity (c : Cav) : List Byte := [cavStateCode (s.cav c).state, reasonCode (s.cav c).reason,
      (match (s.cav c).bank with | none => 0xFF | some .zero => 0 | some .one => 1),
      (match (s.cav c).segment with | none => 0xFF | some n => byte n), byte (s.cav c).marker, byte (s.cav c).stack.length,
      (match (s.cav c).stack with | [] => 0xFF | e :: _ => causeCode e.cause), lockStateCode (s.lock c).state,
      jamCode (s.lock c).jam] ++ two (min 65534 (elapsedTime s.now (s.cav c).elapsed / Config.sec))
    let part : List Byte := [bit s.stopAsserted, bit s.faultCondition, bit s.live, blowLevelCode s.air.level,
      stallCheckCode s.air.stall, bit s.air.lit] ++ two s.heldSum
    let notice (subject : Option Cav) : Frame := {
      dest := 121, src := 120, kind := 0x32, tag := 0,
      payload := match subject with | some .zero => 5 :: cavity .zero | some .one => 6 :: cavity .one | none => 0 :: part }
    let flagged (subject : Option Cav) : Bool := match subject with | some c => s.notices.cav.get c | none => s.notices.part
    let inOrder : List (Option Cav) := [some .zero, some .one, none]
    let served := (inOrder.filter flagged).take (16 - s.outQueue.length - s.relay.length)
    let still (subject : Option Cav) : Bool := flagged subject && !served.contains subject
    s.conclude = { s with
      outQueue := s.outQueue ++ served.map notice, faultOut := s.faultCondition,
      notices := { cav := { zero := still (some .zero), one := still (some .one) }, part := still none } }) ∧
  (∀ (s : State) (c : Cav) (st : CavState), ((s.setCavState c st).cav c).state = st ∧
    (st ≠ (s.cav c).state → (s.setCavState c st).notices.cav.get c = true)) ∧
  ∀ (s : State) (c : Cav) (st : LockState), ((s.setLockState c st).lock c).state = st ∧
    (st ≠ (s.lock c).state → (s.setLockState c st).notices.cav.get c = true)

/-- R182: LINK-RESET is taken whatever the place test: every relay entry closes without a frame, the output queue is emptied,
then holds the ANSWER and NOTICEs only, the counters are 0, the pointer is at LOADS 0, the exchange goes on for no entry, and
the TAG sequence, STOP, the controller's blower demand, the channels and the tables stay. Up to the head's turn in the Grant
Queue, which ends it, the cavities, the locks, the watches, the windows, the engine's DRIVEs and ASKs and the rank 0 requests
stay as well. -/
def Obligations.LinkResetClearsTheLink : Prop :=
  ∀ (s : State) (tag : Byte) (payload : List Byte), s.Ready → payload.length ≤ 40 →
    (∃ t fs, exec (.linkReset tag payload) s = .next t ∧ t.relay = [] ∧ t.outQueue = answerFrame tag codeDone [] :: fs ∧
      (∀ f ∈ fs, f.kind = 0x32) ∧ t.up.count = Counters.zero ∧ t.bus.count = Counters.zero ∧
      t.pointer.table = .loads ∧ t.pointer.index = 0 ∧ t.exchange = s.exchange.map Exchange.closed ∧
      t.live = true ∧ t.tagSeq = s.tagSeq ∧ t.stopAsserted = s.stopAsserted ∧
      t.air.controllerDemand = s.air.controllerDemand ∧ t.chans = s.chans ∧ s.SameTables t) ∧
    ∃ u : State, Answers (.linkReset tag payload) s u.considerHead ∧ u.cavs = s.cavs ∧ u.locks = s.locks ∧
      u.watches = s.watches ∧ u.windows = s.windows ∧ u.air = s.air ∧ u.urgent = s.urgent ∧
      (∀ q ∈ s.normal, (∀ x, q ≠ .relayed x) → q ∈ u.normal) ∧
      ∀ r ∈ s.grantQueue, (∀ r' ∈ s.grantQueue, r'.load = r.load → r'.requester = .engine) → r ∈ u.grantQueue

/-! ## The cleaning cycle (chapters 6 and 7) -/

/-- R29, R70, R100 to R103, R148, R177: the conditions of a START in their order, each with its code and data. A START that one
refuses changes nothing; an accepted one is answered DONE after its effect. Every unsent admitted DRIVE for the cavity's
HEATER, FAN and LAMP loads is withdrawn with WITHHELD, ahead of the ANSWER, and every one for the CONVERTER when the cavity
enters RUN. With no grant request waiting and no relay entry unsent it switches every heater, fan and lamp of the cavity off.
The bank is bound, the first fault record and the counts cleared, and the cavity is in PREPARE, where one of these loads is not
confirmed off. Where all are (or there is none), LOCKING is entered at once: the lock, UNKNOWN or UNLOCKED, engages if it has a
motor, and the cavity goes back to OPEN with LOCK-ENGAGE, the bank unbound, if it has none; a JAMMED lock halts the cavity with
LOCK-JAM. -/
def Obligations.StartBindsTheBankAndPrepares : Prop :=
  (∀ (s : State) (c : Cav) (b : BankId) (entry : Nat),
    let refusal := s.startRefusal c b entry
    let door := s.channel (.door c)
    let probe := s.channel (.probe c)
    let isOpen := (s.cav c).state = .opened
    let valid := (s.bank b).state = .valid
    let walks := ∀ i : Fin 40, i.val = entry → ((s.bank b).segments.get i).kind ≠ .ret
    let closed := door.state = .live ∧ door.goodRun = 2 ∧ ∃ l l', door.latest = some (.door .closed l) ∧
      door.previous = some (.door .closed l')
    let cool := ∃ t : Int, probe.latest = some (.num t) ∧ t ≤ (s.bank b).limits.startLimit
    (¬isOpen → refusal = some (10, [])) ∧
    (isOpen → ¬valid → refusal = some (7, [])) ∧
    (isOpen → valid → ¬walks → refusal = some (11, [0])) ∧
    (isOpen → valid → walks → s.stopAsserted = true → refusal = some (11, [1])) ∧
    (isOpen → valid → walks → s.stopAsserted = false → s.air.stall = .stalled → refusal = some (11, [2])) ∧
    (isOpen → valid → walks → s.stopAsserted = false → s.air.stall ≠ .stalled →
      (¬closed → refusal = some (11, [3])) ∧
      (closed → probe.state ≠ .live → refusal = some (11, [4])) ∧
      (closed → probe.state = .live → ¬cool → refusal = some (11, [5])) ∧
      (closed → probe.state = .live → cool → refusal = none))) ∧
  (∀ (s : State) (tag cavity bank entry : Byte) (c : Cav) (b : BankId), s.Ready → s.placeTest = true → whichOf cavity = some c →
    whichOf bank = some b → entry.toNat < 40 →
    let cmd : Instr := .start tag [cavity, bank, entry]
    let bound (t : State) : Prop :=
      (t.cav c).bank = some b ∧ (t.cav c).entry = some entry.toNat ∧ (t.cav c).firstFault = none ∧
        (t.cav c).counts = Vector.replicate 6 0 ∧ (t.cav c).elapsed = .stopped 0 ∧ (t.cav c).marker = 0 ∧
        (t.cav c).reason = .noReason ∧ (t.bank b).binds = (s.bank b).binds + 1
    let allOff : Prop := ∀ i ∈ s.cavityLoads c, (s.record i).confirmed = some 0
    (∀ code data, s.heard.startRefusal c b entry.toNat = some (code, data) →
      exec cmd s = .next ((s.heard.place (answerFrame tag code data)).conclude)) ∧
    (s.heard.startRefusal c b entry.toNat = none →
      Answers cmd s ((s.heard.acceptStart c b entry.toNat).settle.place (answerFrame tag codeDone [])) ∧
      (∀ (x : RelayEntry) (i : Fin 16), s.relayEntry x.frame.tag = some x → x.unsent = true → x.admitted = true →
        s.loadAt x.frame.dest = some i → i ∈ s.cavityLoads c →
        ∃ t before rest, exec cmd s = .next t ∧ (∀ y ∈ t.relay, y.frame.tag ≠ x.frame.tag) ∧
          t.outQueue = before ++ answerFrame tag codeDone [] :: rest ∧
          relayFail x.frame.tag x.frame.dest failWithheld ∈ before) ∧
      (s.grantQueue = [] → (∀ e ∈ s.relay, e.unsent = false) →
        ∃ t, exec cmd s = .next t ∧ s.outQueue ++ [answerFrame tag codeDone []] <+: t.outQueue ∧ s.SameTables t ∧
          (¬allOff ∨ (s.lock c).state ∈ [LockState.unknown, .unlocked] → ∀ i ∈ s.cavityLoads c,
            (t.record i).commanded = some 0 ∧ ((t.record i).confirmed = some 0 ∨ QItem.drive i 0 false ∈ t.urgent)) ∧
          (¬allOff → bound t ∧ (t.cav c).state = .prepare ∧ t.locks = s.locks) ∧
          (allOff → (s.lock c).state ∈ [LockState.unknown, .unlocked] →
            ((s.motor c).isSome = true →
              bound t ∧ (t.cav c).state = .locking ∧ (t.lock c).state = .engaging ∧ (t.lock c).attempt = 1) ∧
            ((s.motor c).isSome = false →
              (t.cav c).state = .opened ∧ (t.cav c).reason = .lockEngage ∧ (t.cav c).bank = none ∧
                (t.bank b).binds = (s.bank b).binds ∧ (t.lock c).state = .unlocked)) ∧
          (allOff → (s.lock c).state = .jammed →
            (t.cav c).state = .halted ∧ (t.cav c).reason = .lockJam ∧ (t.cav c).bank = some b ∧ (t.lock c).state = .jammed)))) ∧
  ∀ (s : State) (c : Cav) (x : RelayEntry) (i : Fin 16), s.relayEntry x.frame.tag = some x → x.unsent = true →
    x.admitted = true → s.loadAt x.frame.dest = some i → (s.entry i).cls = .converter →
    let u := s.enterRun c
    (∀ y ∈ u.relay, y.frame.tag ≠ x.frame.tag) ∧ relayFail x.frame.tag x.frame.dest failWithheld ∈ u.outQueue

/-- R70, R121, R123, R152: CANCEL by the cavity's state; one in LOCKING asks the lock to RELEASE, which acts by the lock's
state. CLEAR of a halted cavity that is safe enters RELEASE; one that is not safe, or not halted, changes nothing. Safe is:
STOP not asserted, the blower not STALLED, and the probe LIVE and confirmed at or below the release temperature, or not LIVE
and the blind cool time over. -/
def Obligations.CancelAndClearActByTheState : Prop :=
  (∀ (s : State) (tag cavity : Byte) (c : Cav), s.Ready → s.placeTest = true → whichOf cavity = some c →
    ((s.cav c).state = .prepare →
      ∃ t, exec (.cancel tag [cavity]) s = .next t ∧ (t.cav c).state = .opened ∧ (t.cav c).reason = .cancelled ∧
        (t.cav c).bank = none ∧ answerFrame tag codeDone [] ∈ t.outQueue ∧ s.SameTables t) ∧
    ((s.cav c).state = .locking → (s.cav c).backOff = .noBackOff →
      ∃ u : State, Answers (.cancel tag [cavity]) s (u.settle.place (answerFrame tag codeDone [])) ∧
        ((u.cav c).backOff = .cancelled ∧ (u.cav c).state = .locking ∧ (u.lock c).held = false) ∧
        (∀ i, s.motor c = some i →
          ((s.lock c).state ≠ .unlocked → (u.lock c).state = .disengaging ∧ (u.lock c).purpose = .plain ∧
            (u.lock c).jam = (s.lock c).jam) ∧
          ((s.lock c).state ∈ [LockState.unknown, .engaging] → (u.lock c).attempt = 0) ∧
          ((s.lock c).state ∈ [LockState.unknown, .engaging, .locked, .jammed] → QItem.drive i 2 false ∈ u.urgent) ∧
          ((s.lock c).state = .disengaging → u.lock c = { s.lock c with held := false, purpose := .plain }) ∧
          ((s.lock c).state = .unlocked → u.lock c = { s.lock c with held := false } ∧ Event.lock c .unlocked ∈ u.events)) ∧
        (s.motor c = none → (u.lock c).state = .unlocked ∧ (u.lock c).jam = .noJam ∧ (u.lock c).attempt = 0 ∧
          Event.lock c .unlocked ∈ u.events)) ∧
    ((s.cav c).state = .locking → (s.cav c).backOff ≠ .noBackOff →
      exec (.cancel tag [cavity]) s = .next ((s.heard.place (answerFrame tag codeDone [])).conclude)) ∧
    ((s.cav c).state = .run →
      Answers (.cancel tag [cavity]) s ((s.heard.endCycle c .cancelled).settle.place (answerFrame tag codeDone []))) ∧
    ((s.cav c).state ∈ [CavState.survey, .opened, .cooldown, .release, .halted] →
      exec (.cancel tag [cavity]) s = .next ((s.heard.place (answerFrame tag codeNotRunning [])).conclude))) ∧
  (∀ (s : State) (tag cavity : Byte) (c : Cav), s.Ready → s.placeTest = true → whichOf cavity = some c →
    ((s.cav c).state = .halted → s.heard.clearSafe c = true →
      Answers (.clear tag [cavity]) s ((s.heard.enterRelease c).settle.place (answerFrame tag codeDone []))) ∧
    ((s.cav c).state = .halted → s.heard.clearSafe c = false →
      exec (.clear tag [cavity]) s = .next ((s.heard.place (answerFrame tag codeNotSafe [])).conclude)) ∧
    ((s.cav c).state ≠ .halted →
      exec (.clear tag [cavity]) s = .next ((s.heard.place (answerFrame tag codeNotRunning [])).conclude))) ∧
  ∀ (s : State) (c : Cav),
    let probe := s.channel (.probe c)
    let level : Int := match (s.cav c).bank with | some b => (s.bank b).limits.release | none => 300
    s.heard.clearSafe c = s.clearSafe c ∧
    (s.stopAsserted = true ∨ s.air.stall = .stalled → s.clearSafe c = false) ∧
    (s.stopAsserted = false → s.air.stall ≠ .stalled → probe.state = .live →
      (s.clearSafe c = true ↔ probe.goodRun = 2 ∧ ∃ x y, probe.latest = some (.num x) ∧ probe.previous = some (.num y) ∧
        x ≤ level ∧ y ≤ level)) ∧
    (s.stopAsserted = false → s.air.stall ≠ .stalled → probe.state ≠ .live → s.clearSafe c = (s.cav c).blindExpired)

/-- R183, R117, R29: an assertion of STOP halts every cavity in PREPARE, LOCKING, RUN, COOLDOWN or RELEASE with reason STOP,
leaves one in SURVEY, OPEN or HALTED as it stands, and raises the PART notice; every unsent admitted DRIVE for a heater or the
converter is withdrawn with WITHHELD, and, with no unsent entry and no request waiting, every heater and the converter is
switched off. A deassertion changes the line and raises the notice. An assertion of a line asserted, or a deassertion of one
deasserted, is no change of level and has no effect, a command that R183 does not speak of (the model's choice, log 5). -/
def Obligations.StopHaltsTheActiveCavities : Prop :=
  (∀ s : State, s.Ready → s.stopAsserted = false →
    ∃ u t, Answers .stopAsserted s u ∧ exec .stopAsserted s = .next t ∧ u.notices.part = true ∧ t.stopAsserted = true ∧
      (∀ c, s.Active c → (t.cav c).state = .halted ∧ (t.cav c).reason = .stop) ∧
      (∀ c, (s.cav c).state = .survey ∨ (s.cav c).state = .opened ∨ (s.cav c).state = .halted →
        (t.cav c).state = (s.cav c).state ∧ (t.cav c).reason = (s.cav c).reason) ∧
      (∀ (x : RelayEntry) (i : Fin 16), s.relayEntry x.frame.tag = some x → x.unsent = true → x.admitted = true →
        s.loadAt x.frame.dest = some i → (s.entry i).cls.heating = true →
        (∀ y ∈ t.relay, y.frame.tag ≠ x.frame.tag) ∧ relayFail x.frame.tag x.frame.dest failWithheld ∈ t.outQueue) ∧
      ((∀ x ∈ s.relay, x.unsent = false) → s.grantQueue = [] → ∀ i, (s.entry i).cls.heating = true →
        (u.record i).commanded = some 0 ∧
          ((u.record i).confirmed = some 0 ∨ (QItem.drive i 0 false ∈ u.urgent ∧ (u.record i).owner = .engine))) ∧
      t.now = s.now ∧ t.live = s.live ∧ s.SameTables t) ∧
  (∀ s : State, s.Ready → s.stopAsserted = true →
    exec .stopDeasserted s =
      .next (State.conclude { s with stopAsserted := false, notices := { s.notices with part := true } })) ∧
  ∀ s : State, s.Ready → (s.stopAsserted = true → exec .stopAsserted s = .next s.conclude) ∧
    (s.stopAsserted = false → exec .stopDeasserted s = .next s.conclude)

/-- R97 to R99, R122: a survey starts, after a table write, where PROBEc, DOORc and the cavity's LOCK are there: its stage
READING, its timer 10 s, the cavity's loads switched off, with no request of theirs left in the Grant Queue; a write that
touched them stops one that has started and tests anew, and any other leaves it. What the survey's decision leaves, by its
finding; one for COOLDOWN ends HALTED while STOP is asserted or the blower STALLED. The survey timer halts its cavity with
reason SURVEY, and the blind cool timer starts; the mark of its expiry is the model's (log 26), the command's moment too (log
3). -/
def Obligations.SurveyStartsThenDecidesOrExpires : Prop :=
  (∀ (s : State) (c : Cav) (touched : Bool),
    let u := s.surveyAfterWrite c touched
    let there := (∃ n, (s.binding n).use = .probe c) ∧ (∃ n, (s.binding n).use = .door c) ∧
      ∃ i, (s.entry i).cls = .lock ∧ (s.entry i).cavity = .of c
    let waits := touched = true ∨ (s.cav c).stage = .waiting
    ((s.cav c).state ≠ .survey ∨ ¬waits → u = s) ∧
    ((s.cav c).state = .survey → touched = true → ¬there →
      u = s.modCav c (fun k => { k with survey := none, stage := .waiting })) ∧
    ((s.cav c).state = .survey → touched = false → ¬there → u = s) ∧
    ((s.cav c).state = .survey → waits → there →
      u.cav c = { s.cav c with
        stage := .reading, doorSeen := false, probeSeen := false, doorReport := none, survey := some (s.now + seconds 10) } ∧
      (∀ i ∈ s.cavityLoads c, (u.record i).commanded = some 0 ∧
        ((u.record i).confirmed = some 0 ∨ QItem.drive i 0 false ∈ u.urgent) ∧ ∀ r ∈ u.grantQueue, r.load ≠ i))) ∧
  (∀ (s : State) (c : Cav) (door : Door) (latch : Latch), (s.cav c).state = .survey → (s.lock c).state = .unknown →
    let u := s.decideSurvey c door latch
    let timed := s.limits.mode.get c = .timed
    let opens := latch = .retracted ∨ (latch = .absent ∧ door = .opened ∧ timed)
    let cools := (latch = .extended ∧ door = .closed) ∨ (latch = .absent ∧ door = .closed ∧ timed)
    (opens → (u.cav c).state = .opened ∧ (u.cav c).reason = .noReason ∧ (u.lock c).state = .unlocked) ∧
    (cools → (u.lock c).state = .locked) ∧
    (latch = .travel → door = .closed → (s.motor c).isSome = true → (u.lock c).state = .engaging ∧ (u.lock c).held = true) ∧
    ((cools ∨ (latch = .travel ∧ door = .closed)) →
      (s.stopAsserted = false → s.air.stall ≠ .stalled → (u.cav c).state = .cooldown ∧ (u.cav c).reason = .noReason) ∧
      (s.stopAsserted = false → s.air.stall = .stalled → (u.cav c).state = .halted ∧ (u.cav c).reason = .blowerStall) ∧
      (s.stopAsserted = true → (u.cav c).state = .halted ∧ (u.cav c).reason = .stop)) ∧
    (¬opens → ¬cools → ¬(latch = .travel ∧ door = .closed) →
      (u.cav c).state = .halted ∧ (u.cav c).reason = .survey ∧ (u.lock c).state = .unknown)) ∧
  ∀ (s : State) (c : Cav) (e : Time), s.Ready → (s.cav c).survey = some e →
    ∃ t, exec (.surveyExpired c) s = .next t ∧ t.now = max s.now e ∧ (t.cav c).state = .halted ∧ (t.cav c).reason = .survey ∧
      (t.cav c).survey = none ∧ (t.cav c).stage = .noStage ∧ (t.cav c).stack = [] ∧
      (t.cav c).pending = Vector.replicate 6 false ∧ (t.cav c).bank = (s.cav c).bank ∧
      (t.cav c).blind = some (max s.now e + seconds (s.blindLimit c)) ∧ (t.cav c).blindExpired = false ∧ s.SameTables t

/-- R85, R106, R108, R114, R115, R138, R140: a zero-time segment below the ninth in a row counts, becomes the present segment,
sets CEILING at the absolute ceiling and acts by its kind, then the segment it leads to is entered; the ninth ends the cycle
with LOOP. What each kind does, and when a CHECK's condition holds. -/
def Obligations.ZeroTimeSegmentsActByTheirKind : Prop :=
  (∀ (s : State) (c : Cav) (g : Segment),
    (g.kind = .check → s.actZero c g = (s, .goto (if s.checkHolds c g then g.next.toNat else g.alternate.toNat))) ∧
    (g.kind = .mark → s.actZero c g = (s.modCav c (fun k => { k with marker := g.marker }), .goto g.next.toNat)) ∧
    (g.kind = .fin → (s.cav c).stack = [] → s.actZero c g = (s.endCycle c .complete, .done)) ∧
    (g.kind = .fin → (s.cav c).stack ≠ [] → s.actZero c g = (s.endCycle c .recoveryEnd, .done)) ∧
    (g.kind = .ret → (s.cav c).stack = [] → s.actZero c g = (s.endCycle c .strayReturn, .done)) ∧
    (∀ (e : StackEntry) (rest : List StackEntry), g.kind = .ret → (s.cav c).stack = e :: rest →
      (s.cav c).pending = Vector.replicate 6 false →
      (s.actZero c g).2 = .resume e.segment (e.longLeft, e.holdLeft) ∧ ((s.actZero c g).1.cav c).stack = rest) ∧
    (∀ (e : StackEntry) (rest : List StackEntry) (a : Cause), g.kind = .ret → (s.cav c).stack = e :: rest →
      (s.cav c).pending.get a.index = true → (∀ d : Cause, d.index < a.index → (s.cav c).pending.get d.index = false) →
      (∀ f ∈ rest.head?, a.index < f.cause.index) →
      s.actZero c g = match ((s.modCav c (fun k => { k with stack := rest })).flagCav c).takeCause c a
          (e.segment, (e.longLeft, e.holdLeft)) with
        | (u, some v) => (u, .goto v)
        | (u, none) => (u, .done)) ∧
    ∀ n : Nat, (s.segmentAt c n).kind ∉ [SegKind.ramp, .soak, .cool] →
      ((s.cav c).zeroRun = 8 →
        s.enterSegment c n = (s.modCav c (fun k => { k with segment := some n })).endCycle c .loop) ∧
      ((s.cav c).zeroRun < 8 →
        let passed := (s.modCav c (fun k => { k with zeroRun := k.zeroRun + 1, segment := some n })).setWatch (.ceiling c) .above
          (s.absCeiling c)
        s.enterSegment c n = match passed.actZero c (s.segmentAt c n) with
          | (u, .goto v) => u.enterSegment c v
          | (u, .resume v r) => u.enterTimed c v (some r)
          | (u, .done) => u)) ∧
  ∀ (s : State) (c : Cav) (g : Segment),
    (g.cond = .tempAtOrBelow → (s.checkHolds c g = true ↔ ∃ t, s.probeTemp c = some t ∧ t ≤ g.target)) ∧
    (g.cond = .tempAtOrAbove → (s.checkHolds c g = true ↔ ∃ t, s.probeTemp c = some t ∧ g.target ≤ t)) ∧
    (g.cond = .cycleTimeAtLeast →
      (s.checkHolds c g = true ↔ g.duration ≤ elapsedTime s.now (s.cav c).elapsed / Config.sec)) ∧
    (g.cond = .otherCavityActive →
      (s.checkHolds c g = true ↔ (s.cav (otherCav c)).state = .locking ∨ (s.cav (otherCav c)).state = .run)) ∧
    (g.cond = .mainsNormal →
      (s.checkHolds c g = true ↔ (s.channel .mains).state = .live ∧ (s.watch .dip).state ≠ .met)) ∧
    (g.cond = .converterLit → s.checkHolds c g = s.air.lit)

/-- R72, R93, R106 to R112, R139: a timed segment is entered, or re-entered with its saved times: the zero-time run is 0, the
outputs are applied, CEILING is set, and the timers, watches and window of its kind start. A RAMP takes the entry temperature,
sets GOAL and its long timer, and starts its short timer and RISE, or waits for LIT; a SOAK's hold runs or stands by the probe,
and one of 0 s completes at once; a COOL sets GOAL below and ends the window with its heaters off. -/
def Obligations.TimedSegmentsStartByTheirKind : Prop :=
  ∀ (s : State) (c : Cav) (n : Nat) (resume : Option Resume) (b : BankId), (s.cav c).bank = some b →
    let g := s.segmentAt c n
    let u := s.enterTimed c n resume
    let probe := s.channel (.probe c)
    let limits := (s.bank b).limits
    let fresh (side : Side) (level : Int) : Watch :=
      { side := side, level := level, state := if confirmedOn probe side level then .met else .notMet }
    let windowStarts :=
      u.window c = {
        running := true, start := some s.now, period := some s.limits.window, duty := (u.window c).duty,
        offMark := (u.window c).offMark } ∧
      ∀ d, d = u.dutiesFor c g.target → (u.window c).duty = some {
        top := treatDuty s.limits.window d.top, bottom := treatDuty s.limits.window d.bottom,
        rear := treatDuty s.limits.window d.rear }
    (g.kind ∈ [SegKind.ramp, .soak, .cool] →
      (resume = none → s.enterSegment c n = u) ∧
      ((u.cav c).zeroRun = 0 ∧ (u.cav c).segment = some n ∧ (u.cav c).state = (s.cav c).state ∧ (u.cav c).bank = some b ∧
        (u.cav c).blower = g.blower ∧ (u.cav c).converter = g.converter ∧ u.air.cavDemand.get c = g.blower ∧
        u.air.convCav.get c = g.converter ∧ u.locks = s.locks ∧ u.chans = s.chans ∧ s.SameTables u) ∧
      (∀ i, s.cavLoad c .fan = some i → (∀ r ∈ s.grantQueue, r.load ≠ i) →
        (g.fan = 0 → (u.record i).commanded = some 0 ∧ ((u.record i).confirmed = some 0 ∨ QItem.drive i 0 false ∈ u.urgent)) ∧
        (0 < g.fan → (s.record i).grant = .held →
          let level := if (s.entry i).kind = .switched then 100 else g.fan
          (u.record i).owner = .engine ∧ ((s.record i).standsAt level = false →
            (u.record i).commanded = some level ∧ QItem.drive i level false ∈ u.normal)) ∧
        (0 < g.fan → (s.record i).grant = .noGrant → (s.record i).fault ≠ .noFault → Event.loadFault i ∈ u.events))) ∧
    (g.kind = .ramp →
      (u.watch (.ceiling c) = fresh .above (min (g.target + limits.overshoot) limits.ceiling) ∧
        u.watch (.goal c) = fresh .atOrAbove (g.target - g.band) ∧ (u.cav c).entryTemp = s.probeTemp c ∧ windowStarts) ∧
      (resume = none → (u.cav c).long = some (s.now + seconds g.duration)) ∧
      (∀ left hold, resume = some (some left, hold) → (u.cav c).long = some (s.now + left)) ∧
      (g.converter = .onNeedsLit → s.air.lit = false →
        (u.cav c).litWait = true ∧ (u.cav c).short = (s.cav c).short ∧ u.watch (.rise c) = s.watch (.rise c)) ∧
      (g.converter ≠ .onNeedsLit ∨ s.air.lit = true → (u.cav c).litWait = (s.cav c).litWait ∧
        (g.short = 0 → (u.cav c).short = (s.cav c).short ∧ u.watch (.rise c) = s.watch (.rise c)) ∧
        ∀ t, 0 < g.short → s.probeTemp c = some t → (u.cav c).short = some (s.now + seconds g.short) ∧
          u.watch (.rise c) = fresh .atOrAbove (t + limits.riseMin))) ∧
    (g.kind = .soak →
      (u.watch (.ceiling c) = fresh .above (min (g.target + limits.overshoot) limits.ceiling) ∧ windowStarts) ∧
      ∀ left, (resume = none ∧ left = seconds g.duration) ∨ (∃ long, resume = some (long, some left)) →
        (left = 0 → (u.cav c).hold = .stopped ∧ Event.holdDone c ∈ u.events) ∧
        (0 < left → (∃ t, s.probeTemp c = some t ∧ g.target - g.band ≤ t) → (u.cav c).hold = .running (s.now + left)) ∧
        (0 < left → (∀ t, s.probeTemp c = some t → t < g.target - g.band) → (u.cav c).hold = .standing left)) ∧
    (g.kind = .cool →
      (u.watch (.ceiling c) = fresh .above limits.ceiling ∧ u.watch (.goal c) = fresh .atOrBelow g.target ∧
        (u.window c).running = false ∧ ∀ p, (u.window c).offMark.get p = none) ∧
      (resume = none → (u.cav c).long = if g.duration = 0 then none else some (s.now + seconds g.duration)) ∧
      (∀ left hold, resume = some (left, hold) → (u.cav c).long = left.map (fun t => s.now + t)) ∧
      (s.grantQueue = [] → ∀ p i, s.heater c p = some i → (u.record i).commanded = some 0 ∧
        ((u.record i).confirmed = some 0 ∨ QItem.drive i 0 false ∈ u.urgent)))

/-- R118, R48, R49, R61, R122: how a cycle that ends leaves its cavity: its items at rest, its window ended and its heaters
off, the fan driven at the cooldown fan level, the demands posted and the RELEASE watch set; and what OVERTIME does (R116), its
moment by log 3. A fan request refused for a fault leaves the record as it was (log 46). -/
def Obligations.EndedCycleCoolsDown : Prop :=
  (∀ (s : State) (c : Cav) (r : Reason), (s.cav c).state = .run →
    let u := s.endCycle c r
    (u.cav c).state = .cooldown ∧ (u.cav c).reason = r ∧ (u.cav c).stack = [] ∧
      (u.cav c).pending = Vector.replicate 6 false ∧ (u.cav c).long = none ∧ (u.cav c).short = none ∧
      (u.cav c).hold = .stopped ∧ (u.cav c).litWait = false ∧ (u.cav c).dwell = none ∧
      (u.cav c).elapsed = .stopped (elapsedTime s.now (s.cav c).elapsed) ∧ (u.cav c).blower = .high ∧
      (u.cav c).converter = .off ∧ (u.cav c).bank = (s.cav c).bank ∧ (u.cav c).counts = (s.cav c).counts ∧
      ((s.cav c).firstFault = none → r ≠ .complete → (u.cav c).firstFault = some (s.faultNow c r)) ∧
      ((s.cav c).firstFault ≠ none ∨ r = .complete → (u.cav c).firstFault = (s.cav c).firstFault) ∧
      (u.window c).running = false ∧ (∀ p, (u.window c).offMark.get p = none) ∧
      (u.watch (.goal c)).state = .cleared ∧ (u.watch (.rise c)).state = .cleared ∧ (u.watch (.ceiling c)).state = .cleared ∧
      u.notices.cav.get c = true ∧ u.air.cavDemand.get c = .high ∧ u.air.convCav.get c = .off) ∧
  (∀ (s : State) (c : Cav) (r : Reason), (s.cav c).state = .run →
    let u := s.endCycle c r
    let level : Int := match (s.cav c).bank with | some b => (s.bank b).limits.release | none => 300
    let fan : Nat := match (s.cav c).bank with | some b => (s.bank b).limits.coolFan | none => 100
    u.watch (.release c) = {
      side := .atOrBelow, level := level,
      state := if confirmedOn (s.channel (.probe c)) .atOrBelow level then .met else .notMet } ∧
    (∀ p i, s.heater c p = some i → (u.record i).commanded = some 0 ∧
      ((u.record i).confirmed = some 0 ∨ QItem.drive i 0 false ∈ u.urgent) ∧ ∀ q ∈ u.grantQueue, q.load ≠ i) ∧
    ∀ i, s.cavLoad c .fan = some i →
      (fan = 0 → (u.record i).commanded = some 0 ∧ ((u.record i).confirmed = some 0 ∨ QItem.drive i 0 false ∈ u.urgent)) ∧
      (0 < fan → (∀ q ∈ s.grantQueue, q.load ≠ i) →
        let l := if (s.entry i).kind = .switched then 100 else fan
        ((s.record i).grant = .held → (u.record i).owner = .engine ∧ ((s.record i).standsAt l = false →
          (u.record i).commanded = some l ∧ QItem.drive i l false ∈ u.normal)) ∧
        ((s.record i).grant = .noGrant → (s.record i).fault = .noFault →
          (u.record i).grant = .held ∨ (u.record i).grant = .waiting) ∧
        ((s.record i).grant = .noGrant → (s.record i).fault ≠ .noFault →
          u.record i = s.record i ∧ Event.loadFault i ∈ u.events))) ∧
  ∀ (s : State) (c : Cav) (since : Time) (l : BankLimits), s.Ready → (s.cav c).elapsed = .running since →
    s.limitsOfCav c = some l →
    Answers (.overtime c) s (State.endCycle { s with now := max s.now (since + seconds l.maxCycle) } c .overtime)

/-- R133, R136: how a cause is taken. -/
def Obligations.CauseIsCountedThenVectored : Prop :=
  ∀ (s : State) (c : Cav) (a : Cause) (r : Nat × Resume) (b : BankId), (s.cav c).state = .run → (s.cav c).bank = some b →
    let u := s.takeCause c a r
    let n := (s.cav c).counts.get a.index + 1
    let limit := (s.bank b).limits.causeLimit.get a.index
    let v := (s.bank b).causes.get a.index
    ((u.1.cav c).counts.get a.index = n ∧ ∀ d : Cause, d ≠ a → (u.1.cav c).counts.get d.index = (s.cav c).counts.get d.index) ∧
    (limit < n → u.2 = none ∧ (u.1.cav c).state = .cooldown ∧ (u.1.cav c).reason = .causeLimit) ∧
    (n ≤ limit → v = 0xFF → u.2 = none ∧ (u.1.cav c).state = .cooldown ∧ (u.1.cav c).reason = .unhandled) ∧
    (n ≤ limit → v ≠ 0xFF → 4 ≤ (s.cav c).stack.length →
      u.2 = none ∧ (u.1.cav c).state = .cooldown ∧ (u.1.cav c).reason = .stackFull) ∧
    (n ≤ limit → v ≠ 0xFF → (s.cav c).stack.length < 4 →
      u.2 = some v.toNat ∧ (u.1.cav c).state = .run ∧
        (u.1.cav c).stack = { segment := r.1, cause := a, longLeft := r.2.1, holdLeft := r.2.2 } :: (s.cav c).stack ∧
        (u.1.cav c).pending.get a.index = false ∧ (u.1.cav c).hold = .stopped ∧ u.1.notices.cav.get c = true)

/-- R102 to R104, R109, R112, R117, R119, R120, R122, R125 to R132, R134, R148, R154, R157, R158: what a context does with each
report. The causes: CEILING MET in its cavity, DIP and DUCT-HOT MET in both, cavity 0 first (log 30), a load fault of a
cavity's own load, which in PREPARE sends it back to OPEN; none raises one outside RUN. GOAL MET completes the segment in RUN,
RISE MET stops the short timer, a LAPSED does nothing. A cause raised in RUN joins the pending set and the pending cause of
highest priority is taken, with the segment's resume point, where the stack is empty or it outranks the top; else the flags
stay set, but for a TIMEOUT, which ends the cycle (R137). The others: a lock report by the cavity's state; the loss of PROBEc
or DOORc, a door OPEN in PREPARE, a failed off there; RELEASE MET and LAPSED in COOLDOWN; a STATE tapped for one of the
cavity's loads, which completes PREPARE and engages the lock; and how a halt leaves the cavity, its heaters and the converter
switched off, the fan driven, its lock held. LOCKED in LOCKING enters RUN with a zero-time run of 0 (the model's choice, log
16), and a halt drops the mark of the blind cool timer's expiry (the model's, log 26). -/
def Obligations.ContextsActOnTheirReports : Prop :=
  (∀ (s : State) (c : Cav) (met : Bool),
    s.handle (.watch (.ceiling c) true) = s.raise c .overheat ∧ s.handle (.watch (.ceiling c) false) = s ∧
    s.handle (.watch .dip true) = (s.raise .zero .mainsDip).raise .one .mainsDip ∧ s.handle (.watch .dip false) = s ∧
    s.handle (.watch .ductHot true) = (s.raise .zero .ductHot).raise .one .ductHot ∧ s.handle (.watch .ductHot false) = s ∧
    ((s.cav c).state = .run → s.handle (.watch (.goal c) true) =
      (s.leaveSegment c).enterSegment c (s.presentSegment c).next.toNat) ∧
    ((s.cav c).state ≠ .run → s.handle (.watch (.goal c) met) = s) ∧ s.handle (.watch (.goal c) false) = s ∧
    ((s.handle (.watch (.rise c) true)).cav c = { s.cav c with short := none } ∧
      ((s.handle (.watch (.rise c) true)).watch (.rise c)).state = .cleared) ∧ s.handle (.watch (.rise c) false) = s) ∧
  (∀ (s : State) (i : Fin 16) (c : Cav), (s.entry i).cls ∈ [LoadClass.heater, .fan, .lamp] → (s.entry i).cavity = .of c →
    ((s.cav c).state = .run → s.handle (.loadFault i) = s.raise c .loadFault) ∧
    ((s.cav c).state = .prepare → ((s.handle (.loadFault i)).cav c).state = .opened ∧
      ((s.handle (.loadFault i)).cav c).reason = .startLoad) ∧
    ((s.cav c).state ≠ .run → (s.cav c).state ≠ .prepare → s.handle (.loadFault i) = s)) ∧
  (∀ (s : State) (c : Cav) (a : Cause), (s.cav c).state ≠ .run → s.raise c a = s) ∧
  (∀ (s : State) (c : Cav) (a top : Cause), (s.cav c).state = .run →
    let set := (s.cav c).pending.set a.index true
    set.get top.index = true → (∀ d : Cause, d.index < top.index → set.get d.index = false) →
    ((∀ e ∈ (s.cav c).stack.head?, top.index < e.cause.index) →
      s.raise c a = match (s.modCav c (fun k => { k with pending := set })).takeCause c top (s.resumePoint c) with
        | (u, some v) => u.enterSegment c v
        | (u, none) => u) ∧
    ((∃ e ∈ (s.cav c).stack.head?, e.cause.index ≤ top.index) →
      let v := s.modCav c (fun k => { k with pending := set })
      s.raise c a = if a = .timeout then v.endCycle c .timeoutInRecovery else v)) ∧
  (∀ (s : State) (c : Cav) (n : Nat), (s.cav c).segment = some n →
    let g := s.presentSegment c
    let long : Time := match (s.cav c).long with | some e => e - s.now | none => 0
    (g.kind = .ramp → s.resumePoint c = (n, (some long, none))) ∧
    (g.kind = .cool → s.resumePoint c = (n, (if g.duration = 0 then none else some long, none))) ∧
    (g.kind = .soak → s.resumePoint c = (n, (none, some (match (s.cav c).hold with
      | .running e => e - s.now
      | .standing left => left
      | .stopped => 0))))) ∧
  (∀ (s : State) (c : Cav) (r : LockReport),
    let u := s.handle (.lock c r)
    let k := s.cav c
    let goes (st : CavState) (why : Reason) : Prop := (u.cav c).state = st ∧ (u.cav c).reason = why
    (k.state = .locking →
      (∀ j, r = .jammed j → goes .halted .lockJam) ∧
      (r = .locked → k.backOff = .noBackOff →
        u = (((s.setCavState c .run).withdrawConverter).modCav c
          (fun k => { k with elapsed := .running s.now, zeroRun := 0 })).enterSegment c (k.entry.getD 0)) ∧
      (r = .engageFailed → k.backOff = .noBackOff → goes .opened .lockEngage ∧ (u.cav c).bank = none) ∧
      (r = .engageAborted → k.backOff = .noBackOff → u = s.modCav c (fun k => { k with backOff := .door })) ∧
      (r = .unlocked → k.backOff ≠ .noBackOff →
        goes .opened (match k.backOff with
          | .cancelled => .cancelled
          | .door => .door
          | .probeLost => .probeLost
          | .noBackOff => .noReason) ∧ (u.cav c).bank = none ∧ (u.cav c).backOff = .noBackOff) ∧
      (r ∈ [LockReport.locked, .engageFailed, .engageAborted] → k.backOff ≠ .noBackOff → u = s) ∧
      (r = .unlocked → k.backOff = .noBackOff → u = s)) ∧
    (k.state ∈ [CavState.run, .cooldown] →
      (∀ j, r = .jammed j → goes .halted (if j = .latchLost then .latchLost else .lockJam)) ∧
      ((∀ j, r ≠ .jammed j) → u = s)) ∧
    (k.state = .release →
      (∀ j, r = .jammed j → goes .halted .lockJam) ∧
      (r = .unlocked → goes .opened k.reason ∧ (u.cav c).bank = none ∧
        ∀ i, s.cavLoad c .fan = some i →
          (u.record i).commanded = some 0 ∧ ((u.record i).confirmed = some 0 ∨ QItem.drive i 0 false ∈ u.urgent)) ∧
      (r ∈ [LockReport.locked, .engageFailed, .engageAborted] → u = s)) ∧
    (k.state ∈ [CavState.survey, .opened, .prepare, .halted] → u = s)) ∧
  (∀ (s : State) (c : Cav) (entered : ChanState), entered ≠ .live →
    let probe := s.handle (.chanState (.probe c) .live entered)
    let door := s.handle (.chanState (.door c) .live entered)
    let goes (u : State) (st : CavState) (why : Reason) : Prop := (u.cav c).state = st ∧ (u.cav c).reason = why
    let backsOff (u : State) (why : BackOff) : Prop :=
      ((s.cav c).backOff = .noBackOff → u = (s.modCav c (fun k => { k with backOff := why })).releaseLock c) ∧
      ((s.cav c).backOff ≠ .noBackOff → u = s)
    ((s.cav c).state = .survey → probe = s.modCav c (fun k => { k with probeSeen := false }) ∧
      door = s.modCav c (fun k => { k with doorSeen := false, doorReport := none })) ∧
    ((s.cav c).state = .prepare → goes probe .opened .probeLost ∧ goes door .opened .door) ∧
    ((s.cav c).state = .locking → backsOff probe .probeLost ∧ backsOff door .door) ∧
    ((s.cav c).state ∈ [CavState.run, .cooldown] → goes probe .halted .probeLost ∧ goes door .halted .doorSensor) ∧
    ((s.cav c).state ∈ [CavState.opened, .release, .halted] → probe = s ∧ door = s)) ∧
  (∀ (s : State) (c : Cav) (latch : Latch) (i : Fin 16), (s.cav c).state = .prepare →
    (((s.onDoorReport c .opened latch).cav c).state = .opened ∧ ((s.onDoorReport c .opened latch).cav c).reason = .door) ∧
    s.onDoorReport c .closed latch = s ∧
    ((s.entry i).cls ∈ [LoadClass.heater, .fan, .lamp] → (s.entry i).cavity = .of c →
      ((s.handle (.offFailed i)).cav c).state = .opened ∧ ((s.handle (.offFailed i)).cav c).reason = .startLoad)) ∧
  (∀ (s : State) (c : Cav),
    let limit := match (s.cav c).bank with | some b => (s.bank b).limits.dwell | none => 120
    ((s.cav c).state = .cooldown →
      (limit = 0 → s.handle (.watch (.release c) true) = s.enterRelease c) ∧
      (limit ≠ 0 → s.handle (.watch (.release c) true) = s.modCav c (fun k => { k with dwell := some (s.now + seconds limit) })) ∧
      s.handle (.watch (.release c) false) = s.modCav c (fun k => { k with dwell := none })) ∧
    ((s.cav c).state ≠ .cooldown → ∀ met, s.handle (.watch (.release c) met) = s)) ∧
  (∀ (s : State) (i : Fin 16) (c : Cav), (s.entry i).cls ∈ [LoadClass.heater, .fan, .lamp] → (s.entry i).cavity = .of c →
    let allOff : Prop := ∀ j ∈ s.cavityLoads c, (s.record j).commanded = some 0 ∧ (s.record j).confirmed = some 0
    ((s.cav c).state = .prepare → allOff → s.handle (.stateTapped i) =
      ((s.modCav c (fun k => { k with backOff := .noBackOff })).setCavState c .locking).engageLock c) ∧
    ((s.cav c).state ≠ .prepare ∨ ¬allOff → s.handle (.stateTapped i) = s)) ∧
  (∀ (s : State) (c : Cav),
    let u := s.engageLock c
    u.cavs = s.cavs ∧
    ((s.lock c).state ∈ [LockState.unknown, .unlocked] →
      ((s.motor c).isSome = true → (u.lock c).state = .engaging ∧ (u.lock c).attempt = 1) ∧
      ((s.motor c).isSome = false → (u.lock c).state = .unlocked ∧ u.events = s.events ++ [.lock c .engageFailed])) ∧
    ((s.lock c).state = .engaging → u = s) ∧
    ((s.lock c).state = .locked → u.locks = s.locks ∧ u.events = s.events ++ [.lock c .locked]) ∧
    ((s.lock c).state = .disengaging → (u.lock c).state = .engaging ∧ (u.lock c).attempt = 1 ∧ (u.lock c).purpose = .noPurpose) ∧
    ((s.lock c).state = .jammed → u.locks = s.locks ∧ u.events = s.events ++ [.lock c (.jammed (s.lock c).jam)])) ∧
  ∀ (s : State) (c : Cav) (r : Reason),
    let u := s.halt c r
    ((u.cav c).state = .halted ∧ (u.cav c).reason = r ∧ (u.cav c).stack = [] ∧ (u.cav c).pending = Vector.replicate 6 false ∧
      (u.cav c).long = none ∧ (u.cav c).short = none ∧ (u.cav c).hold = .stopped ∧ (u.cav c).litWait = false ∧
      (u.cav c).dwell = none ∧ (u.cav c).survey = none ∧ (u.cav c).backOff = .noBackOff ∧
      (u.cav c).blind = some (s.now + seconds (s.blindLimit c)) ∧ (u.cav c).blindExpired = false ∧
      (u.cav c).elapsed = .stopped (elapsedTime s.now (s.cav c).elapsed) ∧ (u.cav c).bank = (s.cav c).bank ∧
      (u.cav c).blower = .high ∧ (u.cav c).converter = .off) ∧
    (∀ w ∈ [WatchId.ceiling c, .goal c, .rise c, .release c], (u.watch w).state = .cleared) ∧
    (∀ p i, s.heater c p = some i → (u.record i).commanded = some 0 ∧
      ((u.record i).confirmed = some 0 ∨ QItem.drive i 0 false ∈ u.urgent) ∧ ∀ q ∈ u.grantQueue, q.load ≠ i) ∧
    ((s.cav c).state = .run → (u.window c).running = false ∧ ∀ p, (u.window c).offMark.get p = none) ∧
    (u.air.cavDemand.get c = .high ∧ u.air.convCav.get c = .off ∧
      u.air.convDemand = (s.air.convCav.get (otherCav c)).wants) ∧
    (s.air.convDemand = true → (s.air.convCav.get (otherCav c)).wants = false → ∀ i, s.sharedLoad .converter = some i →
      (u.record i).commanded = some 0 ∧ ((u.record i).confirmed = some 0 ∨ QItem.drive i 0 false ∈ u.urgent) ∧
      ∀ q ∈ u.grantQueue, q.load ≠ i) ∧
    (let fan : Nat := match (s.cav c).bank with | some b => (s.bank b).limits.coolFan | none => 100
      ∀ i, s.cavLoad c .fan = some i →
        (fan = 0 → (u.record i).commanded = some 0 ∧ ((u.record i).confirmed = some 0 ∨ QItem.drive i 0 false ∈ u.urgent)) ∧
        (0 < fan → (s.record i).grant = .held → (∀ q ∈ s.grantQueue, q.load ≠ i) →
          let l := if (s.entry i).kind = .switched then 100 else fan
          (u.record i).owner = .engine ∧ ((s.record i).standsAt l = false →
            (u.record i).commanded = some l ∧ QItem.drive i l false ∈ u.normal))) ∧
    (u.lock c).held = true ∧
    ((s.lock c).state = .disengaging → (u.lock c).state = .engaging ∧ (u.lock c).purpose = .noPurpose ∧
      (u.lock c).attempt = (s.lock c).attempt) ∧
    ((s.lock c).state ≠ .disengaging → u.lock c = { s.lock c with held := true })

/-- R109, R111, R130, R137: the short and long timers raise TIMEOUT, which ends the cycle in a recovery chain it does not
outrank, whatever else is pending there, and is dropped outside RUN; the hold of a SOAK completes its segment. The commands'
moments are the model's choice (log 3). -/
def Obligations.SegmentTimersRaiseOrComplete : Prop :=
  (∀ (s : State) (c : Cav) (e : Time), s.Ready → (s.cav c).short = some e →
    Answers (.shortTimerExpired c) s
      ((State.modCav { s with now := max s.now e } c (fun k => { k with short := none })).raise c .timeout)) ∧
  (∀ (s : State) (c : Cav) (e : Time), s.Ready → (s.cav c).long = some e →
    Answers (.longTimerExpired c) s
      ((State.modCav { s with now := max s.now e } c (fun k => { k with long := none })).raise c .timeout)) ∧
  (∀ (s : State) (c : Cav) (a : Cause), (s.cav c).state ≠ .run → s.raise c a = s) ∧
  (∀ (s : State) (c : Cav) (e : StackEntry) (rest : List StackEntry), (s.cav c).state = .run → (s.cav c).stack = e :: rest →
    e.cause ≠ .linkLost → (∀ d : Cause, (s.cav c).pending.get d.index = true → e.cause.index ≤ d.index) →
    s.raise c .timeout = (s.setPending c .timeout true).endCycle c .timeoutInRecovery ∧
      ((s.raise c .timeout).cav c).state = .cooldown ∧ ((s.raise c .timeout).cav c).reason = .timeoutInRecovery ∧
      ((s.raise c .timeout).cav c).pending = Vector.replicate 6 false ∧
      ((s.raise c .timeout).cav c).counts = (s.cav c).counts) ∧
  ∀ (s : State) (c : Cav) (e : Time), s.Ready → (s.cav c).hold = .running e →
    Answers (.soakHoldComplete c) s
      ((State.leaveSegment { s with now := max s.now e } c).enterSegment c (s.presentSegment c).next.toNat)

/-- R119, R120, R123, R152: the dwell timer sends its cavity to RELEASE, and the lock is released by its state; the blind cool
timer only leaves its mark, which is the model's (log 26); the commands' moments are the model's choice (log 3). -/
def Obligations.DwellReleasesAndBlindCoolIsNoted : Prop :=
  (∀ (s : State) (c : Cav) (e : Time), s.Ready → (s.cav c).dwell = some e →
    Answers (.dwellExpired c) s (State.enterRelease { s with now := max s.now e } c)) ∧
  (∀ (s : State) (c : Cav), let u := s.enterRelease c
    (u.cav c).state = .release ∧ (u.cav c).dwell = none ∧ (u.cav c).blind = none ∧ (u.cav c).blindExpired = false ∧
      (u.cav c).bank = (s.cav c).bank ∧ (u.lock c).held = false ∧ (u.watch (.release c)).state = .cleared ∧
      ((s.motor c).isSome = true →
        ((s.lock c).state = .locked ∨ (s.lock c).state = .jammed →
          (u.lock c).state = .disengaging ∧ (u.lock c).purpose = .plain ∧ (u.lock c).attempt = (s.lock c).attempt) ∧
        ((s.lock c).state = .unknown ∨ (s.lock c).state = .engaging →
          (u.lock c).state = .disengaging ∧ (u.lock c).purpose = .plain ∧ (u.lock c).attempt = 0) ∧
        ((s.lock c).state = .unlocked → (u.lock c).state = .unlocked ∧ Event.lock c .unlocked ∈ u.events) ∧
        ((s.lock c).state = .disengaging → u.lock c = { s.lock c with held := false, purpose := .plain }) ∧
        (u.lock c).jam = (s.lock c).jam) ∧
      ((s.motor c).isSome = false →
        (u.lock c).state = .unlocked ∧ (u.lock c).jam = .noJam ∧ Event.lock c .unlocked ∈ u.events)) ∧
  ∀ (s : State) (c : Cav) (e : Time), s.Ready → (s.cav c).blind = some e →
    exec (.blindCoolExpired c) s = .next (State.conclude
      (State.modCav { s with now := max s.now e } c (fun k => { k with blind := none, blindExpired := true })))

/-! ## The door lock (chapter 8) -/

/-- R146 to R150, R152, R153, R157: what the three timers of a travel do, the leave and the finish timer, and the travel timer
of a TIMED travel whose motor's code is not confirmed: a first and a second failed engagement back the bolt off, a failed
engagement of a held lock and a failed release jam the lock. A TIMED travel whose code is confirmed succeeds, a release then
acting by its purpose, with no report to the context before a second attempt. The commands' moments are the model's choice (log
3). -/
def Obligations.LockTimersEndTheTravel : Prop :=
  ∀ (s : State) (c : Cav) (e : Time), s.Ready →
    let fails (cmd : Instr) (code : Nat) : Prop := (cmd = .lockLeaveTimerExpired c ∧ (s.lock c).leave = some e) ∨
      (cmd = .lockFinishTimerExpired c ∧ (s.lock c).finish = some e) ∨
      (cmd = .lockTravelTimerExpired c ∧ (s.lock c).travel = some e ∧ s.motorConfirmed c ≠ some code)
    (∀ cmd : Instr, fails cmd 1 →
      ((s.lock c).state = .engaging → (s.lock c).held = false →
        ∃ t, exec cmd s = .next t ∧ t.now = max s.now e ∧ (t.lock c).state = .disengaging ∧
          (t.lock c).purpose = (if (s.lock c).attempt = 1 then .nextAttempt else .failed) ∧ (t.cav c) = (s.cav c) ∧
          s.SameTables t) ∧
      ((s.lock c).state = .engaging → (s.lock c).held = true →
        ∃ u, Answers cmd s u ∧ (u.lock c).state = .jammed ∧ (u.lock c).jam = .engageTimeout ∧
          Event.lock c (.jammed .engageTimeout) ∈ u.events)) ∧
    (∀ cmd : Instr, fails cmd 2 → (s.lock c).state = .disengaging →
      ∃ u, Answers cmd s u ∧ (u.lock c).state = .jammed ∧ (u.lock c).jam = .releaseTimeout ∧ (u.lock c).attempt = 0 ∧
        (u.lock c).purpose = .noPurpose ∧ (u.lock c).leave = none ∧ (u.lock c).finish = none ∧ (u.lock c).travel = none ∧
        (u.lock c).leaveMet = false ∧ Event.lock c (.jammed .releaseTimeout) ∈ u.events) ∧
    ((s.lock c).travel = some e → (s.lock c).state = .engaging → s.motorConfirmed c = some 1 →
      ∃ u, Answers (.lockTravelTimerExpired c) s u ∧ (u.lock c).state = .locked ∧ (u.lock c).attempt = 0 ∧
        (u.lock c).leave = none ∧ (u.lock c).finish = none ∧ (u.lock c).travel = none ∧ (u.lock c).leaveMet = false ∧
        Event.lock c .locked ∈ u.events) ∧
    ((s.lock c).travel = some e → (s.lock c).state = .disengaging → s.motorConfirmed c = some 2 →
      ∃ u, Answers (.lockTravelTimerExpired c) s u ∧ (u.lock c).purpose = .noPurpose ∧
        ((s.lock c).purpose = .plain → (u.lock c).state = .unlocked ∧ (u.lock c).attempt = 0 ∧ (u.lock c).jam = .noJam ∧
          Event.lock c .unlocked ∈ u.events) ∧
        ((s.lock c).purpose = .nextAttempt →
          (u.lock c).state = .engaging ∧ (u.lock c).attempt = 2 ∧ ∀ r, Event.lock c r ∉ u.events) ∧
        ((s.lock c).purpose = .failed → (u.lock c).state = .unlocked ∧ (u.lock c).attempt = 0 ∧
          Event.lock c .engageFailed ∈ u.events))

/-- R144, R149, R151 to R153, R155: a door report replaces the latest latch, then acts by the lock's state: in ENGAGING it
notes that the latch has left, succeeds in POSITION mode at CLOSED with EXTENDED confirmed, and aborts at OPEN; in DISENGAGING
an OPEN gives up a second attempt, and RETRACTED confirmed is the success of the release in POSITION mode; in LOCKED an OPEN or
a confirmed loss of EXTENDED jams the lock; in the other states nothing more. Each GOOD reading of DOORc delivers one, to the
lock first and then to the context (the order is the model's, log 30). -/
def Obligations.DoorReportsActOnTheLock : Prop :=
  (∀ (s : State) (c : Cav) (door : Door) (latch : Latch) (confirmed : Option Latch),
    let k : LockUnit := { s.lock c with latch := some latch }
    let u := s.lockDoorReport c door latch confirmed
    let position := s.limits.mode.get c = .position
    (u.lock c).latch = some latch ∧
    (k.state = .engaging → door = .closed →
      (position → confirmed = some .extended →
        (u.lock c).state = .locked ∧ (u.lock c).attempt = 0 ∧ (u.lock c).leave = none ∧ (u.lock c).finish = none ∧
          (u.lock c).travel = none ∧ (u.lock c).held = k.held ∧ Event.lock c .locked ∈ u.events) ∧
      (position → confirmed ≠ some .extended →
        u.lock c = { k with leaveMet := k.leaveMet || latch != .retracted,
                            leave := if latch ≠ .retracted ∧ k.leaveMet = false then none else k.leave }) ∧
      (¬position → u.lock c = k)) ∧
    (k.state = .engaging → door = .opened →
      (k.held = false → (u.lock c).state = .disengaging ∧ (u.lock c).purpose = .plain ∧ (u.lock c).attempt = k.attempt ∧
        Event.lock c .engageAborted ∈ u.events) ∧
      (k.held = true → (u.lock c).state = .jammed ∧ (u.lock c).jam = .doorOpenHeld ∧
        Event.lock c (.jammed .doorOpenHeld) ∈ u.events)) ∧
    (k.state = .disengaging →
      (door = .opened → k.purpose = .nextAttempt → Event.lock c .engageAborted ∈ u.events) ∧
      (position → confirmed = some .retracted →
        (k.purpose = .plain ∨ (k.purpose = .nextAttempt ∧ door = .opened) →
          (u.lock c).state = .unlocked ∧ (u.lock c).attempt = 0 ∧ (u.lock c).jam = .noJam ∧ (u.lock c).purpose = .noPurpose ∧
            Event.lock c .unlocked ∈ u.events) ∧
        (k.purpose = .nextAttempt → door = .closed → (u.lock c).state = .engaging ∧ (u.lock c).attempt = 2) ∧
        (k.purpose = .failed →
          (u.lock c).state = .unlocked ∧ (u.lock c).attempt = 0 ∧ Event.lock c .engageFailed ∈ u.events)) ∧
      (position → confirmed ≠ some .retracted →
        u.lock c = { k with purpose := if door = .opened ∧ k.purpose = .nextAttempt then .plain else k.purpose,
                            leaveMet := k.leaveMet || latch != .extended,
                            leave := if latch ≠ .extended ∧ k.leaveMet = false then none else k.leave }) ∧
      (¬position → u.lock c = { k with purpose := if door = .opened ∧ k.purpose = .nextAttempt then .plain else k.purpose })) ∧
    (k.state = .locked →
      ((door = .opened ∨ (position ∧ confirmed ≠ none ∧ confirmed ≠ some .extended)) →
        (u.lock c).state = .jammed ∧ (u.lock c).jam = .latchLost ∧ Event.lock c (.jammed .latchLost) ∈ u.events) ∧
      (door = .closed → (¬position ∨ confirmed = none ∨ confirmed = some .extended) → u = s.modLock c (fun _ => k))) ∧
    (k.state ∈ [LockState.unknown, .unlocked, .jammed] → u = s.modLock c (fun _ => k))) ∧
  (∀ (s : State) (n : Fin 8) (c : Cav) (q hi lo : Byte) (d : Door) (l : Latch), (s.binding n).use = .door c →
    readValue (.door c) q hi lo = (.good, some (.door d l)) →
    let r := readInto s.now (seconds s.limits.stale) (s.chanRecord n) (.good, some (.door d l))
    Event.doorReport c d l (doorPair r) (latchPair r) ∈ (s.takeReading n q hi lo).events) ∧
  ∀ (s : State) (c : Cav) (d : Door) (l : Latch) (dc : Option Door) (lc : Option Latch),
    s.handle (.doorReport c d l dc lc) = (s.lockDoorReport c d l lc).onDoorReport c d l

/-! ## Blower (chapter 9) -/

/-- R25, R72, R76, R160 to R164, R166: the highest demand is the highest of the four; a post changes its source's demand, and
where the highest changes the level follows it, OFF by way of LOW and the run-on. BAY-HOT MET and the loss of BAY demand HIGH,
BAY-COOL MET and BAY unbound OFF. A change of the level drives the BLOWER at its percentage, sets SPEED anew and starts the
arming of the stall check, OFF clearing both. A table write starts the check where it has become able to run, and stops it
where it no longer is. A DRIVE of the controller for the blower becomes its demand and is answered by a generated STATE with
the commanded level and the node condition as the demand leaves them. -/
def Obligations.BlowerFollowsTheHighestDemand : Prop :=
  (∀ a : Airflow, (∀ d ∈ [a.cavDemand.get .zero, a.cavDemand.get .one, a.controllerDemand, a.bayDemand],
      blowRank d ≤ blowRank a.highest) ∧
    a.highest ∈ [a.cavDemand.get .zero, a.cavDemand.get .one, a.controllerDemand, a.bayDemand]) ∧
  (∀ (s u : State) (c : Cav) (d : BlowLevel) (a : Airflow),
    (u = s.postBlower c d ∧ a = { s.air with cavDemand := s.air.cavDemand.set c d }) ∨
      (u = s.postController d ∧ a = { s.air with controllerDemand := d }) ∨
      (u = s.postBay d ∧ a = { s.air with bayDemand := d }) →
    (u.air.cavDemand = a.cavDemand ∧ u.air.controllerDemand = a.controllerDemand ∧ u.air.bayDemand = a.bayDemand) ∧
    (a.highest = s.air.highest → u.air = a ∧ u.loads = s.loads ∧ u.watches = s.watches) ∧
    (a.highest ≠ s.air.highest → a.highest ≠ .off → u.air.level = a.highest ∧ u.air.runOn = none) ∧
    (a.highest ≠ s.air.highest → a.highest = .off →
      (s.limits.runOn = 0 → u.air.level = .off ∧ u.air.runOn = s.air.runOn) ∧
      (s.limits.runOn ≠ 0 → u.air.level = .low ∧ u.air.runOn = some (s.now + seconds s.limits.runOn)))) ∧
  (∀ (s : State) (left entered : ChanState),
    s.handle (.watch .bayHot true) = s.postBay .high ∧ s.handle (.watch .bayHot false) = s ∧
    s.handle (.watch .bayCool true) = s.postBay .off ∧ s.handle (.watch .bayCool false) = s ∧
    s.handle (.chanState .bay left .unbound) = s.postBay .off ∧
    (left = .live → entered ∈ [ChanState.unknown, .stale, .failed] → s.handle (.chanState .bay left entered) = s.postBay .high) ∧
    (left ≠ .live → entered ≠ .unbound → s.handle (.chanState .bay left entered) = s)) ∧
  (∀ (s : State) (l : BlowLevel), s.RangesKept → s.air.level ≠ l →
    let u := s.setLevel l
    let able := l ≠ .off ∧ (∃ n, (s.binding n).use = .tacho) ∧ ∃ i, (s.entry i).cls = .blower
    u.air.level = l ∧
    (∀ i, s.sharedLoad .blower = some i →
      (l ≠ .off → let level := if (s.entry i).kind = .switched then 100 else s.limits.map.at l
        (u.record i).commanded = some level ∧ (u.record i).owner = .engine ∧ QItem.drive i level false ∈ u.urgent) ∧
      (l = .off → (u.record i).commanded = some 0 ∧ ((u.record i).confirmed = some 0 ∨ QItem.drive i 0 false ∈ u.urgent))) ∧
    (l = .off → (u.watch .speed).state = .cleared ∧ u.air.stall = .idle ∧ u.air.arming = none ∧ u.air.stallTimer = none ∧
      (s.air.stall = .stalled → u.notices.part = true)) ∧
    (l ≠ .off → u.watch .speed = {
      side := .atOrAbove, level := s.limits.tacho.at l,
      state := if confirmedOn (s.channel .tacho) .atOrAbove (s.limits.tacho.at l) then .met else .notMet }) ∧
    (able → s.air.stall ≠ .stalled →
      u.air.stall = .arming ∧ u.air.arming = some (s.now + seconds s.limits.stallWindow) ∧ u.air.stallTimer = none) ∧
    (l ≠ .off → (¬able ∨ s.air.stall = .stalled) →
      u.air.stall = s.air.stall ∧ u.air.arming = s.air.arming ∧ u.air.stallTimer = s.air.stallTimer)) ∧
  (∀ s : State,
    let able := s.air.level ≠ .off ∧ (∃ n, (s.binding n).use = .tacho) ∧ ∃ i, (s.entry i).cls = .blower
    (s.air.stall = .idle → able → s.refreshAble = { s with air := { s.air with
      stall := .arming, arming := some (s.now + seconds s.limits.stallWindow), stallTimer := none } }) ∧
    (s.air.stall = .arming ∨ s.air.stall = .watching → ¬able →
      s.refreshAble = { s with air := { s.air with stall := .idle, arming := none, stallTimer := none } }) ∧
    (s.air.stall = .stalled ∨ (s.air.stall = .idle ∧ ¬able) ∨ (s.air.stall ≠ .idle ∧ able) → s.refreshAble = s)) ∧
  ∀ (s : State) (dest tag l : Byte) (i : Fin 16), s.Ready → isNodeAddress dest = true → s.placeTest = true →
    s.relay.length < 8 → (∀ e ∈ s.relay, e.frame.tag ≠ tag) → s.loadAt dest = some i → l.toNat ≤ 100 →
    (s.entry i).cls = .blower →
    ∃ u t, Answers (.controllerNodeFrame dest 0x10 tag [l]) s u ∧
      exec (.controllerNodeFrame dest 0x10 tag [l]) s = .next t ∧ t.tagSeq = s.tagSeq ∧ t.exchange = s.exchange ∧
      t.air.controllerDemand =
        (if l.toNat = 0 then .off else if l.toNat ≤ 33 then .low else if l.toNat ≤ 66 then .mid else .high) ∧
      { dest := 121, src := dest, kind := 0x11, tag := tag,
        payload := [BitVec.ofNat 8 ((u.record i).commanded.getD 0), nodeCondCode (s.record i).condition] } ∈ t.outQueue ∧
      s.SameTables t

/-- R29, R162, R163, R164, R165: the end of a run-on makes the level OFF and the stall check IDLE; the end of the arming time
makes the check WATCHING, with the stall timer running while SPEED is not MET; the end of the stall timer makes it STALLED and
halts every cavity in PREPARE, LOCKING, RUN, COOLDOWN or RELEASE with reason BLOWER-STALL; the BLOWER is driven once more at
the present level, and every unsent admitted DRIVE for a heater or the converter is withdrawn with WITHHELD. The commands'
moments are the model's choice (log 3). -/
def Obligations.BlowerTimersSetLevelAndStallCheck : Prop :=
  (∀ (s : State) (e : Time), s.Ready → s.air.runOn = some e →
    ∃ u t, Answers .runOnExpired s u ∧ exec .runOnExpired s = .next t ∧ t.now = max s.now e ∧ u.air.runOn = none ∧
      u.air.level = .off ∧ (s.air.level ≠ .off → u.air.stall = .idle ∧ (u.watch .speed).state = .cleared) ∧
      s.SameTables t) ∧
  (∀ (s : State) (e : Time), s.Ready → s.air.arming = some e →
    exec .armingExpired s = .next (State.conclude { s with
      now := max s.now e,
      air := { s.air with
        stall := .watching, arming := none,
        stallTimer := if (s.watch .speed).state = .met ∨ s.air.stallTimer ≠ none then s.air.stallTimer
                      else some (max s.now e + seconds s.limits.stallWindow) } })) ∧
  ∀ (s : State) (e : Time), s.Ready → s.RangesKept → s.air.level ≠ .off → s.air.stallTimer = some e →
    ∃ u t, Answers .stallTimerExpired s u ∧ exec .stallTimerExpired s = .next t ∧ t.now = max s.now e ∧
      u.air.stall = .stalled ∧ u.air.stallTimer = none ∧ u.notices.part = true ∧
      (∀ i, s.sharedLoad .blower = some i →
        let level := if (s.entry i).kind = .switched then 100 else s.limits.map.at s.air.level
        (u.record i).commanded = some level ∧ (u.record i).owner = .engine ∧ QItem.drive i level false ∈ u.urgent) ∧
      (∀ (x : RelayEntry) (i : Fin 16), s.relayEntry x.frame.tag = some x → x.unsent = true → x.admitted = true →
        s.loadAt x.frame.dest = some i → (s.entry i).cls.heating = true →
        (∀ y ∈ t.relay, y.frame.tag ≠ x.frame.tag) ∧ relayFail x.frame.tag x.frame.dest failWithheld ∈ t.outQueue) ∧
      (∀ c, s.Active c → (t.cav c).state = .halted ∧ (t.cav c).reason = .blowerStall) ∧
      (∀ c, (s.cav c).state = .opened ∨ (s.cav c).state = .halted →
        (t.cav c).state = (s.cav c).state ∧ (t.cav c).reason = (s.cav c).reason) ∧
      s.SameTables t

/-- R109, R110, R129, R167 to R169: a posting sets the context's converter demand and the combined one; where it asks for the
converter, the CONVERTER is driven at 100 on its grant, or a grant is requested, or the request of a faulted one is refused
with a converter fault, its record left as it was, the owner too (the model's choice, log 46); where the combined demand
becomes OFF it is switched off; otherwise nothing is driven. A converter fault is for the contexts that demand the converter at
that moment, found when the fault is reported (log 45); each of them in RUN raises LOAD-FAULT when the report is acted on,
cavity 0 before cavity 1 (log 30). The converter is LIT while there is a CONVERTER entry and LIGHT is MET, and each change is
reported, LIT to cavity 0 before cavity 1 (log 30): a RAMP that waits for it takes the entry temperature anew and starts RISE
and its short timer. -/
def Obligations.ConverterFollowsItsDemandAndTheDuct : Prop :=
  (∀ (s : State) (c : Cav) (d : ConvField),
    let u := s.postConverter c d
    let other := (s.air.convCav.get (otherCav c)).wants
    (u.cav c).converter = d ∧ u.air.convCav = s.air.convCav.set c d ∧ u.air.convDemand = (d.wants || other) ∧
    (s.sharedLoad .converter = none ∨ (d.wants = false ∧ (other = true ∨ s.air.convDemand = false)) →
      u.loads = s.loads ∧ u.urgent = s.urgent ∧ u.normal = s.normal ∧ u.grantQueue = s.grantQueue) ∧
    ∀ i, s.sharedLoad .converter = some i → (∀ r ∈ s.grantQueue, r.load ≠ i) →
      (d.wants = true → (s.record i).grant = .held →
        ((s.record i).standsAt 100 = false →
          (u.record i).commanded = some 100 ∧ (u.record i).owner = .engine ∧ QItem.drive i 100 false ∈ u.normal) ∧
        ((s.record i).standsAt 100 = true →
          u.record i = { s.record i with owner := .engine } ∧ u.urgent = s.urgent ∧ u.normal = s.normal)) ∧
      (d.wants = true → (s.record i).grant = .noGrant →
        ((s.record i).fault = .noFault → (u.record i).grant = .held ∨ (u.record i).grant = .waiting) ∧
        ((s.record i).fault ≠ .noFault → u.record i = s.record i ∧
          u.events = s.events ++ [.converterFault (u.air.convCav.get .zero).wants (u.air.convCav.get .one).wants])) ∧
      (d.wants = false → other = false → s.air.convDemand = true →
        (u.record i).commanded = some 0 ∧ ((u.record i).confirmed = some 0 ∨ QItem.drive i 0 false ∈ u.urgent))) ∧
  (∀ (s : State) (i : Fin 16), (s.entry i).cls = .converter →
    s.faultReport i = .converterFault (s.air.convCav.get .zero).wants (s.air.convCav.get .one).wants) ∧
  (∀ (s : State) (zero one : Bool),
    let t := if zero then s.raise .zero .loadFault else s
    s.handle (.converterFault zero one) = if one then t.raise .one .loadFault else t) ∧
  ∀ s : State,
    let lit := (s.sharedLoad .converter).isSome && (s.watch .light).state == .met
    let u := s.refreshLit
    u.air = { s.air with lit := lit } ∧ u.events = (if s.air.lit = lit then s.events else s.events ++ [.lit lit]) ∧
      (∀ met, s.handle (.watch .light met) = u) ∧ (∀ left entered, s.handle (.chanState .duct left entered) = u) ∧
      s.handle (.lit true) = (s.onLit .zero).onLit .one ∧ s.handle (.lit false) = s ∧
      ∀ c, let v := s.onLit c
        let g := s.presentSegment c
        ((s.cav c).litWait = false → v = s) ∧
        ((s.cav c).litWait = true →
          (v.cav c).litWait = false ∧ (v.cav c).entryTemp = s.probeTemp c ∧
          (g.short = 0 → (v.cav c).short = (s.cav c).short ∧ v.watch (.rise c) = s.watch (.rise c)) ∧
          ∀ t, 0 < g.short → s.probeTemp c = some t → (v.cav c).short = some (s.now + seconds g.short) ∧
            v.watch (.rise c) = {
              side := .atOrAbove, level := t + s.riseMin c,
              state := if confirmedOn (s.channel (.probe c)) .atOrAbove (t + s.riseMin c) then .met else .notMet })

/-! ## Loads, duty windows and channels (chapters 3 and 4) -/

/-- R58 to R60, R87, R113: a window starts anew with the period in LIMITS and the treated duties; each heater with a duty of 0
is switched off, and each with a duty above 0 asked for 100: driven on the grant it holds, or granted, or waiting for a grant,
or refused for a fault, its record left as it was, the owner too (the model's choice, log 46); an off mark is dropped when it
is reached, and its heater is switched off. The duties are those of the first used band whose threshold is at or below the
error, none above it and none while lit wait is YES. The commands' moments are the model's choice (log 3). -/
def Obligations.WindowsStartAndHeatersGoOffAtTheirMark : Prop :=
  (∀ (s : State) (c : Cav) (e : Time), s.Ready → (s.window c).ends = some e →
    ∃ u d, Answers (.windowStart c) s u ∧
      d = State.dutiesFor { s with now := max s.now e } c (s.presentSegment c).target ∧ u.now = max s.now e ∧
      u.window c = {
        running := true, start := some (max s.now e), period := some s.limits.window,
        duty := some { top := treatDuty s.limits.window d.top, bottom := treatDuty s.limits.window d.bottom,
                       rear := treatDuty s.limits.window d.rear },
        offMark := { top := offMarkOf (max s.now e) s.limits.window (treatDuty s.limits.window d.top),
                     bottom := offMarkOf (max s.now e) s.limits.window (treatDuty s.limits.window d.bottom),
                     rear := offMarkOf (max s.now e) s.limits.window (treatDuty s.limits.window d.rear) } } ∧
      u.cavs = s.cavs ∧ u.locks = s.locks ∧ u.chans = s.chans ∧ s.SameTables u ∧
      ∀ (p : HeatPos) (i : Fin 16), s.heater c p = some i →
        (treatDuty s.limits.window (d.get p) = 0 →
          (u.record i).commanded = some 0 ∧ ((u.record i).confirmed = some 0 ∨ QItem.drive i 0 false ∈ u.urgent)) ∧
        (treatDuty s.limits.window (d.get p) ≠ 0 → (s.cav c).state = .run → (s.lock c).state = .locked →
          (∀ r ∈ s.grantQueue, r.load ≠ i) →
          ((s.record i).grant = .held → (s.record i).standsAt 100 = false →
            (u.record i).commanded = some 100 ∧ QItem.drive i 100 false ∈ u.normal) ∧
          ((s.record i).grant = .held → (s.record i).standsAt 100 = true → u.record i = { s.record i with owner := .engine }) ∧
          ((s.record i).grant = .noGrant → (s.record i).fault = .noFault →
            (u.record i).grant = .held ∨
              ((u.record i).grant = .waiting ∧ ∃ r ∈ u.grantQueue, r.load = i ∧ r.requester = .engine ∧ r.level = 100)) ∧
          ((s.record i).grant = .noGrant → (s.record i).fault ≠ .noFault →
            u.record i = s.record i ∧ Event.loadFault i ∈ u.events))) ∧
  (∀ (s : State) (c : Cav) (b : BankId) (target t : Int), (s.cav c).bank = some b → s.probeTemp c = some t →
    let none100 : PerPos Nat := { top := 0, bottom := 0, rear := 0 }
    let reached (i : Fin 8) : Prop := ∃ x : Int, ((s.bank b).duty.get i).threshold = some x ∧ x ≤ target - t
    ((s.cav c).litWait = true → s.dutiesFor c target = none100) ∧
    ((s.cav c).litWait = false → (∀ i, ¬reached i) → s.dutiesFor c target = none100) ∧
    ∀ i, (s.cav c).litWait = false → reached i → (∀ j, j < i → ¬reached j) →
      let d := (s.bank b).duty.get i
      s.dutiesFor c target = { top := d.top, bottom := d.bottom, rear := d.rear }) ∧
  (∀ period duty : Nat, treatDuty period duty = (if duty < 5 ∨ (duty ≤ 95 ∧ duty * period < 100) then 0
      else if 95 < duty then 100 else duty)) ∧
  (∀ (start : Time) (period duty : Nat), offMarkOf start period duty =
    (if duty = 0 ∨ 100 ≤ duty then none else some (start + duty * period / 100 * Config.sec))) ∧
  ∀ (s : State) (c : Cav) (p : HeatPos) (e : Time), s.Ready → (s.window c).offMark.get p = some e →
    ∃ u, Answers (.offMark c p) s u ∧ u.now = max s.now e ∧ (u.window c).offMark.get p = none ∧
      (∀ q, q ≠ p → (u.window c).offMark.get q = (s.window c).offMark.get q) ∧
      (∀ i, s.heater c p = some i →
        (u.record i).commanded = some 0 ∧ ((u.record i).confirmed = some 0 ∨ QItem.drive i 0 false ∈ u.urgent)) ∧
      u.cavs = s.cavs ∧ u.locks = s.locks ∧ u.chans = s.chans ∧ s.SameTables u

/-- R55, R56: at the end of the minimum off time the head of the Grant Queue is considered: a relayed request that fits, alone
in the queue, is granted, its entry carries the grant and its frame joins the normal queue. The command's moment is the model's
choice (log 3). -/
def Obligations.MinimumOffTimeGrantsTheHead : Prop :=
  (∀ (s : State) (e : Time), s.Ready → s.minOff = some e →
    Answers .minOffTimerExpired s (State.considerHead { s with now := max s.now e })) ∧
  ∀ (s : State) (e : Time) (r : GrantRequest) (tag : Byte), s.Ready → s.minOff = some e → s.grantQueue = [r] →
    r.requester = .relay tag → (s.record r.load).fault = .noFault → s.fits r.load = true →
    State.offCondition { s with now := max s.now e } r.load = true →
    ∃ t, exec .minOffTimerExpired s = .next t ∧ t.now = max s.now e ∧ t.grantQueue = [] ∧ t.minOff = none ∧
      t.record r.load = { s.record r.load with grant := .held, commanded := some r.level, owner := .controller } ∧
      (∀ j, j ≠ r.load → t.record j = s.record j) ∧ t.normal = s.normal ++ [QItem.relayed tag] ∧ t.urgent = s.urgent ∧
      (∀ x ∈ t.relay, x.frame.tag = tag → x.stage = .queued ∧ x.carriesGrant = true ∧ x.stageSince = t.now) ∧
      t.cavs = s.cavs ∧ t.chans = s.chans ∧ s.SameTables t

/-- R69, R71, R73: a channel whose stale timer expires becomes STALE with good run 0; where it was LIVE, its loss is reported,
the MET watches on its use become NOT-MET with no LAPSED and the rest of each watch as it was, and no other watch or record
changes. The command's moment is the model's choice (log 3). -/
def Obligations.StaleChannelLosesItsWatches : Prop :=
  ∀ (s : State) (n : Fin 8) (e : Time), s.Ready → (s.chanRecord n).stale = some e →
    ∃ u t, Answers (.channelStale n) s u ∧ exec (.channelStale n) s = .next t ∧ t.now = max s.now e ∧
      t.chanRecord n = { s.chanRecord n with state := .stale, goodRun := 0, stale := none } ∧
      (∀ m, m ≠ n → t.chanRecord m = s.chanRecord m) ∧
      ((s.chanRecord n).state = .live →
        u.events = [Event.chanState (s.binding n).use .live .stale] ∧
        ∀ w, u.watch w = if w ∈ watchesOn (s.binding n).use ∧ (s.watch w).state = .met
          then { s.watch w with state := .notMet } else s.watch w) ∧
      ((s.chanRecord n).state ≠ .live → u.watches = s.watches) ∧
      s.SameTables t

/-- R67 to R70, R72, R76, R164, R166: a reading's value is read by the use of its binding, and a GOOD one out of range is
RANGE. A GOOD reading moves the latest value into the previous one, counts up the good run to 2, and makes the channel LIVE
with its stale timer started again, a FAILED one only at the second in a row; one that is not GOOD keeps the values, and the
second in a row makes the channel FAILED. At a reading a NOT-MET watch whose condition is confirmed becomes MET, and a MET
watch whose latest GOOD value does not meet its condition becomes NOT-MET, each with its event; any other stays. A watch that
is set is evaluated at once, with an event only where its state changes. SPEED MET stops the stall timer, and clears a stall
while SPEED is still MET as it is acted on (log 6), TACHO is bound and there is a BLOWER (what holds once they are back is the
model's, log 38); SPEED LAPSED and the loss of TACHO start the stall timer; the level becoming OFF clears a stall. -/
def Obligations.ReadingsMoveTheWatchesAndTheStall : Prop :=
  (∀ (q hi lo : Byte) (c : Cav) (u : Use),
    (q = 1 → readValue u q hi lo = (.openCircuit, none)) ∧ (q = 2 → readValue u q hi lo = (.shortCircuit, none)) ∧
    (3 ≤ q.toNat → readValue u q hi lo = (.outOfRange, none)) ∧
    (q = 0 →
      (∀ v : Int, u ∈ [Use.probe c, .bay, .duct] → v = (hi ++ lo : BitVec 16).toInt → readValue u q hi lo =
        if -100 ≤ v ∧ v ≤ 1400 then (.good, some (.num v)) else (.outOfRange, none)) ∧
      (∀ v : Nat, v = hi.toNat * 256 + lo.toNat →
        (u = .mains → readValue u q hi lo = if v ≤ 300 then (.good, some (.num v)) else (.outOfRange, none)) ∧
        (u = .tacho → readValue u q hi lo = if v ≤ 9000 then (.good, some (.num v)) else (.outOfRange, none))) ∧
      (u = .door c →
        (∀ d l, hi = doorCode d → lo = latchCode l → readValue u q hi lo = (.good, some (.door d l))) ∧
        (1 < hi.toNat ∨ 3 < lo.toNat → readValue u q hi lo = (.outOfRange, none))))) ∧
  (∀ (now length : Time) (r : ChanRecord) (v : ChanValue), r.state ≠ .unbound →
    let u := readInto now length r (.good, some v)
    u.latest = some v ∧ u.previous = r.latest ∧ u.quality = some .good ∧ u.goodRun = min 2 (r.goodRun + 1) ∧ u.badRun = 0 ∧
    u.lastGood = some now ∧
    (r.state ≠ .failed ∨ 1 ≤ r.goodRun → u.state = .live ∧ u.stale = some (now + length)) ∧
    (r.state = .failed → r.goodRun = 0 → u.state = .failed ∧ u.stale = r.stale)) ∧
  (∀ (now length : Time) (r : ChanRecord) (q : Quality), r.state ≠ .unbound → q ≠ .good →
    readInto now length r (q, none) = { r with
      quality := some q, goodRun := 0, badRun := min 2 (r.badRun + 1),
      state := if 1 ≤ r.badRun then .failed else r.state,
      stale := if 1 ≤ r.badRun ∨ r.state = .failed then none else r.stale }) ∧
  (∀ (r : ChanRecord) (side : Side) (level : Int), confirmedOn r side level = true ↔
    r.state = .live ∧ r.goodRun = 2 ∧ ∃ x y, numOf r.latest = some x ∧ numOf r.previous = some y ∧
      onSide side level x = true ∧ onSide side level y = true) ∧
  (∀ (s : State) (w : WatchId) (side : Side) (level : Int),
    let met := confirmedOn (s.channel (watchUse w)) side level
    let was := (s.watch w).state
    let u := s.setWatch w side level
    u.watch w = { side := side, level := level, state := if met then .met else .notMet } ∧ (∀ v, v ≠ w → u.watch v = s.watch v) ∧
      u.events = s.events ++ (if met = true ∧ was ≠ .met then [Event.watch w true]
        else if met = false ∧ was = .met then [Event.watch w false] else [])) ∧
  (∀ (s : State) (w : WatchId),
    let k := s.watch w
    let r := s.channel (watchUse w)
    let u := s.evalWatch w
    (k.state = .notMet → confirmedOn r k.side k.level = true →
      u.watch w = { k with state := .met } ∧ u.events = s.events ++ [.watch w true]) ∧
    (k.state = .met → r.quality = some .good → valueMeets k.side k.level r.latest = false →
      u.watch w = { k with state := .notMet } ∧ u.events = s.events ++ [.watch w false]) ∧
    (k.state = .cleared ∨ (k.state = .notMet ∧ confirmedOn r k.side k.level = false) ∨
      (k.state = .met ∧ (r.quality ≠ some .good ∨ valueMeets k.side k.level r.latest = true)) → u = s) ∧
    ∀ v, v ≠ w → u.watch v = s.watch v) ∧
  (∀ (s : State) (n : Fin 8) (w : WatchId) (q hi lo : Byte), s.bindingOfUse (watchUse w) = some n →
    let k := s.watch w
    let r := readInto s.now (seconds s.limits.stale) (s.chanRecord n) (readValue (watchUse w) q hi lo)
    let u := s.takeReading n q hi lo
    (k.state = .notMet → confirmedOn r k.side k.level = true → (u.watch w).state = .met ∧ Event.watch w true ∈ u.events) ∧
    (k.state = .met → r.state = .live → r.quality = some .good → valueMeets k.side k.level r.latest = false →
      (u.watch w).state = .notMet ∧ Event.watch w false ∈ u.events)) ∧
  (∀ (s : State) (left entered : ChanState), s.handle (.watch .speed true) = s.speedMet ∧
    s.handle (.watch .speed false) = s.speedLost ∧
    (left = .live → entered ≠ .live → s.handle (.chanState .tacho left entered) = s.speedLost)) ∧
  ∀ s : State,
    (s.air.stall = .watching → s.speedMet = { s with air := { s.air with stallTimer := none } } ∧
      (s.air.stallTimer = none →
        s.speedLost = { s with air := { s.air with stallTimer := some (s.now + seconds s.limits.stallWindow) } })) ∧
    (s.air.stall = .stalled →
      (s.air.level ≠ .off → (s.bindingOfUse .tacho).isSome = true → (s.sharedLoad .blower).isSome = true →
        (s.watch .speed).state = .met → s.speedMet.air = { s.air with stall := .watching, stallTimer := none } ∧ s.speedMet.notices.part = true) ∧
      ((s.watch .speed).state ≠ .met ∨ (s.bindingOfUse .tacho).isSome = false ∨ (s.sharedLoad .blower).isSome = false →
        s.speedMet = s) ∧
      (s.air.level ≠ .off →
        (s.setLevel .off).air.level = .off ∧ (s.setLevel .off).air.stall = .idle ∧ (s.setLevel .off).notices.part = true))

/-- The expiries inside the part leave the link alone: the ports, the transmitters, the exchange in flight, the TAG sequence,
the pointer, the pins that come from outside and every table; upstream they only add frames behind those that wait; and the
TAGs of the open relay entries are among those open before, in their order. -/
def Obligations.InsideExpiriesLeaveTheLinkAlone : Prop :=
  ∀ (s t : State) (c : Instr), insideExpiry c = true → exec c s = .next t →
    t.up = s.up ∧ t.bus = s.bus ∧ t.upTx = s.upTx ∧ t.busTx = s.busTx ∧ t.exchange = s.exchange ∧ t.tagSeq = s.tagSeq ∧
      t.live = s.live ∧ t.silence = s.silence ∧ t.pointer = s.pointer ∧ t.resetHeld = s.resetHeld ∧
      t.stopAsserted = s.stopAsserted ∧ t.air.controllerDemand = s.air.controllerDemand ∧ t.pollDue = s.pollDue ∧
      s.outQueue <+: t.outQueue ∧ List.Sublist (t.relay.map (fun e => e.frame.tag)) (s.relay.map (fun e => e.frame.tag)) ∧
      s.now ≤ t.now ∧ s.SameTables t
end

