-- ==== Sys2Proof/Laws/State.lean ====
section
/-! SUPPORT. Every field of the state after each update the model makes through a named operation: one lemma per field per
update, true by rfl and tagged simp, so that no proof unfolds a record update. -/

namespace Sys2Proof.Machine


/-! ### `advance` -/

@[simp] theorem now_advance (s : State) (t : Time) : (s.advance t).now = max s.now t := rfl
@[simp] theorem pending_advance (s : State) (t : Time) : (s.advance t).pending = s.pending := rfl
@[simp] theorem events_advance (s : State) (t : Time) : (s.advance t).events = s.events := rfl
@[simp] theorem resetHeld_advance (s : State) (t : Time) : (s.advance t).resetHeld = s.resetHeld := rfl
@[simp] theorem stopAsserted_advance (s : State) (t : Time) : (s.advance t).stopAsserted = s.stopAsserted := rfl
@[simp] theorem faultOut_advance (s : State) (t : Time) : (s.advance t).faultOut = s.faultOut := rfl
@[simp] theorem pointer_advance (s : State) (t : Time) : (s.advance t).pointer = s.pointer := rfl
@[simp] theorem notices_advance (s : State) (t : Time) : (s.advance t).notices = s.notices := rfl
@[simp] theorem up_advance (s : State) (t : Time) : (s.advance t).up = s.up := rfl
@[simp] theorem bus_advance (s : State) (t : Time) : (s.advance t).bus = s.bus := rfl
@[simp] theorem upTx_advance (s : State) (t : Time) : (s.advance t).upTx = s.upTx := rfl
@[simp] theorem busTx_advance (s : State) (t : Time) : (s.advance t).busTx = s.busTx := rfl
@[simp] theorem outQueue_advance (s : State) (t : Time) : (s.advance t).outQueue = s.outQueue := rfl
@[simp] theorem live_advance (s : State) (t : Time) : (s.advance t).live = s.live := rfl
@[simp] theorem silence_advance (s : State) (t : Time) : (s.advance t).silence = s.silence := rfl
@[simp] theorem tagSeq_advance (s : State) (t : Time) : (s.advance t).tagSeq = s.tagSeq := rfl
@[simp] theorem relay_advance (s : State) (t : Time) : (s.advance t).relay = s.relay := rfl
@[simp] theorem admission_advance (s : State) (t : Time) : (s.advance t).admission = s.admission := rfl
@[simp] theorem urgent_advance (s : State) (t : Time) : (s.advance t).urgent = s.urgent := rfl
@[simp] theorem normal_advance (s : State) (t : Time) : (s.advance t).normal = s.normal := rfl
@[simp] theorem exchange_advance (s : State) (t : Time) : (s.advance t).exchange = s.exchange := rfl
@[simp] theorem loads_advance (s : State) (t : Time) : (s.advance t).loads = s.loads := rfl
@[simp] theorem grantQueue_advance (s : State) (t : Time) : (s.advance t).grantQueue = s.grantQueue := rfl
@[simp] theorem minOff_advance (s : State) (t : Time) : (s.advance t).minOff = s.minOff := rfl
@[simp] theorem windows_advance (s : State) (t : Time) : (s.advance t).windows = s.windows := rfl
@[simp] theorem chans_advance (s : State) (t : Time) : (s.advance t).chans = s.chans := rfl
@[simp] theorem pollDue_advance (s : State) (t : Time) : (s.advance t).pollDue = s.pollDue := rfl
@[simp] theorem watches_advance (s : State) (t : Time) : (s.advance t).watches = s.watches := rfl
@[simp] theorem banks_advance (s : State) (t : Time) : (s.advance t).banks = s.banks := rfl
@[simp] theorem cavs_advance (s : State) (t : Time) : (s.advance t).cavs = s.cavs := rfl
@[simp] theorem locks_advance (s : State) (t : Time) : (s.advance t).locks = s.locks := rfl
@[simp] theorem air_advance (s : State) (t : Time) : (s.advance t).air = s.air := rfl
@[simp] theorem limits_advance (s : State) (t : Time) : (s.advance t).limits = s.limits := rfl

/-! ### `modCav` -/

@[simp] theorem now_modCav (s : State) (c : Cav) (f : CavCtx → CavCtx) : (s.modCav c f).now = s.now := rfl
@[simp] theorem pending_modCav (s : State) (c : Cav) (f : CavCtx → CavCtx) : (s.modCav c f).pending = s.pending := rfl
@[simp] theorem events_modCav (s : State) (c : Cav) (f : CavCtx → CavCtx) : (s.modCav c f).events = s.events := rfl
@[simp] theorem resetHeld_modCav (s : State) (c : Cav) (f : CavCtx → CavCtx) : (s.modCav c f).resetHeld = s.resetHeld := rfl
@[simp] theorem stopAsserted_modCav (s : State) (c : Cav) (f : CavCtx → CavCtx) : (s.modCav c f).stopAsserted = s.stopAsserted :=
  rfl
@[simp] theorem faultOut_modCav (s : State) (c : Cav) (f : CavCtx → CavCtx) : (s.modCav c f).faultOut = s.faultOut := rfl
@[simp] theorem pointer_modCav (s : State) (c : Cav) (f : CavCtx → CavCtx) : (s.modCav c f).pointer = s.pointer := rfl
@[simp] theorem notices_modCav (s : State) (c : Cav) (f : CavCtx → CavCtx) : (s.modCav c f).notices = s.notices := rfl
@[simp] theorem up_modCav (s : State) (c : Cav) (f : CavCtx → CavCtx) : (s.modCav c f).up = s.up := rfl
@[simp] theorem bus_modCav (s : State) (c : Cav) (f : CavCtx → CavCtx) : (s.modCav c f).bus = s.bus := rfl
@[simp] theorem upTx_modCav (s : State) (c : Cav) (f : CavCtx → CavCtx) : (s.modCav c f).upTx = s.upTx := rfl
@[simp] theorem busTx_modCav (s : State) (c : Cav) (f : CavCtx → CavCtx) : (s.modCav c f).busTx = s.busTx := rfl
@[simp] theorem outQueue_modCav (s : State) (c : Cav) (f : CavCtx → CavCtx) : (s.modCav c f).outQueue = s.outQueue := rfl
@[simp] theorem live_modCav (s : State) (c : Cav) (f : CavCtx → CavCtx) : (s.modCav c f).live = s.live := rfl
@[simp] theorem silence_modCav (s : State) (c : Cav) (f : CavCtx → CavCtx) : (s.modCav c f).silence = s.silence := rfl
@[simp] theorem tagSeq_modCav (s : State) (c : Cav) (f : CavCtx → CavCtx) : (s.modCav c f).tagSeq = s.tagSeq := rfl
@[simp] theorem relay_modCav (s : State) (c : Cav) (f : CavCtx → CavCtx) : (s.modCav c f).relay = s.relay := rfl
@[simp] theorem admission_modCav (s : State) (c : Cav) (f : CavCtx → CavCtx) : (s.modCav c f).admission = s.admission := rfl
@[simp] theorem urgent_modCav (s : State) (c : Cav) (f : CavCtx → CavCtx) : (s.modCav c f).urgent = s.urgent := rfl
@[simp] theorem normal_modCav (s : State) (c : Cav) (f : CavCtx → CavCtx) : (s.modCav c f).normal = s.normal := rfl
@[simp] theorem exchange_modCav (s : State) (c : Cav) (f : CavCtx → CavCtx) : (s.modCav c f).exchange = s.exchange := rfl
@[simp] theorem loads_modCav (s : State) (c : Cav) (f : CavCtx → CavCtx) : (s.modCav c f).loads = s.loads := rfl
@[simp] theorem grantQueue_modCav (s : State) (c : Cav) (f : CavCtx → CavCtx) : (s.modCav c f).grantQueue = s.grantQueue :=
  rfl
@[simp] theorem minOff_modCav (s : State) (c : Cav) (f : CavCtx → CavCtx) : (s.modCav c f).minOff = s.minOff := rfl
@[simp] theorem windows_modCav (s : State) (c : Cav) (f : CavCtx → CavCtx) : (s.modCav c f).windows = s.windows := rfl
@[simp] theorem chans_modCav (s : State) (c : Cav) (f : CavCtx → CavCtx) : (s.modCav c f).chans = s.chans := rfl
@[simp] theorem pollDue_modCav (s : State) (c : Cav) (f : CavCtx → CavCtx) : (s.modCav c f).pollDue = s.pollDue := rfl
@[simp] theorem watches_modCav (s : State) (c : Cav) (f : CavCtx → CavCtx) : (s.modCav c f).watches = s.watches := rfl
@[simp] theorem banks_modCav (s : State) (c : Cav) (f : CavCtx → CavCtx) : (s.modCav c f).banks = s.banks := rfl
@[simp] theorem cavs_modCav (s : State) (c : Cav) (f : CavCtx → CavCtx) : (s.modCav c f).cavs = s.cavs.set c (f (s.cavs.get c)) :=
  rfl
@[simp] theorem locks_modCav (s : State) (c : Cav) (f : CavCtx → CavCtx) : (s.modCav c f).locks = s.locks := rfl
@[simp] theorem air_modCav (s : State) (c : Cav) (f : CavCtx → CavCtx) : (s.modCav c f).air = s.air := rfl
@[simp] theorem limits_modCav (s : State) (c : Cav) (f : CavCtx → CavCtx) : (s.modCav c f).limits = s.limits := rfl

/-! ### `modLock` -/

@[simp] theorem now_modLock (s : State) (c : Cav) (f : LockUnit → LockUnit) : (s.modLock c f).now = s.now := rfl
@[simp] theorem pending_modLock (s : State) (c : Cav) (f : LockUnit → LockUnit) : (s.modLock c f).pending = s.pending := rfl
@[simp] theorem events_modLock (s : State) (c : Cav) (f : LockUnit → LockUnit) : (s.modLock c f).events = s.events := rfl
@[simp] theorem resetHeld_modLock (s : State) (c : Cav) (f : LockUnit → LockUnit) : (s.modLock c f).resetHeld = s.resetHeld :=
  rfl
@[simp] theorem stopAsserted_modLock (s : State) (c : Cav) (f : LockUnit → LockUnit) : (s.modLock c f).stopAsserted = s.stopAsserted :=
  rfl
@[simp] theorem faultOut_modLock (s : State) (c : Cav) (f : LockUnit → LockUnit) : (s.modLock c f).faultOut = s.faultOut :=
  rfl
@[simp] theorem pointer_modLock (s : State) (c : Cav) (f : LockUnit → LockUnit) : (s.modLock c f).pointer = s.pointer := rfl
@[simp] theorem notices_modLock (s : State) (c : Cav) (f : LockUnit → LockUnit) : (s.modLock c f).notices = s.notices := rfl
@[simp] theorem up_modLock (s : State) (c : Cav) (f : LockUnit → LockUnit) : (s.modLock c f).up = s.up := rfl
@[simp] theorem bus_modLock (s : State) (c : Cav) (f : LockUnit → LockUnit) : (s.modLock c f).bus = s.bus := rfl
@[simp] theorem upTx_modLock (s : State) (c : Cav) (f : LockUnit → LockUnit) : (s.modLock c f).upTx = s.upTx := rfl
@[simp] theorem busTx_modLock (s : State) (c : Cav) (f : LockUnit → LockUnit) : (s.modLock c f).busTx = s.busTx := rfl
@[simp] theorem outQueue_modLock (s : State) (c : Cav) (f : LockUnit → LockUnit) : (s.modLock c f).outQueue = s.outQueue :=
  rfl
@[simp] theorem live_modLock (s : State) (c : Cav) (f : LockUnit → LockUnit) : (s.modLock c f).live = s.live := rfl
@[simp] theorem silence_modLock (s : State) (c : Cav) (f : LockUnit → LockUnit) : (s.modLock c f).silence = s.silence := rfl
@[simp] theorem tagSeq_modLock (s : State) (c : Cav) (f : LockUnit → LockUnit) : (s.modLock c f).tagSeq = s.tagSeq := rfl
@[simp] theorem relay_modLock (s : State) (c : Cav) (f : LockUnit → LockUnit) : (s.modLock c f).relay = s.relay := rfl
@[simp] theorem admission_modLock (s : State) (c : Cav) (f : LockUnit → LockUnit) : (s.modLock c f).admission = s.admission :=
  rfl
@[simp] theorem urgent_modLock (s : State) (c : Cav) (f : LockUnit → LockUnit) : (s.modLock c f).urgent = s.urgent := rfl
@[simp] theorem normal_modLock (s : State) (c : Cav) (f : LockUnit → LockUnit) : (s.modLock c f).normal = s.normal := rfl
@[simp] theorem exchange_modLock (s : State) (c : Cav) (f : LockUnit → LockUnit) : (s.modLock c f).exchange = s.exchange :=
  rfl
@[simp] theorem loads_modLock (s : State) (c : Cav) (f : LockUnit → LockUnit) : (s.modLock c f).loads = s.loads := rfl
@[simp] theorem grantQueue_modLock (s : State) (c : Cav) (f : LockUnit → LockUnit) : (s.modLock c f).grantQueue = s.grantQueue :=
  rfl
@[simp] theorem minOff_modLock (s : State) (c : Cav) (f : LockUnit → LockUnit) : (s.modLock c f).minOff = s.minOff := rfl
@[simp] theorem windows_modLock (s : State) (c : Cav) (f : LockUnit → LockUnit) : (s.modLock c f).windows = s.windows := rfl
@[simp] theorem chans_modLock (s : State) (c : Cav) (f : LockUnit → LockUnit) : (s.modLock c f).chans = s.chans := rfl
@[simp] theorem pollDue_modLock (s : State) (c : Cav) (f : LockUnit → LockUnit) : (s.modLock c f).pollDue = s.pollDue := rfl
@[simp] theorem watches_modLock (s : State) (c : Cav) (f : LockUnit → LockUnit) : (s.modLock c f).watches = s.watches := rfl
@[simp] theorem banks_modLock (s : State) (c : Cav) (f : LockUnit → LockUnit) : (s.modLock c f).banks = s.banks := rfl
@[simp] theorem cavs_modLock (s : State) (c : Cav) (f : LockUnit → LockUnit) : (s.modLock c f).cavs = s.cavs := rfl
@[simp] theorem locks_modLock (s : State) (c : Cav) (f : LockUnit → LockUnit) : (s.modLock c f).locks = s.locks.set c (f (s.locks.get c)) :=
  rfl
@[simp] theorem air_modLock (s : State) (c : Cav) (f : LockUnit → LockUnit) : (s.modLock c f).air = s.air := rfl
@[simp] theorem limits_modLock (s : State) (c : Cav) (f : LockUnit → LockUnit) : (s.modLock c f).limits = s.limits := rfl

/-! ### `modWindow` -/

@[simp] theorem now_modWindow (s : State) (c : Cav) (f : DutyWindow → DutyWindow) : (s.modWindow c f).now = s.now := rfl
@[simp] theorem pending_modWindow (s : State) (c : Cav) (f : DutyWindow → DutyWindow) : (s.modWindow c f).pending = s.pending :=
  rfl
@[simp] theorem events_modWindow (s : State) (c : Cav) (f : DutyWindow → DutyWindow) : (s.modWindow c f).events = s.events :=
  rfl
@[simp] theorem resetHeld_modWindow (s : State) (c : Cav) (f : DutyWindow → DutyWindow) : (s.modWindow c f).resetHeld = s.resetHeld :=
  rfl
@[simp] theorem stopAsserted_modWindow (s : State) (c : Cav) (f : DutyWindow → DutyWindow) : (s.modWindow c f).stopAsserted = s.stopAsserted :=
  rfl
@[simp] theorem faultOut_modWindow (s : State) (c : Cav) (f : DutyWindow → DutyWindow) : (s.modWindow c f).faultOut = s.faultOut :=
  rfl
@[simp] theorem pointer_modWindow (s : State) (c : Cav) (f : DutyWindow → DutyWindow) : (s.modWindow c f).pointer = s.pointer :=
  rfl
@[simp] theorem notices_modWindow (s : State) (c : Cav) (f : DutyWindow → DutyWindow) : (s.modWindow c f).notices = s.notices :=
  rfl
@[simp] theorem up_modWindow (s : State) (c : Cav) (f : DutyWindow → DutyWindow) : (s.modWindow c f).up = s.up := rfl
@[simp] theorem bus_modWindow (s : State) (c : Cav) (f : DutyWindow → DutyWindow) : (s.modWindow c f).bus = s.bus := rfl
@[simp] theorem upTx_modWindow (s : State) (c : Cav) (f : DutyWindow → DutyWindow) : (s.modWindow c f).upTx = s.upTx := rfl
@[simp] theorem busTx_modWindow (s : State) (c : Cav) (f : DutyWindow → DutyWindow) : (s.modWindow c f).busTx = s.busTx :=
  rfl
@[simp] theorem outQueue_modWindow (s : State) (c : Cav) (f : DutyWindow → DutyWindow) : (s.modWindow c f).outQueue = s.outQueue :=
  rfl
@[simp] theorem live_modWindow (s : State) (c : Cav) (f : DutyWindow → DutyWindow) : (s.modWindow c f).live = s.live := rfl
@[simp] theorem silence_modWindow (s : State) (c : Cav) (f : DutyWindow → DutyWindow) : (s.modWindow c f).silence = s.silence :=
  rfl
@[simp] theorem tagSeq_modWindow (s : State) (c : Cav) (f : DutyWindow → DutyWindow) : (s.modWindow c f).tagSeq = s.tagSeq :=
  rfl
@[simp] theorem relay_modWindow (s : State) (c : Cav) (f : DutyWindow → DutyWindow) : (s.modWindow c f).relay = s.relay :=
  rfl
@[simp] theorem admission_modWindow (s : State) (c : Cav) (f : DutyWindow → DutyWindow) : (s.modWindow c f).admission = s.admission :=
  rfl
@[simp] theorem urgent_modWindow (s : State) (c : Cav) (f : DutyWindow → DutyWindow) : (s.modWindow c f).urgent = s.urgent :=
  rfl
@[simp] theorem normal_modWindow (s : State) (c : Cav) (f : DutyWindow → DutyWindow) : (s.modWindow c f).normal = s.normal :=
  rfl
@[simp] theorem exchange_modWindow (s : State) (c : Cav) (f : DutyWindow → DutyWindow) : (s.modWindow c f).exchange = s.exchange :=
  rfl
@[simp] theorem loads_modWindow (s : State) (c : Cav) (f : DutyWindow → DutyWindow) : (s.modWindow c f).loads = s.loads :=
  rfl
@[simp] theorem grantQueue_modWindow (s : State) (c : Cav) (f : DutyWindow → DutyWindow) : (s.modWindow c f).grantQueue = s.grantQueue :=
  rfl
@[simp] theorem minOff_modWindow (s : State) (c : Cav) (f : DutyWindow → DutyWindow) : (s.modWindow c f).minOff = s.minOff :=
  rfl
@[simp] theorem windows_modWindow (s : State) (c : Cav) (f : DutyWindow → DutyWindow) : (s.modWindow c f).windows = s.windows.set c (f (s.windows.get c)) :=
  rfl
@[simp] theorem chans_modWindow (s : State) (c : Cav) (f : DutyWindow → DutyWindow) : (s.modWindow c f).chans = s.chans :=
  rfl
@[simp] theorem pollDue_modWindow (s : State) (c : Cav) (f : DutyWindow → DutyWindow) : (s.modWindow c f).pollDue = s.pollDue :=
  rfl
@[simp] theorem watches_modWindow (s : State) (c : Cav) (f : DutyWindow → DutyWindow) : (s.modWindow c f).watches = s.watches :=
  rfl
@[simp] theorem banks_modWindow (s : State) (c : Cav) (f : DutyWindow → DutyWindow) : (s.modWindow c f).banks = s.banks :=
  rfl
@[simp] theorem cavs_modWindow (s : State) (c : Cav) (f : DutyWindow → DutyWindow) : (s.modWindow c f).cavs = s.cavs := rfl
@[simp] theorem locks_modWindow (s : State) (c : Cav) (f : DutyWindow → DutyWindow) : (s.modWindow c f).locks = s.locks :=
  rfl
@[simp] theorem air_modWindow (s : State) (c : Cav) (f : DutyWindow → DutyWindow) : (s.modWindow c f).air = s.air := rfl
@[simp] theorem limits_modWindow (s : State) (c : Cav) (f : DutyWindow → DutyWindow) : (s.modWindow c f).limits = s.limits :=
  rfl

/-! ### `modBank` -/

@[simp] theorem now_modBank (s : State) (b : BankId) (f : Bank → Bank) : (s.modBank b f).now = s.now := rfl
@[simp] theorem pending_modBank (s : State) (b : BankId) (f : Bank → Bank) : (s.modBank b f).pending = s.pending := rfl
@[simp] theorem events_modBank (s : State) (b : BankId) (f : Bank → Bank) : (s.modBank b f).events = s.events := rfl
@[simp] theorem resetHeld_modBank (s : State) (b : BankId) (f : Bank → Bank) : (s.modBank b f).resetHeld = s.resetHeld :=
  rfl
@[simp] theorem stopAsserted_modBank (s : State) (b : BankId) (f : Bank → Bank) : (s.modBank b f).stopAsserted = s.stopAsserted :=
  rfl
@[simp] theorem faultOut_modBank (s : State) (b : BankId) (f : Bank → Bank) : (s.modBank b f).faultOut = s.faultOut := rfl
@[simp] theorem pointer_modBank (s : State) (b : BankId) (f : Bank → Bank) : (s.modBank b f).pointer = s.pointer := rfl
@[simp] theorem notices_modBank (s : State) (b : BankId) (f : Bank → Bank) : (s.modBank b f).notices = s.notices := rfl
@[simp] theorem up_modBank (s : State) (b : BankId) (f : Bank → Bank) : (s.modBank b f).up = s.up := rfl
@[simp] theorem bus_modBank (s : State) (b : BankId) (f : Bank → Bank) : (s.modBank b f).bus = s.bus := rfl
@[simp] theorem upTx_modBank (s : State) (b : BankId) (f : Bank → Bank) : (s.modBank b f).upTx = s.upTx := rfl
@[simp] theorem busTx_modBank (s : State) (b : BankId) (f : Bank → Bank) : (s.modBank b f).busTx = s.busTx := rfl
@[simp] theorem outQueue_modBank (s : State) (b : BankId) (f : Bank → Bank) : (s.modBank b f).outQueue = s.outQueue := rfl
@[simp] theorem live_modBank (s : State) (b : BankId) (f : Bank → Bank) : (s.modBank b f).live = s.live := rfl
@[simp] theorem silence_modBank (s : State) (b : BankId) (f : Bank → Bank) : (s.modBank b f).silence = s.silence := rfl
@[simp] theorem tagSeq_modBank (s : State) (b : BankId) (f : Bank → Bank) : (s.modBank b f).tagSeq = s.tagSeq := rfl
@[simp] theorem relay_modBank (s : State) (b : BankId) (f : Bank → Bank) : (s.modBank b f).relay = s.relay := rfl
@[simp] theorem admission_modBank (s : State) (b : BankId) (f : Bank → Bank) : (s.modBank b f).admission = s.admission :=
  rfl
@[simp] theorem urgent_modBank (s : State) (b : BankId) (f : Bank → Bank) : (s.modBank b f).urgent = s.urgent := rfl
@[simp] theorem normal_modBank (s : State) (b : BankId) (f : Bank → Bank) : (s.modBank b f).normal = s.normal := rfl
@[simp] theorem exchange_modBank (s : State) (b : BankId) (f : Bank → Bank) : (s.modBank b f).exchange = s.exchange := rfl
@[simp] theorem loads_modBank (s : State) (b : BankId) (f : Bank → Bank) : (s.modBank b f).loads = s.loads := rfl
@[simp] theorem grantQueue_modBank (s : State) (b : BankId) (f : Bank → Bank) : (s.modBank b f).grantQueue = s.grantQueue :=
  rfl
@[simp] theorem minOff_modBank (s : State) (b : BankId) (f : Bank → Bank) : (s.modBank b f).minOff = s.minOff := rfl
@[simp] theorem windows_modBank (s : State) (b : BankId) (f : Bank → Bank) : (s.modBank b f).windows = s.windows := rfl
@[simp] theorem chans_modBank (s : State) (b : BankId) (f : Bank → Bank) : (s.modBank b f).chans = s.chans := rfl
@[simp] theorem pollDue_modBank (s : State) (b : BankId) (f : Bank → Bank) : (s.modBank b f).pollDue = s.pollDue := rfl
@[simp] theorem watches_modBank (s : State) (b : BankId) (f : Bank → Bank) : (s.modBank b f).watches = s.watches := rfl
@[simp] theorem banks_modBank (s : State) (b : BankId) (f : Bank → Bank) : (s.modBank b f).banks = s.banks.set b (f (s.banks.get b)) :=
  rfl
@[simp] theorem cavs_modBank (s : State) (b : BankId) (f : Bank → Bank) : (s.modBank b f).cavs = s.cavs := rfl
@[simp] theorem locks_modBank (s : State) (b : BankId) (f : Bank → Bank) : (s.modBank b f).locks = s.locks := rfl
@[simp] theorem air_modBank (s : State) (b : BankId) (f : Bank → Bank) : (s.modBank b f).air = s.air := rfl
@[simp] theorem limits_modBank (s : State) (b : BankId) (f : Bank → Bank) : (s.modBank b f).limits = s.limits := rfl

/-! ### `modAir` -/

@[simp] theorem now_modAir (s : State) (f : Airflow → Airflow) : (s.modAir f).now = s.now := rfl
@[simp] theorem pending_modAir (s : State) (f : Airflow → Airflow) : (s.modAir f).pending = s.pending := rfl
@[simp] theorem events_modAir (s : State) (f : Airflow → Airflow) : (s.modAir f).events = s.events := rfl
@[simp] theorem resetHeld_modAir (s : State) (f : Airflow → Airflow) : (s.modAir f).resetHeld = s.resetHeld := rfl
@[simp] theorem stopAsserted_modAir (s : State) (f : Airflow → Airflow) : (s.modAir f).stopAsserted = s.stopAsserted := rfl
@[simp] theorem faultOut_modAir (s : State) (f : Airflow → Airflow) : (s.modAir f).faultOut = s.faultOut := rfl
@[simp] theorem pointer_modAir (s : State) (f : Airflow → Airflow) : (s.modAir f).pointer = s.pointer := rfl
@[simp] theorem notices_modAir (s : State) (f : Airflow → Airflow) : (s.modAir f).notices = s.notices := rfl
@[simp] theorem up_modAir (s : State) (f : Airflow → Airflow) : (s.modAir f).up = s.up := rfl
@[simp] theorem bus_modAir (s : State) (f : Airflow → Airflow) : (s.modAir f).bus = s.bus := rfl
@[simp] theorem upTx_modAir (s : State) (f : Airflow → Airflow) : (s.modAir f).upTx = s.upTx := rfl
@[simp] theorem busTx_modAir (s : State) (f : Airflow → Airflow) : (s.modAir f).busTx = s.busTx := rfl
@[simp] theorem outQueue_modAir (s : State) (f : Airflow → Airflow) : (s.modAir f).outQueue = s.outQueue := rfl
@[simp] theorem live_modAir (s : State) (f : Airflow → Airflow) : (s.modAir f).live = s.live := rfl
@[simp] theorem silence_modAir (s : State) (f : Airflow → Airflow) : (s.modAir f).silence = s.silence := rfl
@[simp] theorem tagSeq_modAir (s : State) (f : Airflow → Airflow) : (s.modAir f).tagSeq = s.tagSeq := rfl
@[simp] theorem relay_modAir (s : State) (f : Airflow → Airflow) : (s.modAir f).relay = s.relay := rfl
@[simp] theorem admission_modAir (s : State) (f : Airflow → Airflow) : (s.modAir f).admission = s.admission := rfl
@[simp] theorem urgent_modAir (s : State) (f : Airflow → Airflow) : (s.modAir f).urgent = s.urgent := rfl
@[simp] theorem normal_modAir (s : State) (f : Airflow → Airflow) : (s.modAir f).normal = s.normal := rfl
@[simp] theorem exchange_modAir (s : State) (f : Airflow → Airflow) : (s.modAir f).exchange = s.exchange := rfl
@[simp] theorem loads_modAir (s : State) (f : Airflow → Airflow) : (s.modAir f).loads = s.loads := rfl
@[simp] theorem grantQueue_modAir (s : State) (f : Airflow → Airflow) : (s.modAir f).grantQueue = s.grantQueue := rfl
@[simp] theorem minOff_modAir (s : State) (f : Airflow → Airflow) : (s.modAir f).minOff = s.minOff := rfl
@[simp] theorem windows_modAir (s : State) (f : Airflow → Airflow) : (s.modAir f).windows = s.windows := rfl
@[simp] theorem chans_modAir (s : State) (f : Airflow → Airflow) : (s.modAir f).chans = s.chans := rfl
@[simp] theorem pollDue_modAir (s : State) (f : Airflow → Airflow) : (s.modAir f).pollDue = s.pollDue := rfl
@[simp] theorem watches_modAir (s : State) (f : Airflow → Airflow) : (s.modAir f).watches = s.watches := rfl
@[simp] theorem banks_modAir (s : State) (f : Airflow → Airflow) : (s.modAir f).banks = s.banks := rfl
@[simp] theorem cavs_modAir (s : State) (f : Airflow → Airflow) : (s.modAir f).cavs = s.cavs := rfl
@[simp] theorem locks_modAir (s : State) (f : Airflow → Airflow) : (s.modAir f).locks = s.locks := rfl
@[simp] theorem air_modAir (s : State) (f : Airflow → Airflow) : (s.modAir f).air = f s.air := rfl
@[simp] theorem limits_modAir (s : State) (f : Airflow → Airflow) : (s.modAir f).limits = s.limits := rfl

/-! ### `modRecord` -/

@[simp] theorem now_modRecord (s : State) (i : Fin 16) (f : LoadRecord → LoadRecord) : (s.modRecord i f).now = s.now := rfl
@[simp] theorem pending_modRecord (s : State) (i : Fin 16) (f : LoadRecord → LoadRecord) : (s.modRecord i f).pending = s.pending :=
  rfl
@[simp] theorem events_modRecord (s : State) (i : Fin 16) (f : LoadRecord → LoadRecord) : (s.modRecord i f).events = s.events :=
  rfl
@[simp] theorem resetHeld_modRecord (s : State) (i : Fin 16) (f : LoadRecord → LoadRecord) : (s.modRecord i f).resetHeld = s.resetHeld :=
  rfl
@[simp] theorem stopAsserted_modRecord (s : State) (i : Fin 16) (f : LoadRecord → LoadRecord) : (s.modRecord i f).stopAsserted = s.stopAsserted :=
  rfl
@[simp] theorem faultOut_modRecord (s : State) (i : Fin 16) (f : LoadRecord → LoadRecord) : (s.modRecord i f).faultOut = s.faultOut :=
  rfl
@[simp] theorem pointer_modRecord (s : State) (i : Fin 16) (f : LoadRecord → LoadRecord) : (s.modRecord i f).pointer = s.pointer :=
  rfl
@[simp] theorem notices_modRecord (s : State) (i : Fin 16) (f : LoadRecord → LoadRecord) : (s.modRecord i f).notices = s.notices :=
  rfl
@[simp] theorem up_modRecord (s : State) (i : Fin 16) (f : LoadRecord → LoadRecord) : (s.modRecord i f).up = s.up := rfl
@[simp] theorem bus_modRecord (s : State) (i : Fin 16) (f : LoadRecord → LoadRecord) : (s.modRecord i f).bus = s.bus := rfl
@[simp] theorem upTx_modRecord (s : State) (i : Fin 16) (f : LoadRecord → LoadRecord) : (s.modRecord i f).upTx = s.upTx :=
  rfl
@[simp] theorem busTx_modRecord (s : State) (i : Fin 16) (f : LoadRecord → LoadRecord) : (s.modRecord i f).busTx = s.busTx :=
  rfl
@[simp] theorem outQueue_modRecord (s : State) (i : Fin 16) (f : LoadRecord → LoadRecord) : (s.modRecord i f).outQueue = s.outQueue :=
  rfl
@[simp] theorem live_modRecord (s : State) (i : Fin 16) (f : LoadRecord → LoadRecord) : (s.modRecord i f).live = s.live :=
  rfl
@[simp] theorem silence_modRecord (s : State) (i : Fin 16) (f : LoadRecord → LoadRecord) : (s.modRecord i f).silence = s.silence :=
  rfl
@[simp] theorem tagSeq_modRecord (s : State) (i : Fin 16) (f : LoadRecord → LoadRecord) : (s.modRecord i f).tagSeq = s.tagSeq :=
  rfl
@[simp] theorem relay_modRecord (s : State) (i : Fin 16) (f : LoadRecord → LoadRecord) : (s.modRecord i f).relay = s.relay :=
  rfl
@[simp] theorem admission_modRecord (s : State) (i : Fin 16) (f : LoadRecord → LoadRecord) : (s.modRecord i f).admission = s.admission :=
  rfl
@[simp] theorem urgent_modRecord (s : State) (i : Fin 16) (f : LoadRecord → LoadRecord) : (s.modRecord i f).urgent = s.urgent :=
  rfl
@[simp] theorem normal_modRecord (s : State) (i : Fin 16) (f : LoadRecord → LoadRecord) : (s.modRecord i f).normal = s.normal :=
  rfl
@[simp] theorem exchange_modRecord (s : State) (i : Fin 16) (f : LoadRecord → LoadRecord) : (s.modRecord i f).exchange = s.exchange :=
  rfl
@[simp] theorem grantQueue_modRecord (s : State) (i : Fin 16) (f : LoadRecord → LoadRecord) : (s.modRecord i f).grantQueue = s.grantQueue :=
  rfl
@[simp] theorem minOff_modRecord (s : State) (i : Fin 16) (f : LoadRecord → LoadRecord) : (s.modRecord i f).minOff = s.minOff :=
  rfl
@[simp] theorem windows_modRecord (s : State) (i : Fin 16) (f : LoadRecord → LoadRecord) : (s.modRecord i f).windows = s.windows :=
  rfl
@[simp] theorem chans_modRecord (s : State) (i : Fin 16) (f : LoadRecord → LoadRecord) : (s.modRecord i f).chans = s.chans :=
  rfl
@[simp] theorem pollDue_modRecord (s : State) (i : Fin 16) (f : LoadRecord → LoadRecord) : (s.modRecord i f).pollDue = s.pollDue :=
  rfl
@[simp] theorem watches_modRecord (s : State) (i : Fin 16) (f : LoadRecord → LoadRecord) : (s.modRecord i f).watches = s.watches :=
  rfl
@[simp] theorem banks_modRecord (s : State) (i : Fin 16) (f : LoadRecord → LoadRecord) : (s.modRecord i f).banks = s.banks :=
  rfl
@[simp] theorem cavs_modRecord (s : State) (i : Fin 16) (f : LoadRecord → LoadRecord) : (s.modRecord i f).cavs = s.cavs :=
  rfl
@[simp] theorem locks_modRecord (s : State) (i : Fin 16) (f : LoadRecord → LoadRecord) : (s.modRecord i f).locks = s.locks :=
  rfl
@[simp] theorem air_modRecord (s : State) (i : Fin 16) (f : LoadRecord → LoadRecord) : (s.modRecord i f).air = s.air := rfl
@[simp] theorem limits_modRecord (s : State) (i : Fin 16) (f : LoadRecord → LoadRecord) : (s.modRecord i f).limits = s.limits :=
  rfl

/-! ### `modChan` -/

@[simp] theorem now_modChan (s : State) (n : Fin 8) (f : ChanRecord → ChanRecord) : (s.modChan n f).now = s.now := rfl
@[simp] theorem pending_modChan (s : State) (n : Fin 8) (f : ChanRecord → ChanRecord) : (s.modChan n f).pending = s.pending :=
  rfl
@[simp] theorem events_modChan (s : State) (n : Fin 8) (f : ChanRecord → ChanRecord) : (s.modChan n f).events = s.events :=
  rfl
@[simp] theorem resetHeld_modChan (s : State) (n : Fin 8) (f : ChanRecord → ChanRecord) : (s.modChan n f).resetHeld = s.resetHeld :=
  rfl
@[simp] theorem stopAsserted_modChan (s : State) (n : Fin 8) (f : ChanRecord → ChanRecord) : (s.modChan n f).stopAsserted = s.stopAsserted :=
  rfl
@[simp] theorem faultOut_modChan (s : State) (n : Fin 8) (f : ChanRecord → ChanRecord) : (s.modChan n f).faultOut = s.faultOut :=
  rfl
@[simp] theorem pointer_modChan (s : State) (n : Fin 8) (f : ChanRecord → ChanRecord) : (s.modChan n f).pointer = s.pointer :=
  rfl
@[simp] theorem notices_modChan (s : State) (n : Fin 8) (f : ChanRecord → ChanRecord) : (s.modChan n f).notices = s.notices :=
  rfl
@[simp] theorem up_modChan (s : State) (n : Fin 8) (f : ChanRecord → ChanRecord) : (s.modChan n f).up = s.up := rfl
@[simp] theorem bus_modChan (s : State) (n : Fin 8) (f : ChanRecord → ChanRecord) : (s.modChan n f).bus = s.bus := rfl
@[simp] theorem upTx_modChan (s : State) (n : Fin 8) (f : ChanRecord → ChanRecord) : (s.modChan n f).upTx = s.upTx := rfl
@[simp] theorem busTx_modChan (s : State) (n : Fin 8) (f : ChanRecord → ChanRecord) : (s.modChan n f).busTx = s.busTx := rfl
@[simp] theorem outQueue_modChan (s : State) (n : Fin 8) (f : ChanRecord → ChanRecord) : (s.modChan n f).outQueue = s.outQueue :=
  rfl
@[simp] theorem live_modChan (s : State) (n : Fin 8) (f : ChanRecord → ChanRecord) : (s.modChan n f).live = s.live := rfl
@[simp] theorem silence_modChan (s : State) (n : Fin 8) (f : ChanRecord → ChanRecord) : (s.modChan n f).silence = s.silence :=
  rfl
@[simp] theorem tagSeq_modChan (s : State) (n : Fin 8) (f : ChanRecord → ChanRecord) : (s.modChan n f).tagSeq = s.tagSeq :=
  rfl
@[simp] theorem relay_modChan (s : State) (n : Fin 8) (f : ChanRecord → ChanRecord) : (s.modChan n f).relay = s.relay := rfl
@[simp] theorem admission_modChan (s : State) (n : Fin 8) (f : ChanRecord → ChanRecord) : (s.modChan n f).admission = s.admission :=
  rfl
@[simp] theorem urgent_modChan (s : State) (n : Fin 8) (f : ChanRecord → ChanRecord) : (s.modChan n f).urgent = s.urgent :=
  rfl
@[simp] theorem normal_modChan (s : State) (n : Fin 8) (f : ChanRecord → ChanRecord) : (s.modChan n f).normal = s.normal :=
  rfl
@[simp] theorem exchange_modChan (s : State) (n : Fin 8) (f : ChanRecord → ChanRecord) : (s.modChan n f).exchange = s.exchange :=
  rfl
@[simp] theorem loads_modChan (s : State) (n : Fin 8) (f : ChanRecord → ChanRecord) : (s.modChan n f).loads = s.loads := rfl
@[simp] theorem grantQueue_modChan (s : State) (n : Fin 8) (f : ChanRecord → ChanRecord) : (s.modChan n f).grantQueue = s.grantQueue :=
  rfl
@[simp] theorem minOff_modChan (s : State) (n : Fin 8) (f : ChanRecord → ChanRecord) : (s.modChan n f).minOff = s.minOff :=
  rfl
@[simp] theorem windows_modChan (s : State) (n : Fin 8) (f : ChanRecord → ChanRecord) : (s.modChan n f).windows = s.windows :=
  rfl
@[simp] theorem pollDue_modChan (s : State) (n : Fin 8) (f : ChanRecord → ChanRecord) : (s.modChan n f).pollDue = s.pollDue :=
  rfl
@[simp] theorem watches_modChan (s : State) (n : Fin 8) (f : ChanRecord → ChanRecord) : (s.modChan n f).watches = s.watches :=
  rfl
@[simp] theorem banks_modChan (s : State) (n : Fin 8) (f : ChanRecord → ChanRecord) : (s.modChan n f).banks = s.banks := rfl
@[simp] theorem cavs_modChan (s : State) (n : Fin 8) (f : ChanRecord → ChanRecord) : (s.modChan n f).cavs = s.cavs := rfl
@[simp] theorem locks_modChan (s : State) (n : Fin 8) (f : ChanRecord → ChanRecord) : (s.modChan n f).locks = s.locks := rfl
@[simp] theorem air_modChan (s : State) (n : Fin 8) (f : ChanRecord → ChanRecord) : (s.modChan n f).air = s.air := rfl
@[simp] theorem limits_modChan (s : State) (n : Fin 8) (f : ChanRecord → ChanRecord) : (s.modChan n f).limits = s.limits :=
  rfl

/-! ### `emit` -/

@[simp] theorem now_emit (s : State) (e : Event) : (s.emit e).now = s.now := rfl
@[simp] theorem pending_emit (s : State) (e : Event) : (s.emit e).pending = s.pending := rfl
@[simp] theorem events_emit (s : State) (e : Event) : (s.emit e).events = s.events ++ [e] := rfl
@[simp] theorem resetHeld_emit (s : State) (e : Event) : (s.emit e).resetHeld = s.resetHeld := rfl
@[simp] theorem stopAsserted_emit (s : State) (e : Event) : (s.emit e).stopAsserted = s.stopAsserted := rfl
@[simp] theorem faultOut_emit (s : State) (e : Event) : (s.emit e).faultOut = s.faultOut := rfl
@[simp] theorem pointer_emit (s : State) (e : Event) : (s.emit e).pointer = s.pointer := rfl
@[simp] theorem notices_emit (s : State) (e : Event) : (s.emit e).notices = s.notices := rfl
@[simp] theorem up_emit (s : State) (e : Event) : (s.emit e).up = s.up := rfl
@[simp] theorem bus_emit (s : State) (e : Event) : (s.emit e).bus = s.bus := rfl
@[simp] theorem upTx_emit (s : State) (e : Event) : (s.emit e).upTx = s.upTx := rfl
@[simp] theorem busTx_emit (s : State) (e : Event) : (s.emit e).busTx = s.busTx := rfl
@[simp] theorem outQueue_emit (s : State) (e : Event) : (s.emit e).outQueue = s.outQueue := rfl
@[simp] theorem live_emit (s : State) (e : Event) : (s.emit e).live = s.live := rfl
@[simp] theorem silence_emit (s : State) (e : Event) : (s.emit e).silence = s.silence := rfl
@[simp] theorem tagSeq_emit (s : State) (e : Event) : (s.emit e).tagSeq = s.tagSeq := rfl
@[simp] theorem relay_emit (s : State) (e : Event) : (s.emit e).relay = s.relay := rfl
@[simp] theorem admission_emit (s : State) (e : Event) : (s.emit e).admission = s.admission := rfl
@[simp] theorem urgent_emit (s : State) (e : Event) : (s.emit e).urgent = s.urgent := rfl
@[simp] theorem normal_emit (s : State) (e : Event) : (s.emit e).normal = s.normal := rfl
@[simp] theorem exchange_emit (s : State) (e : Event) : (s.emit e).exchange = s.exchange := rfl
@[simp] theorem loads_emit (s : State) (e : Event) : (s.emit e).loads = s.loads := rfl
@[simp] theorem grantQueue_emit (s : State) (e : Event) : (s.emit e).grantQueue = s.grantQueue := rfl
@[simp] theorem minOff_emit (s : State) (e : Event) : (s.emit e).minOff = s.minOff := rfl
@[simp] theorem windows_emit (s : State) (e : Event) : (s.emit e).windows = s.windows := rfl
@[simp] theorem chans_emit (s : State) (e : Event) : (s.emit e).chans = s.chans := rfl
@[simp] theorem pollDue_emit (s : State) (e : Event) : (s.emit e).pollDue = s.pollDue := rfl
@[simp] theorem watches_emit (s : State) (e : Event) : (s.emit e).watches = s.watches := rfl
@[simp] theorem banks_emit (s : State) (e : Event) : (s.emit e).banks = s.banks := rfl
@[simp] theorem cavs_emit (s : State) (e : Event) : (s.emit e).cavs = s.cavs := rfl
@[simp] theorem locks_emit (s : State) (e : Event) : (s.emit e).locks = s.locks := rfl
@[simp] theorem air_emit (s : State) (e : Event) : (s.emit e).air = s.air := rfl
@[simp] theorem limits_emit (s : State) (e : Event) : (s.emit e).limits = s.limits := rfl

/-! ### `purge` -/

@[simp] theorem now_purge (s : State) (p : Event → Bool) : (s.purge p).now = s.now := rfl
@[simp] theorem pending_purge (s : State) (p : Event → Bool) : (s.purge p).pending = s.pending := rfl
@[simp] theorem events_purge (s : State) (p : Event → Bool) : (s.purge p).events = s.events.filter (fun e => !p e) := rfl
@[simp] theorem resetHeld_purge (s : State) (p : Event → Bool) : (s.purge p).resetHeld = s.resetHeld := rfl
@[simp] theorem stopAsserted_purge (s : State) (p : Event → Bool) : (s.purge p).stopAsserted = s.stopAsserted := rfl
@[simp] theorem faultOut_purge (s : State) (p : Event → Bool) : (s.purge p).faultOut = s.faultOut := rfl
@[simp] theorem pointer_purge (s : State) (p : Event → Bool) : (s.purge p).pointer = s.pointer := rfl
@[simp] theorem notices_purge (s : State) (p : Event → Bool) : (s.purge p).notices = s.notices := rfl
@[simp] theorem up_purge (s : State) (p : Event → Bool) : (s.purge p).up = s.up := rfl
@[simp] theorem bus_purge (s : State) (p : Event → Bool) : (s.purge p).bus = s.bus := rfl
@[simp] theorem upTx_purge (s : State) (p : Event → Bool) : (s.purge p).upTx = s.upTx := rfl
@[simp] theorem busTx_purge (s : State) (p : Event → Bool) : (s.purge p).busTx = s.busTx := rfl
@[simp] theorem outQueue_purge (s : State) (p : Event → Bool) : (s.purge p).outQueue = s.outQueue := rfl
@[simp] theorem live_purge (s : State) (p : Event → Bool) : (s.purge p).live = s.live := rfl
@[simp] theorem silence_purge (s : State) (p : Event → Bool) : (s.purge p).silence = s.silence := rfl
@[simp] theorem tagSeq_purge (s : State) (p : Event → Bool) : (s.purge p).tagSeq = s.tagSeq := rfl
@[simp] theorem relay_purge (s : State) (p : Event → Bool) : (s.purge p).relay = s.relay := rfl
@[simp] theorem admission_purge (s : State) (p : Event → Bool) : (s.purge p).admission = s.admission := rfl
@[simp] theorem urgent_purge (s : State) (p : Event → Bool) : (s.purge p).urgent = s.urgent := rfl
@[simp] theorem normal_purge (s : State) (p : Event → Bool) : (s.purge p).normal = s.normal := rfl
@[simp] theorem exchange_purge (s : State) (p : Event → Bool) : (s.purge p).exchange = s.exchange := rfl
@[simp] theorem loads_purge (s : State) (p : Event → Bool) : (s.purge p).loads = s.loads := rfl
@[simp] theorem grantQueue_purge (s : State) (p : Event → Bool) : (s.purge p).grantQueue = s.grantQueue := rfl
@[simp] theorem minOff_purge (s : State) (p : Event → Bool) : (s.purge p).minOff = s.minOff := rfl
@[simp] theorem windows_purge (s : State) (p : Event → Bool) : (s.purge p).windows = s.windows := rfl
@[simp] theorem chans_purge (s : State) (p : Event → Bool) : (s.purge p).chans = s.chans := rfl
@[simp] theorem pollDue_purge (s : State) (p : Event → Bool) : (s.purge p).pollDue = s.pollDue := rfl
@[simp] theorem watches_purge (s : State) (p : Event → Bool) : (s.purge p).watches = s.watches := rfl
@[simp] theorem banks_purge (s : State) (p : Event → Bool) : (s.purge p).banks = s.banks := rfl
@[simp] theorem cavs_purge (s : State) (p : Event → Bool) : (s.purge p).cavs = s.cavs := rfl
@[simp] theorem locks_purge (s : State) (p : Event → Bool) : (s.purge p).locks = s.locks := rfl
@[simp] theorem air_purge (s : State) (p : Event → Bool) : (s.purge p).air = s.air := rfl
@[simp] theorem limits_purge (s : State) (p : Event → Bool) : (s.purge p).limits = s.limits := rfl

/-! ### `place` -/

@[simp] theorem now_place (s : State) (f : Frame) : (s.place f).now = s.now := rfl
@[simp] theorem pending_place (s : State) (f : Frame) : (s.place f).pending = s.pending := rfl
@[simp] theorem events_place (s : State) (f : Frame) : (s.place f).events = s.events := rfl
@[simp] theorem resetHeld_place (s : State) (f : Frame) : (s.place f).resetHeld = s.resetHeld := rfl
@[simp] theorem stopAsserted_place (s : State) (f : Frame) : (s.place f).stopAsserted = s.stopAsserted := rfl
@[simp] theorem faultOut_place (s : State) (f : Frame) : (s.place f).faultOut = s.faultOut := rfl
@[simp] theorem pointer_place (s : State) (f : Frame) : (s.place f).pointer = s.pointer := rfl
@[simp] theorem notices_place (s : State) (f : Frame) : (s.place f).notices = s.notices := rfl
@[simp] theorem up_place (s : State) (f : Frame) : (s.place f).up = s.up := rfl
@[simp] theorem bus_place (s : State) (f : Frame) : (s.place f).bus = s.bus := rfl
@[simp] theorem upTx_place (s : State) (f : Frame) : (s.place f).upTx = s.upTx := rfl
@[simp] theorem busTx_place (s : State) (f : Frame) : (s.place f).busTx = s.busTx := rfl
@[simp] theorem outQueue_place (s : State) (f : Frame) : (s.place f).outQueue = s.outQueue ++ [f] := rfl
@[simp] theorem live_place (s : State) (f : Frame) : (s.place f).live = s.live := rfl
@[simp] theorem silence_place (s : State) (f : Frame) : (s.place f).silence = s.silence := rfl
@[simp] theorem tagSeq_place (s : State) (f : Frame) : (s.place f).tagSeq = s.tagSeq := rfl
@[simp] theorem relay_place (s : State) (f : Frame) : (s.place f).relay = s.relay := rfl
@[simp] theorem admission_place (s : State) (f : Frame) : (s.place f).admission = s.admission := rfl
@[simp] theorem urgent_place (s : State) (f : Frame) : (s.place f).urgent = s.urgent := rfl
@[simp] theorem normal_place (s : State) (f : Frame) : (s.place f).normal = s.normal := rfl
@[simp] theorem exchange_place (s : State) (f : Frame) : (s.place f).exchange = s.exchange := rfl
@[simp] theorem loads_place (s : State) (f : Frame) : (s.place f).loads = s.loads := rfl
@[simp] theorem grantQueue_place (s : State) (f : Frame) : (s.place f).grantQueue = s.grantQueue := rfl
@[simp] theorem minOff_place (s : State) (f : Frame) : (s.place f).minOff = s.minOff := rfl
@[simp] theorem windows_place (s : State) (f : Frame) : (s.place f).windows = s.windows := rfl
@[simp] theorem chans_place (s : State) (f : Frame) : (s.place f).chans = s.chans := rfl
@[simp] theorem pollDue_place (s : State) (f : Frame) : (s.place f).pollDue = s.pollDue := rfl
@[simp] theorem watches_place (s : State) (f : Frame) : (s.place f).watches = s.watches := rfl
@[simp] theorem banks_place (s : State) (f : Frame) : (s.place f).banks = s.banks := rfl
@[simp] theorem cavs_place (s : State) (f : Frame) : (s.place f).cavs = s.cavs := rfl
@[simp] theorem locks_place (s : State) (f : Frame) : (s.place f).locks = s.locks := rfl
@[simp] theorem air_place (s : State) (f : Frame) : (s.place f).air = s.air := rfl
@[simp] theorem limits_place (s : State) (f : Frame) : (s.place f).limits = s.limits := rfl

/-! ### `flagCav` -/

@[simp] theorem now_flagCav (s : State) (c : Cav) : (s.flagCav c).now = s.now := rfl
@[simp] theorem pending_flagCav (s : State) (c : Cav) : (s.flagCav c).pending = s.pending := rfl
@[simp] theorem events_flagCav (s : State) (c : Cav) : (s.flagCav c).events = s.events := rfl
@[simp] theorem resetHeld_flagCav (s : State) (c : Cav) : (s.flagCav c).resetHeld = s.resetHeld := rfl
@[simp] theorem stopAsserted_flagCav (s : State) (c : Cav) : (s.flagCav c).stopAsserted = s.stopAsserted := rfl
@[simp] theorem faultOut_flagCav (s : State) (c : Cav) : (s.flagCav c).faultOut = s.faultOut := rfl
@[simp] theorem pointer_flagCav (s : State) (c : Cav) : (s.flagCav c).pointer = s.pointer := rfl
@[simp] theorem notices_flagCav (s : State) (c : Cav) : (s.flagCav c).notices = { s.notices with cav := s.notices.cav.set c true } :=
  rfl
@[simp] theorem up_flagCav (s : State) (c : Cav) : (s.flagCav c).up = s.up := rfl
@[simp] theorem bus_flagCav (s : State) (c : Cav) : (s.flagCav c).bus = s.bus := rfl
@[simp] theorem upTx_flagCav (s : State) (c : Cav) : (s.flagCav c).upTx = s.upTx := rfl
@[simp] theorem busTx_flagCav (s : State) (c : Cav) : (s.flagCav c).busTx = s.busTx := rfl
@[simp] theorem outQueue_flagCav (s : State) (c : Cav) : (s.flagCav c).outQueue = s.outQueue := rfl
@[simp] theorem live_flagCav (s : State) (c : Cav) : (s.flagCav c).live = s.live := rfl
@[simp] theorem silence_flagCav (s : State) (c : Cav) : (s.flagCav c).silence = s.silence := rfl
@[simp] theorem tagSeq_flagCav (s : State) (c : Cav) : (s.flagCav c).tagSeq = s.tagSeq := rfl
@[simp] theorem relay_flagCav (s : State) (c : Cav) : (s.flagCav c).relay = s.relay := rfl
@[simp] theorem admission_flagCav (s : State) (c : Cav) : (s.flagCav c).admission = s.admission := rfl
@[simp] theorem urgent_flagCav (s : State) (c : Cav) : (s.flagCav c).urgent = s.urgent := rfl
@[simp] theorem normal_flagCav (s : State) (c : Cav) : (s.flagCav c).normal = s.normal := rfl
@[simp] theorem exchange_flagCav (s : State) (c : Cav) : (s.flagCav c).exchange = s.exchange := rfl
@[simp] theorem loads_flagCav (s : State) (c : Cav) : (s.flagCav c).loads = s.loads := rfl
@[simp] theorem grantQueue_flagCav (s : State) (c : Cav) : (s.flagCav c).grantQueue = s.grantQueue := rfl
@[simp] theorem minOff_flagCav (s : State) (c : Cav) : (s.flagCav c).minOff = s.minOff := rfl
@[simp] theorem windows_flagCav (s : State) (c : Cav) : (s.flagCav c).windows = s.windows := rfl
@[simp] theorem chans_flagCav (s : State) (c : Cav) : (s.flagCav c).chans = s.chans := rfl
@[simp] theorem pollDue_flagCav (s : State) (c : Cav) : (s.flagCav c).pollDue = s.pollDue := rfl
@[simp] theorem watches_flagCav (s : State) (c : Cav) : (s.flagCav c).watches = s.watches := rfl
@[simp] theorem banks_flagCav (s : State) (c : Cav) : (s.flagCav c).banks = s.banks := rfl
@[simp] theorem cavs_flagCav (s : State) (c : Cav) : (s.flagCav c).cavs = s.cavs := rfl
@[simp] theorem locks_flagCav (s : State) (c : Cav) : (s.flagCav c).locks = s.locks := rfl
@[simp] theorem air_flagCav (s : State) (c : Cav) : (s.flagCav c).air = s.air := rfl
@[simp] theorem limits_flagCav (s : State) (c : Cav) : (s.flagCav c).limits = s.limits := rfl

/-! ### `flagPart` -/

@[simp] theorem now_flagPart (s : State) : (s.flagPart).now = s.now := rfl
@[simp] theorem pending_flagPart (s : State) : (s.flagPart).pending = s.pending := rfl
@[simp] theorem events_flagPart (s : State) : (s.flagPart).events = s.events := rfl
@[simp] theorem resetHeld_flagPart (s : State) : (s.flagPart).resetHeld = s.resetHeld := rfl
@[simp] theorem stopAsserted_flagPart (s : State) : (s.flagPart).stopAsserted = s.stopAsserted := rfl
@[simp] theorem faultOut_flagPart (s : State) : (s.flagPart).faultOut = s.faultOut := rfl
@[simp] theorem pointer_flagPart (s : State) : (s.flagPart).pointer = s.pointer := rfl
@[simp] theorem notices_flagPart (s : State) : (s.flagPart).notices = { s.notices with part := true } := rfl
@[simp] theorem up_flagPart (s : State) : (s.flagPart).up = s.up := rfl
@[simp] theorem bus_flagPart (s : State) : (s.flagPart).bus = s.bus := rfl
@[simp] theorem upTx_flagPart (s : State) : (s.flagPart).upTx = s.upTx := rfl
@[simp] theorem busTx_flagPart (s : State) : (s.flagPart).busTx = s.busTx := rfl
@[simp] theorem outQueue_flagPart (s : State) : (s.flagPart).outQueue = s.outQueue := rfl
@[simp] theorem live_flagPart (s : State) : (s.flagPart).live = s.live := rfl
@[simp] theorem silence_flagPart (s : State) : (s.flagPart).silence = s.silence := rfl
@[simp] theorem tagSeq_flagPart (s : State) : (s.flagPart).tagSeq = s.tagSeq := rfl
@[simp] theorem relay_flagPart (s : State) : (s.flagPart).relay = s.relay := rfl
@[simp] theorem admission_flagPart (s : State) : (s.flagPart).admission = s.admission := rfl
@[simp] theorem urgent_flagPart (s : State) : (s.flagPart).urgent = s.urgent := rfl
@[simp] theorem normal_flagPart (s : State) : (s.flagPart).normal = s.normal := rfl
@[simp] theorem exchange_flagPart (s : State) : (s.flagPart).exchange = s.exchange := rfl
@[simp] theorem loads_flagPart (s : State) : (s.flagPart).loads = s.loads := rfl
@[simp] theorem grantQueue_flagPart (s : State) : (s.flagPart).grantQueue = s.grantQueue := rfl
@[simp] theorem minOff_flagPart (s : State) : (s.flagPart).minOff = s.minOff := rfl
@[simp] theorem windows_flagPart (s : State) : (s.flagPart).windows = s.windows := rfl
@[simp] theorem chans_flagPart (s : State) : (s.flagPart).chans = s.chans := rfl
@[simp] theorem pollDue_flagPart (s : State) : (s.flagPart).pollDue = s.pollDue := rfl
@[simp] theorem watches_flagPart (s : State) : (s.flagPart).watches = s.watches := rfl
@[simp] theorem banks_flagPart (s : State) : (s.flagPart).banks = s.banks := rfl
@[simp] theorem cavs_flagPart (s : State) : (s.flagPart).cavs = s.cavs := rfl
@[simp] theorem locks_flagPart (s : State) : (s.flagPart).locks = s.locks := rfl
@[simp] theorem air_flagPart (s : State) : (s.flagPart).air = s.air := rfl
@[simp] theorem limits_flagPart (s : State) : (s.flagPart).limits = s.limits := rfl

/-! ### `driveFault` -/

@[simp] theorem now_driveFault (s : State) : (s.driveFault).now = s.now := rfl
@[simp] theorem pending_driveFault (s : State) : (s.driveFault).pending = s.pending := rfl
@[simp] theorem events_driveFault (s : State) : (s.driveFault).events = s.events := rfl
@[simp] theorem resetHeld_driveFault (s : State) : (s.driveFault).resetHeld = s.resetHeld := rfl
@[simp] theorem stopAsserted_driveFault (s : State) : (s.driveFault).stopAsserted = s.stopAsserted := rfl
@[simp] theorem faultOut_driveFault (s : State) : (s.driveFault).faultOut = s.faultCondition := rfl
@[simp] theorem pointer_driveFault (s : State) : (s.driveFault).pointer = s.pointer := rfl
@[simp] theorem notices_driveFault (s : State) : (s.driveFault).notices = s.notices := rfl
@[simp] theorem up_driveFault (s : State) : (s.driveFault).up = s.up := rfl
@[simp] theorem bus_driveFault (s : State) : (s.driveFault).bus = s.bus := rfl
@[simp] theorem upTx_driveFault (s : State) : (s.driveFault).upTx = s.upTx := rfl
@[simp] theorem busTx_driveFault (s : State) : (s.driveFault).busTx = s.busTx := rfl
@[simp] theorem outQueue_driveFault (s : State) : (s.driveFault).outQueue = s.outQueue := rfl
@[simp] theorem live_driveFault (s : State) : (s.driveFault).live = s.live := rfl
@[simp] theorem silence_driveFault (s : State) : (s.driveFault).silence = s.silence := rfl
@[simp] theorem tagSeq_driveFault (s : State) : (s.driveFault).tagSeq = s.tagSeq := rfl
@[simp] theorem relay_driveFault (s : State) : (s.driveFault).relay = s.relay := rfl
@[simp] theorem admission_driveFault (s : State) : (s.driveFault).admission = s.admission := rfl
@[simp] theorem urgent_driveFault (s : State) : (s.driveFault).urgent = s.urgent := rfl
@[simp] theorem normal_driveFault (s : State) : (s.driveFault).normal = s.normal := rfl
@[simp] theorem exchange_driveFault (s : State) : (s.driveFault).exchange = s.exchange := rfl
@[simp] theorem loads_driveFault (s : State) : (s.driveFault).loads = s.loads := rfl
@[simp] theorem grantQueue_driveFault (s : State) : (s.driveFault).grantQueue = s.grantQueue := rfl
@[simp] theorem minOff_driveFault (s : State) : (s.driveFault).minOff = s.minOff := rfl
@[simp] theorem windows_driveFault (s : State) : (s.driveFault).windows = s.windows := rfl
@[simp] theorem chans_driveFault (s : State) : (s.driveFault).chans = s.chans := rfl
@[simp] theorem pollDue_driveFault (s : State) : (s.driveFault).pollDue = s.pollDue := rfl
@[simp] theorem watches_driveFault (s : State) : (s.driveFault).watches = s.watches := rfl
@[simp] theorem banks_driveFault (s : State) : (s.driveFault).banks = s.banks := rfl
@[simp] theorem cavs_driveFault (s : State) : (s.driveFault).cavs = s.cavs := rfl
@[simp] theorem locks_driveFault (s : State) : (s.driveFault).locks = s.locks := rfl
@[simp] theorem air_driveFault (s : State) : (s.driveFault).air = s.air := rfl
@[simp] theorem limits_driveFault (s : State) : (s.driveFault).limits = s.limits := rfl

/-! ### `putWatch` -/

@[simp] theorem now_putWatch (s : State) (i : WatchId) (x : Watch) : (s.putWatch i x).now = s.now := rfl
@[simp] theorem pending_putWatch (s : State) (i : WatchId) (x : Watch) : (s.putWatch i x).pending = s.pending := rfl
@[simp] theorem events_putWatch (s : State) (i : WatchId) (x : Watch) : (s.putWatch i x).events = s.events := rfl
@[simp] theorem resetHeld_putWatch (s : State) (i : WatchId) (x : Watch) : (s.putWatch i x).resetHeld = s.resetHeld := rfl
@[simp] theorem stopAsserted_putWatch (s : State) (i : WatchId) (x : Watch) : (s.putWatch i x).stopAsserted = s.stopAsserted :=
  rfl
@[simp] theorem faultOut_putWatch (s : State) (i : WatchId) (x : Watch) : (s.putWatch i x).faultOut = s.faultOut := rfl
@[simp] theorem pointer_putWatch (s : State) (i : WatchId) (x : Watch) : (s.putWatch i x).pointer = s.pointer := rfl
@[simp] theorem notices_putWatch (s : State) (i : WatchId) (x : Watch) : (s.putWatch i x).notices = s.notices := rfl
@[simp] theorem up_putWatch (s : State) (i : WatchId) (x : Watch) : (s.putWatch i x).up = s.up := rfl
@[simp] theorem bus_putWatch (s : State) (i : WatchId) (x : Watch) : (s.putWatch i x).bus = s.bus := rfl
@[simp] theorem upTx_putWatch (s : State) (i : WatchId) (x : Watch) : (s.putWatch i x).upTx = s.upTx := rfl
@[simp] theorem busTx_putWatch (s : State) (i : WatchId) (x : Watch) : (s.putWatch i x).busTx = s.busTx := rfl
@[simp] theorem outQueue_putWatch (s : State) (i : WatchId) (x : Watch) : (s.putWatch i x).outQueue = s.outQueue := rfl
@[simp] theorem live_putWatch (s : State) (i : WatchId) (x : Watch) : (s.putWatch i x).live = s.live := rfl
@[simp] theorem silence_putWatch (s : State) (i : WatchId) (x : Watch) : (s.putWatch i x).silence = s.silence := rfl
@[simp] theorem tagSeq_putWatch (s : State) (i : WatchId) (x : Watch) : (s.putWatch i x).tagSeq = s.tagSeq := rfl
@[simp] theorem relay_putWatch (s : State) (i : WatchId) (x : Watch) : (s.putWatch i x).relay = s.relay := rfl
@[simp] theorem admission_putWatch (s : State) (i : WatchId) (x : Watch) : (s.putWatch i x).admission = s.admission := rfl
@[simp] theorem urgent_putWatch (s : State) (i : WatchId) (x : Watch) : (s.putWatch i x).urgent = s.urgent := rfl
@[simp] theorem normal_putWatch (s : State) (i : WatchId) (x : Watch) : (s.putWatch i x).normal = s.normal := rfl
@[simp] theorem exchange_putWatch (s : State) (i : WatchId) (x : Watch) : (s.putWatch i x).exchange = s.exchange := rfl
@[simp] theorem loads_putWatch (s : State) (i : WatchId) (x : Watch) : (s.putWatch i x).loads = s.loads := rfl
@[simp] theorem grantQueue_putWatch (s : State) (i : WatchId) (x : Watch) : (s.putWatch i x).grantQueue = s.grantQueue :=
  rfl
@[simp] theorem minOff_putWatch (s : State) (i : WatchId) (x : Watch) : (s.putWatch i x).minOff = s.minOff := rfl
@[simp] theorem windows_putWatch (s : State) (i : WatchId) (x : Watch) : (s.putWatch i x).windows = s.windows := rfl
@[simp] theorem chans_putWatch (s : State) (i : WatchId) (x : Watch) : (s.putWatch i x).chans = s.chans := rfl
@[simp] theorem pollDue_putWatch (s : State) (i : WatchId) (x : Watch) : (s.putWatch i x).pollDue = s.pollDue := rfl
@[simp] theorem watches_putWatch (s : State) (i : WatchId) (x : Watch) : (s.putWatch i x).watches = s.watches.put i x := rfl
@[simp] theorem banks_putWatch (s : State) (i : WatchId) (x : Watch) : (s.putWatch i x).banks = s.banks := rfl
@[simp] theorem cavs_putWatch (s : State) (i : WatchId) (x : Watch) : (s.putWatch i x).cavs = s.cavs := rfl
@[simp] theorem locks_putWatch (s : State) (i : WatchId) (x : Watch) : (s.putWatch i x).locks = s.locks := rfl
@[simp] theorem air_putWatch (s : State) (i : WatchId) (x : Watch) : (s.putWatch i x).air = s.air := rfl
@[simp] theorem limits_putWatch (s : State) (i : WatchId) (x : Watch) : (s.putWatch i x).limits = s.limits := rfl

/-! ### `modRelay` -/

@[simp] theorem now_modRelay (s : State) (tag : Byte) (f : RelayEntry → RelayEntry) : (s.modRelay tag f).now = s.now := rfl
@[simp] theorem pending_modRelay (s : State) (tag : Byte) (f : RelayEntry → RelayEntry) : (s.modRelay tag f).pending = s.pending :=
  rfl
@[simp] theorem events_modRelay (s : State) (tag : Byte) (f : RelayEntry → RelayEntry) : (s.modRelay tag f).events = s.events :=
  rfl
@[simp] theorem resetHeld_modRelay (s : State) (tag : Byte) (f : RelayEntry → RelayEntry) : (s.modRelay tag f).resetHeld = s.resetHeld :=
  rfl
@[simp] theorem stopAsserted_modRelay (s : State) (tag : Byte) (f : RelayEntry → RelayEntry) : (s.modRelay tag f).stopAsserted = s.stopAsserted :=
  rfl
@[simp] theorem faultOut_modRelay (s : State) (tag : Byte) (f : RelayEntry → RelayEntry) : (s.modRelay tag f).faultOut = s.faultOut :=
  rfl
@[simp] theorem pointer_modRelay (s : State) (tag : Byte) (f : RelayEntry → RelayEntry) : (s.modRelay tag f).pointer = s.pointer :=
  rfl
@[simp] theorem notices_modRelay (s : State) (tag : Byte) (f : RelayEntry → RelayEntry) : (s.modRelay tag f).notices = s.notices :=
  rfl
@[simp] theorem up_modRelay (s : State) (tag : Byte) (f : RelayEntry → RelayEntry) : (s.modRelay tag f).up = s.up := rfl
@[simp] theorem bus_modRelay (s : State) (tag : Byte) (f : RelayEntry → RelayEntry) : (s.modRelay tag f).bus = s.bus := rfl
@[simp] theorem upTx_modRelay (s : State) (tag : Byte) (f : RelayEntry → RelayEntry) : (s.modRelay tag f).upTx = s.upTx :=
  rfl
@[simp] theorem busTx_modRelay (s : State) (tag : Byte) (f : RelayEntry → RelayEntry) : (s.modRelay tag f).busTx = s.busTx :=
  rfl
@[simp] theorem outQueue_modRelay (s : State) (tag : Byte) (f : RelayEntry → RelayEntry) : (s.modRelay tag f).outQueue = s.outQueue :=
  rfl
@[simp] theorem live_modRelay (s : State) (tag : Byte) (f : RelayEntry → RelayEntry) : (s.modRelay tag f).live = s.live :=
  rfl
@[simp] theorem silence_modRelay (s : State) (tag : Byte) (f : RelayEntry → RelayEntry) : (s.modRelay tag f).silence = s.silence :=
  rfl
@[simp] theorem tagSeq_modRelay (s : State) (tag : Byte) (f : RelayEntry → RelayEntry) : (s.modRelay tag f).tagSeq = s.tagSeq :=
  rfl
@[simp] theorem admission_modRelay (s : State) (tag : Byte) (f : RelayEntry → RelayEntry) : (s.modRelay tag f).admission = s.admission :=
  rfl
@[simp] theorem urgent_modRelay (s : State) (tag : Byte) (f : RelayEntry → RelayEntry) : (s.modRelay tag f).urgent = s.urgent :=
  rfl
@[simp] theorem normal_modRelay (s : State) (tag : Byte) (f : RelayEntry → RelayEntry) : (s.modRelay tag f).normal = s.normal :=
  rfl
@[simp] theorem exchange_modRelay (s : State) (tag : Byte) (f : RelayEntry → RelayEntry) : (s.modRelay tag f).exchange = s.exchange :=
  rfl
@[simp] theorem loads_modRelay (s : State) (tag : Byte) (f : RelayEntry → RelayEntry) : (s.modRelay tag f).loads = s.loads :=
  rfl
@[simp] theorem grantQueue_modRelay (s : State) (tag : Byte) (f : RelayEntry → RelayEntry) : (s.modRelay tag f).grantQueue = s.grantQueue :=
  rfl
@[simp] theorem minOff_modRelay (s : State) (tag : Byte) (f : RelayEntry → RelayEntry) : (s.modRelay tag f).minOff = s.minOff :=
  rfl
@[simp] theorem windows_modRelay (s : State) (tag : Byte) (f : RelayEntry → RelayEntry) : (s.modRelay tag f).windows = s.windows :=
  rfl
@[simp] theorem chans_modRelay (s : State) (tag : Byte) (f : RelayEntry → RelayEntry) : (s.modRelay tag f).chans = s.chans :=
  rfl
@[simp] theorem pollDue_modRelay (s : State) (tag : Byte) (f : RelayEntry → RelayEntry) : (s.modRelay tag f).pollDue = s.pollDue :=
  rfl
@[simp] theorem watches_modRelay (s : State) (tag : Byte) (f : RelayEntry → RelayEntry) : (s.modRelay tag f).watches = s.watches :=
  rfl
@[simp] theorem banks_modRelay (s : State) (tag : Byte) (f : RelayEntry → RelayEntry) : (s.modRelay tag f).banks = s.banks :=
  rfl
@[simp] theorem cavs_modRelay (s : State) (tag : Byte) (f : RelayEntry → RelayEntry) : (s.modRelay tag f).cavs = s.cavs :=
  rfl
@[simp] theorem locks_modRelay (s : State) (tag : Byte) (f : RelayEntry → RelayEntry) : (s.modRelay tag f).locks = s.locks :=
  rfl
@[simp] theorem air_modRelay (s : State) (tag : Byte) (f : RelayEntry → RelayEntry) : (s.modRelay tag f).air = s.air := rfl
@[simp] theorem limits_modRelay (s : State) (tag : Byte) (f : RelayEntry → RelayEntry) : (s.modRelay tag f).limits = s.limits :=
  rfl

/-! ### `dropRelay` -/

@[simp] theorem now_dropRelay (s : State) (tag : Byte) : (s.dropRelay tag).now = s.now := rfl
@[simp] theorem pending_dropRelay (s : State) (tag : Byte) : (s.dropRelay tag).pending = s.pending := rfl
@[simp] theorem events_dropRelay (s : State) (tag : Byte) : (s.dropRelay tag).events = s.events := rfl
@[simp] theorem resetHeld_dropRelay (s : State) (tag : Byte) : (s.dropRelay tag).resetHeld = s.resetHeld := rfl
@[simp] theorem stopAsserted_dropRelay (s : State) (tag : Byte) : (s.dropRelay tag).stopAsserted = s.stopAsserted := rfl
@[simp] theorem faultOut_dropRelay (s : State) (tag : Byte) : (s.dropRelay tag).faultOut = s.faultOut := rfl
@[simp] theorem pointer_dropRelay (s : State) (tag : Byte) : (s.dropRelay tag).pointer = s.pointer := rfl
@[simp] theorem notices_dropRelay (s : State) (tag : Byte) : (s.dropRelay tag).notices = s.notices := rfl
@[simp] theorem up_dropRelay (s : State) (tag : Byte) : (s.dropRelay tag).up = s.up := rfl
@[simp] theorem bus_dropRelay (s : State) (tag : Byte) : (s.dropRelay tag).bus = s.bus := rfl
@[simp] theorem upTx_dropRelay (s : State) (tag : Byte) : (s.dropRelay tag).upTx = s.upTx := rfl
@[simp] theorem busTx_dropRelay (s : State) (tag : Byte) : (s.dropRelay tag).busTx = s.busTx := rfl
@[simp] theorem outQueue_dropRelay (s : State) (tag : Byte) : (s.dropRelay tag).outQueue = s.outQueue := rfl
@[simp] theorem live_dropRelay (s : State) (tag : Byte) : (s.dropRelay tag).live = s.live := rfl
@[simp] theorem silence_dropRelay (s : State) (tag : Byte) : (s.dropRelay tag).silence = s.silence := rfl
@[simp] theorem tagSeq_dropRelay (s : State) (tag : Byte) : (s.dropRelay tag).tagSeq = s.tagSeq := rfl
@[simp] theorem relay_dropRelay (s : State) (tag : Byte) : (s.dropRelay tag).relay = s.relay.filter (fun e => e.frame.tag != tag) :=
  rfl
@[simp] theorem admission_dropRelay (s : State) (tag : Byte) : (s.dropRelay tag).admission = s.admission := rfl
@[simp] theorem urgent_dropRelay (s : State) (tag : Byte) : (s.dropRelay tag).urgent = s.urgent := rfl
@[simp] theorem normal_dropRelay (s : State) (tag : Byte) : (s.dropRelay tag).normal = s.normal := rfl
@[simp] theorem exchange_dropRelay (s : State) (tag : Byte) : (s.dropRelay tag).exchange = s.exchange := rfl
@[simp] theorem loads_dropRelay (s : State) (tag : Byte) : (s.dropRelay tag).loads = s.loads := rfl
@[simp] theorem grantQueue_dropRelay (s : State) (tag : Byte) : (s.dropRelay tag).grantQueue = s.grantQueue := rfl
@[simp] theorem minOff_dropRelay (s : State) (tag : Byte) : (s.dropRelay tag).minOff = s.minOff := rfl
@[simp] theorem windows_dropRelay (s : State) (tag : Byte) : (s.dropRelay tag).windows = s.windows := rfl
@[simp] theorem chans_dropRelay (s : State) (tag : Byte) : (s.dropRelay tag).chans = s.chans := rfl
@[simp] theorem pollDue_dropRelay (s : State) (tag : Byte) : (s.dropRelay tag).pollDue = s.pollDue := rfl
@[simp] theorem watches_dropRelay (s : State) (tag : Byte) : (s.dropRelay tag).watches = s.watches := rfl
@[simp] theorem banks_dropRelay (s : State) (tag : Byte) : (s.dropRelay tag).banks = s.banks := rfl
@[simp] theorem cavs_dropRelay (s : State) (tag : Byte) : (s.dropRelay tag).cavs = s.cavs := rfl
@[simp] theorem locks_dropRelay (s : State) (tag : Byte) : (s.dropRelay tag).locks = s.locks := rfl
@[simp] theorem air_dropRelay (s : State) (tag : Byte) : (s.dropRelay tag).air = s.air := rfl
@[simp] theorem limits_dropRelay (s : State) (tag : Byte) : (s.dropRelay tag).limits = s.limits := rfl

/-! ### `movePointer` -/

@[simp] theorem now_movePointer (s : State) (n : Nat) : (s.movePointer n).now = s.now := rfl
@[simp] theorem pending_movePointer (s : State) (n : Nat) : (s.movePointer n).pending = s.pending := rfl
@[simp] theorem events_movePointer (s : State) (n : Nat) : (s.movePointer n).events = s.events := rfl
@[simp] theorem resetHeld_movePointer (s : State) (n : Nat) : (s.movePointer n).resetHeld = s.resetHeld := rfl
@[simp] theorem stopAsserted_movePointer (s : State) (n : Nat) : (s.movePointer n).stopAsserted = s.stopAsserted := rfl
@[simp] theorem faultOut_movePointer (s : State) (n : Nat) : (s.movePointer n).faultOut = s.faultOut := rfl
@[simp] theorem pointer_movePointer (s : State) (n : Nat) : (s.movePointer n).pointer = { s.pointer with index := s.pointer.index + n } :=
  rfl
@[simp] theorem notices_movePointer (s : State) (n : Nat) : (s.movePointer n).notices = s.notices := rfl
@[simp] theorem up_movePointer (s : State) (n : Nat) : (s.movePointer n).up = s.up := rfl
@[simp] theorem bus_movePointer (s : State) (n : Nat) : (s.movePointer n).bus = s.bus := rfl
@[simp] theorem upTx_movePointer (s : State) (n : Nat) : (s.movePointer n).upTx = s.upTx := rfl
@[simp] theorem busTx_movePointer (s : State) (n : Nat) : (s.movePointer n).busTx = s.busTx := rfl
@[simp] theorem outQueue_movePointer (s : State) (n : Nat) : (s.movePointer n).outQueue = s.outQueue := rfl
@[simp] theorem live_movePointer (s : State) (n : Nat) : (s.movePointer n).live = s.live := rfl
@[simp] theorem silence_movePointer (s : State) (n : Nat) : (s.movePointer n).silence = s.silence := rfl
@[simp] theorem tagSeq_movePointer (s : State) (n : Nat) : (s.movePointer n).tagSeq = s.tagSeq := rfl
@[simp] theorem relay_movePointer (s : State) (n : Nat) : (s.movePointer n).relay = s.relay := rfl
@[simp] theorem admission_movePointer (s : State) (n : Nat) : (s.movePointer n).admission = s.admission := rfl
@[simp] theorem urgent_movePointer (s : State) (n : Nat) : (s.movePointer n).urgent = s.urgent := rfl
@[simp] theorem normal_movePointer (s : State) (n : Nat) : (s.movePointer n).normal = s.normal := rfl
@[simp] theorem exchange_movePointer (s : State) (n : Nat) : (s.movePointer n).exchange = s.exchange := rfl
@[simp] theorem loads_movePointer (s : State) (n : Nat) : (s.movePointer n).loads = s.loads := rfl
@[simp] theorem grantQueue_movePointer (s : State) (n : Nat) : (s.movePointer n).grantQueue = s.grantQueue := rfl
@[simp] theorem minOff_movePointer (s : State) (n : Nat) : (s.movePointer n).minOff = s.minOff := rfl
@[simp] theorem windows_movePointer (s : State) (n : Nat) : (s.movePointer n).windows = s.windows := rfl
@[simp] theorem chans_movePointer (s : State) (n : Nat) : (s.movePointer n).chans = s.chans := rfl
@[simp] theorem pollDue_movePointer (s : State) (n : Nat) : (s.movePointer n).pollDue = s.pollDue := rfl
@[simp] theorem watches_movePointer (s : State) (n : Nat) : (s.movePointer n).watches = s.watches := rfl
@[simp] theorem banks_movePointer (s : State) (n : Nat) : (s.movePointer n).banks = s.banks := rfl
@[simp] theorem cavs_movePointer (s : State) (n : Nat) : (s.movePointer n).cavs = s.cavs := rfl
@[simp] theorem locks_movePointer (s : State) (n : Nat) : (s.movePointer n).locks = s.locks := rfl
@[simp] theorem air_movePointer (s : State) (n : Nat) : (s.movePointer n).air = s.air := rfl
@[simp] theorem limits_movePointer (s : State) (n : Nat) : (s.movePointer n).limits = s.limits := rfl

/-! ### `stepTag` -/

@[simp] theorem now_stepTag (s : State) : (s.stepTag).now = s.now := rfl
@[simp] theorem pending_stepTag (s : State) : (s.stepTag).pending = s.pending := rfl
@[simp] theorem events_stepTag (s : State) : (s.stepTag).events = s.events := rfl
@[simp] theorem resetHeld_stepTag (s : State) : (s.stepTag).resetHeld = s.resetHeld := rfl
@[simp] theorem stopAsserted_stepTag (s : State) : (s.stepTag).stopAsserted = s.stopAsserted := rfl
@[simp] theorem faultOut_stepTag (s : State) : (s.stepTag).faultOut = s.faultOut := rfl
@[simp] theorem pointer_stepTag (s : State) : (s.stepTag).pointer = s.pointer := rfl
@[simp] theorem notices_stepTag (s : State) : (s.stepTag).notices = s.notices := rfl
@[simp] theorem up_stepTag (s : State) : (s.stepTag).up = s.up := rfl
@[simp] theorem bus_stepTag (s : State) : (s.stepTag).bus = s.bus := rfl
@[simp] theorem upTx_stepTag (s : State) : (s.stepTag).upTx = s.upTx := rfl
@[simp] theorem busTx_stepTag (s : State) : (s.stepTag).busTx = s.busTx := rfl
@[simp] theorem outQueue_stepTag (s : State) : (s.stepTag).outQueue = s.outQueue := rfl
@[simp] theorem live_stepTag (s : State) : (s.stepTag).live = s.live := rfl
@[simp] theorem silence_stepTag (s : State) : (s.stepTag).silence = s.silence := rfl
@[simp] theorem tagSeq_stepTag (s : State) : (s.stepTag).tagSeq = s.tagSeq + 1 := rfl
@[simp] theorem relay_stepTag (s : State) : (s.stepTag).relay = s.relay := rfl
@[simp] theorem admission_stepTag (s : State) : (s.stepTag).admission = s.admission := rfl
@[simp] theorem urgent_stepTag (s : State) : (s.stepTag).urgent = s.urgent := rfl
@[simp] theorem normal_stepTag (s : State) : (s.stepTag).normal = s.normal := rfl
@[simp] theorem exchange_stepTag (s : State) : (s.stepTag).exchange = s.exchange := rfl
@[simp] theorem loads_stepTag (s : State) : (s.stepTag).loads = s.loads := rfl
@[simp] theorem grantQueue_stepTag (s : State) : (s.stepTag).grantQueue = s.grantQueue := rfl
@[simp] theorem minOff_stepTag (s : State) : (s.stepTag).minOff = s.minOff := rfl
@[simp] theorem windows_stepTag (s : State) : (s.stepTag).windows = s.windows := rfl
@[simp] theorem chans_stepTag (s : State) : (s.stepTag).chans = s.chans := rfl
@[simp] theorem pollDue_stepTag (s : State) : (s.stepTag).pollDue = s.pollDue := rfl
@[simp] theorem watches_stepTag (s : State) : (s.stepTag).watches = s.watches := rfl
@[simp] theorem banks_stepTag (s : State) : (s.stepTag).banks = s.banks := rfl
@[simp] theorem cavs_stepTag (s : State) : (s.stepTag).cavs = s.cavs := rfl
@[simp] theorem locks_stepTag (s : State) : (s.stepTag).locks = s.locks := rfl
@[simp] theorem air_stepTag (s : State) : (s.stepTag).air = s.air := rfl
@[simp] theorem limits_stepTag (s : State) : (s.stepTag).limits = s.limits := rfl

/-! ### `beginExchange` -/

@[simp] theorem now_beginExchange (s : State) (f : Frame) (p : Party) : (s.beginExchange f p).now = s.now := rfl
@[simp] theorem pending_beginExchange (s : State) (f : Frame) (p : Party) : (s.beginExchange f p).pending = s.pending := rfl
@[simp] theorem events_beginExchange (s : State) (f : Frame) (p : Party) : (s.beginExchange f p).events = s.events := rfl
@[simp] theorem resetHeld_beginExchange (s : State) (f : Frame) (p : Party) : (s.beginExchange f p).resetHeld = s.resetHeld :=
  rfl
@[simp] theorem stopAsserted_beginExchange (s : State) (f : Frame) (p : Party) : (s.beginExchange f p).stopAsserted = s.stopAsserted :=
  rfl
@[simp] theorem faultOut_beginExchange (s : State) (f : Frame) (p : Party) : (s.beginExchange f p).faultOut = s.faultOut :=
  rfl
@[simp] theorem pointer_beginExchange (s : State) (f : Frame) (p : Party) : (s.beginExchange f p).pointer = s.pointer := rfl
@[simp] theorem notices_beginExchange (s : State) (f : Frame) (p : Party) : (s.beginExchange f p).notices = s.notices := rfl
@[simp] theorem up_beginExchange (s : State) (f : Frame) (p : Party) : (s.beginExchange f p).up = s.up := rfl
@[simp] theorem bus_beginExchange (s : State) (f : Frame) (p : Party) : (s.beginExchange f p).bus = s.bus := rfl
@[simp] theorem upTx_beginExchange (s : State) (f : Frame) (p : Party) : (s.beginExchange f p).upTx = s.upTx := rfl
@[simp] theorem busTx_beginExchange (s : State) (f : Frame) (p : Party) : (s.beginExchange f p).busTx = Transmitter.begin f s.now :=
  rfl
@[simp] theorem outQueue_beginExchange (s : State) (f : Frame) (p : Party) : (s.beginExchange f p).outQueue = s.outQueue :=
  rfl
@[simp] theorem live_beginExchange (s : State) (f : Frame) (p : Party) : (s.beginExchange f p).live = s.live := rfl
@[simp] theorem silence_beginExchange (s : State) (f : Frame) (p : Party) : (s.beginExchange f p).silence = s.silence := rfl
@[simp] theorem tagSeq_beginExchange (s : State) (f : Frame) (p : Party) : (s.beginExchange f p).tagSeq = s.tagSeq := rfl
@[simp] theorem relay_beginExchange (s : State) (f : Frame) (p : Party) : (s.beginExchange f p).relay = s.relay := rfl
@[simp] theorem admission_beginExchange (s : State) (f : Frame) (p : Party) : (s.beginExchange f p).admission = s.admission :=
  rfl
@[simp] theorem urgent_beginExchange (s : State) (f : Frame) (p : Party) : (s.beginExchange f p).urgent = s.urgent := rfl
@[simp] theorem normal_beginExchange (s : State) (f : Frame) (p : Party) : (s.beginExchange f p).normal = s.normal := rfl
@[simp] theorem loads_beginExchange (s : State) (f : Frame) (p : Party) : (s.beginExchange f p).loads = s.loads := rfl
@[simp] theorem grantQueue_beginExchange (s : State) (f : Frame) (p : Party) : (s.beginExchange f p).grantQueue = s.grantQueue :=
  rfl
@[simp] theorem minOff_beginExchange (s : State) (f : Frame) (p : Party) : (s.beginExchange f p).minOff = s.minOff := rfl
@[simp] theorem windows_beginExchange (s : State) (f : Frame) (p : Party) : (s.beginExchange f p).windows = s.windows := rfl
@[simp] theorem chans_beginExchange (s : State) (f : Frame) (p : Party) : (s.beginExchange f p).chans = s.chans := rfl
@[simp] theorem pollDue_beginExchange (s : State) (f : Frame) (p : Party) : (s.beginExchange f p).pollDue = s.pollDue := rfl
@[simp] theorem watches_beginExchange (s : State) (f : Frame) (p : Party) : (s.beginExchange f p).watches = s.watches := rfl
@[simp] theorem banks_beginExchange (s : State) (f : Frame) (p : Party) : (s.beginExchange f p).banks = s.banks := rfl
@[simp] theorem cavs_beginExchange (s : State) (f : Frame) (p : Party) : (s.beginExchange f p).cavs = s.cavs := rfl
@[simp] theorem locks_beginExchange (s : State) (f : Frame) (p : Party) : (s.beginExchange f p).locks = s.locks := rfl
@[simp] theorem air_beginExchange (s : State) (f : Frame) (p : Party) : (s.beginExchange f p).air = s.air := rfl
@[simp] theorem limits_beginExchange (s : State) (f : Frame) (p : Party) : (s.beginExchange f p).limits = s.limits := rfl

/-! ### `modPort` -/

@[simp] theorem now_modPort (s : State) (p : Port) (f : PortState → PortState) : (s.modPort p f).now = s.now := by
  cases p <;> rfl
@[simp] theorem pending_modPort (s : State) (p : Port) (f : PortState → PortState) : (s.modPort p f).pending = s.pending := by
  cases p <;> rfl
@[simp] theorem events_modPort (s : State) (p : Port) (f : PortState → PortState) : (s.modPort p f).events = s.events := by
  cases p <;> rfl
@[simp] theorem resetHeld_modPort (s : State) (p : Port) (f : PortState → PortState) : (s.modPort p f).resetHeld = s.resetHeld := by
  cases p <;> rfl
@[simp] theorem stopAsserted_modPort (s : State) (p : Port) (f : PortState → PortState) : (s.modPort p f).stopAsserted = s.stopAsserted := by
  cases p <;> rfl
@[simp] theorem faultOut_modPort (s : State) (p : Port) (f : PortState → PortState) : (s.modPort p f).faultOut = s.faultOut := by
  cases p <;> rfl
@[simp] theorem pointer_modPort (s : State) (p : Port) (f : PortState → PortState) : (s.modPort p f).pointer = s.pointer := by
  cases p <;> rfl
@[simp] theorem notices_modPort (s : State) (p : Port) (f : PortState → PortState) : (s.modPort p f).notices = s.notices := by
  cases p <;> rfl
@[simp] theorem upTx_modPort (s : State) (p : Port) (f : PortState → PortState) : (s.modPort p f).upTx = s.upTx := by
  cases p <;> rfl
@[simp] theorem busTx_modPort (s : State) (p : Port) (f : PortState → PortState) : (s.modPort p f).busTx = s.busTx := by
  cases p <;> rfl
@[simp] theorem outQueue_modPort (s : State) (p : Port) (f : PortState → PortState) : (s.modPort p f).outQueue = s.outQueue := by
  cases p <;> rfl
@[simp] theorem live_modPort (s : State) (p : Port) (f : PortState → PortState) : (s.modPort p f).live = s.live := by
  cases p <;> rfl
@[simp] theorem silence_modPort (s : State) (p : Port) (f : PortState → PortState) : (s.modPort p f).silence = s.silence := by
  cases p <;> rfl
@[simp] theorem tagSeq_modPort (s : State) (p : Port) (f : PortState → PortState) : (s.modPort p f).tagSeq = s.tagSeq := by
  cases p <;> rfl
@[simp] theorem relay_modPort (s : State) (p : Port) (f : PortState → PortState) : (s.modPort p f).relay = s.relay := by
  cases p <;> rfl
@[simp] theorem admission_modPort (s : State) (p : Port) (f : PortState → PortState) : (s.modPort p f).admission = s.admission := by
  cases p <;> rfl
@[simp] theorem urgent_modPort (s : State) (p : Port) (f : PortState → PortState) : (s.modPort p f).urgent = s.urgent := by
  cases p <;> rfl
@[simp] theorem normal_modPort (s : State) (p : Port) (f : PortState → PortState) : (s.modPort p f).normal = s.normal := by
  cases p <;> rfl
@[simp] theorem exchange_modPort (s : State) (p : Port) (f : PortState → PortState) : (s.modPort p f).exchange = s.exchange := by
  cases p <;> rfl
@[simp] theorem loads_modPort (s : State) (p : Port) (f : PortState → PortState) : (s.modPort p f).loads = s.loads := by
  cases p <;> rfl
@[simp] theorem grantQueue_modPort (s : State) (p : Port) (f : PortState → PortState) : (s.modPort p f).grantQueue = s.grantQueue := by
  cases p <;> rfl
@[simp] theorem minOff_modPort (s : State) (p : Port) (f : PortState → PortState) : (s.modPort p f).minOff = s.minOff := by
  cases p <;> rfl
@[simp] theorem windows_modPort (s : State) (p : Port) (f : PortState → PortState) : (s.modPort p f).windows = s.windows := by
  cases p <;> rfl
@[simp] theorem chans_modPort (s : State) (p : Port) (f : PortState → PortState) : (s.modPort p f).chans = s.chans := by
  cases p <;> rfl
@[simp] theorem pollDue_modPort (s : State) (p : Port) (f : PortState → PortState) : (s.modPort p f).pollDue = s.pollDue := by
  cases p <;> rfl
@[simp] theorem watches_modPort (s : State) (p : Port) (f : PortState → PortState) : (s.modPort p f).watches = s.watches := by
  cases p <;> rfl
@[simp] theorem banks_modPort (s : State) (p : Port) (f : PortState → PortState) : (s.modPort p f).banks = s.banks := by
  cases p <;> rfl
@[simp] theorem cavs_modPort (s : State) (p : Port) (f : PortState → PortState) : (s.modPort p f).cavs = s.cavs := by
  cases p <;> rfl
@[simp] theorem locks_modPort (s : State) (p : Port) (f : PortState → PortState) : (s.modPort p f).locks = s.locks := by
  cases p <;> rfl
@[simp] theorem air_modPort (s : State) (p : Port) (f : PortState → PortState) : (s.modPort p f).air = s.air := by
  cases p <;> rfl
@[simp] theorem limits_modPort (s : State) (p : Port) (f : PortState → PortState) : (s.modPort p f).limits = s.limits := by
  cases p <;> rfl

/-! ### Items of one cavity, lock, window, bank, load or channel -/

@[simp] theorem cav_advance (s : State) (t : Time) (c' : Cav) : (s.advance t).cav c' = s.cav c' := rfl
@[simp] theorem lock_advance (s : State) (t : Time) (c' : Cav) : (s.advance t).lock c' = s.lock c' := rfl
@[simp] theorem window_advance (s : State) (t : Time) (c' : Cav) : (s.advance t).window c' = s.window c' := rfl
@[simp] theorem bank_advance (s : State) (t : Time) (b' : BankId) : (s.advance t).bank b' = s.bank b' := rfl
@[simp] theorem record_advance (s : State) (t : Time) (i' : Fin 16) : (s.advance t).record i' = s.record i' := rfl
@[simp] theorem entry_advance (s : State) (t : Time) (i' : Fin 16) : (s.advance t).entry i' = s.entry i' := rfl
@[simp] theorem chanRecord_advance (s : State) (t : Time) (n' : Fin 8) : (s.advance t).chanRecord n' = s.chanRecord n' :=
  rfl
@[simp] theorem binding_advance (s : State) (t : Time) (n' : Fin 8) : (s.advance t).binding n' = s.binding n' := rfl
@[simp] theorem watch_advance (s : State) (t : Time) (w' : WatchId) : (s.advance t).watch w' = s.watch w' := rfl
@[simp] theorem lock_modCav (s : State) (c : Cav) (f : CavCtx → CavCtx) (c' : Cav) : (s.modCav c f).lock c' = s.lock c' :=
  rfl
@[simp] theorem window_modCav (s : State) (c : Cav) (f : CavCtx → CavCtx) (c' : Cav) : (s.modCav c f).window c' = s.window c' :=
  rfl
@[simp] theorem bank_modCav (s : State) (c : Cav) (f : CavCtx → CavCtx) (b' : BankId) : (s.modCav c f).bank b' = s.bank b' :=
  rfl
@[simp] theorem record_modCav (s : State) (c : Cav) (f : CavCtx → CavCtx) (i' : Fin 16) : (s.modCav c f).record i' = s.record i' :=
  rfl
@[simp] theorem entry_modCav (s : State) (c : Cav) (f : CavCtx → CavCtx) (i' : Fin 16) : (s.modCav c f).entry i' = s.entry i' :=
  rfl
@[simp] theorem chanRecord_modCav (s : State) (c : Cav) (f : CavCtx → CavCtx) (n' : Fin 8) : (s.modCav c f).chanRecord n' = s.chanRecord n' :=
  rfl
@[simp] theorem binding_modCav (s : State) (c : Cav) (f : CavCtx → CavCtx) (n' : Fin 8) : (s.modCav c f).binding n' = s.binding n' :=
  rfl
@[simp] theorem watch_modCav (s : State) (c : Cav) (f : CavCtx → CavCtx) (w' : WatchId) : (s.modCav c f).watch w' = s.watch w' :=
  rfl
@[simp] theorem cav_modLock (s : State) (c : Cav) (f : LockUnit → LockUnit) (c' : Cav) : (s.modLock c f).cav c' = s.cav c' :=
  rfl
@[simp] theorem window_modLock (s : State) (c : Cav) (f : LockUnit → LockUnit) (c' : Cav) : (s.modLock c f).window c' = s.window c' :=
  rfl
@[simp] theorem bank_modLock (s : State) (c : Cav) (f : LockUnit → LockUnit) (b' : BankId) : (s.modLock c f).bank b' = s.bank b' :=
  rfl
@[simp] theorem record_modLock (s : State) (c : Cav) (f : LockUnit → LockUnit) (i' : Fin 16) : (s.modLock c f).record i' = s.record i' :=
  rfl
@[simp] theorem entry_modLock (s : State) (c : Cav) (f : LockUnit → LockUnit) (i' : Fin 16) : (s.modLock c f).entry i' = s.entry i' :=
  rfl
@[simp] theorem chanRecord_modLock (s : State) (c : Cav) (f : LockUnit → LockUnit) (n' : Fin 8) : (s.modLock c f).chanRecord n' = s.chanRecord n' :=
  rfl
@[simp] theorem binding_modLock (s : State) (c : Cav) (f : LockUnit → LockUnit) (n' : Fin 8) : (s.modLock c f).binding n' = s.binding n' :=
  rfl
@[simp] theorem watch_modLock (s : State) (c : Cav) (f : LockUnit → LockUnit) (w' : WatchId) : (s.modLock c f).watch w' = s.watch w' :=
  rfl
@[simp] theorem cav_modWindow (s : State) (c : Cav) (f : DutyWindow → DutyWindow) (c' : Cav) : (s.modWindow c f).cav c' = s.cav c' :=
  rfl
@[simp] theorem lock_modWindow (s : State) (c : Cav) (f : DutyWindow → DutyWindow) (c' : Cav) : (s.modWindow c f).lock c' = s.lock c' :=
  rfl
@[simp] theorem bank_modWindow (s : State) (c : Cav) (f : DutyWindow → DutyWindow) (b' : BankId) : (s.modWindow c f).bank b' = s.bank b' :=
  rfl
@[simp] theorem record_modWindow (s : State) (c : Cav) (f : DutyWindow → DutyWindow) (i' : Fin 16) : (s.modWindow c f).record i' = s.record i' :=
  rfl
@[simp] theorem entry_modWindow (s : State) (c : Cav) (f : DutyWindow → DutyWindow) (i' : Fin 16) : (s.modWindow c f).entry i' = s.entry i' :=
  rfl
@[simp] theorem chanRecord_modWindow (s : State) (c : Cav) (f : DutyWindow → DutyWindow) (n' : Fin 8) : (s.modWindow c f).chanRecord n' = s.chanRecord n' :=
  rfl
@[simp] theorem binding_modWindow (s : State) (c : Cav) (f : DutyWindow → DutyWindow) (n' : Fin 8) : (s.modWindow c f).binding n' = s.binding n' :=
  rfl
@[simp] theorem watch_modWindow (s : State) (c : Cav) (f : DutyWindow → DutyWindow) (w' : WatchId) : (s.modWindow c f).watch w' = s.watch w' :=
  rfl
@[simp] theorem cav_modBank (s : State) (b : BankId) (f : Bank → Bank) (c' : Cav) : (s.modBank b f).cav c' = s.cav c' := rfl
@[simp] theorem lock_modBank (s : State) (b : BankId) (f : Bank → Bank) (c' : Cav) : (s.modBank b f).lock c' = s.lock c' :=
  rfl
@[simp] theorem window_modBank (s : State) (b : BankId) (f : Bank → Bank) (c' : Cav) : (s.modBank b f).window c' = s.window c' :=
  rfl
@[simp] theorem record_modBank (s : State) (b : BankId) (f : Bank → Bank) (i' : Fin 16) : (s.modBank b f).record i' = s.record i' :=
  rfl
@[simp] theorem entry_modBank (s : State) (b : BankId) (f : Bank → Bank) (i' : Fin 16) : (s.modBank b f).entry i' = s.entry i' :=
  rfl
@[simp] theorem chanRecord_modBank (s : State) (b : BankId) (f : Bank → Bank) (n' : Fin 8) : (s.modBank b f).chanRecord n' = s.chanRecord n' :=
  rfl
@[simp] theorem binding_modBank (s : State) (b : BankId) (f : Bank → Bank) (n' : Fin 8) : (s.modBank b f).binding n' = s.binding n' :=
  rfl
@[simp] theorem watch_modBank (s : State) (b : BankId) (f : Bank → Bank) (w' : WatchId) : (s.modBank b f).watch w' = s.watch w' :=
  rfl
@[simp] theorem cav_modAir (s : State) (f : Airflow → Airflow) (c' : Cav) : (s.modAir f).cav c' = s.cav c' := rfl
@[simp] theorem lock_modAir (s : State) (f : Airflow → Airflow) (c' : Cav) : (s.modAir f).lock c' = s.lock c' := rfl
@[simp] theorem window_modAir (s : State) (f : Airflow → Airflow) (c' : Cav) : (s.modAir f).window c' = s.window c' := rfl
@[simp] theorem bank_modAir (s : State) (f : Airflow → Airflow) (b' : BankId) : (s.modAir f).bank b' = s.bank b' := rfl
@[simp] theorem record_modAir (s : State) (f : Airflow → Airflow) (i' : Fin 16) : (s.modAir f).record i' = s.record i' :=
  rfl
@[simp] theorem entry_modAir (s : State) (f : Airflow → Airflow) (i' : Fin 16) : (s.modAir f).entry i' = s.entry i' := rfl
@[simp] theorem chanRecord_modAir (s : State) (f : Airflow → Airflow) (n' : Fin 8) : (s.modAir f).chanRecord n' = s.chanRecord n' :=
  rfl
@[simp] theorem binding_modAir (s : State) (f : Airflow → Airflow) (n' : Fin 8) : (s.modAir f).binding n' = s.binding n' :=
  rfl
@[simp] theorem watch_modAir (s : State) (f : Airflow → Airflow) (w' : WatchId) : (s.modAir f).watch w' = s.watch w' := rfl
@[simp] theorem cav_modRecord (s : State) (i : Fin 16) (f : LoadRecord → LoadRecord) (c' : Cav) : (s.modRecord i f).cav c' = s.cav c' :=
  rfl
@[simp] theorem lock_modRecord (s : State) (i : Fin 16) (f : LoadRecord → LoadRecord) (c' : Cav) : (s.modRecord i f).lock c' = s.lock c' :=
  rfl
@[simp] theorem window_modRecord (s : State) (i : Fin 16) (f : LoadRecord → LoadRecord) (c' : Cav) : (s.modRecord i f).window c' = s.window c' :=
  rfl
@[simp] theorem bank_modRecord (s : State) (i : Fin 16) (f : LoadRecord → LoadRecord) (b' : BankId) : (s.modRecord i f).bank b' = s.bank b' :=
  rfl
@[simp] theorem chanRecord_modRecord (s : State) (i : Fin 16) (f : LoadRecord → LoadRecord) (n' : Fin 8) : (s.modRecord i f).chanRecord n' = s.chanRecord n' :=
  rfl
@[simp] theorem binding_modRecord (s : State) (i : Fin 16) (f : LoadRecord → LoadRecord) (n' : Fin 8) : (s.modRecord i f).binding n' = s.binding n' :=
  rfl
@[simp] theorem watch_modRecord (s : State) (i : Fin 16) (f : LoadRecord → LoadRecord) (w' : WatchId) : (s.modRecord i f).watch w' = s.watch w' :=
  rfl
@[simp] theorem cav_modChan (s : State) (n : Fin 8) (f : ChanRecord → ChanRecord) (c' : Cav) : (s.modChan n f).cav c' = s.cav c' :=
  rfl
@[simp] theorem lock_modChan (s : State) (n : Fin 8) (f : ChanRecord → ChanRecord) (c' : Cav) : (s.modChan n f).lock c' = s.lock c' :=
  rfl
@[simp] theorem window_modChan (s : State) (n : Fin 8) (f : ChanRecord → ChanRecord) (c' : Cav) : (s.modChan n f).window c' = s.window c' :=
  rfl
@[simp] theorem bank_modChan (s : State) (n : Fin 8) (f : ChanRecord → ChanRecord) (b' : BankId) : (s.modChan n f).bank b' = s.bank b' :=
  rfl
@[simp] theorem record_modChan (s : State) (n : Fin 8) (f : ChanRecord → ChanRecord) (i' : Fin 16) : (s.modChan n f).record i' = s.record i' :=
  rfl
@[simp] theorem entry_modChan (s : State) (n : Fin 8) (f : ChanRecord → ChanRecord) (i' : Fin 16) : (s.modChan n f).entry i' = s.entry i' :=
  rfl
@[simp] theorem watch_modChan (s : State) (n : Fin 8) (f : ChanRecord → ChanRecord) (w' : WatchId) : (s.modChan n f).watch w' = s.watch w' :=
  rfl
@[simp] theorem cav_emit (s : State) (e : Event) (c' : Cav) : (s.emit e).cav c' = s.cav c' := rfl
@[simp] theorem lock_emit (s : State) (e : Event) (c' : Cav) : (s.emit e).lock c' = s.lock c' := rfl
@[simp] theorem window_emit (s : State) (e : Event) (c' : Cav) : (s.emit e).window c' = s.window c' := rfl
@[simp] theorem bank_emit (s : State) (e : Event) (b' : BankId) : (s.emit e).bank b' = s.bank b' := rfl
@[simp] theorem record_emit (s : State) (e : Event) (i' : Fin 16) : (s.emit e).record i' = s.record i' := rfl
@[simp] theorem entry_emit (s : State) (e : Event) (i' : Fin 16) : (s.emit e).entry i' = s.entry i' := rfl
@[simp] theorem chanRecord_emit (s : State) (e : Event) (n' : Fin 8) : (s.emit e).chanRecord n' = s.chanRecord n' := rfl
@[simp] theorem binding_emit (s : State) (e : Event) (n' : Fin 8) : (s.emit e).binding n' = s.binding n' := rfl
@[simp] theorem watch_emit (s : State) (e : Event) (w' : WatchId) : (s.emit e).watch w' = s.watch w' := rfl
@[simp] theorem cav_purge (s : State) (p : Event → Bool) (c' : Cav) : (s.purge p).cav c' = s.cav c' := rfl
@[simp] theorem lock_purge (s : State) (p : Event → Bool) (c' : Cav) : (s.purge p).lock c' = s.lock c' := rfl
@[simp] theorem window_purge (s : State) (p : Event → Bool) (c' : Cav) : (s.purge p).window c' = s.window c' := rfl
@[simp] theorem bank_purge (s : State) (p : Event → Bool) (b' : BankId) : (s.purge p).bank b' = s.bank b' := rfl
@[simp] theorem record_purge (s : State) (p : Event → Bool) (i' : Fin 16) : (s.purge p).record i' = s.record i' := rfl
@[simp] theorem entry_purge (s : State) (p : Event → Bool) (i' : Fin 16) : (s.purge p).entry i' = s.entry i' := rfl
@[simp] theorem chanRecord_purge (s : State) (p : Event → Bool) (n' : Fin 8) : (s.purge p).chanRecord n' = s.chanRecord n' :=
  rfl
@[simp] theorem binding_purge (s : State) (p : Event → Bool) (n' : Fin 8) : (s.purge p).binding n' = s.binding n' := rfl
@[simp] theorem watch_purge (s : State) (p : Event → Bool) (w' : WatchId) : (s.purge p).watch w' = s.watch w' := rfl
@[simp] theorem cav_place (s : State) (f : Frame) (c' : Cav) : (s.place f).cav c' = s.cav c' := rfl
@[simp] theorem lock_place (s : State) (f : Frame) (c' : Cav) : (s.place f).lock c' = s.lock c' := rfl
@[simp] theorem window_place (s : State) (f : Frame) (c' : Cav) : (s.place f).window c' = s.window c' := rfl
@[simp] theorem bank_place (s : State) (f : Frame) (b' : BankId) : (s.place f).bank b' = s.bank b' := rfl
@[simp] theorem record_place (s : State) (f : Frame) (i' : Fin 16) : (s.place f).record i' = s.record i' := rfl
@[simp] theorem entry_place (s : State) (f : Frame) (i' : Fin 16) : (s.place f).entry i' = s.entry i' := rfl
@[simp] theorem chanRecord_place (s : State) (f : Frame) (n' : Fin 8) : (s.place f).chanRecord n' = s.chanRecord n' := rfl
@[simp] theorem binding_place (s : State) (f : Frame) (n' : Fin 8) : (s.place f).binding n' = s.binding n' := rfl
@[simp] theorem watch_place (s : State) (f : Frame) (w' : WatchId) : (s.place f).watch w' = s.watch w' := rfl
@[simp] theorem cav_flagCav (s : State) (c : Cav) (c' : Cav) : (s.flagCav c).cav c' = s.cav c' := rfl
@[simp] theorem lock_flagCav (s : State) (c : Cav) (c' : Cav) : (s.flagCav c).lock c' = s.lock c' := rfl
@[simp] theorem window_flagCav (s : State) (c : Cav) (c' : Cav) : (s.flagCav c).window c' = s.window c' := rfl
@[simp] theorem bank_flagCav (s : State) (c : Cav) (b' : BankId) : (s.flagCav c).bank b' = s.bank b' := rfl
@[simp] theorem record_flagCav (s : State) (c : Cav) (i' : Fin 16) : (s.flagCav c).record i' = s.record i' := rfl
@[simp] theorem entry_flagCav (s : State) (c : Cav) (i' : Fin 16) : (s.flagCav c).entry i' = s.entry i' := rfl
@[simp] theorem chanRecord_flagCav (s : State) (c : Cav) (n' : Fin 8) : (s.flagCav c).chanRecord n' = s.chanRecord n' := rfl
@[simp] theorem binding_flagCav (s : State) (c : Cav) (n' : Fin 8) : (s.flagCav c).binding n' = s.binding n' := rfl
@[simp] theorem watch_flagCav (s : State) (c : Cav) (w' : WatchId) : (s.flagCav c).watch w' = s.watch w' := rfl
@[simp] theorem cav_flagPart (s : State) (c' : Cav) : (s.flagPart).cav c' = s.cav c' := rfl
@[simp] theorem lock_flagPart (s : State) (c' : Cav) : (s.flagPart).lock c' = s.lock c' := rfl
@[simp] theorem window_flagPart (s : State) (c' : Cav) : (s.flagPart).window c' = s.window c' := rfl
@[simp] theorem bank_flagPart (s : State) (b' : BankId) : (s.flagPart).bank b' = s.bank b' := rfl
@[simp] theorem record_flagPart (s : State) (i' : Fin 16) : (s.flagPart).record i' = s.record i' := rfl
@[simp] theorem entry_flagPart (s : State) (i' : Fin 16) : (s.flagPart).entry i' = s.entry i' := rfl
@[simp] theorem chanRecord_flagPart (s : State) (n' : Fin 8) : (s.flagPart).chanRecord n' = s.chanRecord n' := rfl
@[simp] theorem binding_flagPart (s : State) (n' : Fin 8) : (s.flagPart).binding n' = s.binding n' := rfl
@[simp] theorem watch_flagPart (s : State) (w' : WatchId) : (s.flagPart).watch w' = s.watch w' := rfl
@[simp] theorem cav_driveFault (s : State) (c' : Cav) : (s.driveFault).cav c' = s.cav c' := rfl
@[simp] theorem lock_driveFault (s : State) (c' : Cav) : (s.driveFault).lock c' = s.lock c' := rfl
@[simp] theorem window_driveFault (s : State) (c' : Cav) : (s.driveFault).window c' = s.window c' := rfl
@[simp] theorem bank_driveFault (s : State) (b' : BankId) : (s.driveFault).bank b' = s.bank b' := rfl
@[simp] theorem record_driveFault (s : State) (i' : Fin 16) : (s.driveFault).record i' = s.record i' := rfl
@[simp] theorem entry_driveFault (s : State) (i' : Fin 16) : (s.driveFault).entry i' = s.entry i' := rfl
@[simp] theorem chanRecord_driveFault (s : State) (n' : Fin 8) : (s.driveFault).chanRecord n' = s.chanRecord n' := rfl
@[simp] theorem binding_driveFault (s : State) (n' : Fin 8) : (s.driveFault).binding n' = s.binding n' := rfl
@[simp] theorem watch_driveFault (s : State) (w' : WatchId) : (s.driveFault).watch w' = s.watch w' := rfl
@[simp] theorem cav_putWatch (s : State) (i : WatchId) (x : Watch) (c' : Cav) : (s.putWatch i x).cav c' = s.cav c' := rfl
@[simp] theorem lock_putWatch (s : State) (i : WatchId) (x : Watch) (c' : Cav) : (s.putWatch i x).lock c' = s.lock c' := rfl
@[simp] theorem window_putWatch (s : State) (i : WatchId) (x : Watch) (c' : Cav) : (s.putWatch i x).window c' = s.window c' :=
  rfl
@[simp] theorem bank_putWatch (s : State) (i : WatchId) (x : Watch) (b' : BankId) : (s.putWatch i x).bank b' = s.bank b' :=
  rfl
@[simp] theorem record_putWatch (s : State) (i : WatchId) (x : Watch) (i' : Fin 16) : (s.putWatch i x).record i' = s.record i' :=
  rfl
@[simp] theorem entry_putWatch (s : State) (i : WatchId) (x : Watch) (i' : Fin 16) : (s.putWatch i x).entry i' = s.entry i' :=
  rfl
@[simp] theorem chanRecord_putWatch (s : State) (i : WatchId) (x : Watch) (n' : Fin 8) : (s.putWatch i x).chanRecord n' = s.chanRecord n' :=
  rfl
@[simp] theorem binding_putWatch (s : State) (i : WatchId) (x : Watch) (n' : Fin 8) : (s.putWatch i x).binding n' = s.binding n' :=
  rfl
@[simp] theorem cav_modRelay (s : State) (tag : Byte) (f : RelayEntry → RelayEntry) (c' : Cav) : (s.modRelay tag f).cav c' = s.cav c' :=
  rfl
@[simp] theorem lock_modRelay (s : State) (tag : Byte) (f : RelayEntry → RelayEntry) (c' : Cav) : (s.modRelay tag f).lock c' = s.lock c' :=
  rfl
@[simp] theorem window_modRelay (s : State) (tag : Byte) (f : RelayEntry → RelayEntry) (c' : Cav) : (s.modRelay tag f).window c' = s.window c' :=
  rfl
@[simp] theorem bank_modRelay (s : State) (tag : Byte) (f : RelayEntry → RelayEntry) (b' : BankId) : (s.modRelay tag f).bank b' = s.bank b' :=
  rfl
@[simp] theorem record_modRelay (s : State) (tag : Byte) (f : RelayEntry → RelayEntry) (i' : Fin 16) : (s.modRelay tag f).record i' = s.record i' :=
  rfl
@[simp] theorem entry_modRelay (s : State) (tag : Byte) (f : RelayEntry → RelayEntry) (i' : Fin 16) : (s.modRelay tag f).entry i' = s.entry i' :=
  rfl
@[simp] theorem chanRecord_modRelay (s : State) (tag : Byte) (f : RelayEntry → RelayEntry) (n' : Fin 8) : (s.modRelay tag f).chanRecord n' = s.chanRecord n' :=
  rfl
@[simp] theorem binding_modRelay (s : State) (tag : Byte) (f : RelayEntry → RelayEntry) (n' : Fin 8) : (s.modRelay tag f).binding n' = s.binding n' :=
  rfl
@[simp] theorem watch_modRelay (s : State) (tag : Byte) (f : RelayEntry → RelayEntry) (w' : WatchId) : (s.modRelay tag f).watch w' = s.watch w' :=
  rfl
@[simp] theorem cav_dropRelay (s : State) (tag : Byte) (c' : Cav) : (s.dropRelay tag).cav c' = s.cav c' := rfl
@[simp] theorem lock_dropRelay (s : State) (tag : Byte) (c' : Cav) : (s.dropRelay tag).lock c' = s.lock c' := rfl
@[simp] theorem window_dropRelay (s : State) (tag : Byte) (c' : Cav) : (s.dropRelay tag).window c' = s.window c' := rfl
@[simp] theorem bank_dropRelay (s : State) (tag : Byte) (b' : BankId) : (s.dropRelay tag).bank b' = s.bank b' := rfl
@[simp] theorem record_dropRelay (s : State) (tag : Byte) (i' : Fin 16) : (s.dropRelay tag).record i' = s.record i' := rfl
@[simp] theorem entry_dropRelay (s : State) (tag : Byte) (i' : Fin 16) : (s.dropRelay tag).entry i' = s.entry i' := rfl
@[simp] theorem chanRecord_dropRelay (s : State) (tag : Byte) (n' : Fin 8) : (s.dropRelay tag).chanRecord n' = s.chanRecord n' :=
  rfl
@[simp] theorem binding_dropRelay (s : State) (tag : Byte) (n' : Fin 8) : (s.dropRelay tag).binding n' = s.binding n' := rfl
@[simp] theorem watch_dropRelay (s : State) (tag : Byte) (w' : WatchId) : (s.dropRelay tag).watch w' = s.watch w' := rfl
@[simp] theorem cav_movePointer (s : State) (n : Nat) (c' : Cav) : (s.movePointer n).cav c' = s.cav c' := rfl
@[simp] theorem lock_movePointer (s : State) (n : Nat) (c' : Cav) : (s.movePointer n).lock c' = s.lock c' := rfl
@[simp] theorem window_movePointer (s : State) (n : Nat) (c' : Cav) : (s.movePointer n).window c' = s.window c' := rfl
@[simp] theorem bank_movePointer (s : State) (n : Nat) (b' : BankId) : (s.movePointer n).bank b' = s.bank b' := rfl
@[simp] theorem record_movePointer (s : State) (n : Nat) (i' : Fin 16) : (s.movePointer n).record i' = s.record i' := rfl
@[simp] theorem entry_movePointer (s : State) (n : Nat) (i' : Fin 16) : (s.movePointer n).entry i' = s.entry i' := rfl
@[simp] theorem chanRecord_movePointer (s : State) (n : Nat) (n' : Fin 8) : (s.movePointer n).chanRecord n' = s.chanRecord n' :=
  rfl
@[simp] theorem binding_movePointer (s : State) (n : Nat) (n' : Fin 8) : (s.movePointer n).binding n' = s.binding n' := rfl
@[simp] theorem watch_movePointer (s : State) (n : Nat) (w' : WatchId) : (s.movePointer n).watch w' = s.watch w' := rfl
@[simp] theorem cav_stepTag (s : State) (c' : Cav) : (s.stepTag).cav c' = s.cav c' := rfl
@[simp] theorem lock_stepTag (s : State) (c' : Cav) : (s.stepTag).lock c' = s.lock c' := rfl
@[simp] theorem window_stepTag (s : State) (c' : Cav) : (s.stepTag).window c' = s.window c' := rfl
@[simp] theorem bank_stepTag (s : State) (b' : BankId) : (s.stepTag).bank b' = s.bank b' := rfl
@[simp] theorem record_stepTag (s : State) (i' : Fin 16) : (s.stepTag).record i' = s.record i' := rfl
@[simp] theorem entry_stepTag (s : State) (i' : Fin 16) : (s.stepTag).entry i' = s.entry i' := rfl
@[simp] theorem chanRecord_stepTag (s : State) (n' : Fin 8) : (s.stepTag).chanRecord n' = s.chanRecord n' := rfl
@[simp] theorem binding_stepTag (s : State) (n' : Fin 8) : (s.stepTag).binding n' = s.binding n' := rfl
@[simp] theorem watch_stepTag (s : State) (w' : WatchId) : (s.stepTag).watch w' = s.watch w' := rfl
@[simp] theorem cav_beginExchange (s : State) (f : Frame) (p : Party) (c' : Cav) : (s.beginExchange f p).cav c' = s.cav c' :=
  rfl
@[simp] theorem lock_beginExchange (s : State) (f : Frame) (p : Party) (c' : Cav) : (s.beginExchange f p).lock c' = s.lock c' :=
  rfl
@[simp] theorem window_beginExchange (s : State) (f : Frame) (p : Party) (c' : Cav) : (s.beginExchange f p).window c' = s.window c' :=
  rfl
@[simp] theorem bank_beginExchange (s : State) (f : Frame) (p : Party) (b' : BankId) : (s.beginExchange f p).bank b' = s.bank b' :=
  rfl
@[simp] theorem record_beginExchange (s : State) (f : Frame) (p : Party) (i' : Fin 16) : (s.beginExchange f p).record i' = s.record i' :=
  rfl
@[simp] theorem entry_beginExchange (s : State) (f : Frame) (p : Party) (i' : Fin 16) : (s.beginExchange f p).entry i' = s.entry i' :=
  rfl
@[simp] theorem chanRecord_beginExchange (s : State) (f : Frame) (p : Party) (n' : Fin 8) : (s.beginExchange f p).chanRecord n' = s.chanRecord n' :=
  rfl
@[simp] theorem binding_beginExchange (s : State) (f : Frame) (p : Party) (n' : Fin 8) : (s.beginExchange f p).binding n' = s.binding n' :=
  rfl
@[simp] theorem watch_beginExchange (s : State) (f : Frame) (p : Party) (w' : WatchId) : (s.beginExchange f p).watch w' = s.watch w' :=
  rfl

theorem Two.get_set {α : Type} (p : Two α) (c d : Which) (a : α) : (p.set c a).get d = if d = c then a else p.get d := by
  cases c <;> cases d <;> rfl

@[simp] theorem Two.get_set_self {α : Type} (p : Two α) (c : Which) (a : α) : (p.set c a).get c = a := by cases c <;> rfl

@[simp] theorem cav_modCav (s : State) (c d : Cav) (f : CavCtx → CavCtx) :
    (s.modCav c f).cav d = if d = c then f (s.cav c) else s.cav d := Two.get_set _ _ _ _

@[simp] theorem lock_modLock (s : State) (c d : Cav) (f : LockUnit → LockUnit) :
    (s.modLock c f).lock d = if d = c then f (s.lock c) else s.lock d := Two.get_set _ _ _ _

@[simp] theorem window_modWindow (s : State) (c d : Cav) (f : DutyWindow → DutyWindow) :
    (s.modWindow c f).window d = if d = c then f (s.window c) else s.window d := Two.get_set _ _ _ _

@[simp] theorem bank_modBank (s : State) (c d : BankId) (f : Bank → Bank) :
    (s.modBank c f).bank d = if d = c then f (s.bank c) else s.bank d := Two.get_set _ _ _ _

theorem loads_get_modRecord (s : State) (i j : Fin 16) (f : LoadRecord → LoadRecord) :
    (s.modRecord i f).loads.get j = if j = i then { entry := s.entry i, record := f (s.record i) } else s.loads.get j := by
  simp only [State.modRecord, Vector.get_eq_getElem, Vector.getElem_set, Fin.ext_iff, eq_comm]

@[simp] theorem record_modRecord (s : State) (i j : Fin 16) (f : LoadRecord → LoadRecord) :
    (s.modRecord i f).record j = if j = i then f (s.record i) else s.record j := by
  rw [State.record, loads_get_modRecord]; split <;> rfl

@[simp] theorem entry_modRecord (s : State) (i j : Fin 16) (f : LoadRecord → LoadRecord) :
    (s.modRecord i f).entry j = s.entry j := by
  rw [State.entry, loads_get_modRecord]; split
  · subst_vars; rfl
  · rfl

theorem chans_get_modChan (s : State) (i j : Fin 8) (f : ChanRecord → ChanRecord) :
    (s.modChan i f).chans.get j = if j = i then { binding := s.binding i, record := f (s.chanRecord i) } else s.chans.get j := by
  simp only [State.modChan, Vector.get_eq_getElem, Vector.getElem_set, Fin.ext_iff, eq_comm]

@[simp] theorem chanRecord_modChan (s : State) (i j : Fin 8) (f : ChanRecord → ChanRecord) :
    (s.modChan i f).chanRecord j = if j = i then f (s.chanRecord i) else s.chanRecord j := by
  rw [State.chanRecord, chans_get_modChan]; split <;> rfl

@[simp] theorem binding_modChan (s : State) (i j : Fin 8) (f : ChanRecord → ChanRecord) :
    (s.modChan i f).binding j = s.binding j := by
  rw [State.binding, chans_get_modChan]; split
  · subst_vars; rfl
  · rfl

@[simp] theorem relay_length_modRelay (s : State) (tag : Byte) (f : RelayEntry → RelayEntry) :
    (s.modRelay tag f).relay.length = s.relay.length := by simp [State.modRelay]

end Sys2Proof.Machine
end

