-- ==== Sys2Proof/Laws/Kept.lean ====
section
/-! SUPPORT. `Kept s t`: what every block of the part leaves alone while it acts, whatever it was asked; and what it can only
lessen: the relay entries, the places in use upstream, and the held sum above the budget. Every function of a block has one
lemma that takes `Kept s t` to `Kept s (f t)`, tagged simp, so that a chain of calls is one `simp`. -/

namespace Sys2Proof.Machine

/-- The places in use upstream: the queued frames and one place for each open relay entry (R15). -/
def State.placesUsed (s : State) : Nat := s.outQueue.length + s.relay.length

/-- The TAGs of a Relay Table, in opening order. -/
def tagsOf (l : List RelayEntry) : List Byte := l.map (fun e => e.frame.tag)

/-- What an act of a block leaves as it was, and what it does not add to. -/
structure Kept (s t : State) : Prop where
  now : t.now = s.now
  pending : t.pending = s.pending
  resetHeld : t.resetHeld = s.resetHeld
  stopAsserted : t.stopAsserted = s.stopAsserted
  pointer : t.pointer = s.pointer
  up : t.up = s.up
  bus : t.bus = s.bus
  upTx : t.upTx = s.upTx
  busTx : t.busTx = s.busTx
  live : t.live = s.live
  silence : t.silence = s.silence
  tagSeq : t.tagSeq = s.tagSeq
  admission : t.admission = s.admission
  exchange : t.exchange = s.exchange
  limits : t.limits = s.limits
  pollDue : t.pollDue = s.pollDue
  entry : ∀ i, t.entry i = s.entry i
  confirmed : ∀ i, (t.record i).confirmed = (s.record i).confirmed ∧ (t.record i).condition = (s.record i).condition
  binding : ∀ n, t.binding n = s.binding n
  content : ∀ b, (t.bank b).content = (s.bank b).content
  controllerDemand : t.air.controllerDemand = s.air.controllerDemand
  sent : s.outQueue <+: t.outQueue
  relay : (tagsOf t.relay).Sublist (tagsOf s.relay)
  places : t.placesUsed ≤ s.placesUsed
  held : s.heldSum ≤ s.limits.budget → t.heldSum ≤ t.limits.budget
  recovery : s.StacksSound → t.StacksSound

theorem Kept.refl (s : State) : Kept s s := by constructor <;> simp

@[simp] theorem Bank.content_binds (b : Bank) (n : Nat) : ({ b with binds := n } : Bank).content = b.content := rfl

theorem Kept.trans {s t u : State} (h : Kept s t) (g : Kept t u) : Kept s u where
  now := g.now.trans h.now
  pending := g.pending.trans h.pending
  resetHeld := g.resetHeld.trans h.resetHeld
  stopAsserted := g.stopAsserted.trans h.stopAsserted
  pointer := g.pointer.trans h.pointer
  up := g.up.trans h.up
  bus := g.bus.trans h.bus
  upTx := g.upTx.trans h.upTx
  busTx := g.busTx.trans h.busTx
  live := g.live.trans h.live
  silence := g.silence.trans h.silence
  tagSeq := g.tagSeq.trans h.tagSeq
  admission := g.admission.trans h.admission
  exchange := g.exchange.trans h.exchange
  limits := g.limits.trans h.limits
  pollDue := g.pollDue.trans h.pollDue
  entry i := (g.entry i).trans (h.entry i)
  confirmed i := ⟨(g.confirmed i).1.trans (h.confirmed i).1, (g.confirmed i).2.trans (h.confirmed i).2⟩
  binding n := (g.binding n).trans (h.binding n)
  content b := (g.content b).trans (h.content b)
  controllerDemand := g.controllerDemand.trans h.controllerDemand
  sent := h.sent.trans g.sent
  relay := g.relay.trans h.relay
  places := g.places.trans h.places
  held x := g.held (h.held x)
  recovery x := g.recovery (h.recovery x)

/-! ## The held sum (R52) -/

theorem heldSum_eq_sum (s : State) : s.heldSum = ∑ i : Fin 16, s.heldCurrent i := by
  simp [State.heldSum, indexes, Fin.sum_univ_def]

theorem heldSum_le {s t : State} (h : ∀ i, t.heldCurrent i ≤ s.heldCurrent i) : t.heldSum ≤ s.heldSum := by
  rw [heldSum_eq_sum, heldSum_eq_sum]
  exact Finset.sum_le_sum fun i _ => h i

theorem heldSum_le_add {s t : State} (i : Fin 16) (n : Nat)
    (h : ∀ j, t.heldCurrent j ≤ s.heldCurrent j + if j = i then n else 0) : t.heldSum ≤ s.heldSum + n := by
  rw [heldSum_eq_sum, heldSum_eq_sum]
  calc _ ≤ ∑ j : Fin 16, (s.heldCurrent j + if j = i then n else 0) := Finset.sum_le_sum fun j _ => h j
    _ = _ := by rw [Finset.sum_add_distrib]; simp

theorem heldSum_congr {s t : State} (h : t.loads = s.loads) : t.heldSum = s.heldSum := by
  have : t.heldCurrent = s.heldCurrent := by
    funext i; unfold State.heldCurrent State.record State.entry; rw [h]
  simp [State.heldSum, this]

/-! ## The updates -/

/-- A change of a context that leaves its recovery stack sound. -/
@[simp] theorem kept_modCav {s₀ s : State} (h : Kept s₀ s) (c : Cav) (f : CavCtx → CavCtx)
    (hf : StackSound (s.cav c).stack → StackSound (f (s.cav c)).stack) : Kept s₀ (s.modCav c f) :=
  h.trans (by
    constructor <;> first | exact fun x => (heldSum_congr (s := s) rfl).trans_le x | skip
    case recovery =>
      intro x d
      rw [cav_modCav]
      split
      · exact hf (x c)
      · exact x d
    all_goals simp [State.placesUsed])

@[simp] theorem kept_modLock {s₀ s : State} (h : Kept s₀ s) (c : Cav) (f : LockUnit → LockUnit) : Kept s₀ (s.modLock c f) :=
  h.trans (by constructor <;> first
    | exact fun x => (heldSum_congr (s := s) rfl).trans_le x
    | exact fun x => x
    | simp [State.placesUsed])

@[simp] theorem kept_modWindow {s₀ s : State} (h : Kept s₀ s) (c : Cav) (f : DutyWindow → DutyWindow) : Kept s₀ (s.modWindow c f) :=
  h.trans (by constructor <;> first
    | exact fun x => (heldSum_congr (s := s) rfl).trans_le x
    | exact fun x => x
    | simp [State.placesUsed])

/-- A block changes a bank's bind count only. -/
@[simp] theorem kept_modBank {s₀ s : State} (h : Kept s₀ s) (b : BankId) (f : Bank → Bank)
    (hf : (f (s.bank b)).content = (s.bank b).content) : Kept s₀ (s.modBank b f) :=
  h.trans (by
    constructor <;> first
    | exact fun x => (heldSum_congr (s := s) rfl).trans_le x
    | exact fun x => x
    | simp [State.placesUsed] <;>
      (intro d; split <;> simp [*]))

@[simp] theorem kept_emit {s₀ s : State} (h : Kept s₀ s) (e : Event) : Kept s₀ (s.emit e) :=
  h.trans (by constructor <;> first
    | exact fun x => (heldSum_congr (s := s) rfl).trans_le x
    | exact fun x => x
    | simp [State.placesUsed])

@[simp] theorem kept_purge {s₀ s : State} (h : Kept s₀ s) (p : Event → Bool) : Kept s₀ (s.purge p) :=
  h.trans (by constructor <;> first
    | exact fun x => (heldSum_congr (s := s) rfl).trans_le x
    | exact fun x => x
    | simp [State.placesUsed])

@[simp] theorem kept_flagCav {s₀ s : State} (h : Kept s₀ s) (c : Cav) : Kept s₀ (s.flagCav c) :=
  h.trans (by constructor <;> first
    | exact fun x => (heldSum_congr (s := s) rfl).trans_le x
    | exact fun x => x
    | simp [State.placesUsed])

@[simp] theorem kept_flagPart {s₀ s : State} (h : Kept s₀ s) : Kept s₀ (s.flagPart) :=
  h.trans (by constructor <;> first
    | exact fun x => (heldSum_congr (s := s) rfl).trans_le x
    | exact fun x => x
    | simp [State.placesUsed])

@[simp] theorem kept_putWatch {s₀ s : State} (h : Kept s₀ s) (i : WatchId) (x : Watch) : Kept s₀ (s.putWatch i x) :=
  h.trans (by constructor <;> first
    | exact fun x => (heldSum_congr (s := s) rfl).trans_le x
    | exact fun x => x
    | simp [State.placesUsed])

theorem Kept.with_events {s₀ s : State} (h : Kept s₀ s) (es : List Event) : Kept s₀ { s with events := es } :=
  h.trans (by constructor <;> first
    | exact fun x => (heldSum_congr (s := s) rfl).trans_le x
    | exact fun x => x
    | simp [State.placesUsed, State.entry, State.record, State.binding, State.bank])

theorem Kept.with_grantQueue {s₀ s : State} (h : Kept s₀ s) (q : List GrantRequest) : Kept s₀ { s with grantQueue := q } :=
  h.trans (by constructor <;> first
    | exact fun x => (heldSum_congr (s := s) rfl).trans_le x
    | exact fun x => x
    | simp [State.placesUsed, State.entry, State.record, State.binding, State.bank])

theorem Kept.with_minOff {s₀ s : State} (h : Kept s₀ s) (t : Timer) : Kept s₀ { s with minOff := t } :=
  h.trans (by constructor <;> first
    | exact fun x => (heldSum_congr (s := s) rfl).trans_le x
    | exact fun x => x
    | simp [State.placesUsed, State.entry, State.record, State.binding, State.bank])

theorem Kept.with_urgent {s₀ s : State} (h : Kept s₀ s) (q : List QItem) : Kept s₀ { s with urgent := q } :=
  h.trans (by constructor <;> first
    | exact fun x => (heldSum_congr (s := s) rfl).trans_le x
    | exact fun x => x
    | simp [State.placesUsed, State.entry, State.record, State.binding, State.bank])

theorem Kept.with_normal {s₀ s : State} (h : Kept s₀ s) (q : List QItem) : Kept s₀ { s with normal := q } :=
  h.trans (by constructor <;> first
    | exact fun x => (heldSum_congr (s := s) rfl).trans_le x
    | exact fun x => x
    | simp [State.placesUsed, State.entry, State.record, State.binding, State.bank])

theorem Kept.with_notices {s₀ s : State} (h : Kept s₀ s) (x : Notices) : Kept s₀ { s with notices := x } :=
  h.trans (by constructor <;> first
    | exact fun x => (heldSum_congr (s := s) rfl).trans_le x
    | exact fun x => x
    | simp [State.placesUsed, State.entry, State.record, State.binding, State.bank])

theorem Kept.with_faultOut {s₀ s : State} (h : Kept s₀ s) (b : Bool) : Kept s₀ { s with faultOut := b } :=
  h.trans (by constructor <;> first
    | exact fun x => (heldSum_congr (s := s) rfl).trans_le x
    | exact fun x => x
    | simp [State.placesUsed, State.entry, State.record, State.binding, State.bank])

theorem Kept.with_queues {s₀ s : State} (h : Kept s₀ s) (u n : List QItem) : Kept s₀ { s with urgent := u, normal := n } :=
  (h.with_urgent u).with_normal n

/-- The Airflow Unit leaves the controller's demand to its owner. -/
@[simp] theorem kept_modAir {s₀ s : State} (h : Kept s₀ s) (f : Airflow → Airflow)
    (hf : (f s.air).controllerDemand = s.air.controllerDemand) : Kept s₀ (s.modAir f) :=
  h.trans (by constructor <;> first
    | exact fun x => (heldSum_congr (s := s) rfl).trans_le x
    | exact fun x => x
    | simp [State.placesUsed, hf])

@[simp] theorem kept_modChan {s₀ s : State} (h : Kept s₀ s) (n : Fin 8) (f : ChanRecord → ChanRecord) :
    Kept s₀ (s.modChan n f) :=
  h.trans (by constructor <;> first
    | exact fun x => (heldSum_congr (s := s) rfl).trans_le x
    | exact fun x => x
    | simp [State.placesUsed])

/-- A change of a record that does not make its grant HELD. -/
@[simp] theorem kept_modRecord {s₀ s : State} (h : Kept s₀ s) (i : Fin 16) (f : LoadRecord → LoadRecord)
    (hf : (f (s.record i)).grant = .held → (s.record i).grant = .held)
    (hc : (f (s.record i)).confirmed = (s.record i).confirmed) (hd : (f (s.record i)).condition = (s.record i).condition) :
    Kept s₀ (s.modRecord i f) :=
  h.trans (by
    have hs : (s.modRecord i f).heldSum ≤ s.heldSum := heldSum_le fun j => by
      unfold State.heldCurrent
      rw [record_modRecord, entry_modRecord]
      by_cases hji : j = i
      · subst hji
        by_cases hg : (f (s.record j)).grant = .held
        · simp [hg, hf hg]
        · simp [hg]
      · simp [hji]
    constructor
    case confirmed => intro j; rw [record_modRecord]; split <;> simp [*]
    case held => exact fun x => hs.trans x
    case recovery => exact fun x => x
    all_goals simp [State.placesUsed])

/-- A grant is made HELD only where the held sum leaves room for it (R53). -/
theorem kept_setGrant_held {s₀ s : State} (h : Kept s₀ s) (i : Fin 16) (hfit : s.fits i = true) :
    Kept s₀ (s.setGrant i .held) :=
  h.trans (by
    have hs : (s.setGrant i .held).heldSum ≤ s.heldSum + (s.entry i).rated := heldSum_le_add i _ fun j => by
      unfold State.heldCurrent State.setGrant
      rw [record_modRecord, entry_modRecord]
      by_cases hji : j = i
      · subst hji; simp
      · simp [hji]
    have hb : s.heldSum + (s.entry i).rated ≤ s.limits.budget := by simpa [State.fits] using hfit
    constructor
    case confirmed => intro j; rw [State.setGrant, record_modRecord]; split <;> simp [*]
    case held => exact fun _ => hs.trans hb
    case recovery => exact fun x => x
    all_goals simp [State.placesUsed, State.setGrant])

@[simp] theorem kept_setGrant {s₀ s : State} (h : Kept s₀ s) (i : Fin 16) (g : Grant) (hg : g ≠ .held) :
    Kept s₀ (s.setGrant i g) := kept_modRecord h i _ (by simp [hg]) rfl rfl

/-! ## The Relay Table and the upstream output queue -/

theorem tagsOf_modRelay (s : State) (tag : Byte) (f : RelayEntry → RelayEntry) (hf : ∀ e, (f e).frame = e.frame) :
    tagsOf (s.modRelay tag f).relay = tagsOf s.relay := by
  simp only [tagsOf, State.modRelay, List.map_map]
  refine List.map_congr_left fun e _ => ?_
  simp only [Function.comp]
  split <;> simp [hf]

@[simp] theorem kept_modRelay {s₀ s : State} (h : Kept s₀ s) (tag : Byte) (f : RelayEntry → RelayEntry)
    (hf : ∀ e, (f e).frame = e.frame) : Kept s₀ (s.modRelay tag f) :=
  h.trans (by constructor <;> first
    | exact fun x => (heldSum_congr (s := s) rfl).trans_le x
    | exact fun x => x
    | (rw [tagsOf_modRelay s tag f hf])
    | simp [State.placesUsed])

theorem tagsOf_dropRelay (s : State) (tag : Byte) : (tagsOf (s.dropRelay tag).relay).Sublist (tagsOf s.relay) :=
  List.filter_sublist.map _

@[simp] theorem kept_dropRelay {s₀ s : State} (h : Kept s₀ s) (tag : Byte) : Kept s₀ (s.dropRelay tag) :=
  h.trans (by
    have hl := List.length_filter_le (fun e : RelayEntry => e.frame.tag != tag) s.relay
    constructor <;> first
    | exact fun x => (heldSum_congr (s := s) rfl).trans_le x
    | exact fun x => x
    | exact tagsOf_dropRelay s tag
    | simp [State.placesUsed, hl])

/-- Closing an entry frees the place its closing frame takes (R15). -/
theorem relay_length_dropRelay_lt {s : State} {tag : Byte} {e : RelayEntry} (h : s.relayEntry tag = some e) :
    (s.dropRelay tag).relay.length < s.relay.length := by
  have hm := List.mem_of_find?_eq_some h
  have ht : (e.frame.tag == tag) = true := List.find?_some (p := fun e : RelayEntry => e.frame.tag == tag) h
  rw [relay_dropRelay]
  exact List.length_filter_lt_length_iff_exists.2 ⟨e, hm, by simpa using ht⟩

theorem kept_drop_place {s₀ s : State} (h : Kept s₀ s) {tag : Byte} {e : RelayEntry} (he : s.relayEntry tag = some e)
    (f : Frame) : Kept s₀ ((s.dropRelay tag).place f) :=
  h.trans (by
    have hl := relay_length_dropRelay_lt he
    rw [relay_dropRelay] at hl
    constructor <;> first
    | exact fun x => (heldSum_congr (s := s) rfl).trans_le x
    | exact fun x => x
    | exact tagsOf_dropRelay s tag
    | (simp [State.placesUsed] <;> omega))

/-- Closing frames placed for entries that left the table. -/
theorem Kept.with_closed {s₀ s : State} (h : Kept s₀ s) {out : List Frame} {rel : List RelayEntry}
    (hs : s₀.outQueue <+: out) (hr : (tagsOf rel).Sublist (tagsOf s₀.relay))
    (hp : out.length + rel.length ≤ s₀.outQueue.length + s₀.relay.length) :
    Kept s₀ { s with outQueue := out, relay := rel } :=
  { h with sent := hs, relay := hr, places := hp }

theorem kept_foldl {α : Type} {s₀ : State} (f : State → α → State) (hf : ∀ s a, Kept s₀ s → Kept s₀ (f s a)) (l : List α) :
    ∀ {s : State}, Kept s₀ s → Kept s₀ (l.foldl f s) := by
  induction l with
  | nil => exact fun h => h
  | cons a l ih => exact fun h => ih (hf _ a h)

@[simp] theorem kept_ite {s₀ s t : State} (p : Prop) [Decidable p] (hs : Kept s₀ s) (ht : Kept s₀ t) :
    Kept s₀ (if p then s else t) := by split <;> assumption

@[simp] theorem LoadRecord.grant_tapped (now : Time) (r : LoadRecord) (x : Option (Nat × NodeCond)) :
    (r.tapped now x).grant = r.grant := by cases x <;> rfl

@[simp] theorem LoadRecord.grant_cleared (r : LoadRecord) (x : Option (Nat × NodeCond)) : (r.cleared x).grant = r.grant := by
  unfold LoadRecord.cleared; (repeat' split) <;> rfl

@[simp] theorem LoadRecord.confirmed_cleared (r : LoadRecord) (x : Option (Nat × NodeCond)) :
    (r.cleared x).confirmed = r.confirmed := by
  unfold LoadRecord.cleared; (repeat' split) <;> rfl

@[simp] theorem LoadRecord.condition_cleared (r : LoadRecord) (x : Option (Nat × NodeCond)) :
    (r.cleared x).condition = r.condition := by
  unfold LoadRecord.cleared; (repeat' split) <;> rfl

@[simp] theorem kept_onLoad {s₀ s : State} (h : Kept s₀ s) (i : Option (Fin 16)) (f : State → Fin 16 → State)
    (hf : ∀ i, Kept s₀ (f s i)) : Kept s₀ (s.onLoad i f) := by
  cases i with
  | none => exact h
  | some i => exact hf i

end Sys2Proof.Machine
end

