-- ==== Sys2Proof/Laws/KeptBlocks.lean ====
section
/-! SUPPORT. `Kept` for the functions of every block: the Channel Unit, the Load Unit, the Airflow Unit, the Relay Unit's
withdrawals, the Lock Units, the Cycle Engine and the reports between them. -/

namespace Sys2Proof.Machine

/-! ## Flags and the Channel Unit -/

@[simp] theorem kept_emitIf {s₀ s : State} (h : Kept s₀ s) (b : Bool) (e : Event) : Kept s₀ (s.emitIf b e) := by
  unfold State.emitIf
  (repeat' split) <;> simp (maxDischargeDepth := 40) [h]

@[simp] theorem kept_setCavState {s₀ s : State} (h : Kept s₀ s) (c : Cav) (st : CavState) : Kept s₀ (s.setCavState c st) := by
  unfold State.setCavState
  (repeat' split) <;> simp (maxDischargeDepth := 40) [h]

@[simp] theorem kept_setLockState {s₀ s : State} (h : Kept s₀ s) (c : Cav) (st : LockState) :
    Kept s₀ (s.setLockState c st) := by
  unfold State.setLockState
  (repeat' split) <;> simp (maxDischargeDepth := 40) [h]

@[simp] theorem kept_setWatch {s₀ s : State} (h : Kept s₀ s) (i : WatchId) (side : Side) (level : Int) :
    Kept s₀ (s.setWatch i side level) := by
  unfold State.setWatch
  dsimp only
  simp (maxDischargeDepth := 40) [h]

@[simp] theorem kept_clearWatch {s₀ s : State} (h : Kept s₀ s) (i : WatchId) : Kept s₀ (s.clearWatch i) := by
  unfold State.clearWatch
  simp (maxDischargeDepth := 40) [h]

@[simp] theorem kept_evalWatch {s₀ s : State} (h : Kept s₀ s) (i : WatchId) : Kept s₀ (s.evalWatch i) := by
  unfold State.evalWatch
  dsimp only
  (repeat' split) <;> simp (maxDischargeDepth := 40) [h]

@[simp] theorem kept_evalWatches {s₀ s : State} (h : Kept s₀ s) (u : Use) : Kept s₀ (s.evalWatches u) := kept_foldl _ (fun _ _ g => kept_evalWatch g _) _ h

@[simp] theorem kept_loseWatch {s₀ s : State} (h : Kept s₀ s) (i : WatchId) : Kept s₀ (s.loseWatch i) := by
  unfold State.loseWatch
  (repeat' split) <;> simp (maxDischargeDepth := 40) [h]

@[simp] theorem kept_announce {s₀ s : State} (h : Kept s₀ s) (u : Use) (left entered : ChanState) :
    Kept s₀ (s.announce u left entered) := by
  unfold State.announce
  exact kept_emit (kept_ite _ (kept_foldl _ (fun _ _ g => kept_loseWatch g _) _ h) h) _

@[simp] theorem kept_reportChange {s₀ s : State} (h : Kept s₀ s) (u : Use) (left entered : ChanState) :
    Kept s₀ (s.reportChange u left entered) := by
  unfold State.reportChange
  exact kept_ite _ h (kept_announce h _ _ _)

@[simp] theorem kept_reportReading {s₀ s : State} (h : Kept s₀ s) (u : Use) (r : ChanRecord) :
    Kept s₀ (s.reportReading u r) := by
  unfold State.reportReading
  (repeat' split) <;> simp (maxDischargeDepth := 40) [h]

@[simp] theorem kept_takeReading {s₀ s : State} (h : Kept s₀ s) (n : Fin 8) (q hi lo : Byte) :
    Kept s₀ (s.takeReading n q hi lo) := by
  unfold State.takeReading
  dsimp only
  (repeat' split) <;> simp (maxDischargeDepth := 40) [h]

@[simp] theorem kept_tapReading {s₀ s : State} (h : Kept s₀ s) (f : Frame) : Kept s₀ (s.tapReading f) := by
  unfold State.tapReading
  (repeat' split) <;> simp (maxDischargeDepth := 40) [h]

@[simp] theorem kept_goStale {s₀ s : State} (h : Kept s₀ s) (n : Fin 8) : Kept s₀ (s.goStale n) := by
  unfold State.goStale
  simp (maxDischargeDepth := 40) [h]

@[simp] theorem kept_pollBinding {s₀ s : State} (h : Kept s₀ s) (n : Fin 8) : Kept s₀ (s.pollBinding n) := by
  unfold State.pollBinding
  (repeat' split) <;> simp [h, Kept.with_normal]

/-! ## The Load Unit -/

@[simp] theorem kept_closeRelay {s₀ s : State} (h : Kept s₀ s) (tag : Byte) (f : Frame) : Kept s₀ (s.closeRelay tag f) := by
  unfold State.closeRelay
  split
  · rename_i he; exact kept_drop_place h he f
  · exact h

@[simp] theorem kept_closeFail {s₀ s : State} (h : Kept s₀ s) (tag reason : Byte) : Kept s₀ (s.closeFail tag reason) := by
  unfold State.closeFail
  (repeat' split) <;> simp (maxDischargeDepth := 40) [h]

@[simp] theorem kept_mergeDrive {s₀ s : State} (h : Kept s₀ s) (i : Fin 16) (level : Nat) :
    Kept s₀ (s.mergeDrive i level) := by
  unfold State.mergeDrive
  split <;> exact h.with_queues _ _

@[simp] theorem kept_queueDrive {s₀ s : State} (h : Kept s₀ s) (i : Fin 16) (level : Nat) :
    Kept s₀ (s.queueDrive i level) := by
  unfold State.queueDrive
  simp (maxDischargeDepth := 40) [h]

@[simp] theorem kept_repeatDrive {s₀ s : State} (h : Kept s₀ s) (i : Fin 16) (level : Nat) (urgent : Bool) :
    Kept s₀ (s.repeatDrive i level urgent) := by
  unfold State.repeatDrive
  dsimp only
  (repeat' split)
  · simp [h]
  · exact Kept.with_urgent (kept_modRecord h i _ (by simp) rfl rfl) _
  · exact Kept.with_normal (kept_modRecord h i _ (by simp) rfl rfl) _

@[simp] theorem kept_commandByController {s₀ s : State} (h : Kept s₀ s) (i : Fin 16) (level : Nat) :
    Kept s₀ (s.commandByController i level) := by
  unfold State.commandByController
  simp (maxDischargeDepth := 40) [h]

@[simp] theorem kept_promoteRelay {s₀ s : State} (h : Kept s₀ s) (i : Fin 16) (tag : Byte) (level : Nat) :
    Kept s₀ (s.promoteRelay i tag level) := by
  unfold State.promoteRelay
  refine kept_commandByController (Kept.with_normal (kept_modRelay h _ _ ?_) _) _ _
  exact fun _ => rfl

@[simp] theorem kept_ownByEngine {s₀ s : State} (h : Kept s₀ s) (i : Fin 16) : Kept s₀ (s.ownByEngine i) :=
  kept_modRecord h i _ id rfl rfl

@[simp] theorem kept_grantTo {s₀ s : State} (h : Kept s₀ s) (i : Fin 16) (who : Requester) (level : Nat) (hfit : s.fits i = true) :
    Kept s₀ (s.grantTo i who level) := by
  have hh := kept_setGrant_held h i hfit
  unfold State.grantTo
  (repeat' split) <;> simp [h, hh]

@[simp] theorem kept_refuseRequest {s₀ s : State} (h : Kept s₀ s) (i : Fin 16) (who : Requester) :
    Kept s₀ (s.refuseRequest i who) := by
  unfold State.refuseRequest
  (repeat' split) <;> simp (maxDischargeDepth := 40) [h]

@[simp] theorem kept_considerUpTo (n : Nat) : ∀ {s₀ s : State}, Kept s₀ s → Kept s₀ (considerUpTo n s) := by
  induction n with
  | zero => exact fun h => h.with_minOff _
  | succ n ih =>
    intro s₀ s h
    unfold considerUpTo
    (repeat' split)
    · exact h.with_minOff _
    · exact ih (kept_refuseRequest (h.with_grantQueue _) _ _)
    · rename_i hc
      simp only [Bool.and_eq_true] at hc
      exact ih (kept_grantTo (h.with_grantQueue _) _ _ _ hc.1)
    · exact h.with_minOff _

@[simp] theorem kept_considerHead {s₀ s : State} (h : Kept s₀ s) : Kept s₀ (s.considerHead) := kept_considerUpTo _ h

@[simp] theorem kept_dropRequest {s₀ s : State} (h : Kept s₀ s) (i : Fin 16) : Kept s₀ (s.dropRequest i) := kept_setGrant (Kept.with_grantQueue h _) i _ (by simp)

@[simp] theorem kept_considerIf {s₀ s : State} (h : Kept s₀ s) (wasHead : Bool) : Kept s₀ (s.considerIf wasHead) := by
  unfold State.considerIf
  (repeat' split) <;> simp (maxDischargeDepth := 40) [h]

@[simp] theorem kept_withdrawRequest {s₀ s : State} (h : Kept s₀ s) (i : Fin 16) : Kept s₀ (s.withdrawRequest i) := by
  unfold State.withdrawRequest
  dsimp only
  (repeat' split) <;> simp (maxDischargeDepth := 40) [h]

@[simp] theorem kept_joinRequest {s₀ s : State} (h : Kept s₀ s) (i : Fin 16) (who : Requester) (level : Nat) :
    Kept s₀ (s.joinRequest i who level) := by
  unfold State.joinRequest
  exact kept_considerIf (kept_setGrant (Kept.with_grantQueue h _) i _ (by simp)) _

@[simp] theorem kept_requestGrant {s₀ s : State} (h : Kept s₀ s) (i : Fin 16) (who : Requester) (level : Nat) :
    Kept s₀ (s.requestGrant i who level) := by
  unfold State.requestGrant
  split
  · rename_i hc
    simp only [Bool.and_eq_true] at hc
    exact kept_grantTo h _ _ _ hc.1.2
  · exact kept_joinRequest h _ _ _

@[simp] theorem kept_engineGrant {s₀ s : State} (h : Kept s₀ s) (i : Fin 16) (level : Nat) :
    Kept s₀ (s.engineGrant i level) := by
  unfold State.engineGrant
  (repeat' split) <;> simp (maxDischargeDepth := 40) [h]

@[simp] theorem kept_driveHeld {s₀ s : State} (h : Kept s₀ s) (i : Fin 16) (level : Nat) : Kept s₀ (s.driveHeld i level) := by
  unfold State.driveHeld
  (repeat' split) <;> simp (maxDischargeDepth := 40) [h]

@[simp] theorem kept_setPendingLevel {s₀ s : State} (h : Kept s₀ s) (i : Fin 16) (level : Nat) :
    Kept s₀ (s.setPendingLevel i level) := Kept.with_grantQueue h _

@[simp] theorem kept_engineOn {s₀ s : State} (h : Kept s₀ s) (i : Fin 16) (level : Nat) : Kept s₀ (s.engineOn i level) := by
  unfold State.engineOn
  dsimp only
  (repeat' split) <;> simp (maxDischargeDepth := 40) [h]

@[simp] theorem kept_engineOff {s₀ s : State} (h : Kept s₀ s) (i : Fin 16) : Kept s₀ (s.engineOff i) := by
  unfold State.engineOff
  dsimp only
  (repeat' split) <;> simp (maxDischargeDepth := 40) [h]

@[simp] theorem kept_engineDrive {s₀ s : State} (h : Kept s₀ s) (i : Fin 16) (level : Nat) :
    Kept s₀ (s.engineDrive i level) := by
  unfold State.engineDrive
  (repeat' split) <;> simp (maxDischargeDepth := 40) [h]

@[simp] theorem kept_engineOffs {s₀ s : State} (h : Kept s₀ s) (is : List (Fin 16)) : Kept s₀ (s.engineOffs is) := kept_foldl _ (fun _ _ g => kept_engineOff g _) _ h

@[simp] theorem kept_releaseGrant {s₀ s : State} (h : Kept s₀ s) (i : Fin 16) : Kept s₀ (s.releaseGrant i) := by
  unfold State.releaseGrant
  dsimp only
  (repeat' split) <;> simp (maxDischargeDepth := 40) [h]

@[simp] theorem kept_secondFailure {s₀ s : State} (h : Kept s₀ s) (i : Fin 16) (sent : Nat) (f : LoadFault) :
    Kept s₀ (s.secondFailure i sent f) := by
  unfold State.secondFailure
  dsimp only
  simp (maxDischargeDepth := 40) [h]

@[simp] theorem kept_judgeDrive {s₀ s : State} (h : Kept s₀ s) (i : Fin 16) (sent : Nat) (urgent : Bool) (e : DriveEnd) :
    Kept s₀ (s.judgeDrive i sent urgent e) := by
  unfold State.judgeDrive
  (repeat' split) <;> simp (maxDischargeDepth := 40) [h]

/-- R46: the confirmed level and the node condition are the tap's; the rest is as every block's act is. -/
theorem kept_tapLoad {s₀ s : State} (i : Fin 16) (reply : Option (Nat × NodeCond))
    (h : Kept s₀ (s.modRecord i (fun r => r.tapped s.now reply))) : Kept s₀ (s.tapLoad i reply) := by
  unfold State.tapLoad
  dsimp only
  have h2 : Kept s₀ (if ((s.modRecord i (fun r => r.tapped s.now reply)).record i).grant = .held ∧
      ((s.modRecord i (fun r => r.tapped s.now reply)).record i).confirmed = some 0
      then (s.modRecord i (fun r => r.tapped s.now reply)).releaseGrant i
      else s.modRecord i (fun r => r.tapped s.now reply)) := kept_ite _ (kept_releaseGrant h i) h
  have h3 := kept_modRecord h2 i (fun r => r.cleared reply) (by simp) (by simp) (by simp)
  exact kept_emit (kept_considerIf (kept_ite _ (kept_engineOff h3 i) h3) _) _

/-! ## The Airflow Unit -/

@[simp] theorem kept_driveBlower {s₀ s : State} (h : Kept s₀ s) : Kept s₀ (s.driveBlower) := by
  unfold State.driveBlower
  simp (maxDischargeDepth := 40) [h]

@[simp] theorem kept_aimSpeed {s₀ s : State} (h : Kept s₀ s) : Kept s₀ (s.aimSpeed) := by
  unfold State.aimSpeed
  (repeat' split) <;> simp (maxDischargeDepth := 40) [h]

@[simp] theorem kept_armStall {s₀ s : State} (h : Kept s₀ s) : Kept s₀ (s.armStall) := by
  unfold State.armStall
  simp (maxDischargeDepth := 40) [h]

@[simp] theorem kept_idleStall {s₀ s : State} (h : Kept s₀ s) : Kept s₀ (s.idleStall) := by
  unfold State.idleStall
  simp (maxDischargeDepth := 40) [h]

@[simp] theorem kept_stallAtLevel {s₀ s : State} (h : Kept s₀ s) : Kept s₀ (s.stallAtLevel) := by
  unfold State.stallAtLevel
  (repeat' split) <;> simp (maxDischargeDepth := 40) [h]

@[simp] theorem kept_setLevel {s₀ s : State} (h : Kept s₀ s) (l : BlowLevel) : Kept s₀ (s.setLevel l) := by
  unfold State.setLevel
  (repeat' split) <;> simp (maxDischargeDepth := 40) [h]

@[simp] theorem kept_followDemand {s₀ s : State} (h : Kept s₀ s) (before : BlowLevel) : Kept s₀ (s.followDemand before) := by
  unfold State.followDemand
  dsimp only
  (repeat' split) <;> simp (maxDischargeDepth := 40) [h]

@[simp] theorem kept_changeDemands {s₀ s : State} (h : Kept s₀ s) (f : Airflow → Airflow) (hf : (f s.air).controllerDemand = s.air.controllerDemand) :
    Kept s₀ (s.changeDemands f) := kept_followDemand (kept_modAir h f hf) _

@[simp] theorem kept_postBlower {s₀ s : State} (h : Kept s₀ s) (c : Cav) (d : BlowLevel) : Kept s₀ (s.postBlower c d) := kept_changeDemands (kept_modCav h _ _ fun x => x) _ rfl

@[simp] theorem kept_postBay {s₀ s : State} (h : Kept s₀ s) (d : BlowLevel) : Kept s₀ (s.postBay d) := kept_changeDemands h _ rfl

@[simp] theorem kept_bayReport {s₀ s : State} (h : Kept s₀ s) (left entered : ChanState) :
    Kept s₀ (s.bayReport left entered) := by
  unfold State.bayReport
  (repeat' split) <;> simp (maxDischargeDepth := 40) [h]

@[simp] theorem kept_endRunOn {s₀ s : State} (h : Kept s₀ s) : Kept s₀ (s.endRunOn) := by
  unfold State.endRunOn
  simp (maxDischargeDepth := 40) [h]

@[simp] theorem kept_startStallTimer {s₀ s : State} (h : Kept s₀ s) : Kept s₀ (s.startStallTimer) := by
  unfold State.startStallTimer
  (repeat' split) <;> simp (maxDischargeDepth := 40) [h]

@[simp] theorem kept_speedLost {s₀ s : State} (h : Kept s₀ s) : Kept s₀ (s.speedLost) := by
  unfold State.speedLost
  (repeat' split) <;> simp (maxDischargeDepth := 40) [h]

@[simp] theorem kept_speedMet {s₀ s : State} (h : Kept s₀ s) : Kept s₀ (s.speedMet) := by
  unfold State.speedMet
  (repeat' split) <;> simp (maxDischargeDepth := 40) [h]

@[simp] theorem kept_endArming {s₀ s : State} (h : Kept s₀ s) : Kept s₀ (s.endArming) := by
  unfold State.endArming
  dsimp only
  (repeat' split) <;> simp (maxDischargeDepth := 40) [h]

@[simp] theorem kept_becomeStalled {s₀ s : State} (h : Kept s₀ s) : Kept s₀ (s.becomeStalled) := by
  unfold State.becomeStalled
  simp (maxDischargeDepth := 40) [h]

@[simp] theorem kept_refreshAble {s₀ s : State} (h : Kept s₀ s) : Kept s₀ (s.refreshAble) := by
  unfold State.refreshAble
  (repeat' split) <;> simp (maxDischargeDepth := 40) [h]

@[simp] theorem kept_converterOn {s₀ s : State} (h : Kept s₀ s) : Kept s₀ (s.converterOn) := by
  unfold State.converterOn
  simp (maxDischargeDepth := 40) [h]

@[simp] theorem kept_converterOff {s₀ s : State} (h : Kept s₀ s) : Kept s₀ (s.converterOff) := by
  unfold State.converterOff
  simp (maxDischargeDepth := 40) [h]

@[simp] theorem kept_postConverter {s₀ s : State} (h : Kept s₀ s) (c : Cav) (d : ConvField) :
    Kept s₀ (s.postConverter c d) := by
  have hs : Kept s₀ ((s.modCav c (fun k => { k with converter := d })).modAir
      (fun a => { a with convCav := a.convCav.set c d })) := kept_modAir (kept_modCav h _ _ fun x => x) _ rfl
  unfold State.postConverter
  exact kept_ite _ (kept_ite _ (kept_converterOn (kept_modAir hs _ rfl)) (kept_modAir hs _ rfl))
    (kept_ite _ (kept_converterOff (kept_modAir hs _ rfl)) (kept_modAir hs _ rfl))

@[simp] theorem kept_refreshLit {s₀ s : State} (h : Kept s₀ s) : Kept s₀ (s.refreshLit) := by
  unfold State.refreshLit
  dsimp only
  (repeat' split) <;> simp (maxDischargeDepth := 40) [h]

/-! ## Leaving the Relay Table unsent -/

@[simp] theorem kept_returnGrant {s₀ s : State} (h : Kept s₀ s) (i : Fin 16) : Kept s₀ (s.returnGrant i) := by
  unfold State.returnGrant
  (repeat' split) <;> simp (maxDischargeDepth := 40) [h]

@[simp] theorem kept_unqueue {s₀ s : State} (h : Kept s₀ s) (e : RelayEntry) : Kept s₀ (s.unqueue e) := by
  have h1 := kept_dropRelay (h.with_normal (s.normal.filter (fun q => q != QItem.relayed e.frame.tag))) e.frame.tag
  unfold State.unqueue
  exact kept_ite _ (kept_onLoad h1 _ _ fun _ => kept_returnGrant h1 _) h1

@[simp] theorem kept_dropWait {s₀ s : State} (h : Kept s₀ s) (e : RelayEntry) : Kept s₀ (s.dropWait e) := by
  unfold State.dropWait
  (repeat' split) <;> simp (maxDischargeDepth := 40) [h]

@[simp] theorem kept_dropQueued {s₀ s : State} (h : Kept s₀ s) (e : RelayEntry) : Kept s₀ (s.dropQueued e) := by
  unfold State.dropQueued
  (repeat' split) <;> simp (maxDischargeDepth := 40) [h]

/-! ## Withdrawal and expiry of relay entries (R27 to R29) -/

@[simp] theorem relay_dropWait (s : State) (e : RelayEntry) : (s.dropWait e).relay = s.relay := by
  unfold State.dropWait
  split
  · unfold State.onLoad; split <;> rfl
  · rfl
  · rfl

@[simp] theorem outQueue_dropWait (s : State) (e : RelayEntry) : (s.dropWait e).outQueue = s.outQueue := by
  unfold State.dropWait
  split
  · unfold State.onLoad; split <;> rfl
  · rfl
  · rfl

@[simp] theorem outQueue_returnGrant (s : State) (i : Fin 16) : (s.returnGrant i).outQueue = s.outQueue := by
  unfold State.returnGrant; split <;> rfl

theorem tagsOf_returnGrant (s : State) (i : Fin 16) : tagsOf (s.returnGrant i).relay = tagsOf s.relay := by
  unfold State.returnGrant
  split
  · exact tagsOf_modRelay _ _ _ fun _ => rfl
  · rfl

theorem unqueue_facts (s : State) (e : RelayEntry) :
    (s.unqueue e).outQueue = s.outQueue ∧ (tagsOf (s.unqueue e).relay).Sublist (tagsOf s.relay) := by
  unfold State.unqueue
  dsimp only
  split
  · unfold State.onLoad
    split
    · refine ⟨by simp, ?_⟩
      rw [tagsOf_returnGrant]
      exact tagsOf_dropRelay _ _
    · exact ⟨rfl, tagsOf_dropRelay _ _⟩
  · exact ⟨rfl, tagsOf_dropRelay _ _⟩

theorem dropQueued_facts (s : State) (e : RelayEntry) :
    (s.dropQueued e).outQueue = s.outQueue ∧ (tagsOf (s.dropQueued e).relay).Sublist (tagsOf s.relay) := by
  unfold State.dropQueued
  (repeat' split)
  · exact unqueue_facts s _
  · exact ⟨rfl, List.Sublist.refl _⟩
  · exact ⟨rfl, List.Sublist.refl _⟩

/-- Removing entries, before any closing frame is placed, only shortens the table. -/
theorem drops_facts (es : List RelayEntry) : ∀ s : State,
    (es.foldl State.dropQueued (es.foldl State.dropWait s)).outQueue = s.outQueue ∧
      (tagsOf (es.foldl State.dropQueued (es.foldl State.dropWait s)).relay).Sublist (tagsOf s.relay) := by
  have hw : ∀ (l : List RelayEntry) (s : State),
      (l.foldl State.dropWait s).outQueue = s.outQueue ∧ (l.foldl State.dropWait s).relay = s.relay := by
    intro l
    induction l with
    | nil => intro s; exact ⟨rfl, rfl⟩
    | cons a l ih => intro s; simpa using ih (s.dropWait a)
  have hq : ∀ (l : List RelayEntry) (s : State), (l.foldl State.dropQueued s).outQueue = s.outQueue ∧
      (tagsOf (l.foldl State.dropQueued s).relay).Sublist (tagsOf s.relay) := by
    intro l
    induction l with
    | nil => intro s; exact ⟨rfl, List.Sublist.refl _⟩
    | cons a l ih =>
      intro s
      have h1 := ih (s.dropQueued a)
      have h2 := dropQueued_facts s a
      exact ⟨h1.1.trans h2.1, h1.2.trans h2.2⟩
  intro s
  have h1 := hq es (es.foldl State.dropWait s)
  have h2 := hw es s
  rw [h2.1, h2.2] at h1
  exact h1

theorem withheld_facts (es : List RelayEntry) : ∀ s : State,
    (es.foldl State.placeWithheld s).relay = s.relay.filter (fun e => !(tagsOf es).contains e.frame.tag) ∧
      (es.foldl State.placeWithheld s).outQueue =
        s.outQueue ++ es.map (fun e => relayFail e.frame.tag e.frame.dest failWithheld) := by
  induction es with
  | nil => intro s; simp [tagsOf]
  | cons a es ih =>
    intro s
    have h := ih (s.placeWithheld a)
    simp only [List.foldl_cons]
    refine ⟨?_, ?_⟩
    · rw [h.1]
      simp only [State.placeWithheld, relay_place, relay_dropRelay, List.filter_filter]
      congr 1
      funext e
      simp only [tagsOf, List.map_cons, List.contains_cons, Bool.not_or]
      rw [Bool.and_comm]
      rfl
    · rw [h.2]; simp [State.placeWithheld]

theorem filter_tag_length (p : Byte → Bool) (l : List RelayEntry) :
    (l.filter (fun e => p e.frame.tag)).length = ((tagsOf l).filter p).length := by
  rw [tagsOf, List.filter_map, List.length_map]; rfl

theorem withheld_rest (es : List RelayEntry) : ∀ s : State, ∃ out rel,
    es.foldl State.placeWithheld s = { s with outQueue := out, relay := rel } := by
  induction es with
  | nil => intro s; exact ⟨s.outQueue, s.relay, rfl⟩
  | cons a es ih =>
    intro s
    obtain ⟨out, rel, e⟩ := ih (s.placeWithheld a)
    exact ⟨out, rel, e⟩

theorem length_picked (l : List RelayEntry) (q : RelayEntry → Bool) :
    ((tagsOf l).filter (fun t => !(tagsOf (l.filter q)).contains t)).length + (l.filter q).length ≤ l.length := by
  have h1 : (l.filter q).length ≤ ((tagsOf l).filter (fun t => (tagsOf (l.filter q)).contains t)).length := by
    rw [← filter_tag_length (fun t => (tagsOf (l.filter q)).contains t)]
    rw [← List.countP_eq_length_filter, ← List.countP_eq_length_filter]
    refine List.countP_mono_left fun e hm he => ?_
    simp only [tagsOf, List.contains_iff_mem, List.mem_map]
    exact ⟨e, List.mem_filter.2 ⟨hm, he⟩, rfl⟩
  have h2 := List.length_eq_length_filter_add (l := tagsOf l) (fun t => (tagsOf (l.filter q)).contains t)
  have h3 : (tagsOf l).length = l.length := List.length_map ..
  omega

/-- R29: a withdrawal closes as many entries as it places frames. -/
@[simp] theorem kept_withdrawEntries {s₀ s : State} (h : Kept s₀ s) (p : RelayEntry → Bool) : Kept s₀ (s.withdrawEntries p) := by
  have hk (es : List RelayEntry) : Kept s (es.foldl State.dropQueued (es.foldl State.dropWait s)) :=
    kept_foldl _ (fun _ _ g => kept_dropQueued g _) _ (kept_foldl _ (fun _ _ g => kept_dropWait g _) _ (Kept.refl s))
  unfold State.withdrawEntries considerAfter
  dsimp only
  have hw : Kept s ((s.relay.filter (fun e => e.unsent && p e)).foldl State.placeWithheld
      ((s.relay.filter (fun e => e.unsent && p e)).foldl State.dropQueued
        ((s.relay.filter (fun e => e.unsent && p e)).foldl State.dropWait s))) := by
    generalize hes : s.relay.filter (fun e => e.unsent && p e) = es
    have k := hk es
    have hd := drops_facts es s
    generalize es.foldl State.dropQueued (es.foldl State.dropWait s) = u at k hd ⊢
    have hf := withheld_facts es u
    have hpick := length_picked s.relay (fun e => e.unsent && p e)
    rw [hes] at hpick
    have hsub : ((tagsOf u.relay).filter (fun t => !(tagsOf es).contains t)).length ≤
        ((tagsOf s.relay).filter (fun t => !(tagsOf es).contains t)).length := (hd.2.filter _).length_le
    have hlen : (es.foldl State.placeWithheld u).relay.length =
        ((tagsOf u.relay).filter (fun t => !(tagsOf es).contains t)).length := by
      rw [hf.1]; exact filter_tag_length (fun t => !(tagsOf es).contains t) u.relay
    obtain ⟨out, rel, he⟩ := withheld_rest es u
    have ho : out = s.outQueue ++ es.map (fun e => relayFail e.frame.tag e.frame.dest failWithheld) := by
      rw [← hd.1, ← hf.2, he]
    have hr : rel.length + es.length ≤ s.relay.length := by rw [he] at hlen; simp only at hlen; omega
    rw [he]
    have hsr : (tagsOf rel).Sublist (tagsOf s.relay) := by
      have hr' : rel = u.relay.filter (fun e => !(tagsOf es).contains e.frame.tag) := by rw [← hf.1, he]
      rw [hr']
      exact (List.filter_sublist.map _).trans hd.2
    exact k.with_closed (by rw [ho]; exact List.prefix_append ..) hsr
      (by rw [ho, List.length_append, List.length_map]; omega)
  exact kept_ite _ (kept_considerHead (h.trans hw)) (h.trans hw)

/-- R27: an expired entry closes with one frame. -/
theorem kept_expireRelay {s₀ s : State} (h : Kept s₀ s) {tag : Byte} {e : RelayEntry} (he : s.relayEntry tag = some e) :
    Kept s₀ (s.expireRelay e) := by
  have ht : (e.frame.tag == tag) = true := List.find?_some (p := fun e : RelayEntry => e.frame.tag == tag) he
  have ht : e.frame.tag = tag := by simpa using ht
  have k : Kept s ((s.dropWait e).dropQueued e) := kept_dropQueued (kept_dropWait (Kept.refl s) e) e
  have hd := drops_facts [e] s
  simp only [List.foldl_cons, List.foldl_nil] at hd
  have hlt := relay_length_dropRelay_lt he
  unfold State.expireRelay considerAfter
  dsimp only
  generalize (s.dropWait e).dropQueued e = u at k hd ⊢
  have hl : (u.dropRelay e.frame.tag).relay.length < s.relay.length := by
    rw [relay_dropRelay, filter_tag_length (fun t => t != tag)] at hlt
    rw [ht, relay_dropRelay, filter_tag_length (fun t => t != tag)]
    have := (hd.2.filter (fun t => t != tag)).length_le
    omega
  have hw : Kept s ((u.dropRelay e.frame.tag).place (relayFail e.frame.tag e.frame.dest failExpired)) :=
    k.with_closed (by rw [← hd.1]; exact List.prefix_append ..) ((tagsOf_dropRelay u e.frame.tag).trans hd.2)
      (by rw [← hd.1]; simp only [outQueue_dropRelay, List.length_append, List.length_cons, List.length_nil]; omega)
  exact kept_ite _ (kept_considerHead (h.trans hw)) (h.trans hw)

@[simp] theorem kept_withdrawCavity {s₀ s : State} (h : Kept s₀ s) (c : Cav) : Kept s₀ (s.withdrawCavity c) := by
  unfold State.withdrawCavity
  simp (maxDischargeDepth := 40) [h]

@[simp] theorem kept_withdrawConverter {s₀ s : State} (h : Kept s₀ s) : Kept s₀ (s.withdrawConverter) := by
  unfold State.withdrawConverter
  simp (maxDischargeDepth := 40) [h]

@[simp] theorem kept_withdrawHeating {s₀ s : State} (h : Kept s₀ s) : Kept s₀ (s.withdrawHeating) := by
  unfold State.withdrawHeating
  simp (maxDischargeDepth := 40) [h]

@[simp] theorem kept_withdrawOns {s₀ s : State} (h : Kept s₀ s) : Kept s₀ (s.withdrawOns) := by
  unfold State.withdrawOns
  simp (maxDischargeDepth := 40) [h]

/-! ## The Lock Units -/

@[simp] theorem kept_motorOff {s₀ s : State} (h : Kept s₀ s) (c : Cav) : Kept s₀ (s.motorOff c) := by
  unfold State.motorOff
  simp (maxDischargeDepth := 40) [h]

@[simp] theorem kept_motorRun {s₀ s : State} (h : Kept s₀ s) (c : Cav) (d : Travel) : Kept s₀ (s.motorRun c d) := by
  unfold State.motorRun
  simp (maxDischargeDepth := 40) [h]

@[simp] theorem kept_lockReport {s₀ s : State} (h : Kept s₀ s) (c : Cav) (r : LockReport) : Kept s₀ (s.lockReport c r) := by
  unfold State.lockReport
  simp (maxDischargeDepth := 40) [h]

@[simp] theorem kept_travelTimers {s₀ s : State} (h : Kept s₀ s) (c : Cav) (d : Travel) : Kept s₀ (s.travelTimers c d) := by
  unfold State.travelTimers
  dsimp only
  (repeat' split) <;> simp (maxDischargeDepth := 40) [h]

@[simp] theorem kept_startTravel {s₀ s : State} (h : Kept s₀ s) (c : Cav) (d : Travel) : Kept s₀ (s.startTravel c d) := by
  unfold State.startTravel
  simp (maxDischargeDepth := 40) [h]

@[simp] theorem kept_endTravel {s₀ s : State} (h : Kept s₀ s) (c : Cav) (st : LockState) : Kept s₀ (s.endTravel c st) := by
  unfold State.endTravel
  simp (maxDischargeDepth := 40) [h]

@[simp] theorem kept_setPurpose {s₀ s : State} (h : Kept s₀ s) (c : Cav) (p : Purpose) : Kept s₀ (s.setPurpose c p) := by
  unfold State.setPurpose
  simp (maxDischargeDepth := 40) [h]

@[simp] theorem kept_setAttempt {s₀ s : State} (h : Kept s₀ s) (c : Cav) (n : Nat) : Kept s₀ (s.setAttempt c n) := by
  unfold State.setAttempt
  simp (maxDischargeDepth := 40) [h]

@[simp] theorem kept_backOffLock {s₀ s : State} (h : Kept s₀ s) (c : Cav) (p : Purpose) : Kept s₀ (s.backOffLock c p) := by
  unfold State.backOffLock
  simp (maxDischargeDepth := 40) [h]

@[simp] theorem kept_jamLock {s₀ s : State} (h : Kept s₀ s) (c : Cav) (j : Jam) : Kept s₀ (s.jamLock c j) := by
  unfold State.jamLock
  dsimp only
  (repeat' split) <;> simp (maxDischargeDepth := 40) [h]

@[simp] theorem kept_engageLock {s₀ s : State} (h : Kept s₀ s) (c : Cav) : Kept s₀ (s.engageLock c) := by
  unfold State.engageLock
  (repeat' split) <;> simp (maxDischargeDepth := 40) [h]

@[simp] theorem kept_engaged {s₀ s : State} (h : Kept s₀ s) (c : Cav) : Kept s₀ (s.engaged c) := by
  unfold State.engaged
  simp (maxDischargeDepth := 40) [h]

@[simp] theorem kept_engageFails {s₀ s : State} (h : Kept s₀ s) (c : Cav) : Kept s₀ (s.engageFails c) := by
  unfold State.engageFails
  (repeat' split) <;> simp (maxDischargeDepth := 40) [h]

@[simp] theorem kept_abortEngage {s₀ s : State} (h : Kept s₀ s) (c : Cav) : Kept s₀ (s.abortEngage c) := by
  unfold State.abortEngage
  (repeat' split) <;> simp (maxDischargeDepth := 40) [h]

@[simp] theorem kept_noteLeave {s₀ s : State} (h : Kept s₀ s) (c : Cav) (d : Travel) (latch : Latch) :
    Kept s₀ (s.noteLeave c d latch) := by
  unfold State.noteLeave
  (repeat' split) <;> simp (maxDischargeDepth := 40) [h]

@[simp] theorem kept_released {s₀ s : State} (h : Kept s₀ s) (c : Cav) : Kept s₀ (s.released c) := by
  unfold State.released
  dsimp only
  (repeat' split) <;> simp (maxDischargeDepth := 40) [h]

@[simp] theorem kept_releaseLock {s₀ s : State} (h : Kept s₀ s) (c : Cav) : Kept s₀ (s.releaseLock c) := by
  unfold State.releaseLock
  dsimp only
  (repeat' split) <;> simp (maxDischargeDepth := 40) [h]

@[simp] theorem kept_releaseFails {s₀ s : State} (h : Kept s₀ s) (c : Cav) : Kept s₀ (s.releaseFails c) := by
  unfold State.releaseFails
  simp (maxDischargeDepth := 40) [h]

@[simp] theorem kept_holdLock {s₀ s : State} (h : Kept s₀ s) (c : Cav) : Kept s₀ (s.holdLock c) := by
  unfold State.holdLock
  dsimp only
  (repeat' split) <;> simp (maxDischargeDepth := 40) [h]

@[simp] theorem kept_reportEngaging {s₀ s : State} (h : Kept s₀ s) (c : Cav) (door : Door) (latch : Latch) (latchConfirmed : Option Latch) :
    Kept s₀ (s.reportEngaging c door latch latchConfirmed) := by
  unfold State.reportEngaging
  dsimp only
  (repeat' split) <;> simp (maxDischargeDepth := 40) [h]

@[simp] theorem kept_cancelAttempt {s₀ s : State} (h : Kept s₀ s) (c : Cav) (door : Door) :
    Kept s₀ (s.cancelAttempt c door) := by
  unfold State.cancelAttempt
  (repeat' split) <;> simp (maxDischargeDepth := 40) [h]

@[simp] theorem kept_reportDisengaging {s₀ s : State} (h : Kept s₀ s) (c : Cav) (door : Door) (latch : Latch) (latchConfirmed : Option Latch) :
    Kept s₀ (s.reportDisengaging c door latch latchConfirmed) := by
  unfold State.reportDisengaging
  dsimp only
  (repeat' split) <;> simp (maxDischargeDepth := 40) [h]

@[simp] theorem kept_reportLocked {s₀ s : State} (h : Kept s₀ s) (c : Cav) (door : Door) (latchConfirmed : Option Latch) :
    Kept s₀ (s.reportLocked c door latchConfirmed) := by
  unfold State.reportLocked
  (repeat' split) <;> simp (maxDischargeDepth := 40) [h]

@[simp] theorem kept_lockDoorReport {s₀ s : State} (h : Kept s₀ s) (c : Cav) (door : Door) (latch : Latch) (latchConfirmed : Option Latch) :
    Kept s₀ (s.lockDoorReport c door latch latchConfirmed) := by
  unfold State.lockDoorReport
  dsimp only
  (repeat' split) <;> simp (maxDischargeDepth := 40) [h]

@[simp] theorem kept_travelTimeout {s₀ s : State} (h : Kept s₀ s) (c : Cav) : Kept s₀ (s.travelTimeout c) := by
  unfold State.travelTimeout
  (repeat' split) <;> simp (maxDischargeDepth := 40) [h]

@[simp] theorem kept_travelTimed {s₀ s : State} (h : Kept s₀ s) (c : Cav) : Kept s₀ (s.travelTimed c) := by
  unfold State.travelTimed
  (repeat' split) <;> simp (maxDischargeDepth := 40) [h]

@[simp] theorem kept_motorFault {s₀ s : State} (h : Kept s₀ s) (c : Cav) : Kept s₀ (s.motorFault c) := by
  unfold State.motorFault
  simp (maxDischargeDepth := 40) [h]

/-! ## The Cycle Engine -/

@[simp] theorem kept_driveFan {s₀ s : State} (h : Kept s₀ s) (c : Cav) (level : Nat) : Kept s₀ (s.driveFan c level) := by
  unfold State.driveFan
  simp (maxDischargeDepth := 40) [h]

@[simp] theorem kept_heatersOff {s₀ s : State} (h : Kept s₀ s) (c : Cav) : Kept s₀ (s.heatersOff c) := kept_foldl _ (fun _ _ g => kept_onLoad g _ _ fun _ => kept_engineOff g _) _ h

@[simp] theorem kept_fillFault {s₀ s : State} (h : Kept s₀ s) (c : Cav) (r : Reason) : Kept s₀ (s.fillFault c r) := by
  unfold State.fillFault
  (repeat' split) <;> simp (maxDischargeDepth := 40) [h]

@[simp] theorem kept_setReason {s₀ s : State} (h : Kept s₀ s) (c : Cav) (r : Reason) : Kept s₀ (s.setReason c r) := by
  unfold State.setReason
  simp (maxDischargeDepth := 40) [h]

@[simp] theorem kept_stopHold {s₀ s : State} (h : Kept s₀ s) (c : Cav) : Kept s₀ (s.stopHold c) := by
  unfold State.stopHold
  simp (maxDischargeDepth := 40) [h]

@[simp] theorem kept_leaveSegment {s₀ s : State} (h : Kept s₀ s) (c : Cav) : Kept s₀ (s.leaveSegment c) := by
  unfold State.leaveSegment
  simp (maxDischargeDepth := 40) [h]

@[simp] theorem kept_emptyStack {s₀ s : State} (h : Kept s₀ s) (c : Cav) : Kept s₀ (s.emptyStack c) := kept_modCav h c _ fun _ => by simp [StackSound, stackOrdered]

@[simp] theorem kept_endWindow {s₀ s : State} (h : Kept s₀ s) (c : Cav) : Kept s₀ (s.endWindow c) := by
  unfold State.endWindow
  simp (maxDischargeDepth := 40) [h]

@[simp] theorem kept_switchHeater {s₀ s : State} (h : Kept s₀ s) (c : Cav) (duties : PerPos Nat) (p : HeatPos) :
    Kept s₀ (State.switchHeater c duties s p) := kept_onLoad h _ _ fun _ => kept_engineDrive h _ _

@[simp] theorem kept_startWindow {s₀ s : State} (h : Kept s₀ s) (c : Cav) (target : Int) :
    Kept s₀ (s.startWindow c target) := kept_foldl _ (fun _ _ g => kept_switchHeater g _ _ _) _ (kept_modWindow h _ _)

@[simp] theorem kept_bindBank {s₀ s : State} (h : Kept s₀ s) (b : BankId) : Kept s₀ (s.bindBank b) := kept_modBank h _ _ rfl

@[simp] theorem kept_unbind {s₀ s : State} (h : Kept s₀ s) (c : Cav) : Kept s₀ (s.unbind c) := by
  unfold State.unbind
  split
  · exact kept_modCav (kept_modBank h _ _ rfl) _ _ fun x => x
  · exact h

@[simp] theorem kept_clearCavWatches {s₀ s : State} (h : Kept s₀ s) (c : Cav) : Kept s₀ (s.clearCavWatches c) := by
  unfold State.clearCavWatches
  simp (maxDischargeDepth := 40) [h]

@[simp] theorem kept_openCavity {s₀ s : State} (h : Kept s₀ s) (c : Cav) : Kept s₀ (s.openCavity c) := by
  unfold State.openCavity
  dsimp only
  simp (maxDischargeDepth := 40) [h]

@[simp] theorem kept_backToOpen {s₀ s : State} (h : Kept s₀ s) (c : Cav) (r : Reason) : Kept s₀ (s.backToOpen c r) := by
  unfold State.backToOpen
  simp (maxDischargeDepth := 40) [h]

@[simp] theorem kept_enterCooldown {s₀ s : State} (h : Kept s₀ s) (c : Cav) : Kept s₀ (s.enterCooldown c) := by
  unfold State.enterCooldown
  simp (maxDischargeDepth := 40) [h]

@[simp] theorem kept_endRun {s₀ s : State} (h : Kept s₀ s) (c : Cav) : Kept s₀ (s.endRun c) := by
  unfold State.endRun
  dsimp only
  simp (maxDischargeDepth := 40) [h]

@[simp] theorem kept_endCycle {s₀ s : State} (h : Kept s₀ s) (c : Cav) (r : Reason) : Kept s₀ (s.endCycle c r) := by
  unfold State.endCycle
  dsimp only
  (repeat' split) <;> simp (maxDischargeDepth := 40) [h]

@[simp] theorem kept_enterRelease {s₀ s : State} (h : Kept s₀ s) (c : Cav) : Kept s₀ (s.enterRelease c) := by
  unfold State.enterRelease
  simp (maxDischargeDepth := 40) [h]

@[simp] theorem kept_haltHeaters {s₀ s : State} (h : Kept s₀ s) (c : Cav) : Kept s₀ (s.haltHeaters c) := by
  unfold State.haltHeaters
  (repeat' split) <;> simp (maxDischargeDepth := 40) [h]

@[simp] theorem kept_haltItems {s₀ s : State} (h : Kept s₀ s) (c : Cav) : Kept s₀ (s.haltItems c) := by
  unfold State.haltItems
  dsimp only
  simp (maxDischargeDepth := 40) [h]

@[simp] theorem kept_halt {s₀ s : State} (h : Kept s₀ s) (c : Cav) (r : Reason) : Kept s₀ (s.halt c r) := by
  unfold State.halt
  dsimp only
  simp (maxDischargeDepth := 40) [h]

@[simp] theorem kept_haltActive {s₀ s : State} (h : Kept s₀ s) (c : Cav) (r : Reason) : Kept s₀ (s.haltActive c r) := by
  unfold State.haltActive
  (repeat' split) <;> simp (maxDischargeDepth := 40) [h]

@[simp] theorem kept_setCeiling {s₀ s : State} (h : Kept s₀ s) (c : Cav) (level : Int) : Kept s₀ (s.setCeiling c level) := by
  unfold State.setCeiling
  simp (maxDischargeDepth := 40) [h]

@[simp] theorem kept_applyOutputs {s₀ s : State} (h : Kept s₀ s) (c : Cav) (g : Segment) : Kept s₀ (s.applyOutputs c g) := by
  unfold State.applyOutputs
  simp (maxDischargeDepth := 40) [h]

@[simp] theorem kept_startShort {s₀ s : State} (h : Kept s₀ s) (c : Cav) (g : Segment) : Kept s₀ (s.startShort c g) := by
  unfold State.startShort
  (repeat' split) <;> simp (maxDischargeDepth := 40) [h]

@[simp] theorem kept_takeEntryTemp {s₀ s : State} (h : Kept s₀ s) (c : Cav) : Kept s₀ (s.takeEntryTemp c) := by
  unfold State.takeEntryTemp
  simp (maxDischargeDepth := 40) [h]

@[simp] theorem kept_startRamp {s₀ s : State} (h : Kept s₀ s) (c : Cav) (g : Segment) (long : Time) :
    Kept s₀ (s.startRamp c g long) := by
  unfold State.startRamp
  dsimp only
  (repeat' split) <;> simp (maxDischargeDepth := 40) [h]

@[simp] theorem kept_placeHold {s₀ s : State} (h : Kept s₀ s) (c : Cav) (g : Segment) (left : Time) :
    Kept s₀ (s.placeHold c g left) := by
  unfold State.placeHold
  (repeat' split) <;> simp (maxDischargeDepth := 40) [h]

@[simp] theorem kept_startCool {s₀ s : State} (h : Kept s₀ s) (c : Cav) (g : Segment) (long : Option Time) :
    Kept s₀ (s.startCool c g long) := by
  unfold State.startCool
  simp (maxDischargeDepth := 40) [h]

@[simp] theorem kept_startSoak {s₀ s : State} (h : Kept s₀ s) (c : Cav) (g : Segment) (left : Time) :
    Kept s₀ (s.startSoak c g left) := by
  unfold State.startSoak
  (repeat' split) <;> simp (maxDischargeDepth := 40) [h]

@[simp] theorem kept_enterTimed {s₀ s : State} (h : Kept s₀ s) (c : Cav) (g : Nat) (resume : Option Resume) :
    Kept s₀ (s.enterTimed c g resume) := by
  unfold State.enterTimed
  dsimp only
  (repeat' split) <;> simp (maxDischargeDepth := 40) [h]

@[simp] theorem kept_setPending {s₀ s : State} (h : Kept s₀ s) (c : Cav) (a : Cause) (b : Bool) :
    Kept s₀ (s.setPending c a b) := by
  unfold State.setPending
  simp (maxDischargeDepth := 40) [h]

theorem stack_leaveSegment (s : State) (c : Cav) : ((s.leaveSegment c).cav c).stack = (s.cav c).stack := by
  simp [State.leaveSegment, State.stopHold, State.clearWatch]

/-- R135: a pushed cause outranks the cause that was on top. -/
theorem StackSound.push {l : List StackEntry} {e : StackEntry} (h : StackSound l) (hl : l.length < 4)
    (ho : ∀ t ∈ l.head?, outranks e.cause t.cause = true) : StackSound (e :: l) := by
  refine ⟨by simp only [List.length_cons]; omega, ?_⟩
  cases l with
  | nil => rfl
  | cons t rest => simp only [stackOrdered, Bool.and_eq_true]; exact ⟨ho t (by simp), h.2⟩

theorem StackSound.pop {l : List StackEntry} {e : StackEntry} (h : StackSound (e :: l)) : StackSound l := by
  refine ⟨Nat.le_of_succ_le h.1, ?_⟩
  cases l with
  | nil => rfl
  | cons t rest =>
    have := h.2
    simp only [stackOrdered, Bool.and_eq_true] at this
    exact this.2

theorem outranks_of_takeable {k : CavCtx} {a : Cause} (h : k.takeable = some a) :
    ∀ t ∈ k.stack.head?, outranks a t.cause = true := by
  unfold CavCtx.takeable at h
  split at h
  · rename_i hs; simp [hs]
  · rename_i hs
    split at h
    · rename_i ho; simp only [Option.some.injEq] at h; subst h; simpa [hs] using ho
    · contradiction
  · contradiction

theorem kept_pushCause {s₀ s : State} (h : Kept s₀ s) (c : Cav) (a : Cause) (r : Nat × Resume)
    (hl : (s.cav c).stack.length < 4) (ho : ∀ t ∈ (s.cav c).stack.head?, outranks a t.cause = true) :
    Kept s₀ (s.pushCause c a r) := by
  unfold State.pushCause
  refine kept_flagCav (kept_modCav (kept_leaveSegment h c) c _ fun x => ?_) c
  rw [stack_leaveSegment] at x
  exact StackSound.push (by simpa only [stack_leaveSegment] using x) (by rw [stack_leaveSegment]; exact hl)
    (by rw [stack_leaveSegment]; exact ho)

theorem kept_takeCause {s₀ s : State} (h : Kept s₀ s) (c : Cav) (a : Cause) (r : Nat × Resume)
    (ho : ∀ t ∈ (s.cav c).stack.head?, outranks a t.cause = true) : Kept s₀ (s.takeCause c a r).1 := by
  have h1 : Kept s₀ ((s.setPending c a false).modCav c (fun k => { k with
      counts := k.counts.set a.index (k.counts.get a.index + 1) })) := by
    unfold State.setPending
    simp (maxDischargeDepth := 40) [h]
  unfold State.takeCause
  dsimp only
  (repeat' split)
  · exact h1
  · exact kept_endCycle h1 _ _
  · exact kept_endCycle h1 _ _
  · exact kept_endCycle h1 _ _
  · rename_i hl
    refine kept_pushCause h1 _ _ _ (by omega) ?_
    simpa [State.setPending] using ho

theorem kept_of_takeCause {s₀ s t : State} (h : Kept s₀ s) {c : Cav} {a : Cause} {r : Nat × Resume} {v : Option Nat}
    (ha : (s.cav c).takeable = some a) (e : s.takeCause c a r = (t, v)) : Kept s₀ t := by
  have := kept_takeCause h c a r (outranks_of_takeable ha)
  rwa [e] at this

@[simp] theorem kept_afterPop {s₀ s : State} (h : Kept s₀ s) (c : Cav) (e : StackEntry) : Kept s₀ (s.afterPop c e).1 := by
  unfold State.afterPop
  (repeat' split)
  · rename_i ha _ _ _ e; exact kept_of_takeCause h ha e
  · rename_i ha _ _ e; exact kept_of_takeCause h ha e
  · exact h

@[simp] theorem kept_doReturn {s₀ s : State} (h : Kept s₀ s) (c : Cav) : Kept s₀ (s.doReturn c).1 := by
  unfold State.doReturn
  split
  · simp [h]
  · rename_i hs
    exact kept_afterPop (kept_flagCav (kept_modCav h c _ fun x => (hs ▸ x).pop) c) c _

@[simp] theorem kept_passZero {s₀ s : State} (h : Kept s₀ s) (c : Cav) (g : Nat) : Kept s₀ (s.passZero c g) := by
  unfold State.passZero
  simp (maxDischargeDepth := 40) [h]

@[simp] theorem kept_actZero {s₀ s : State} (h : Kept s₀ s) (c : Cav) (g : Segment) : Kept s₀ (s.actZero c g).1 := by
  unfold State.actZero
  split <;> simp (maxDischargeDepth := 40) [h]

theorem walk_zero (s : State) (c : Cav) (g : Nat) : walk 0 s c g =
    if (s.segmentAt c g).kind.timed then s.enterTimed c g none
    else (s.modCav c (fun k => { k with segment := some g })).endCycle c .loop := by rw [walk.eq_def]

theorem walk_succ (n : Nat) (s : State) (c : Cav) (g : Nat) : walk (n + 1) s c g =
    if (s.segmentAt c g).kind.timed then s.enterTimed c g none
    else
      match (s.passZero c g).actZero c (s.segmentAt c g) with
      | (s1, .goto v) => walk n s1 c v
      | (s1, .resume v r) => s1.enterTimed c v (some r)
      | (s1, .done) => s1 := by rw [walk.eq_def] <;> rfl

@[simp] theorem kept_walk (n : Nat) : ∀ {s₀ s : State}, Kept s₀ s → ∀ (c : Cav) (g : Nat), Kept s₀ (walk n s c g) := by
  induction n with
  | zero =>
    intro s₀ s h c g
    rw [walk_zero]
    split <;> simp (maxDischargeDepth := 40) [h]
  | succ n ih =>
    intro s₀ s h c g
    have hz := kept_actZero (kept_passZero h c g) c (s.segmentAt c g)
    rw [walk_succ]
    (repeat' split)
    · simp [h]
    · rename_i e; rw [e] at hz; exact ih hz _ _
    · rename_i e; rw [e] at hz; exact kept_enterTimed hz _ _ _
    · rename_i e; rw [e] at hz; exact hz

@[simp] theorem kept_enterSegment {s₀ s : State} (h : Kept s₀ s) (c : Cav) (g : Nat) : Kept s₀ (s.enterSegment c g) := kept_walk _ h _ _

@[simp] theorem kept_completeSegment {s₀ s : State} (h : Kept s₀ s) (c : Cav) : Kept s₀ (s.completeSegment c) := by
  unfold State.completeSegment
  simp (maxDischargeDepth := 40) [h]

@[simp] theorem kept_raise {s₀ s : State} (h : Kept s₀ s) (c : Cav) (a : Cause) : Kept s₀ (s.raise c a) := by
  unfold State.raise
  split
  · dsimp only
    (repeat' split)
    · rename_i ha _ _ _ e; exact kept_enterSegment (kept_of_takeCause (kept_setPending h _ _ _) ha e) _ _
    · rename_i ha _ _ e; exact kept_of_takeCause (kept_setPending h _ _ _) ha e
    · simp [h]
    · simp [h]
  all_goals exact h

@[simp] theorem kept_startSurvey {s₀ s : State} (h : Kept s₀ s) (c : Cav) : Kept s₀ (s.startSurvey c) := by
  unfold State.startSurvey
  simp (maxDischargeDepth := 40) [h]

@[simp] theorem kept_surveyTest {s₀ s : State} (h : Kept s₀ s) (c : Cav) : Kept s₀ (s.surveyTest c) := by
  unfold State.surveyTest
  (repeat' split) <;> simp (maxDischargeDepth := 40) [h]

@[simp] theorem kept_surveyAfterWrite {s₀ s : State} (h : Kept s₀ s) (c : Cav) (touched : Bool) :
    Kept s₀ (s.surveyAfterWrite c touched) := by
  unfold State.surveyAfterWrite
  (repeat' split) <;> simp (maxDischargeDepth := 40) [h]

@[simp] theorem kept_surveyCooldown {s₀ s : State} (h : Kept s₀ s) (c : Cav) : Kept s₀ (s.surveyCooldown c) := by
  unfold State.surveyCooldown
  dsimp only
  (repeat' split) <;> simp (maxDischargeDepth := 40) [h]

@[simp] theorem kept_decideSurvey {s₀ s : State} (h : Kept s₀ s) (c : Cav) (door : Door) (latch : Latch) :
    Kept s₀ (s.decideSurvey c door latch) := by
  unfold State.decideSurvey
  dsimp only
  (repeat' split) <;> simp (maxDischargeDepth := 40) [h]

@[simp] theorem kept_surveyCheck {s₀ s : State} (h : Kept s₀ s) (c : Cav) : Kept s₀ (s.surveyCheck c) := by
  unfold State.surveyCheck
  (repeat' split) <;> simp (maxDischargeDepth := 40) [h]

@[simp] theorem kept_enterLocking {s₀ s : State} (h : Kept s₀ s) (c : Cav) : Kept s₀ (s.enterLocking c) := by
  unfold State.enterLocking
  simp (maxDischargeDepth := 40) [h]

@[simp] theorem kept_prepareTest {s₀ s : State} (h : Kept s₀ s) (c : Cav) : Kept s₀ (s.prepareTest c) := by
  unfold State.prepareTest
  (repeat' split) <;> simp (maxDischargeDepth := 40) [h]

@[simp] theorem kept_enterPrepare {s₀ s : State} (h : Kept s₀ s) (c : Cav) : Kept s₀ (s.enterPrepare c) := by
  unfold State.enterPrepare
  simp (maxDischargeDepth := 40) [h]

@[simp] theorem kept_acceptStart {s₀ s : State} (h : Kept s₀ s) (c : Cav) (b : BankId) (entry : Nat) :
    Kept s₀ (s.acceptStart c b entry) := by
  unfold State.acceptStart
  dsimp only
  simp (maxDischargeDepth := 40) [h]

@[simp] theorem kept_enterRun {s₀ s : State} (h : Kept s₀ s) (c : Cav) : Kept s₀ (s.enterRun c) := by
  unfold State.enterRun
  dsimp only
  simp (maxDischargeDepth := 40) [h]

@[simp] theorem kept_startBackOff {s₀ s : State} (h : Kept s₀ s) (c : Cav) (b : BackOff) : Kept s₀ (s.startBackOff c b) := by
  unfold State.startBackOff
  (repeat' split) <;> simp (maxDischargeDepth := 40) [h]

@[simp] theorem kept_lockInLocking {s₀ s : State} (h : Kept s₀ s) (c : Cav) (r : LockReport) :
    Kept s₀ (s.lockInLocking c r) := by
  unfold State.lockInLocking
  (repeat' split) <;> simp (maxDischargeDepth := 40) [h]

@[simp] theorem kept_lockInRun {s₀ s : State} (h : Kept s₀ s) (c : Cav) (r : LockReport) : Kept s₀ (s.lockInRun c r) := by
  unfold State.lockInRun
  (repeat' split) <;> simp (maxDischargeDepth := 40) [h]

@[simp] theorem kept_lockInRelease {s₀ s : State} (h : Kept s₀ s) (c : Cav) (r : LockReport) :
    Kept s₀ (s.lockInRelease c r) := by
  unfold State.lockInRelease
  (repeat' split) <;> simp (maxDischargeDepth := 40) [h]

@[simp] theorem kept_onLockReport {s₀ s : State} (h : Kept s₀ s) (c : Cav) (r : LockReport) :
    Kept s₀ (s.onLockReport c r) := by
  unfold State.onLockReport
  (repeat' split) <;> simp (maxDischargeDepth := 40) [h]

@[simp] theorem kept_moveHold {s₀ s : State} (h : Kept s₀ s) (c : Cav) : Kept s₀ (s.moveHold c) := by
  unfold State.moveHold
  (repeat' split) <;> simp (maxDischargeDepth := 40) [h]

@[simp] theorem kept_onProbeReading {s₀ s : State} (h : Kept s₀ s) (c : Cav) : Kept s₀ (s.onProbeReading c) := by
  unfold State.onProbeReading
  (repeat' split) <;> simp (maxDischargeDepth := 40) [h]

@[simp] theorem kept_onDoorReport {s₀ s : State} (h : Kept s₀ s) (c : Cav) (door : Door) (latch : Latch) :
    Kept s₀ (s.onDoorReport c door latch) := by
  unfold State.onDoorReport
  (repeat' split) <;> simp (maxDischargeDepth := 40) [h]

@[simp] theorem kept_onProbeLost {s₀ s : State} (h : Kept s₀ s) (c : Cav) : Kept s₀ (s.onProbeLost c) := by
  unfold State.onProbeLost
  (repeat' split) <;> simp (maxDischargeDepth := 40) [h]

@[simp] theorem kept_onDoorLost {s₀ s : State} (h : Kept s₀ s) (c : Cav) : Kept s₀ (s.onDoorLost c) := by
  unfold State.onDoorLost
  (repeat' split) <;> simp (maxDischargeDepth := 40) [h]

@[simp] theorem kept_onGoal {s₀ s : State} (h : Kept s₀ s) (c : Cav) : Kept s₀ (s.onGoal c) := by
  unfold State.onGoal
  (repeat' split) <;> simp (maxDischargeDepth := 40) [h]

@[simp] theorem kept_onRise {s₀ s : State} (h : Kept s₀ s) (c : Cav) : Kept s₀ (s.onRise c) := by
  unfold State.onRise
  simp (maxDischargeDepth := 40) [h]

@[simp] theorem kept_onRelease {s₀ s : State} (h : Kept s₀ s) (c : Cav) (met : Bool) : Kept s₀ (s.onRelease c met) := by
  unfold State.onRelease
  (repeat' split) <;> simp (maxDischargeDepth := 40) [h]

@[simp] theorem kept_onLit {s₀ s : State} (h : Kept s₀ s) (c : Cav) : Kept s₀ (s.onLit c) := by
  unfold State.onLit
  (repeat' split) <;> simp (maxDischargeDepth := 40) [h]

@[simp] theorem kept_onHoldDone {s₀ s : State} (h : Kept s₀ s) (c : Cav) : Kept s₀ (s.onHoldDone c) := by
  unfold State.onHoldDone
  (repeat' split) <;> simp (maxDischargeDepth := 40) [h]

@[simp] theorem kept_onLoadFault {s₀ s : State} (h : Kept s₀ s) (c : Cav) : Kept s₀ (s.onLoadFault c) := by
  unfold State.onLoadFault
  (repeat' split) <;> simp (maxDischargeDepth := 40) [h]

@[simp] theorem kept_onOffFailed {s₀ s : State} (h : Kept s₀ s) (c : Cav) : Kept s₀ (s.onOffFailed c) := by
  unfold State.onOffFailed
  (repeat' split) <;> simp (maxDischargeDepth := 40) [h]

@[simp] theorem kept_cancelCavity {s₀ s : State} (h : Kept s₀ s) (c : Cav) : Kept s₀ (s.cancelCavity c).1 := by
  unfold State.cancelCavity
  split <;> simp (maxDischargeDepth := 40) [h]

/-! ## Reports between blocks -/

@[simp] theorem kept_onChanState {s₀ s : State} (h : Kept s₀ s) (u : Use) (left entered : ChanState) :
    Kept s₀ (s.onChanState u left entered) := by
  unfold State.onChanState
  (repeat' split) <;> simp (maxDischargeDepth := 40) [h]

@[simp] theorem kept_raiseBoth {s₀ s : State} (h : Kept s₀ s) (a : Cause) : Kept s₀ (s.raiseBoth a) := by
  unfold State.raiseBoth
  simp (maxDischargeDepth := 40) [h]

@[simp] theorem kept_onWatch {s₀ s : State} (h : Kept s₀ s) (w : WatchId) (met : Bool) : Kept s₀ (s.onWatch w met) := by
  unfold State.onWatch
  (repeat' split) <;> simp (maxDischargeDepth := 40) [h]

@[simp] theorem kept_onCavityLoad {s₀ s : State} (h : Kept s₀ s) (i : Fin 16) (f : State → Cav → State) (hf : ∀ c, Kept s₀ (f s c)) :
    Kept s₀ (s.onCavityLoad i f) := by
  unfold State.onCavityLoad
  split <;> simp [h, hf]

@[simp] theorem kept_onConverterFault {s₀ s : State} (h : Kept s₀ s) (zero one : Bool) : Kept s₀ (s.onConverterFault zero one) := by
  unfold State.onConverterFault
  exact kept_ite _ (kept_raise (kept_ite _ (kept_raise h _ _) h) _ _) (kept_ite _ (kept_raise h _ _) h)

@[simp] theorem kept_onFault {s₀ s : State} (h : Kept s₀ s) (i : Fin 16) : Kept s₀ (s.onFault i) := by
  unfold State.onFault
  (repeat' split) <;> simp (maxDischargeDepth := 40) [h]

@[simp] theorem kept_onStalled {s₀ s : State} (h : Kept s₀ s) : Kept s₀ (s.onStalled) := by
  unfold State.onStalled
  simp (maxDischargeDepth := 40) [h]

@[simp] theorem kept_handle {s₀ s : State} (h : Kept s₀ s) (e : Event) : Kept s₀ (s.handle e) := by
  unfold State.handle
  split <;> (try split) <;> simp (maxDischargeDepth := 40) [h]

@[simp] theorem kept_settleUpTo (n : Nat) : ∀ {s₀ s : State}, Kept s₀ s → Kept s₀ (settleUpTo n s) := by
  induction n with
  | zero => exact fun h => h
  | succ n ih =>
    intro s₀ s h
    unfold settleUpTo
    split
    · exact h
    · exact ih (kept_handle (h.with_events _) _)

@[simp] theorem kept_settle {s₀ s : State} (h : Kept s₀ s) : Kept s₀ (s.settle) := kept_settleUpTo _ h

end Sys2Proof.Machine
end

