-- ==== Sys2Proof/Laws/Apart.lean ====
section
/-! SUPPORT. `Apart a b s t`: what an act leaves as it was: the contexts of the cavities other than `a`, the locks and duty
windows of those other than `b`, and every channel record. An act of the Cycle Engine for a cavity has it with both at that
cavity, one of a Lock Unit with any `a`, one of no cavity with any `a` and `b`. Every function has one lemma that takes
`Apart a b s t` to `Apart a b s (f t)`, tagged simp. -/

namespace Sys2Proof.Machine

/-- What an act leaves alone that may change the context of `a`, and the lock and duty window of `b`. -/
structure Apart (a b : Cav) (s t : State) : Prop where
  cav : ∀ c, c ≠ a → t.cav c = s.cav c
  lock : ∀ c, c ≠ b → t.lock c = s.lock c
  window : ∀ c, c ≠ b → t.window c = s.window c
  chans : t.chans = s.chans

theorem Apart.refl (a b : Cav) (s : State) : Apart a b s s := by constructor <;> simp

theorem Apart.trans {a b : Cav} {s t u : State} (h : Apart a b s t) (g : Apart a b t u) : Apart a b s u where
  cav c x := (g.cav c x).trans (h.cav c x)
  lock c x := (g.lock c x).trans (h.lock c x)
  window c x := (g.window c x).trans (h.window c x)
  chans := g.chans.trans h.chans

/-- An act for no cavity leaves both contexts alone. -/
theorem cav_of_apart {s t : State} (h : ∀ a b, Apart a b s t) (c : Cav) : t.cav c = s.cav c :=
  (h (otherCav c) c).cav c (by cases c <;> simp [otherCav])

/-- An act for no cavity leaves both locks alone. -/
theorem lock_of_apart {s t : State} (h : ∀ a b, Apart a b s t) (c : Cav) : t.lock c = s.lock c :=
  (h c (otherCav c)).lock c (by cases c <;> simp [otherCav])

/-- An act for no cavity leaves both duty windows alone. -/
theorem window_of_apart {s t : State} (h : ∀ a b, Apart a b s t) (c : Cav) : t.window c = s.window c :=
  (h c (otherCav c)).window c (by cases c <;> simp [otherCav])

/-! ## The updates -/

@[simp] theorem apart_modBank {a₀ b₀ : Cav} {s₀ s : State} (h : Apart a₀ b₀ s₀ s) (b : BankId) (f : Bank → Bank) : Apart a₀ b₀ s₀ (s.modBank b f) :=
  ⟨h.cav, h.lock, h.window, h.chans⟩

@[simp] theorem apart_modAir {a₀ b₀ : Cav} {s₀ s : State} (h : Apart a₀ b₀ s₀ s) (f : Airflow → Airflow) : Apart a₀ b₀ s₀ (s.modAir f) :=
  ⟨h.cav, h.lock, h.window, h.chans⟩

@[simp] theorem apart_modRecord {a₀ b₀ : Cav} {s₀ s : State} (h : Apart a₀ b₀ s₀ s) (i : Fin 16) (f : LoadRecord → LoadRecord) : Apart a₀ b₀ s₀ (s.modRecord i f) :=
  ⟨h.cav, h.lock, h.window, h.chans⟩

@[simp] theorem apart_modRelay {a₀ b₀ : Cav} {s₀ s : State} (h : Apart a₀ b₀ s₀ s) (tag : Byte) (f : RelayEntry → RelayEntry) : Apart a₀ b₀ s₀ (s.modRelay tag f) :=
  ⟨h.cav, h.lock, h.window, h.chans⟩

@[simp] theorem apart_dropRelay {a₀ b₀ : Cav} {s₀ s : State} (h : Apart a₀ b₀ s₀ s) (tag : Byte) : Apart a₀ b₀ s₀ (s.dropRelay tag) :=
  ⟨h.cav, h.lock, h.window, h.chans⟩

@[simp] theorem apart_setGrant {a₀ b₀ : Cav} {s₀ s : State} (h : Apart a₀ b₀ s₀ s) (i : Fin 16) (g : Grant) : Apart a₀ b₀ s₀ (s.setGrant i g) :=
  ⟨h.cav, h.lock, h.window, h.chans⟩

@[simp] theorem apart_place {a₀ b₀ : Cav} {s₀ s : State} (h : Apart a₀ b₀ s₀ s) (f : Frame) : Apart a₀ b₀ s₀ (s.place f) :=
  ⟨h.cav, h.lock, h.window, h.chans⟩

@[simp] theorem apart_emit {a₀ b₀ : Cav} {s₀ s : State} (h : Apart a₀ b₀ s₀ s) (e : Event) : Apart a₀ b₀ s₀ (s.emit e) :=
  ⟨h.cav, h.lock, h.window, h.chans⟩

@[simp] theorem apart_purge {a₀ b₀ : Cav} {s₀ s : State} (h : Apart a₀ b₀ s₀ s) (p : Event → Bool) : Apart a₀ b₀ s₀ (s.purge p) :=
  ⟨h.cav, h.lock, h.window, h.chans⟩

@[simp] theorem apart_flagCav {a₀ b₀ : Cav} {s₀ s : State} (h : Apart a₀ b₀ s₀ s) (c : Cav) : Apart a₀ b₀ s₀ (s.flagCav c) :=
  ⟨h.cav, h.lock, h.window, h.chans⟩

@[simp] theorem apart_flagPart {a₀ b₀ : Cav} {s₀ s : State} (h : Apart a₀ b₀ s₀ s) : Apart a₀ b₀ s₀ (s.flagPart) :=
  ⟨h.cav, h.lock, h.window, h.chans⟩

@[simp] theorem apart_putWatch {a₀ b₀ : Cav} {s₀ s : State} (h : Apart a₀ b₀ s₀ s) (i : WatchId) (x : Watch) : Apart a₀ b₀ s₀ (s.putWatch i x) :=
  ⟨h.cav, h.lock, h.window, h.chans⟩

@[simp] theorem apart_modCav {c b₀ : Cav} {s₀ s : State} (h : Apart c b₀ s₀ s) (f : CavCtx → CavCtx) :
    Apart c b₀ s₀ (s.modCav c f) :=
  h.trans (by constructor <;> simp +contextual)

@[simp] theorem apart_modLock {a₀ c : Cav} {s₀ s : State} (h : Apart a₀ c s₀ s) (f : LockUnit → LockUnit) :
    Apart a₀ c s₀ (s.modLock c f) :=
  h.trans (by constructor <;> simp +contextual)

@[simp] theorem apart_modWindow {a₀ c : Cav} {s₀ s : State} (h : Apart a₀ c s₀ s) (f : DutyWindow → DutyWindow) :
    Apart a₀ c s₀ (s.modWindow c f) :=
  h.trans (by constructor <;> simp +contextual)

theorem Apart.with_events {a₀ b₀ : Cav} {s₀ s : State} (h : Apart a₀ b₀ s₀ s) (es : List Event) : Apart a₀ b₀ s₀ { s with events := es } :=
  ⟨h.cav, h.lock, h.window, h.chans⟩

theorem Apart.with_grantQueue {a₀ b₀ : Cav} {s₀ s : State} (h : Apart a₀ b₀ s₀ s) (q : List GrantRequest) : Apart a₀ b₀ s₀ { s with grantQueue := q } :=
  ⟨h.cav, h.lock, h.window, h.chans⟩

theorem Apart.with_minOff {a₀ b₀ : Cav} {s₀ s : State} (h : Apart a₀ b₀ s₀ s) (t : Timer) : Apart a₀ b₀ s₀ { s with minOff := t } :=
  ⟨h.cav, h.lock, h.window, h.chans⟩

theorem Apart.with_urgent {a₀ b₀ : Cav} {s₀ s : State} (h : Apart a₀ b₀ s₀ s) (q : List QItem) : Apart a₀ b₀ s₀ { s with urgent := q } :=
  ⟨h.cav, h.lock, h.window, h.chans⟩

theorem Apart.with_normal {a₀ b₀ : Cav} {s₀ s : State} (h : Apart a₀ b₀ s₀ s) (q : List QItem) : Apart a₀ b₀ s₀ { s with normal := q } :=
  ⟨h.cav, h.lock, h.window, h.chans⟩

theorem Apart.with_queues {a₀ b₀ : Cav} {s₀ s : State} (h : Apart a₀ b₀ s₀ s) (u n : List QItem) :
    Apart a₀ b₀ s₀ { s with urgent := u, normal := n } := (h.with_urgent u).with_normal n

@[simp] theorem apart_ite {a₀ b₀ : Cav} {s₀ s t : State} (p : Prop) [Decidable p] (hs : Apart a₀ b₀ s₀ s) (ht : Apart a₀ b₀ s₀ t) :
    Apart a₀ b₀ s₀ (if p then s else t) := by split <;> assumption

theorem apart_foldl {α : Type} {a₀ b₀ : Cav} {s₀ : State} (f : State → α → State) (hf : ∀ s a, Apart a₀ b₀ s₀ s → Apart a₀ b₀ s₀ (f s a))
    (l : List α) : ∀ {s : State}, Apart a₀ b₀ s₀ s → Apart a₀ b₀ s₀ (l.foldl f s) := by
  induction l with
  | nil => exact fun h => h
  | cons a l ih => exact fun h => ih (hf _ a h)

@[simp] theorem apart_onLoad {a₀ b₀ : Cav} {s₀ s : State} (h : Apart a₀ b₀ s₀ s) (i : Option (Fin 16)) (f : State → Fin 16 → State)
    (hf : ∀ i, Apart a₀ b₀ s₀ (f s i)) : Apart a₀ b₀ s₀ (s.onLoad i f) := by
  cases i with
  | none => exact h
  | some i => exact hf i

/-! ## Flags and watches -/

@[simp] theorem apart_emitIf {a₀ b₀ : Cav} {s₀ s : State} (h : Apart a₀ b₀ s₀ s) (b : Bool) (e : Event) :
    Apart a₀ b₀ s₀ (s.emitIf b e) := by
  unfold State.emitIf
  (repeat' split) <;> simp (maxDischargeDepth := 40) [h]

@[simp] theorem apart_setCavState {c b₀ : Cav} {s₀ s : State} (h : Apart c b₀ s₀ s) (st : CavState) :
    Apart c b₀ s₀ (s.setCavState c st) := by
  unfold State.setCavState
  (repeat' split) <;> simp (maxDischargeDepth := 40) [h]

@[simp] theorem apart_setLockState {a₀ c : Cav} {s₀ s : State} (h : Apart a₀ c s₀ s) (st : LockState) :
    Apart a₀ c s₀ (s.setLockState c st) := by
  unfold State.setLockState
  (repeat' split) <;> simp (maxDischargeDepth := 40) [h]

@[simp] theorem apart_setWatch {a₀ b₀ : Cav} {s₀ s : State} (h : Apart a₀ b₀ s₀ s) (i : WatchId) (side : Side) (level : Int) :
    Apart a₀ b₀ s₀ (s.setWatch i side level) := by
  unfold State.setWatch
  dsimp only
  simp (maxDischargeDepth := 40) [h]

@[simp] theorem apart_clearWatch {a₀ b₀ : Cav} {s₀ s : State} (h : Apart a₀ b₀ s₀ s) (i : WatchId) :
    Apart a₀ b₀ s₀ (s.clearWatch i) := by
  unfold State.clearWatch
  simp (maxDischargeDepth := 40) [h]

@[simp] theorem apart_evalWatch {a₀ b₀ : Cav} {s₀ s : State} (h : Apart a₀ b₀ s₀ s) (i : WatchId) :
    Apart a₀ b₀ s₀ (s.evalWatch i) := by
  unfold State.evalWatch
  dsimp only
  (repeat' split) <;> simp (maxDischargeDepth := 40) [h]

@[simp] theorem apart_evalWatches {a₀ b₀ : Cav} {s₀ s : State} (h : Apart a₀ b₀ s₀ s) (u : Use) :
    Apart a₀ b₀ s₀ (s.evalWatches u) := apart_foldl _ (fun _ _ g => apart_evalWatch g _) _ h

@[simp] theorem apart_loseWatch {a₀ b₀ : Cav} {s₀ s : State} (h : Apart a₀ b₀ s₀ s) (i : WatchId) :
    Apart a₀ b₀ s₀ (s.loseWatch i) := by
  unfold State.loseWatch
  (repeat' split) <;> simp (maxDischargeDepth := 40) [h]

@[simp] theorem apart_announce {a₀ b₀ : Cav} {s₀ s : State} (h : Apart a₀ b₀ s₀ s) (u : Use) (left entered : ChanState) :
    Apart a₀ b₀ s₀ (s.announce u left entered) := by
  unfold State.announce
  exact apart_emit (apart_ite _ (apart_foldl _ (fun _ _ g => apart_loseWatch g _) _ h) h) _

@[simp] theorem apart_reportChange {a₀ b₀ : Cav} {s₀ s : State} (h : Apart a₀ b₀ s₀ s) (u : Use) (left entered : ChanState) :
    Apart a₀ b₀ s₀ (s.reportChange u left entered) := by
  unfold State.reportChange
  exact apart_ite _ h (apart_announce h _ _ _)

@[simp] theorem apart_reportReading {a₀ b₀ : Cav} {s₀ s : State} (h : Apart a₀ b₀ s₀ s) (u : Use) (r : ChanRecord) :
    Apart a₀ b₀ s₀ (s.reportReading u r) := by
  unfold State.reportReading
  (repeat' split) <;> simp (maxDischargeDepth := 40) [h]

/-! ## The Load Unit -/

@[simp] theorem apart_closeRelay {a₀ b₀ : Cav} {s₀ s : State} (h : Apart a₀ b₀ s₀ s) (tag : Byte) (f : Frame) :
    Apart a₀ b₀ s₀ (s.closeRelay tag f) := by
  unfold State.closeRelay
  (repeat' split) <;> simp (maxDischargeDepth := 40) [h]

@[simp] theorem apart_closeFail {a₀ b₀ : Cav} {s₀ s : State} (h : Apart a₀ b₀ s₀ s) (tag reason : Byte) :
    Apart a₀ b₀ s₀ (s.closeFail tag reason) := by
  unfold State.closeFail
  (repeat' split) <;> simp (maxDischargeDepth := 40) [h]

@[simp] theorem apart_mergeDrive {a₀ b₀ : Cav} {s₀ s : State} (h : Apart a₀ b₀ s₀ s) (i : Fin 16) (level : Nat) :
    Apart a₀ b₀ s₀ (s.mergeDrive i level) := by
  unfold State.mergeDrive
  split <;> exact h.with_queues _ _

@[simp] theorem apart_queueDrive {a₀ b₀ : Cav} {s₀ s : State} (h : Apart a₀ b₀ s₀ s) (i : Fin 16) (level : Nat) :
    Apart a₀ b₀ s₀ (s.queueDrive i level) := by
  unfold State.queueDrive
  simp (maxDischargeDepth := 40) [h]

@[simp] theorem apart_repeatDrive {a₀ b₀ : Cav} {s₀ s : State} (h : Apart a₀ b₀ s₀ s) (i : Fin 16) (level : Nat) (urgent : Bool) :
    Apart a₀ b₀ s₀ (s.repeatDrive i level urgent) := by
  unfold State.repeatDrive
  exact apart_ite _ (apart_modRecord h _ _) (apart_ite _ (Apart.with_urgent (apart_modRecord h _ _) _)
    (Apart.with_normal (apart_modRecord h _ _) _))

@[simp] theorem apart_commandByController {a₀ b₀ : Cav} {s₀ s : State} (h : Apart a₀ b₀ s₀ s) (i : Fin 16) (level : Nat) :
    Apart a₀ b₀ s₀ (s.commandByController i level) := by
  unfold State.commandByController
  simp (maxDischargeDepth := 40) [h]

@[simp] theorem apart_promoteRelay {a₀ b₀ : Cav} {s₀ s : State} (h : Apart a₀ b₀ s₀ s) (i : Fin 16) (tag : Byte) (level : Nat) :
    Apart a₀ b₀ s₀ (s.promoteRelay i tag level) := apart_commandByController (Apart.with_normal (apart_modRelay h _ _) _) _ _

@[simp] theorem apart_ownByEngine {a₀ b₀ : Cav} {s₀ s : State} (h : Apart a₀ b₀ s₀ s) (i : Fin 16) :
    Apart a₀ b₀ s₀ (s.ownByEngine i) := apart_modRecord h _ _

@[simp] theorem apart_grantTo {a₀ b₀ : Cav} {s₀ s : State} (h : Apart a₀ b₀ s₀ s) (i : Fin 16) (who : Requester) (level : Nat) :
    Apart a₀ b₀ s₀ (s.grantTo i who level) := by
  unfold State.grantTo
  (repeat' split) <;> simp (maxDischargeDepth := 40) [h]

@[simp] theorem apart_refuseRequest {a₀ b₀ : Cav} {s₀ s : State} (h : Apart a₀ b₀ s₀ s) (i : Fin 16) (who : Requester) :
    Apart a₀ b₀ s₀ (s.refuseRequest i who) := by
  unfold State.refuseRequest
  (repeat' split) <;> simp (maxDischargeDepth := 40) [h]

@[simp] theorem apart_considerUpTo {a₀ b₀ : Cav} (n : Nat) :
    ∀ {s₀ s : State}, Apart a₀ b₀ s₀ s → Apart a₀ b₀ s₀ (considerUpTo n s) := by
  induction n with
  | zero => exact fun h => h.with_minOff _
  | succ n ih =>
    intro s₀ s h
    unfold considerUpTo
    (repeat' split)
    · exact h.with_minOff _
    · exact ih (apart_refuseRequest (h.with_grantQueue _) _ _)
    · exact ih (apart_grantTo (h.with_grantQueue _) _ _ _)
    · exact h.with_minOff _

@[simp] theorem apart_considerHead {a₀ b₀ : Cav} {s₀ s : State} (h : Apart a₀ b₀ s₀ s) : Apart a₀ b₀ s₀ (s.considerHead) := apart_considerUpTo _ h

@[simp] theorem apart_dropRequest {a₀ b₀ : Cav} {s₀ s : State} (h : Apart a₀ b₀ s₀ s) (i : Fin 16) :
    Apart a₀ b₀ s₀ (s.dropRequest i) := apart_setGrant (Apart.with_grantQueue h _) i _

@[simp] theorem apart_considerIf {a₀ b₀ : Cav} {s₀ s : State} (h : Apart a₀ b₀ s₀ s) (wasHead : Bool) :
    Apart a₀ b₀ s₀ (s.considerIf wasHead) := by
  unfold State.considerIf
  (repeat' split) <;> simp (maxDischargeDepth := 40) [h]

@[simp] theorem apart_withdrawRequest {a₀ b₀ : Cav} {s₀ s : State} (h : Apart a₀ b₀ s₀ s) (i : Fin 16) :
    Apart a₀ b₀ s₀ (s.withdrawRequest i) := by
  unfold State.withdrawRequest
  dsimp only
  (repeat' split) <;> simp (maxDischargeDepth := 40) [h]

@[simp] theorem apart_joinRequest {a₀ b₀ : Cav} {s₀ s : State} (h : Apart a₀ b₀ s₀ s) (i : Fin 16) (who : Requester) (level : Nat) :
    Apart a₀ b₀ s₀ (s.joinRequest i who level) := apart_considerIf (apart_setGrant (Apart.with_grantQueue h _) i _) _

@[simp] theorem apart_requestGrant {a₀ b₀ : Cav} {s₀ s : State} (h : Apart a₀ b₀ s₀ s) (i : Fin 16) (who : Requester) (level : Nat) :
    Apart a₀ b₀ s₀ (s.requestGrant i who level) := by
  unfold State.requestGrant
  (repeat' split) <;> simp (maxDischargeDepth := 40) [h]

@[simp] theorem apart_engineGrant {a₀ b₀ : Cav} {s₀ s : State} (h : Apart a₀ b₀ s₀ s) (i : Fin 16) (level : Nat) :
    Apart a₀ b₀ s₀ (s.engineGrant i level) := by
  unfold State.engineGrant
  (repeat' split) <;> simp (maxDischargeDepth := 40) [h]

@[simp] theorem apart_driveHeld {a₀ b₀ : Cav} {s₀ s : State} (h : Apart a₀ b₀ s₀ s) (i : Fin 16) (level : Nat) :
    Apart a₀ b₀ s₀ (s.driveHeld i level) := by
  unfold State.driveHeld
  (repeat' split) <;> simp (maxDischargeDepth := 40) [h]

@[simp] theorem apart_setPendingLevel {a₀ b₀ : Cav} {s₀ s : State} (h : Apart a₀ b₀ s₀ s) (i : Fin 16) (level : Nat) :
    Apart a₀ b₀ s₀ (s.setPendingLevel i level) := Apart.with_grantQueue h _

@[simp] theorem apart_engineOn {a₀ b₀ : Cav} {s₀ s : State} (h : Apart a₀ b₀ s₀ s) (i : Fin 16) (level : Nat) :
    Apart a₀ b₀ s₀ (s.engineOn i level) := by
  unfold State.engineOn
  dsimp only
  (repeat' split) <;> simp (maxDischargeDepth := 40) [h]

@[simp] theorem apart_engineOff {a₀ b₀ : Cav} {s₀ s : State} (h : Apart a₀ b₀ s₀ s) (i : Fin 16) :
    Apart a₀ b₀ s₀ (s.engineOff i) := by
  unfold State.engineOff
  dsimp only
  (repeat' split) <;> simp (maxDischargeDepth := 40) [h]

@[simp] theorem apart_engineDrive {a₀ b₀ : Cav} {s₀ s : State} (h : Apart a₀ b₀ s₀ s) (i : Fin 16) (level : Nat) :
    Apart a₀ b₀ s₀ (s.engineDrive i level) := by
  unfold State.engineDrive
  (repeat' split) <;> simp (maxDischargeDepth := 40) [h]

@[simp] theorem apart_engineOffs {a₀ b₀ : Cav} {s₀ s : State} (h : Apart a₀ b₀ s₀ s) (is : List (Fin 16)) :
    Apart a₀ b₀ s₀ (s.engineOffs is) := apart_foldl _ (fun _ _ g => apart_engineOff g _) _ h

@[simp] theorem apart_releaseGrant {a₀ b₀ : Cav} {s₀ s : State} (h : Apart a₀ b₀ s₀ s) (i : Fin 16) :
    Apart a₀ b₀ s₀ (s.releaseGrant i) := by
  unfold State.releaseGrant
  dsimp only
  (repeat' split) <;> simp (maxDischargeDepth := 40) [h]

@[simp] theorem apart_tapLoad {a₀ b₀ : Cav} {s₀ s : State} (h : Apart a₀ b₀ s₀ s) (i : Fin 16) (reply : Option (Nat × NodeCond)) :
    Apart a₀ b₀ s₀ (s.tapLoad i reply) := by
  unfold State.tapLoad
  exact apart_emit (apart_considerIf (apart_ite _ (apart_engineOff (apart_modRecord (apart_ite _
    (apart_releaseGrant (apart_modRecord h _ _) _) (apart_modRecord h _ _)) _ _) _)
    (apart_modRecord (apart_ite _ (apart_releaseGrant (apart_modRecord h _ _) _) (apart_modRecord h _ _)) _ _)) _) _

@[simp] theorem apart_tapState {a₀ b₀ : Cav} {s₀ s : State} (h : Apart a₀ b₀ s₀ s) (f : Frame) :
    Apart a₀ b₀ s₀ (s.tapState f) := by
  unfold State.tapState
  (repeat' split) <;> simp (maxDischargeDepth := 40) [h]

@[simp] theorem apart_secondFailure {a₀ b₀ : Cav} {s₀ s : State} (h : Apart a₀ b₀ s₀ s) (i : Fin 16) (sent : Nat) (f : LoadFault) :
    Apart a₀ b₀ s₀ (s.secondFailure i sent f) := by
  unfold State.secondFailure
  dsimp only
  simp (maxDischargeDepth := 40) [h]

@[simp] theorem apart_judgeDrive {a₀ b₀ : Cav} {s₀ s : State} (h : Apart a₀ b₀ s₀ s) (i : Fin 16) (sent : Nat) (urgent : Bool) (e : DriveEnd) :
    Apart a₀ b₀ s₀ (s.judgeDrive i sent urgent e) := by
  unfold State.judgeDrive
  (repeat' split) <;> simp (maxDischargeDepth := 40) [h]

/-! ## The Airflow Unit -/

@[simp] theorem apart_driveBlower {a₀ b₀ : Cav} {s₀ s : State} (h : Apart a₀ b₀ s₀ s) : Apart a₀ b₀ s₀ (s.driveBlower) := by
  unfold State.driveBlower
  simp (maxDischargeDepth := 40) [h]

@[simp] theorem apart_aimSpeed {a₀ b₀ : Cav} {s₀ s : State} (h : Apart a₀ b₀ s₀ s) : Apart a₀ b₀ s₀ (s.aimSpeed) := by
  unfold State.aimSpeed
  (repeat' split) <;> simp (maxDischargeDepth := 40) [h]

@[simp] theorem apart_armStall {a₀ b₀ : Cav} {s₀ s : State} (h : Apart a₀ b₀ s₀ s) : Apart a₀ b₀ s₀ (s.armStall) := by
  unfold State.armStall
  simp (maxDischargeDepth := 40) [h]

@[simp] theorem apart_idleStall {a₀ b₀ : Cav} {s₀ s : State} (h : Apart a₀ b₀ s₀ s) : Apart a₀ b₀ s₀ (s.idleStall) := by
  unfold State.idleStall
  simp (maxDischargeDepth := 40) [h]

@[simp] theorem apart_stallAtLevel {a₀ b₀ : Cav} {s₀ s : State} (h : Apart a₀ b₀ s₀ s) : Apart a₀ b₀ s₀ (s.stallAtLevel) := by
  unfold State.stallAtLevel
  (repeat' split) <;> simp (maxDischargeDepth := 40) [h]

@[simp] theorem apart_setLevel {a₀ b₀ : Cav} {s₀ s : State} (h : Apart a₀ b₀ s₀ s) (l : BlowLevel) :
    Apart a₀ b₀ s₀ (s.setLevel l) := by
  unfold State.setLevel
  (repeat' split) <;> simp (maxDischargeDepth := 40) [h]

@[simp] theorem apart_followDemand {a₀ b₀ : Cav} {s₀ s : State} (h : Apart a₀ b₀ s₀ s) (before : BlowLevel) :
    Apart a₀ b₀ s₀ (s.followDemand before) := by
  unfold State.followDemand
  dsimp only
  (repeat' split) <;> simp (maxDischargeDepth := 40) [h]

@[simp] theorem apart_changeDemands {a₀ b₀ : Cav} {s₀ s : State} (h : Apart a₀ b₀ s₀ s) (f : Airflow → Airflow) :
    Apart a₀ b₀ s₀ (s.changeDemands f) := apart_followDemand (apart_modAir h f) _

@[simp] theorem apart_postBlower {c b₀ : Cav} {s₀ s : State} (h : Apart c b₀ s₀ s) (d : BlowLevel) :
    Apart c b₀ s₀ (s.postBlower c d) := apart_changeDemands (apart_modCav h _) _

@[simp] theorem apart_postController {a₀ b₀ : Cav} {s₀ s : State} (h : Apart a₀ b₀ s₀ s) (d : BlowLevel) :
    Apart a₀ b₀ s₀ (s.postController d) := by
  unfold State.postController
  simp (maxDischargeDepth := 40) [h]

@[simp] theorem apart_postBay {a₀ b₀ : Cav} {s₀ s : State} (h : Apart a₀ b₀ s₀ s) (d : BlowLevel) :
    Apart a₀ b₀ s₀ (s.postBay d) := by
  unfold State.postBay
  simp (maxDischargeDepth := 40) [h]

@[simp] theorem apart_bayReport {a₀ b₀ : Cav} {s₀ s : State} (h : Apart a₀ b₀ s₀ s) (left entered : ChanState) :
    Apart a₀ b₀ s₀ (s.bayReport left entered) := by
  unfold State.bayReport
  (repeat' split) <;> simp (maxDischargeDepth := 40) [h]

@[simp] theorem apart_endRunOn {a₀ b₀ : Cav} {s₀ s : State} (h : Apart a₀ b₀ s₀ s) : Apart a₀ b₀ s₀ (s.endRunOn) := by
  unfold State.endRunOn
  simp (maxDischargeDepth := 40) [h]

@[simp] theorem apart_startStallTimer {a₀ b₀ : Cav} {s₀ s : State} (h : Apart a₀ b₀ s₀ s) :
    Apart a₀ b₀ s₀ (s.startStallTimer) := by
  unfold State.startStallTimer
  (repeat' split) <;> simp (maxDischargeDepth := 40) [h]

@[simp] theorem apart_speedLost {a₀ b₀ : Cav} {s₀ s : State} (h : Apart a₀ b₀ s₀ s) : Apart a₀ b₀ s₀ (s.speedLost) := by
  unfold State.speedLost
  (repeat' split) <;> simp (maxDischargeDepth := 40) [h]

@[simp] theorem apart_speedMet {a₀ b₀ : Cav} {s₀ s : State} (h : Apart a₀ b₀ s₀ s) : Apart a₀ b₀ s₀ (s.speedMet) := by
  unfold State.speedMet
  (repeat' split) <;> simp (maxDischargeDepth := 40) [h]

@[simp] theorem apart_endArming {a₀ b₀ : Cav} {s₀ s : State} (h : Apart a₀ b₀ s₀ s) : Apart a₀ b₀ s₀ (s.endArming) := by
  unfold State.endArming
  dsimp only
  (repeat' split) <;> simp (maxDischargeDepth := 40) [h]

@[simp] theorem apart_becomeStalled {a₀ b₀ : Cav} {s₀ s : State} (h : Apart a₀ b₀ s₀ s) :
    Apart a₀ b₀ s₀ (s.becomeStalled) := by
  unfold State.becomeStalled
  simp (maxDischargeDepth := 40) [h]

@[simp] theorem apart_refreshAble {a₀ b₀ : Cav} {s₀ s : State} (h : Apart a₀ b₀ s₀ s) : Apart a₀ b₀ s₀ (s.refreshAble) := by
  unfold State.refreshAble
  (repeat' split) <;> simp (maxDischargeDepth := 40) [h]

@[simp] theorem apart_converterOn {a₀ b₀ : Cav} {s₀ s : State} (h : Apart a₀ b₀ s₀ s) : Apart a₀ b₀ s₀ (s.converterOn) := by
  unfold State.converterOn
  simp (maxDischargeDepth := 40) [h]

@[simp] theorem apart_converterOff {a₀ b₀ : Cav} {s₀ s : State} (h : Apart a₀ b₀ s₀ s) : Apart a₀ b₀ s₀ (s.converterOff) := by
  unfold State.converterOff
  simp (maxDischargeDepth := 40) [h]

@[simp] theorem apart_postConverter {c b₀ : Cav} {s₀ s : State} (h : Apart c b₀ s₀ s) (d : ConvField) :
    Apart c b₀ s₀ (s.postConverter c d) := by
  have hs : Apart c b₀ s₀ ((s.modCav c (fun k => { k with converter := d })).modAir
      (fun a => { a with convCav := a.convCav.set c d })) := apart_modAir (apart_modCav h _) _
  unfold State.postConverter
  exact apart_ite _ (apart_ite _ (apart_converterOn (apart_modAir hs _)) (apart_modAir hs _))
    (apart_ite _ (apart_converterOff (apart_modAir hs _)) (apart_modAir hs _))

@[simp] theorem apart_refreshLit {a₀ b₀ : Cav} {s₀ s : State} (h : Apart a₀ b₀ s₀ s) : Apart a₀ b₀ s₀ (s.refreshLit) := by
  unfold State.refreshLit
  dsimp only
  (repeat' split) <;> simp (maxDischargeDepth := 40) [h]

/-! ## Leaving the Relay Table unsent -/

@[simp] theorem apart_returnGrant {a₀ b₀ : Cav} {s₀ s : State} (h : Apart a₀ b₀ s₀ s) (i : Fin 16) :
    Apart a₀ b₀ s₀ (s.returnGrant i) := by
  unfold State.returnGrant
  (repeat' split) <;> simp (maxDischargeDepth := 40) [h]

@[simp] theorem apart_unqueue {a₀ b₀ : Cav} {s₀ s : State} (h : Apart a₀ b₀ s₀ s) (e : RelayEntry) :
    Apart a₀ b₀ s₀ (s.unqueue e) := by
  have h1 := apart_dropRelay (h.with_normal (s.normal.filter (fun q => q != QItem.relayed e.frame.tag))) e.frame.tag
  unfold State.unqueue
  exact apart_ite _ (apart_onLoad h1 _ _ fun _ => apart_returnGrant h1 _) h1

@[simp] theorem apart_dropWait {a₀ b₀ : Cav} {s₀ s : State} (h : Apart a₀ b₀ s₀ s) (e : RelayEntry) :
    Apart a₀ b₀ s₀ (s.dropWait e) := by
  unfold State.dropWait
  (repeat' split) <;> simp (maxDischargeDepth := 40) [h]

@[simp] theorem apart_dropQueued {a₀ b₀ : Cav} {s₀ s : State} (h : Apart a₀ b₀ s₀ s) (e : RelayEntry) :
    Apart a₀ b₀ s₀ (s.dropQueued e) := by
  unfold State.dropQueued
  (repeat' split) <;> simp (maxDischargeDepth := 40) [h]

@[simp] theorem apart_placeWithheld {a₀ b₀ : Cav} {s₀ s : State} (h : Apart a₀ b₀ s₀ s) (e : RelayEntry) :
    Apart a₀ b₀ s₀ (s.placeWithheld e) := by
  unfold State.placeWithheld
  simp (maxDischargeDepth := 40) [h]

@[simp] theorem apart_withdrawEntries {a₀ b₀ : Cav} {s₀ s : State} (h : Apart a₀ b₀ s₀ s) (p : RelayEntry → Bool) :
    Apart a₀ b₀ s₀ (s.withdrawEntries p) := by
  have hw := apart_foldl State.placeWithheld (fun _ _ g => apart_placeWithheld g _) (s.relay.filter (fun e => e.unsent && p e))
    (apart_foldl State.dropQueued (fun _ _ g => apart_dropQueued g _) (s.relay.filter (fun e => e.unsent && p e))
      (apart_foldl State.dropWait (fun _ _ g => apart_dropWait g _) (s.relay.filter (fun e => e.unsent && p e)) h))
  unfold State.withdrawEntries considerAfter
  exact apart_ite _ (apart_considerHead hw) hw

@[simp] theorem apart_withdrawCavity {a₀ b₀ : Cav} {s₀ s : State} (h : Apart a₀ b₀ s₀ s) (c : Cav) :
    Apart a₀ b₀ s₀ (s.withdrawCavity c) := by
  unfold State.withdrawCavity
  simp (maxDischargeDepth := 40) [h]

@[simp] theorem apart_withdrawConverter {a₀ b₀ : Cav} {s₀ s : State} (h : Apart a₀ b₀ s₀ s) :
    Apart a₀ b₀ s₀ (s.withdrawConverter) := by
  unfold State.withdrawConverter
  simp (maxDischargeDepth := 40) [h]

@[simp] theorem apart_withdrawHeating {a₀ b₀ : Cav} {s₀ s : State} (h : Apart a₀ b₀ s₀ s) :
    Apart a₀ b₀ s₀ (s.withdrawHeating) := by
  unfold State.withdrawHeating
  simp (maxDischargeDepth := 40) [h]

@[simp] theorem apart_withdrawOns {a₀ b₀ : Cav} {s₀ s : State} (h : Apart a₀ b₀ s₀ s) : Apart a₀ b₀ s₀ (s.withdrawOns) := by
  unfold State.withdrawOns
  simp (maxDischargeDepth := 40) [h]

@[simp] theorem apart_expireRelay {a₀ b₀ : Cav} {s₀ s : State} (h : Apart a₀ b₀ s₀ s) (e : RelayEntry) :
    Apart a₀ b₀ s₀ (s.expireRelay e) := by
  have hw := apart_place (apart_dropRelay (apart_dropQueued (apart_dropWait h e) e) e.frame.tag)
    (relayFail e.frame.tag e.frame.dest failExpired)
  unfold State.expireRelay considerAfter
  exact apart_ite _ (apart_considerHead hw) hw

@[simp] theorem apart_takeOver {a₀ b₀ : Cav} {s₀ s : State} (h : Apart a₀ b₀ s₀ s) : Apart a₀ b₀ s₀ (s.takeOver) := by
  unfold State.takeOver
  dsimp only
  simp (maxDischargeDepth := 40) [h]

/-! ## The Lock Units -/

@[simp] theorem apart_motorOff {a₀ b₀ : Cav} {s₀ s : State} (h : Apart a₀ b₀ s₀ s) (c : Cav) :
    Apart a₀ b₀ s₀ (s.motorOff c) := by
  unfold State.motorOff
  simp (maxDischargeDepth := 40) [h]

@[simp] theorem apart_motorRun {a₀ b₀ : Cav} {s₀ s : State} (h : Apart a₀ b₀ s₀ s) (c : Cav) (d : Travel) :
    Apart a₀ b₀ s₀ (s.motorRun c d) := by
  unfold State.motorRun
  simp (maxDischargeDepth := 40) [h]

@[simp] theorem apart_lockReport {a₀ b₀ : Cav} {s₀ s : State} (h : Apart a₀ b₀ s₀ s) (c : Cav) (r : LockReport) :
    Apart a₀ b₀ s₀ (s.lockReport c r) := by
  unfold State.lockReport
  simp (maxDischargeDepth := 40) [h]

@[simp] theorem apart_travelTimers {a₀ c : Cav} {s₀ s : State} (h : Apart a₀ c s₀ s) (d : Travel) :
    Apart a₀ c s₀ (s.travelTimers c d) := by
  unfold State.travelTimers
  dsimp only
  (repeat' split) <;> simp (maxDischargeDepth := 40) [h]

@[simp] theorem apart_startTravel {a₀ c : Cav} {s₀ s : State} (h : Apart a₀ c s₀ s) (d : Travel) :
    Apart a₀ c s₀ (s.startTravel c d) := by
  unfold State.startTravel
  simp (maxDischargeDepth := 40) [h]

@[simp] theorem apart_endTravel {a₀ c : Cav} {s₀ s : State} (h : Apart a₀ c s₀ s) (st : LockState) :
    Apart a₀ c s₀ (s.endTravel c st) := by
  unfold State.endTravel
  simp (maxDischargeDepth := 40) [h]

@[simp] theorem apart_setPurpose {a₀ c : Cav} {s₀ s : State} (h : Apart a₀ c s₀ s) (p : Purpose) :
    Apart a₀ c s₀ (s.setPurpose c p) := by
  unfold State.setPurpose
  simp (maxDischargeDepth := 40) [h]

@[simp] theorem apart_setAttempt {a₀ c : Cav} {s₀ s : State} (h : Apart a₀ c s₀ s) (n : Nat) :
    Apart a₀ c s₀ (s.setAttempt c n) := by
  unfold State.setAttempt
  simp (maxDischargeDepth := 40) [h]

@[simp] theorem apart_backOffLock {a₀ c : Cav} {s₀ s : State} (h : Apart a₀ c s₀ s) (p : Purpose) :
    Apart a₀ c s₀ (s.backOffLock c p) := by
  unfold State.backOffLock
  simp (maxDischargeDepth := 40) [h]

@[simp] theorem apart_jamLock {a₀ c : Cav} {s₀ s : State} (h : Apart a₀ c s₀ s) (j : Jam) : Apart a₀ c s₀ (s.jamLock c j) := by
  unfold State.jamLock
  dsimp only
  (repeat' split) <;> simp (maxDischargeDepth := 40) [h]

@[simp] theorem apart_engageLock {a₀ c : Cav} {s₀ s : State} (h : Apart a₀ c s₀ s) : Apart a₀ c s₀ (s.engageLock c) := by
  unfold State.engageLock
  (repeat' split) <;> simp (maxDischargeDepth := 40) [h]

@[simp] theorem apart_engaged {a₀ c : Cav} {s₀ s : State} (h : Apart a₀ c s₀ s) : Apart a₀ c s₀ (s.engaged c) := by
  unfold State.engaged
  simp (maxDischargeDepth := 40) [h]

@[simp] theorem apart_engageFails {a₀ c : Cav} {s₀ s : State} (h : Apart a₀ c s₀ s) : Apart a₀ c s₀ (s.engageFails c) := by
  unfold State.engageFails
  (repeat' split) <;> simp (maxDischargeDepth := 40) [h]

@[simp] theorem apart_abortEngage {a₀ c : Cav} {s₀ s : State} (h : Apart a₀ c s₀ s) : Apart a₀ c s₀ (s.abortEngage c) := by
  unfold State.abortEngage
  (repeat' split) <;> simp (maxDischargeDepth := 40) [h]

@[simp] theorem apart_noteLeave {a₀ c : Cav} {s₀ s : State} (h : Apart a₀ c s₀ s) (d : Travel) (latch : Latch) :
    Apart a₀ c s₀ (s.noteLeave c d latch) := by
  unfold State.noteLeave
  (repeat' split) <;> simp (maxDischargeDepth := 40) [h]

@[simp] theorem apart_released {a₀ c : Cav} {s₀ s : State} (h : Apart a₀ c s₀ s) : Apart a₀ c s₀ (s.released c) := by
  unfold State.released
  dsimp only
  (repeat' split) <;> simp (maxDischargeDepth := 40) [h]

@[simp] theorem apart_releaseLock {a₀ c : Cav} {s₀ s : State} (h : Apart a₀ c s₀ s) : Apart a₀ c s₀ (s.releaseLock c) := by
  unfold State.releaseLock
  dsimp only
  (repeat' split) <;> simp (maxDischargeDepth := 40) [h]

@[simp] theorem apart_releaseFails {a₀ c : Cav} {s₀ s : State} (h : Apart a₀ c s₀ s) : Apart a₀ c s₀ (s.releaseFails c) := by
  unfold State.releaseFails
  simp (maxDischargeDepth := 40) [h]

@[simp] theorem apart_holdLock {a₀ c : Cav} {s₀ s : State} (h : Apart a₀ c s₀ s) : Apart a₀ c s₀ (s.holdLock c) := by
  unfold State.holdLock
  dsimp only
  (repeat' split) <;> simp (maxDischargeDepth := 40) [h]

@[simp] theorem apart_reportEngaging {a₀ c : Cav} {s₀ s : State} (h : Apart a₀ c s₀ s) (door : Door) (latch : Latch) (latchConfirmed : Option Latch) :
    Apart a₀ c s₀ (s.reportEngaging c door latch latchConfirmed) := by
  unfold State.reportEngaging
  dsimp only
  (repeat' split) <;> simp (maxDischargeDepth := 40) [h]

@[simp] theorem apart_cancelAttempt {a₀ c : Cav} {s₀ s : State} (h : Apart a₀ c s₀ s) (door : Door) :
    Apart a₀ c s₀ (s.cancelAttempt c door) := by
  unfold State.cancelAttempt
  (repeat' split) <;> simp (maxDischargeDepth := 40) [h]

@[simp] theorem apart_reportDisengaging {a₀ c : Cav} {s₀ s : State} (h : Apart a₀ c s₀ s) (door : Door) (latch : Latch) (latchConfirmed : Option Latch) :
    Apart a₀ c s₀ (s.reportDisengaging c door latch latchConfirmed) := by
  unfold State.reportDisengaging
  dsimp only
  (repeat' split) <;> simp (maxDischargeDepth := 40) [h]

@[simp] theorem apart_reportLocked {a₀ c : Cav} {s₀ s : State} (h : Apart a₀ c s₀ s) (door : Door) (latchConfirmed : Option Latch) :
    Apart a₀ c s₀ (s.reportLocked c door latchConfirmed) := by
  unfold State.reportLocked
  (repeat' split) <;> simp (maxDischargeDepth := 40) [h]

@[simp] theorem apart_lockDoorReport {a₀ c : Cav} {s₀ s : State} (h : Apart a₀ c s₀ s) (door : Door) (latch : Latch) (latchConfirmed : Option Latch) :
    Apart a₀ c s₀ (s.lockDoorReport c door latch latchConfirmed) := by
  unfold State.lockDoorReport
  dsimp only
  (repeat' split) <;> simp (maxDischargeDepth := 40) [h]

@[simp] theorem apart_travelTimeout {a₀ c : Cav} {s₀ s : State} (h : Apart a₀ c s₀ s) : Apart a₀ c s₀ (s.travelTimeout c) := by
  unfold State.travelTimeout
  (repeat' split) <;> simp (maxDischargeDepth := 40) [h]

@[simp] theorem apart_travelTimed {a₀ c : Cav} {s₀ s : State} (h : Apart a₀ c s₀ s) : Apart a₀ c s₀ (s.travelTimed c) := by
  unfold State.travelTimed
  (repeat' split) <;> simp (maxDischargeDepth := 40) [h]

@[simp] theorem apart_motorFault {a₀ c : Cav} {s₀ s : State} (h : Apart a₀ c s₀ s) : Apart a₀ c s₀ (s.motorFault c) := by
  unfold State.motorFault
  simp (maxDischargeDepth := 40) [h]

/-! ## The Cycle Engine -/

@[simp] theorem apart_driveFan {a₀ b₀ : Cav} {s₀ s : State} (h : Apart a₀ b₀ s₀ s) (c : Cav) (level : Nat) :
    Apart a₀ b₀ s₀ (s.driveFan c level) := by
  unfold State.driveFan
  simp (maxDischargeDepth := 40) [h]

@[simp] theorem apart_heatersOff {a₀ b₀ : Cav} {s₀ s : State} (h : Apart a₀ b₀ s₀ s) (c : Cav) :
    Apart a₀ b₀ s₀ (s.heatersOff c) := apart_foldl _ (fun _ _ g => apart_onLoad g _ _ fun _ => apart_engineOff g _) _ h

@[simp] theorem apart_fillFault {c : Cav} {s₀ s : State} (h : Apart c c s₀ s) (r : Reason) :
    Apart c c s₀ (s.fillFault c r) := by
  unfold State.fillFault
  (repeat' split) <;> simp (maxDischargeDepth := 40) [h]

@[simp] theorem apart_setReason {c : Cav} {s₀ s : State} (h : Apart c c s₀ s) (r : Reason) :
    Apart c c s₀ (s.setReason c r) := by
  unfold State.setReason
  simp (maxDischargeDepth := 40) [h]

@[simp] theorem apart_stopHold {c : Cav} {s₀ s : State} (h : Apart c c s₀ s) : Apart c c s₀ (s.stopHold c) := by
  unfold State.stopHold
  simp (maxDischargeDepth := 40) [h]

@[simp] theorem apart_leaveSegment {c : Cav} {s₀ s : State} (h : Apart c c s₀ s) : Apart c c s₀ (s.leaveSegment c) := by
  unfold State.leaveSegment
  simp (maxDischargeDepth := 40) [h]

@[simp] theorem apart_emptyStack {c : Cav} {s₀ s : State} (h : Apart c c s₀ s) : Apart c c s₀ (s.emptyStack c) := by
  unfold State.emptyStack
  simp (maxDischargeDepth := 40) [h]

@[simp] theorem apart_endWindow {c : Cav} {s₀ s : State} (h : Apart c c s₀ s) : Apart c c s₀ (s.endWindow c) := by
  unfold State.endWindow
  simp (maxDischargeDepth := 40) [h]

@[simp] theorem apart_switchHeater {c : Cav} {s₀ s : State} (h : Apart c c s₀ s) (duties : PerPos Nat) (p : HeatPos) :
    Apart c c s₀ (State.switchHeater c duties s p) := apart_onLoad h _ _ fun _ => apart_engineDrive h _ _

@[simp] theorem apart_startWindow {c : Cav} {s₀ s : State} (h : Apart c c s₀ s) (target : Int) :
    Apart c c s₀ (s.startWindow c target) := apart_foldl _ (fun _ _ g => apart_switchHeater g _ _) _ (apart_modWindow h _)

@[simp] theorem apart_bindBank {a₀ b₀ : Cav} {s₀ s : State} (h : Apart a₀ b₀ s₀ s) (b : BankId) :
    Apart a₀ b₀ s₀ (s.bindBank b) := by
  unfold State.bindBank
  simp (maxDischargeDepth := 40) [h]

@[simp] theorem apart_unbind {c : Cav} {s₀ s : State} (h : Apart c c s₀ s) : Apart c c s₀ (s.unbind c) := by
  unfold State.unbind
  split
  · exact apart_modCav (apart_modBank h _ _) _
  · exact h

@[simp] theorem apart_clearCavWatches {a₀ b₀ : Cav} {s₀ s : State} (h : Apart a₀ b₀ s₀ s) (c : Cav) :
    Apart a₀ b₀ s₀ (s.clearCavWatches c) := by
  unfold State.clearCavWatches
  simp (maxDischargeDepth := 40) [h]

@[simp] theorem apart_openCavity {c : Cav} {s₀ s : State} (h : Apart c c s₀ s) : Apart c c s₀ (s.openCavity c) := by
  unfold State.openCavity
  dsimp only
  simp (maxDischargeDepth := 40) [h]

@[simp] theorem apart_backToOpen {c : Cav} {s₀ s : State} (h : Apart c c s₀ s) (r : Reason) :
    Apart c c s₀ (s.backToOpen c r) := by
  unfold State.backToOpen
  simp (maxDischargeDepth := 40) [h]

@[simp] theorem apart_enterCooldown {c : Cav} {s₀ s : State} (h : Apart c c s₀ s) : Apart c c s₀ (s.enterCooldown c) := by
  unfold State.enterCooldown
  simp (maxDischargeDepth := 40) [h]

@[simp] theorem apart_endRun {c : Cav} {s₀ s : State} (h : Apart c c s₀ s) : Apart c c s₀ (s.endRun c) := by
  unfold State.endRun
  dsimp only
  simp (maxDischargeDepth := 40) [h]

@[simp] theorem apart_endCycle {c : Cav} {s₀ s : State} (h : Apart c c s₀ s) (r : Reason) : Apart c c s₀ (s.endCycle c r) := by
  unfold State.endCycle
  dsimp only
  (repeat' split) <;> simp (maxDischargeDepth := 40) [h]

@[simp] theorem apart_enterRelease {c : Cav} {s₀ s : State} (h : Apart c c s₀ s) : Apart c c s₀ (s.enterRelease c) := by
  unfold State.enterRelease
  simp (maxDischargeDepth := 40) [h]

@[simp] theorem apart_haltHeaters {c : Cav} {s₀ s : State} (h : Apart c c s₀ s) : Apart c c s₀ (s.haltHeaters c) := by
  unfold State.haltHeaters
  (repeat' split) <;> simp (maxDischargeDepth := 40) [h]

@[simp] theorem apart_haltItems {c : Cav} {s₀ s : State} (h : Apart c c s₀ s) : Apart c c s₀ (s.haltItems c) := by
  unfold State.haltItems
  dsimp only
  simp (maxDischargeDepth := 40) [h]

@[simp] theorem apart_halt {c : Cav} {s₀ s : State} (h : Apart c c s₀ s) (r : Reason) : Apart c c s₀ (s.halt c r) := by
  unfold State.halt
  dsimp only
  simp (maxDischargeDepth := 40) [h]

@[simp] theorem apart_haltActive {c : Cav} {s₀ s : State} (h : Apart c c s₀ s) (r : Reason) :
    Apart c c s₀ (s.haltActive c r) := by
  unfold State.haltActive
  (repeat' split) <;> simp (maxDischargeDepth := 40) [h]

@[simp] theorem apart_setCeiling {a₀ b₀ : Cav} {s₀ s : State} (h : Apart a₀ b₀ s₀ s) (c : Cav) (level : Int) :
    Apart a₀ b₀ s₀ (s.setCeiling c level) := by
  unfold State.setCeiling
  simp (maxDischargeDepth := 40) [h]

@[simp] theorem apart_applyOutputs {c : Cav} {s₀ s : State} (h : Apart c c s₀ s) (g : Segment) :
    Apart c c s₀ (s.applyOutputs c g) := by
  unfold State.applyOutputs
  simp (maxDischargeDepth := 40) [h]

@[simp] theorem apart_startShort {c : Cav} {s₀ s : State} (h : Apart c c s₀ s) (g : Segment) :
    Apart c c s₀ (s.startShort c g) := by
  unfold State.startShort
  (repeat' split) <;> simp (maxDischargeDepth := 40) [h]

@[simp] theorem apart_takeEntryTemp {c : Cav} {s₀ s : State} (h : Apart c c s₀ s) : Apart c c s₀ (s.takeEntryTemp c) := by
  unfold State.takeEntryTemp
  simp (maxDischargeDepth := 40) [h]

@[simp] theorem apart_startRamp {c : Cav} {s₀ s : State} (h : Apart c c s₀ s) (g : Segment) (long : Time) :
    Apart c c s₀ (s.startRamp c g long) := by
  unfold State.startRamp
  dsimp only
  (repeat' split) <;> simp (maxDischargeDepth := 40) [h]

@[simp] theorem apart_placeHold {c : Cav} {s₀ s : State} (h : Apart c c s₀ s) (g : Segment) (left : Time) :
    Apart c c s₀ (s.placeHold c g left) := by
  unfold State.placeHold
  (repeat' split) <;> simp (maxDischargeDepth := 40) [h]

@[simp] theorem apart_startCool {c : Cav} {s₀ s : State} (h : Apart c c s₀ s) (g : Segment) (long : Option Time) :
    Apart c c s₀ (s.startCool c g long) := by
  unfold State.startCool
  simp (maxDischargeDepth := 40) [h]

@[simp] theorem apart_startSoak {c : Cav} {s₀ s : State} (h : Apart c c s₀ s) (g : Segment) (left : Time) :
    Apart c c s₀ (s.startSoak c g left) := by
  unfold State.startSoak
  (repeat' split) <;> simp (maxDischargeDepth := 40) [h]

@[simp] theorem apart_enterTimed {c : Cav} {s₀ s : State} (h : Apart c c s₀ s) (g : Nat) (resume : Option Resume) :
    Apart c c s₀ (s.enterTimed c g resume) := by
  unfold State.enterTimed
  dsimp only
  (repeat' split) <;> simp (maxDischargeDepth := 40) [h]

@[simp] theorem apart_setPending {c : Cav} {s₀ s : State} (h : Apart c c s₀ s) (a : Cause) (b : Bool) :
    Apart c c s₀ (s.setPending c a b) := by
  unfold State.setPending
  simp (maxDischargeDepth := 40) [h]

@[simp] theorem apart_pushCause {c : Cav} {s₀ s : State} (h : Apart c c s₀ s) (a : Cause) (r : Nat × Resume) :
    Apart c c s₀ (s.pushCause c a r) := by
  unfold State.pushCause
  simp (maxDischargeDepth := 40) [h]

@[simp] theorem apart_takeCause {c : Cav} {s₀ s : State} (h : Apart c c s₀ s) (a : Cause) (r : Nat × Resume) :
    Apart c c s₀ (s.takeCause c a r).1 := by
  unfold State.takeCause
  dsimp only
  (repeat' split) <;> simp (maxDischargeDepth := 40) [h]

theorem apart_of_takeCause {c : Cav} {s₀ s t : State} (h : Apart c c s₀ s) {a : Cause} {r : Nat × Resume} {v : Option Nat}
    (e : s.takeCause c a r = (t, v)) : Apart c c s₀ t := by
  have := apart_takeCause h a r
  rwa [e] at this

@[simp] theorem apart_afterPop {c : Cav} {s₀ s : State} (h : Apart c c s₀ s) (e : StackEntry) : Apart c c s₀ (s.afterPop c e).1 := by
  unfold State.afterPop
  (repeat' split)
  · rename_i e; exact apart_of_takeCause h e
  · rename_i e; exact apart_of_takeCause h e
  · exact h

@[simp] theorem apart_doReturn {c : Cav} {s₀ s : State} (h : Apart c c s₀ s) : Apart c c s₀ (s.doReturn c).1 := by
  unfold State.doReturn
  split <;> simp (maxDischargeDepth := 40) [h]

@[simp] theorem apart_passZero {c : Cav} {s₀ s : State} (h : Apart c c s₀ s) (g : Nat) : Apart c c s₀ (s.passZero c g) := by
  unfold State.passZero
  simp (maxDischargeDepth := 40) [h]

@[simp] theorem apart_actZero {c : Cav} {s₀ s : State} (h : Apart c c s₀ s) (g : Segment) : Apart c c s₀ (s.actZero c g).1 := by
  unfold State.actZero
  split <;> simp (maxDischargeDepth := 40) [h]

@[simp] theorem apart_walk (n : Nat) : ∀ {c : Cav} {s₀ s : State}, Apart c c s₀ s → ∀ g : Nat, Apart c c s₀ (walk n s c g) := by
  induction n with
  | zero =>
    intro c s₀ s h g
    rw [walk_zero]
    split <;> simp (maxDischargeDepth := 40) [h]
  | succ n ih =>
    intro c s₀ s h g
    have hz := apart_actZero (apart_passZero h g) (s.segmentAt c g)
    rw [walk_succ]
    (repeat' split)
    · simp [h]
    · rename_i e; rw [e] at hz; exact ih hz _
    · rename_i e; rw [e] at hz; exact apart_enterTimed hz _ _
    · rename_i e; rw [e] at hz; exact hz

@[simp] theorem apart_enterSegment {c : Cav} {s₀ s : State} (h : Apart c c s₀ s) (g : Nat) :
    Apart c c s₀ (s.enterSegment c g) := apart_walk _ h _

@[simp] theorem apart_completeSegment {c : Cav} {s₀ s : State} (h : Apart c c s₀ s) : Apart c c s₀ (s.completeSegment c) := by
  unfold State.completeSegment
  simp (maxDischargeDepth := 40) [h]

@[simp] theorem apart_raise {c : Cav} {s₀ s : State} (h : Apart c c s₀ s) (a : Cause) : Apart c c s₀ (s.raise c a) := by
  unfold State.raise
  split
  · dsimp only
    (repeat' split)
    · rename_i e; exact apart_enterSegment (apart_of_takeCause (apart_setPending h _ _) e) _
    · rename_i e; exact apart_of_takeCause (apart_setPending h _ _) e
    · simp [h]
    · simp [h]
  all_goals exact h

@[simp] theorem apart_startSurvey {c : Cav} {s₀ s : State} (h : Apart c c s₀ s) : Apart c c s₀ (s.startSurvey c) := by
  unfold State.startSurvey
  simp (maxDischargeDepth := 40) [h]

@[simp] theorem apart_surveyTest {c : Cav} {s₀ s : State} (h : Apart c c s₀ s) : Apart c c s₀ (s.surveyTest c) := by
  unfold State.surveyTest
  (repeat' split) <;> simp (maxDischargeDepth := 40) [h]

@[simp] theorem apart_surveyAfterWrite {c : Cav} {s₀ s : State} (h : Apart c c s₀ s) (touched : Bool) :
    Apart c c s₀ (s.surveyAfterWrite c touched) := by
  unfold State.surveyAfterWrite
  (repeat' split) <;> simp (maxDischargeDepth := 40) [h]

@[simp] theorem apart_surveyCooldown {c : Cav} {s₀ s : State} (h : Apart c c s₀ s) : Apart c c s₀ (s.surveyCooldown c) := by
  unfold State.surveyCooldown
  dsimp only
  (repeat' split) <;> simp (maxDischargeDepth := 40) [h]

@[simp] theorem apart_decideSurvey {c : Cav} {s₀ s : State} (h : Apart c c s₀ s) (door : Door) (latch : Latch) :
    Apart c c s₀ (s.decideSurvey c door latch) := by
  unfold State.decideSurvey
  dsimp only
  (repeat' split) <;> simp (maxDischargeDepth := 40) [h]

@[simp] theorem apart_surveyCheck {c : Cav} {s₀ s : State} (h : Apart c c s₀ s) : Apart c c s₀ (s.surveyCheck c) := by
  unfold State.surveyCheck
  (repeat' split) <;> simp (maxDischargeDepth := 40) [h]

@[simp] theorem apart_enterLocking {c : Cav} {s₀ s : State} (h : Apart c c s₀ s) : Apart c c s₀ (s.enterLocking c) := by
  unfold State.enterLocking
  simp (maxDischargeDepth := 40) [h]

@[simp] theorem apart_prepareTest {c : Cav} {s₀ s : State} (h : Apart c c s₀ s) : Apart c c s₀ (s.prepareTest c) := by
  unfold State.prepareTest
  (repeat' split) <;> simp (maxDischargeDepth := 40) [h]

@[simp] theorem apart_enterPrepare {c : Cav} {s₀ s : State} (h : Apart c c s₀ s) : Apart c c s₀ (s.enterPrepare c) := by
  unfold State.enterPrepare
  simp (maxDischargeDepth := 40) [h]

@[simp] theorem apart_acceptStart {c : Cav} {s₀ s : State} (h : Apart c c s₀ s) (b : BankId) (entry : Nat) :
    Apart c c s₀ (s.acceptStart c b entry) := by
  unfold State.acceptStart
  dsimp only
  simp (maxDischargeDepth := 40) [h]

@[simp] theorem apart_enterRun {c : Cav} {s₀ s : State} (h : Apart c c s₀ s) : Apart c c s₀ (s.enterRun c) := by
  unfold State.enterRun
  dsimp only
  simp (maxDischargeDepth := 40) [h]

@[simp] theorem apart_startBackOff {c : Cav} {s₀ s : State} (h : Apart c c s₀ s) (b : BackOff) :
    Apart c c s₀ (s.startBackOff c b) := by
  unfold State.startBackOff
  (repeat' split) <;> simp (maxDischargeDepth := 40) [h]

@[simp] theorem apart_lockInLocking {c : Cav} {s₀ s : State} (h : Apart c c s₀ s) (r : LockReport) :
    Apart c c s₀ (s.lockInLocking c r) := by
  unfold State.lockInLocking
  (repeat' split) <;> simp (maxDischargeDepth := 40) [h]

@[simp] theorem apart_lockInRun {c : Cav} {s₀ s : State} (h : Apart c c s₀ s) (r : LockReport) :
    Apart c c s₀ (s.lockInRun c r) := by
  unfold State.lockInRun
  (repeat' split) <;> simp (maxDischargeDepth := 40) [h]

@[simp] theorem apart_lockInRelease {c : Cav} {s₀ s : State} (h : Apart c c s₀ s) (r : LockReport) :
    Apart c c s₀ (s.lockInRelease c r) := by
  unfold State.lockInRelease
  (repeat' split) <;> simp (maxDischargeDepth := 40) [h]

@[simp] theorem apart_onLockReport {c : Cav} {s₀ s : State} (h : Apart c c s₀ s) (r : LockReport) :
    Apart c c s₀ (s.onLockReport c r) := by
  unfold State.onLockReport
  (repeat' split) <;> simp (maxDischargeDepth := 40) [h]

@[simp] theorem apart_moveHold {c : Cav} {s₀ s : State} (h : Apart c c s₀ s) : Apart c c s₀ (s.moveHold c) := by
  unfold State.moveHold
  (repeat' split) <;> simp (maxDischargeDepth := 40) [h]

@[simp] theorem apart_onProbeReading {c : Cav} {s₀ s : State} (h : Apart c c s₀ s) : Apart c c s₀ (s.onProbeReading c) := by
  unfold State.onProbeReading
  (repeat' split) <;> simp (maxDischargeDepth := 40) [h]

@[simp] theorem apart_onDoorReport {c : Cav} {s₀ s : State} (h : Apart c c s₀ s) (door : Door) (latch : Latch) :
    Apart c c s₀ (s.onDoorReport c door latch) := by
  unfold State.onDoorReport
  (repeat' split) <;> simp (maxDischargeDepth := 40) [h]

@[simp] theorem apart_onProbeLost {c : Cav} {s₀ s : State} (h : Apart c c s₀ s) : Apart c c s₀ (s.onProbeLost c) := by
  unfold State.onProbeLost
  (repeat' split) <;> simp (maxDischargeDepth := 40) [h]

@[simp] theorem apart_onDoorLost {c : Cav} {s₀ s : State} (h : Apart c c s₀ s) : Apart c c s₀ (s.onDoorLost c) := by
  unfold State.onDoorLost
  (repeat' split) <;> simp (maxDischargeDepth := 40) [h]

@[simp] theorem apart_onGoal {c : Cav} {s₀ s : State} (h : Apart c c s₀ s) : Apart c c s₀ (s.onGoal c) := by
  unfold State.onGoal
  (repeat' split) <;> simp (maxDischargeDepth := 40) [h]

@[simp] theorem apart_onRise {c : Cav} {s₀ s : State} (h : Apart c c s₀ s) : Apart c c s₀ (s.onRise c) := by
  unfold State.onRise
  simp (maxDischargeDepth := 40) [h]

@[simp] theorem apart_onRelease {c : Cav} {s₀ s : State} (h : Apart c c s₀ s) (met : Bool) :
    Apart c c s₀ (s.onRelease c met) := by
  unfold State.onRelease
  (repeat' split) <;> simp (maxDischargeDepth := 40) [h]

@[simp] theorem apart_onLit {c : Cav} {s₀ s : State} (h : Apart c c s₀ s) : Apart c c s₀ (s.onLit c) := by
  unfold State.onLit
  (repeat' split) <;> simp (maxDischargeDepth := 40) [h]

@[simp] theorem apart_onHoldDone {c : Cav} {s₀ s : State} (h : Apart c c s₀ s) : Apart c c s₀ (s.onHoldDone c) := by
  unfold State.onHoldDone
  (repeat' split) <;> simp (maxDischargeDepth := 40) [h]

@[simp] theorem apart_onLoadFault {c : Cav} {s₀ s : State} (h : Apart c c s₀ s) : Apart c c s₀ (s.onLoadFault c) := by
  unfold State.onLoadFault
  (repeat' split) <;> simp (maxDischargeDepth := 40) [h]

@[simp] theorem apart_onOffFailed {c : Cav} {s₀ s : State} (h : Apart c c s₀ s) : Apart c c s₀ (s.onOffFailed c) := by
  unfold State.onOffFailed
  (repeat' split) <;> simp (maxDischargeDepth := 40) [h]

end Sys2Proof.Machine
end

