-- ==== Sys2Proof/Laws/Parked.lean ====
section
/-! SUPPORT. A cavity that is OPEN or HALTED is left by no report inside the part: `Parked c s t` says that such a cavity keeps
its whole context but for three items that an end of a wait touches. -/

namespace Sys2Proof.Machine

/-- A context without the three items that the reports of LIT and RISE change whatever its state. -/
def CavCtx.core (k : CavCtx) : CavCtx := { k with litWait := false, entryTemp := none, short := none }

/-- The cavity is OPEN or HALTED. -/
def State.parked (s : State) (c : Cav) : Prop := (s.cav c).state = .opened ∨ (s.cav c).state = .halted

/-- A parked cavity stays as it is. -/
def Parked (c : Cav) (s t : State) : Prop := s.parked c → (t.cav c).core = (s.cav c).core

theorem parked_of_core {c : Cav} {s t : State} (h : (t.cav c).core = (s.cav c).core) (p : s.parked c) : t.parked c := by
  have hs := congrArg CavCtx.state h
  have : (t.cav c).state = (s.cav c).state := hs
  unfold State.parked
  rwa [this]

theorem Parked.refl (c : Cav) (s : State) : Parked c s s := fun _ => rfl

theorem Parked.trans {c : Cav} {s t u : State} (h : Parked c s t) (g : Parked c t u) : Parked c s u :=
  fun p => (g (parked_of_core (h p) p)).trans (h p)

/-- What is done for no cavity, or for the other one, leaves a cavity parked. -/
theorem Parked.apart {a b c : Cav} {s t u : State} (h : Parked c s t) (hc : c ≠ a) (g : Apart a b t u) : Parked c s u :=
  h.trans fun _ => congrArg CavCtx.core (g.cav c hc)

theorem Parked.noCavity {c : Cav} {s t u : State} (h : Parked c s t) (g : ∀ a b, Apart a b t u) : Parked c s u :=
  h.apart (a := otherCav c) (by cases c <;> simp [otherCav]) (g (otherCav c) c)

/-- What is done for cavity `x` leaves `c` parked, where it does so for `x` itself. -/
theorem Parked.forCavity {b c x : Cav} {s t u : State} (h : Parked c s t) (g : Apart x b t u) (own : x = c → Parked c t u) :
    Parked c s u := by
  by_cases hx : x = c
  · exact h.trans (own hx)
  · exact h.apart (Ne.symm hx) g

theorem parked_ite {c : Cav} {s t u : State} (p : Prop) [Decidable p] (ht : Parked c s t) (hu : Parked c s u) :
    Parked c s (if p then t else u) := by split <;> assumption

/-! ## What a cavity's own context does while it is parked -/

theorem parked_raise (s : State) (c : Cav) (a : Cause) : Parked c s (s.raise c a) := by
  rintro (p | p) <;> simp [State.raise, p]

theorem parked_onGoal (s : State) (c : Cav) : Parked c s (s.onGoal c) := by
  rintro (p | p) <;> simp [State.onGoal, p]

theorem parked_onRise (s : State) (c : Cav) : Parked c s (s.onRise c) := by
  intro _; simp [State.onRise, State.clearWatch, CavCtx.core]

theorem parked_onRelease (s : State) (c : Cav) (met : Bool) : Parked c s (s.onRelease c met) := by
  rintro (p | p) <;> simp [State.onRelease, p]

theorem parked_onHoldDone (s : State) (c : Cav) : Parked c s (s.onHoldDone c) := by
  rintro (p | p) <;> simp [State.onHoldDone, p]

theorem parked_onLoadFault (s : State) (c : Cav) : Parked c s (s.onLoadFault c) := by
  rintro (p | p) <;> simp [State.onLoadFault, p]

theorem parked_onOffFailed (s : State) (c : Cav) : Parked c s (s.onOffFailed c) := by
  rintro (p | p) <;> simp [State.onOffFailed, p]

theorem parked_prepareTest (s : State) (c : Cav) : Parked c s (s.prepareTest c) := by
  rintro (p | p) <;> simp [State.prepareTest, p]

theorem parked_onLockReport (s : State) (c : Cav) (r : LockReport) : Parked c s (s.onLockReport c r) := by
  rintro (p | p) <;> simp [State.onLockReport, p]

theorem parked_onProbeReading (s : State) (c : Cav) : Parked c s (s.onProbeReading c) := by
  rintro (p | p) <;> simp [State.onProbeReading, p]

theorem parked_onDoorReport (s : State) (c : Cav) (d : Door) (l : Latch) : Parked c s (s.onDoorReport c d l) := by
  rintro (p | p) <;> simp [State.onDoorReport, p]

theorem parked_onProbeLost (s : State) (c : Cav) : Parked c s (s.onProbeLost c) := by
  rintro (p | p) <;> simp [State.onProbeLost, p]

theorem parked_onDoorLost (s : State) (c : Cav) : Parked c s (s.onDoorLost c) := by
  rintro (p | p) <;> simp [State.onDoorLost, p]

theorem parked_haltActive (s : State) (c : Cav) (r : Reason) : Parked c s (s.haltActive c r) := by
  rintro (p | p) <;> simp [State.haltActive, p]

theorem core_startShort (s : State) (c : Cav) (g : Segment) : ((s.startShort c g).cav c).core = (s.cav c).core := by
  unfold State.startShort
  split
  · split
    · rename_i x _ _
      have h : (s.setWatch (.rise c) .atOrAbove (x + s.riseMin c)).cav c = s.cav c :=
        cav_of_apart (fun a b => apart_setWatch (Apart.refl a b s) _ _ _) c
      simp [CavCtx.core, h]
    · rfl
  · rfl

theorem parked_onLit (s : State) (c : Cav) : Parked c s (s.onLit c) := by
  intro _
  unfold State.onLit
  split
  · rw [core_startShort]; simp [State.takeEntryTemp, CavCtx.core]
  · rfl

/-! ## Reports -/

theorem parked_raiseAt (s : State) (x c : Cav) (a : Cause) : Parked c s (s.raise x a) :=
  (Parked.refl c s).forCavity (apart_raise (Apart.refl x x s) a) (fun e => e ▸ parked_raise s x a)

theorem parked_raiseBoth (s : State) (c : Cav) (a : Cause) : Parked c s (s.raiseBoth a) :=
  (parked_raiseAt s .zero c a).trans (parked_raiseAt _ .one c a)

theorem parked_haltActiveAt (s : State) (x c : Cav) (r : Reason) : Parked c s (s.haltActive x r) :=
  (Parked.refl c s).forCavity (apart_haltActive (Apart.refl x x s) r) (fun e => e ▸ parked_haltActive s x r)

theorem parked_onCavityLoad (s : State) (c : Cav) (i : Fin 16) (f : State → Cav → State)
    (ha : ∀ x, Apart x x s (f s x)) (hf : Parked c s (f s c)) : Parked c s (s.onCavityLoad i f) := by
  unfold State.onCavityLoad
  split
  · rename_i x _ _
    exact (Parked.refl c s).forCavity (ha x) (fun e => e ▸ hf)
  · exact Parked.refl c s
  · exact Parked.refl c s

theorem parked_onChanState (s : State) (c : Cav) (u : Use) (l e : ChanState) : Parked c s (s.onChanState u l e) := by
  have r := Parked.refl c s
  unfold State.onChanState
  split
  · exact parked_ite _ (r.forCavity (apart_onProbeLost (Apart.refl _ _ s)) (fun e => e ▸ parked_onProbeLost s _)) r
  · exact parked_ite _ (r.forCavity (apart_onDoorLost (Apart.refl _ _ s)) (fun e => e ▸ parked_onDoorLost s _)) r
  · exact parked_ite _ (r.noCavity fun a b => apart_speedLost (Apart.refl a b s)) r
  · exact r.noCavity fun a b => apart_refreshLit (Apart.refl a b s)
  · exact r.noCavity fun a b => apart_bayReport (Apart.refl a b s) _ _
  · exact r
  · exact r

theorem parked_onWatch (s : State) (c : Cav) (w : WatchId) (met : Bool) : Parked c s (s.onWatch w met) := by
  have r := Parked.refl c s
  unfold State.onWatch
  split
  · exact parked_ite _ (parked_raiseAt s _ c _) r
  · exact parked_ite _ (r.forCavity (apart_onGoal (Apart.refl _ _ s)) (fun e => e ▸ parked_onGoal s _)) r
  · exact parked_ite _ (r.forCavity (apart_onRise (Apart.refl _ _ s)) (fun e => e ▸ parked_onRise s _)) r
  · exact r.forCavity (apart_onRelease (Apart.refl _ _ s) _) (fun e => e ▸ parked_onRelease s _ _)
  · exact parked_ite _ (parked_raiseBoth s c _) r
  · exact parked_ite _ (parked_raiseBoth s c _) r
  · exact r.noCavity fun a b => apart_refreshLit (Apart.refl a b s)
  · exact parked_ite _ (r.noCavity fun a b => apart_postBay (Apart.refl a b s) _) r
  · exact parked_ite _ (r.noCavity fun a b => apart_postBay (Apart.refl a b s) _) r
  · exact parked_ite _ (r.noCavity fun a b => apart_speedMet (Apart.refl a b s))
      (r.noCavity fun a b => apart_speedLost (Apart.refl a b s))

theorem parked_onConverterFault (s : State) (c : Cav) (zero one : Bool) : Parked c s (s.onConverterFault zero one) := by
  have h1 : Parked c s (if zero then s.raise .zero .loadFault else s) :=
    parked_ite _ (parked_raiseAt s .zero c _) (Parked.refl c s)
  unfold State.onConverterFault
  exact parked_ite _ (h1.trans (parked_raiseAt _ .one c _)) h1

/-- A Lock Unit's act leaves both contexts alone. -/
theorem Parked.lockAct {b c : Cav} {s t u : State} (h : Parked c s t) (g : ∀ a, Apart a b t u) : Parked c s u :=
  h.apart (a := otherCav c) (by cases c <;> simp [otherCav]) (g (otherCav c))

theorem parked_onFault (s : State) (c : Cav) (i : Fin 16) : Parked c s (s.onFault i) := by
  have r := Parked.refl c s
  have hl (x : Cav) : Parked c s (s.onLoadFault x) :=
    r.forCavity (apart_onLoadFault (Apart.refl x x s)) (fun e => e ▸ parked_onLoadFault s x)
  unfold State.onFault
  split
  · exact hl _
  · exact hl _
  · exact hl _
  · exact r.lockAct fun a => apart_motorFault (Apart.refl a _ s)
  all_goals exact r

theorem parked_onStalled (s : State) (c : Cav) : Parked c s s.onStalled := by
  have h (t : State) : Parked c t t.withdrawHeating := (Parked.refl c t).noCavity fun a b => apart_withdrawHeating (Apart.refl a b t)
  exact ((parked_haltActiveAt s .zero c _).trans (parked_haltActiveAt _ .one c _)).trans (h _)

/-- A report moves no cavity that is OPEN or HALTED. -/
theorem parked_handle (s : State) (c : Cav) (e : Event) : Parked c s (s.handle e) := by
  have r := Parked.refl c s
  unfold State.handle
  split
  · exact parked_onChanState s c _ _ _
  · exact parked_onWatch s c _ _
  · rename_i x d l _ lc
    refine (r.lockAct fun a => apart_lockDoorReport (Apart.refl a x s) d l lc).trans ?_
    exact (Parked.refl c _).forCavity (apart_onDoorReport (Apart.refl _ _ _) _ _) (fun e => e ▸ parked_onDoorReport _ _ _ _)
  · exact r.forCavity (apart_onProbeReading (Apart.refl _ _ s)) (fun e => e ▸ parked_onProbeReading s _)
  · exact parked_onCavityLoad s c _ _ (fun x => apart_prepareTest (Apart.refl x x s)) (parked_prepareTest s c)
  · exact parked_onCavityLoad s c _ _ (fun x => apart_onOffFailed (Apart.refl x x s)) (parked_onOffFailed s c)
  · exact parked_onFault s c _
  · exact parked_onConverterFault s c _ _
  · exact r.forCavity (apart_onLockReport (Apart.refl _ _ s) _) (fun e => e ▸ parked_onLockReport s _ _)
  · exact parked_onStalled s c
  · refine parked_ite _ ?_ r
    have hl (t : State) (x : Cav) : Parked c t (t.onLit x) :=
      (Parked.refl c t).forCavity (apart_onLit (Apart.refl x x t)) (fun e => e ▸ parked_onLit t x)
    exact (hl s .zero).trans (hl _ .one)
  · exact r.forCavity (apart_onHoldDone (Apart.refl _ _ s)) (fun e => e ▸ parked_onHoldDone s _)

theorem parked_settleUpTo (c : Cav) (n : Nat) : ∀ s : State, Parked c s (settleUpTo n s) := by
  induction n with
  | zero => exact fun s => Parked.refl c s
  | succ n ih =>
    intro s
    unfold settleUpTo
    split
    · exact Parked.refl c s
    · rename_i e rest _
      have h0 : Parked c s ({ s with events := rest }) := fun _ => rfl
      exact (h0.trans (parked_handle _ c e)).trans (ih _)

/-- Acting on reports moves no cavity that is OPEN or HALTED. -/
theorem parked_settle (s : State) (c : Cav) : Parked c s s.settle := parked_settleUpTo c _ s

/-! ## Channel records -/

@[simp] theorem chans_raise (s : State) (c : Cav) (a : Cause) : (s.raise c a).chans = s.chans :=
  (apart_raise (Apart.refl c c s) a).chans

@[simp] theorem chans_onProbeLost (s : State) (c : Cav) : (s.onProbeLost c).chans = s.chans :=
  (apart_onProbeLost (Apart.refl c c s)).chans

@[simp] theorem chans_onDoorLost (s : State) (c : Cav) : (s.onDoorLost c).chans = s.chans :=
  (apart_onDoorLost (Apart.refl c c s)).chans

@[simp] theorem chans_speedLost (s : State) : (s.speedLost).chans = s.chans :=
  (apart_speedLost (Apart.refl .zero .zero s)).chans

@[simp] theorem chans_speedMet (s : State) : (s.speedMet).chans = s.chans :=
  (apart_speedMet (Apart.refl .zero .zero s)).chans

@[simp] theorem chans_refreshLit (s : State) : (s.refreshLit).chans = s.chans :=
  (apart_refreshLit (Apart.refl .zero .zero s)).chans

@[simp] theorem chans_bayReport (s : State) (l e : ChanState) : (s.bayReport l e).chans = s.chans :=
  (apart_bayReport (Apart.refl .zero .zero s) l e).chans

@[simp] theorem chans_onGoal (s : State) (c : Cav) : (s.onGoal c).chans = s.chans :=
  (apart_onGoal (Apart.refl c c s)).chans

@[simp] theorem chans_onRise (s : State) (c : Cav) : (s.onRise c).chans = s.chans :=
  (apart_onRise (Apart.refl c c s)).chans

@[simp] theorem chans_onRelease (s : State) (c : Cav) (m : Bool) : (s.onRelease c m).chans = s.chans :=
  (apart_onRelease (Apart.refl c c s) m).chans

@[simp] theorem chans_postBay (s : State) (d : BlowLevel) : (s.postBay d).chans = s.chans :=
  (apart_postBay (Apart.refl .zero .zero s) d).chans

@[simp] theorem chans_motorFault (s : State) (c : Cav) : (s.motorFault c).chans = s.chans :=
  (apart_motorFault (Apart.refl c c s)).chans

@[simp] theorem chans_onLoadFault (s : State) (c : Cav) : (s.onLoadFault c).chans = s.chans :=
  (apart_onLoadFault (Apart.refl c c s)).chans

@[simp] theorem chans_withdrawHeating (s : State) : (s.withdrawHeating).chans = s.chans :=
  (apart_withdrawHeating (Apart.refl .zero .zero s)).chans

@[simp] theorem chans_haltActive (s : State) (c : Cav) (r : Reason) : (s.haltActive c r).chans = s.chans :=
  (apart_haltActive (Apart.refl c c s) r).chans

@[simp] theorem chans_lockDoorReport (s : State) (c : Cav) (d : Door) (l : Latch) (lc : Option Latch) : (s.lockDoorReport c d l lc).chans = s.chans :=
  (apart_lockDoorReport (Apart.refl c c s) d l lc).chans

@[simp] theorem chans_onDoorReport (s : State) (c : Cav) (d : Door) (l : Latch) : (s.onDoorReport c d l).chans = s.chans :=
  (apart_onDoorReport (Apart.refl c c s) d l).chans

@[simp] theorem chans_onProbeReading (s : State) (c : Cav) : (s.onProbeReading c).chans = s.chans :=
  (apart_onProbeReading (Apart.refl c c s)).chans

@[simp] theorem chans_prepareTest (s : State) (c : Cav) : (s.prepareTest c).chans = s.chans :=
  (apart_prepareTest (Apart.refl c c s)).chans

@[simp] theorem chans_onOffFailed (s : State) (c : Cav) : (s.onOffFailed c).chans = s.chans :=
  (apart_onOffFailed (Apart.refl c c s)).chans

@[simp] theorem chans_onLockReport (s : State) (c : Cav) (r : LockReport) : (s.onLockReport c r).chans = s.chans :=
  (apart_onLockReport (Apart.refl c c s) r).chans

@[simp] theorem chans_onLit (s : State) (c : Cav) : (s.onLit c).chans = s.chans :=
  (apart_onLit (Apart.refl c c s)).chans

@[simp] theorem chans_onHoldDone (s : State) (c : Cav) : (s.onHoldDone c).chans = s.chans :=
  (apart_onHoldDone (Apart.refl c c s)).chans

/-- No report changes a channel record: only readings, stale timers and table writes do. -/
@[simp] theorem chans_handle (s : State) (e : Event) : (s.handle e).chans = s.chans := by
  unfold State.handle
  split
  · unfold State.onChanState
    (repeat' split) <;> simp
  · unfold State.onWatch State.raiseBoth
    (repeat' split) <;> simp
  · simp
  · simp
  · unfold State.onCavityLoad
    split <;> simp
  · unfold State.onCavityLoad
    split <;> simp
  · unfold State.onFault
    (repeat' split) <;> simp
  · unfold State.onConverterFault
    dsimp only
    (repeat' split) <;> simp
  · simp
  · simp [State.onStalled]
  · split <;> simp
  · simp

theorem chans_settleUpTo (n : Nat) : ∀ s : State, (settleUpTo n s).chans = s.chans := by
  induction n with
  | zero => exact fun _ => rfl
  | succ n ih =>
    intro s
    unfold settleUpTo
    split
    · rfl
    · rw [ih, chans_handle]

@[simp] theorem chans_settle (s : State) : s.settle.chans = s.chans := chans_settleUpTo _ s

end Sys2Proof.Machine
end

