-- ==== Sys2Proof/Laws/Whole.lean ====
section
/-! SUPPORT. What surrounds a command's effect: acting on reports, serving notices, driving the FAULT line. One lemma each says
once everything it can do. -/

namespace Sys2Proof.Machine

/-! ## Acting on reports -/

theorem settleUpTo_of_no_events (n : Nat) {s : State} (h : s.events = []) : settleUpTo n s = s := by
  cases n with
  | zero => rfl
  | succ n => unfold settleUpTo; rw [h]

/-- With no report delivered there is nothing to act on. -/
theorem settle_of_no_events {s : State} (h : s.events = []) : s.settle = s := settleUpTo_of_no_events _ h

/-- Reports change only what `Kept` leaves open. -/
theorem kept_of_settle (s : State) : Kept s s.settle := kept_settle (Kept.refl s)

/-! ## Notices and the FAULT line -/

theorem serveCav_eq (s : State) (c : Cav) :
    s.serveCav c = s ∨ s.placeTest = true ∧ ∃ f, s.serveCav c =
      { s with outQueue := s.outQueue ++ [f], notices := { s.notices with cav := s.notices.cav.set c false } } := by
  unfold State.serveCav
  split
  · rename_i h
    simp only [Bool.and_eq_true] at h
    exact .inr ⟨h.2, _, rfl⟩
  · exact .inl rfl

theorem servePart_eq (s : State) :
    s.servePart = s ∨ s.placeTest = true ∧ ∃ f, s.servePart =
      { s with outQueue := s.outQueue ++ [f], notices := { s.notices with part := false } } := by
  unfold State.servePart
  split
  · rename_i h
    simp only [Bool.and_eq_true] at h
    exact .inr ⟨h.2, _, rfl⟩
  · exact .inl rfl

/-- Serving the notices places frames while there is a place to spare, clears their flags, and does nothing else (R181). -/
theorem serveNotices_eq (s : State) : ∃ (fs : List Frame) (n : Notices),
    s.serveNotices = { s with outQueue := s.outQueue ++ fs, notices := n } ∧
      (s.outQueue.length + s.relay.length ≤ outPlaces → (s.outQueue ++ fs).length + s.relay.length ≤ outPlaces) := by
  have step (t : State) (f : Frame) (h : t.placeTest = true) :
      (t.outQueue ++ [f]).length + t.relay.length ≤ outPlaces := by
    have h : t.relay.length < outPlaces - t.outQueue.length := of_decide_eq_true h
    simp only [List.length_append, List.length_cons, List.length_nil]
    omega
  have h1 : ∃ (fs : List Frame) (n : Notices), s.serveCav .zero = { s with outQueue := s.outQueue ++ fs, notices := n } ∧
      (s.outQueue.length + s.relay.length ≤ outPlaces → (s.outQueue ++ fs).length + s.relay.length ≤ outPlaces) := by
    rcases serveCav_eq s .zero with h | ⟨ht, f, h⟩
    · exact ⟨[], s.notices, by rw [h]; simp, by simp⟩
    · exact ⟨[f], _, h, fun _ => step s f ht⟩
  obtain ⟨f1, n1, e1, p1⟩ := h1
  have h2 : ∃ (fs : List Frame) (n : Notices), (s.serveCav .zero).serveCav .one =
      { s with outQueue := s.outQueue ++ fs, notices := n } ∧
      (s.outQueue.length + s.relay.length ≤ outPlaces → (s.outQueue ++ fs).length + s.relay.length ≤ outPlaces) := by
    rw [e1]
    rcases serveCav_eq { s with outQueue := s.outQueue ++ f1, notices := n1 } .one with h | ⟨ht, f, h⟩
    · exact ⟨f1, n1, h, p1⟩
    · exact ⟨f1 ++ [f], _, by rw [h]; simp; rfl, fun _ => by simpa using step _ f ht⟩
  obtain ⟨f2, n2, e2, p2⟩ := h2
  unfold State.serveNotices
  rw [e2]
  rcases servePart_eq { s with outQueue := s.outQueue ++ f2, notices := n2 } with h | ⟨ht, f, h⟩
  · exact ⟨f2, n2, h, p2⟩
  · exact ⟨f2 ++ [f], _, by rw [h]; simp; rfl, fun _ => by simpa using step _ f ht⟩

/-- What ends a command changes the notices and their frames, and sets the FAULT output to its condition; nothing else. -/
theorem conclude_eq (s : State) : ∃ (fs : List Frame) (n : Notices),
    s.conclude = { s with outQueue := s.outQueue ++ fs, notices := n, faultOut := s.faultCondition } ∧
      (s.outQueue.length + s.relay.length ≤ outPlaces → (s.outQueue ++ fs).length + s.relay.length ≤ outPlaces) := by
  obtain ⟨fs, n, h, hp⟩ := serveNotices_eq s
  exact ⟨fs, n, by unfold State.conclude; rw [h]; rfl, hp⟩

/-! ## A whole command -/

/-- A part that is ready takes a command's effect, then acts on its reports, then concludes. -/
theorem act_of_ready {f : State → State} {s : State} (h : s.Ready) : act f s = .next (f s).settle.conclude := by
  unfold act State.whole
  rw [h.1, settle_of_no_events h.2]
  rfl

/-- A part held in reset takes nothing (R185). -/
theorem act_of_held {f : State → State} {s : State} (h : s.resetHeld = true) : act f s = .next s := by
  unfold act State.whole
  rw [h]
  rfl

/-- An effect that delivers no report needs no acting on reports. -/
theorem act_of_quiet {f : State → State} {s : State} (h : s.Ready) (hq : (f s).events = []) :
    act f s = .next (f s).conclude := by rw [act_of_ready h, settle_of_no_events hq]

end Sys2Proof.Machine
end

