-- ==== Sys2Proof/Laws/Acts.lean ====
section
/-! SUPPORT. `LoadAct s t`: what the Load Unit and the Relay Unit leave alone while they act for another block. `Spares i s t`: an
act for other loads leaves load `i` alone, its record, its queued engine DRIVEs and that it has no request waiting. -/

namespace Sys2Proof.Machine

/-! ## What an act of the Load Unit leaves alone -/

/-- The other blocks' own state stands. -/
structure LoadAct (s t : State) : Prop where
  cavs : t.cavs = s.cavs
  locks : t.locks = s.locks
  windows : t.windows = s.windows
  chans : t.chans = s.chans
  watches : t.watches = s.watches
  banks : t.banks = s.banks
  air : t.air = s.air
  notices : t.notices = s.notices
  faultOut : t.faultOut = s.faultOut
  events : s.events <+: t.events

theorem LoadAct.refl (s : State) : LoadAct s s := ⟨rfl, rfl, rfl, rfl, rfl, rfl, rfl, rfl, rfl, List.prefix_refl _⟩

theorem LoadAct.trans {s t u : State} (h : LoadAct s t) (g : LoadAct t u) : LoadAct s u where
  cavs := g.cavs.trans h.cavs
  locks := g.locks.trans h.locks
  windows := g.windows.trans h.windows
  chans := g.chans.trans h.chans
  watches := g.watches.trans h.watches
  banks := g.banks.trans h.banks
  air := g.air.trans h.air
  notices := g.notices.trans h.notices
  faultOut := g.faultOut.trans h.faultOut
  events := h.events.trans g.events

/-- A change of the Load Unit's and the Relay Unit's own state is an act of theirs. -/
theorem LoadAct.own {s t : State} (h : LoadAct s t) (out : List Frame) (rel : List RelayEntry) (u n : List QItem)
    (l : Vector LoadSlot 16) (q : List GrantRequest) (m : Timer) :
    LoadAct s { t with outQueue := out, relay := rel, urgent := u, normal := n, loads := l, grantQueue := q, minOff := m } :=
  ⟨h.cavs, h.locks, h.windows, h.chans, h.watches, h.banks, h.air, h.notices, h.faultOut, h.events⟩

theorem LoadAct.emit {s t : State} (h : LoadAct s t) (e : Event) : LoadAct s (t.emit e) :=
  h.trans ⟨rfl, rfl, rfl, rfl, rfl, rfl, rfl, rfl, rfl, List.prefix_append ..⟩

theorem LoadAct.ite {s t u : State} (p : Prop) [Decidable p] (h : LoadAct s t) (g : LoadAct s u) :
    LoadAct s (if p then t else u) := by split <;> assumption

theorem LoadAct.onLoad {s t : State} (h : LoadAct s t) (i : Option (Fin 16)) (f : State → Fin 16 → State)
    (hf : ∀ i, LoadAct s (f t i)) : LoadAct s (t.onLoad i f) := by
  cases i with
  | none => exact h
  | some i => exact hf i

theorem LoadAct.foldl {α : Type} {s : State} (f : State → α → State) (hf : ∀ t a, LoadAct s t → LoadAct s (f t a)) (l : List α) :
    ∀ {t : State}, LoadAct s t → LoadAct s (l.foldl f t) := by
  induction l with
  | nil => exact fun h => h
  | cons a l ih => exact fun h => ih (hf _ a h)

theorem LoadAct.closeFail {s t : State} (h : LoadAct s t) (tag reason : Byte) : LoadAct s (t.closeFail tag reason) := by
  unfold State.closeFail State.closeRelay
  (repeat' split) <;> first | exact h | exact h.own _ _ _ _ _ _ _

theorem LoadAct.queueDrive {s t : State} (h : LoadAct s t) (i : Fin 16) (level : Nat) : LoadAct s (t.queueDrive i level) := by
  unfold State.queueDrive State.mergeDrive
  split <;> exact h.own _ _ _ _ _ _ _

theorem LoadAct.grantTo {s t : State} (h : LoadAct s t) (i : Fin 16) (who : Requester) (level : Nat) :
    LoadAct s (t.grantTo i who level) := by
  unfold State.grantTo
  (repeat' split)
  · exact LoadAct.queueDrive (h.own _ _ _ _ _ _ _) i level
  · exact h.own _ _ _ _ _ _ _
  · exact h.own _ _ _ _ _ _ _

theorem LoadAct.refuseRequest {s t : State} (h : LoadAct s t) (i : Fin 16) (who : Requester) :
    LoadAct s (t.refuseRequest i who) := by
  unfold State.refuseRequest
  split
  · exact LoadAct.emit (h.own _ _ _ _ _ _ _) _
  · exact LoadAct.closeFail (h.own _ _ _ _ _ _ _) _ _

theorem LoadAct.considerUpTo (n : Nat) : ∀ {s t : State}, LoadAct s t → LoadAct s (considerUpTo n t) := by
  induction n with
  | zero => exact fun h => h.own _ _ _ _ _ _ _
  | succ n ih =>
    intro s t h
    unfold Machine.considerUpTo
    (repeat' split)
    · exact h.own _ _ _ _ _ _ _
    · exact ih (LoadAct.refuseRequest (h.own _ _ _ _ _ _ _) _ _)
    · exact ih (LoadAct.grantTo (h.own _ _ _ _ _ _ _) _ _ _)
    · exact h.own _ _ _ _ _ _ _

theorem LoadAct.considerHead {s t : State} (h : LoadAct s t) : LoadAct s t.considerHead := LoadAct.considerUpTo _ h

theorem LoadAct.considerIf {s t : State} (h : LoadAct s t) (b : Bool) : LoadAct s (t.considerIf b) := by
  unfold State.considerIf
  exact LoadAct.ite _ h.considerHead h

theorem LoadAct.withdrawRequest {s t : State} (h : LoadAct s t) (i : Fin 16) : LoadAct s (t.withdrawRequest i) := by
  unfold State.withdrawRequest
  split
  · exact h
  · refine LoadAct.considerIf ?_ _
    split
    · exact h.own _ _ _ _ _ _ _
    · exact LoadAct.closeFail (h.own _ _ _ _ _ _ _) _ _

theorem LoadAct.requestGrant {s t : State} (h : LoadAct s t) (i : Fin 16) (who : Requester) (level : Nat) :
    LoadAct s (t.requestGrant i who level) := by
  unfold State.requestGrant State.joinRequest
  exact LoadAct.ite _ (h.grantTo _ _ _) (LoadAct.considerIf (h.own _ _ _ _ _ _ _) _)

theorem LoadAct.engineGrant {s t : State} (h : LoadAct s t) (i : Fin 16) (level : Nat) : LoadAct s (t.engineGrant i level) := by
  unfold State.engineGrant
  exact LoadAct.ite _ (h.emit _) (h.requestGrant _ _ _)

theorem LoadAct.engineOn {s t : State} (h : LoadAct s t) (i : Fin 16) (level : Nat) : LoadAct s (t.engineOn i level) := by
  unfold State.engineOn State.driveHeld State.setPendingLevel
  dsimp only
  (repeat' split) <;>
    first
    | exact h
    | exact h.queueDrive _ _
    | exact h.engineGrant _ _
    | exact (h.withdrawRequest _).engineGrant _ _
    | exact h.own _ _ _ _ _ _ _

theorem LoadAct.engineOff {s t : State} (h : LoadAct s t) (i : Fin 16) : LoadAct s (t.engineOff i) := by
  unfold State.engineOff
  exact LoadAct.ite _ (h.withdrawRequest i) ((h.withdrawRequest i).queueDrive _ _)

theorem LoadAct.engineDrive {s t : State} (h : LoadAct s t) (i : Fin 16) (level : Nat) : LoadAct s (t.engineDrive i level) := by
  unfold State.engineDrive
  exact LoadAct.ite _ (h.engineOff i) (h.engineOn i level)

theorem LoadAct.engineOffs {s t : State} (h : LoadAct s t) (is : List (Fin 16)) : LoadAct s (t.engineOffs is) :=
  LoadAct.foldl _ (fun _ _ g => g.engineOff _) is h

theorem LoadAct.heatersOff {s t : State} (h : LoadAct s t) (c : Cav) : LoadAct s (t.heatersOff c) :=
  LoadAct.foldl _ (fun _ _ g => g.onLoad _ _ fun _ => g.engineOff _) _ h

theorem LoadAct.driveFan {s t : State} (h : LoadAct s t) (c : Cav) (level : Nat) : LoadAct s (t.driveFan c level) :=
  h.onLoad _ _ fun _ => h.engineDrive _ _

theorem LoadAct.driveBlower {s t : State} (h : LoadAct s t) : LoadAct s t.driveBlower := h.onLoad _ _ fun _ => h.engineDrive _ _

theorem LoadAct.converterOn {s t : State} (h : LoadAct s t) : LoadAct s t.converterOn := h.onLoad _ _ fun _ => h.engineOn _ _

theorem LoadAct.converterOff {s t : State} (h : LoadAct s t) : LoadAct s t.converterOff := h.onLoad _ _ fun _ => h.engineOff _

theorem LoadAct.motorOff {s t : State} (h : LoadAct s t) (c : Cav) : LoadAct s (t.motorOff c) :=
  h.onLoad _ _ fun _ => h.engineOff _

theorem LoadAct.motorRun {s t : State} (h : LoadAct s t) (c : Cav) (d : Travel) : LoadAct s (t.motorRun c d) :=
  h.onLoad _ _ fun _ => h.engineOn _ _

/-! ## What an act for other loads leaves of a load -/

/-- No request for the load waits. -/
def State.freeOf (s : State) (i : Fin 16) : Prop := ∀ r ∈ s.grantQueue, r.load ≠ i

/-- Load `i` stands: its entry and its record, its queued engine DRIVEs, and that no request for it waits. -/
structure Spares (i : Fin 16) (s t : State) : Prop where
  free : s.freeOf i → t.freeOf i
  record : s.freeOf i → t.record i = s.record i
  urgent : ∀ q ∈ s.urgent, isDriveFor i q = true → q ∈ t.urgent
  normal : ∀ q ∈ s.normal, isDriveFor i q = true → q ∈ t.normal

theorem Spares.refl (i : Fin 16) (s : State) : Spares i s s := ⟨fun h => h, fun _ => rfl, fun _ h _ => h, fun _ h _ => h⟩

theorem Spares.trans {i : Fin 16} {s t u : State} (h : Spares i s t) (g : Spares i t u) : Spares i s u where
  free x := g.free (h.free x)
  record x := (g.record (h.free x)).trans (h.record x)
  urgent q m d := g.urgent q (h.urgent q m d) d
  normal q m d := g.normal q (h.normal q m d) d

/-- A change that touches none of the load's own state. -/
theorem Spares.of_same {i : Fin 16} {s t u : State} (h : Spares i s t) (hl : u.loads = t.loads) (hu : u.urgent = t.urgent)
    (hn : u.normal = t.normal) (hg : ∀ r ∈ u.grantQueue, r ∈ t.grantQueue) : Spares i s u :=
  h.trans ⟨fun x r m => x r (hg r m), fun _ => by unfold State.record; rw [hl], fun q m _ => hu ▸ m, fun q m _ => hn ▸ m⟩

theorem Spares.ite {i : Fin 16} {s t u : State} (p : Prop) [Decidable p] (h : Spares i s t) (g : Spares i s u) :
    Spares i s (if p then t else u) := by split <;> assumption

theorem Spares.foldl {α : Type} {i : Fin 16} {s : State} (f : State → α → State)
    (hf : ∀ t a, Spares i s t → Spares i s (f t a)) (l : List α) : ∀ {t : State}, Spares i s t → Spares i s (l.foldl f t) := by
  induction l with
  | nil => exact fun h => h
  | cons a l ih => exact fun h => ih (hf _ a h)

theorem Spares.modRecord {i j : Fin 16} {s t : State} (h : Spares i s t) (hj : i ≠ j) (f : LoadRecord → LoadRecord) :
    Spares i s (t.modRecord j f) :=
  h.trans ⟨fun x => x, fun _ => by rw [record_modRecord, if_neg hj], fun _ m _ => m, fun _ m _ => m⟩

theorem Spares.setGrant {i j : Fin 16} {s t : State} (h : Spares i s t) (hj : i ≠ j) (g : Grant) : Spares i s (t.setGrant j g) :=
  h.modRecord hj _

theorem Spares.closeFail {i : Fin 16} {s t : State} (h : Spares i s t) (tag reason : Byte) : Spares i s (t.closeFail tag reason) := by
  unfold State.closeFail State.closeRelay
  (repeat' split) <;> first | exact h | exact h.of_same rfl rfl rfl fun _ m => m

theorem mem_mergeInto {i j : Fin 16} (hj : i ≠ j) (item : QItem) {q : List QItem} {x : QItem} (hx : x ∈ q)
    (hd : isDriveFor i x = true) : x ∈ mergeInto q j item := by
  have hn : isDriveFor j x = false := by
    cases x with
    | drive k l b =>
      have hk : i = k := by simpa [isDriveFor] using hd
      subst hk
      simpa [isDriveFor] using Ne.symm hj
    | ask _ => rfl
    | relayed _ => rfl
  unfold mergeInto
  split
  · exact List.mem_map.2 ⟨x, hx, by simp [hn]⟩
  · exact List.mem_append_left _ hx

theorem mem_withoutDrive {i j : Fin 16} (hj : i ≠ j) {q : List QItem} {x : QItem} (hx : x ∈ q) (hd : isDriveFor i x = true) :
    x ∈ withoutDrive q j := by
  refine List.mem_filter.2 ⟨hx, ?_⟩
  cases x with
  | drive k l b =>
    have hk : i = k := by simpa [isDriveFor] using hd
    subst hk
    simpa [isDriveFor] using Ne.symm hj
  | ask _ => rfl
  | relayed _ => rfl

theorem Spares.queueDrive {i j : Fin 16} {s t : State} (h : Spares i s t) (hj : i ≠ j) (level : Nat) :
    Spares i s (t.queueDrive j level) := by
  refine (h.modRecord hj (fun r => { r with commanded := some level, owner := .engine, attempt := .first })).trans ?_
  unfold State.queueDrive State.mergeDrive
  split
  · exact ⟨fun x => x, fun _ => rfl, fun _ m d => mem_mergeInto hj _ m d, fun _ m d => mem_withoutDrive hj m d⟩
  · exact ⟨fun x => x, fun _ => rfl, fun _ m d => mem_withoutDrive hj m d, fun _ m d => mem_mergeInto hj _ m d⟩

theorem Spares.grantTo {i j : Fin 16} {s t : State} (h : Spares i s t) (hj : i ≠ j) (who : Requester) (level : Nat) :
    Spares i s (t.grantTo j who level) := by
  unfold State.grantTo
  (repeat' split)
  · exact (h.setGrant hj _).queueDrive hj _
  · exact (h.setGrant hj _).modRecord hj _
  · refine (h.setGrant hj .held).trans ?_
    unfold State.promoteRelay State.commandByController
    refine Spares.modRecord ?_ hj _
    exact ⟨fun x => x, fun _ => rfl, fun _ m _ => m, fun _ m _ => List.mem_append_left _ m⟩

theorem Spares.refuseRequest {i j : Fin 16} {s t : State} (h : Spares i s t) (hj : i ≠ j) (who : Requester) :
    Spares i s (t.refuseRequest j who) := by
  unfold State.refuseRequest
  split
  · exact (h.setGrant hj _).of_same rfl rfl rfl fun _ m => m
  · exact (h.setGrant hj _).closeFail _ _

theorem Spares.considerUpTo (n : Nat) {i : Fin 16} : ∀ {s : State}, s.freeOf i → Spares i s (Machine.considerUpTo n s) := by
  induction n with
  | zero => exact fun _ => (Spares.refl i _).of_same rfl rfl rfl fun _ m => m
  | succ n ih =>
    intro s h
    unfold Machine.considerUpTo
    split
    · exact (Spares.refl i s).of_same rfl rfl rfl fun _ m => m
    · rename_i r rest hq
      have hr : i ≠ r.load := Ne.symm (h r (by rw [hq]; exact List.mem_cons_self))
      have h0 : Spares i s { s with grantQueue := rest } :=
        (Spares.refl i s).of_same rfl rfl rfl fun _ m => by rw [hq]; exact List.mem_cons_of_mem _ m
      split
      · have h1 := h0.refuseRequest hr r.requester
        exact h1.trans (ih (h1.free h))
      · split
        · have h1 := h0.grantTo hr r.requester r.level
          exact h1.trans (ih (h1.free h))
        · exact (Spares.refl i s).of_same rfl rfl rfl fun _ m => m

theorem Spares.considerHead {i : Fin 16} {s : State} (h : s.freeOf i) : Spares i s s.considerHead := Spares.considerUpTo _ h

theorem Spares.considerIf {i : Fin 16} {s : State} (h : s.freeOf i) (b : Bool) : Spares i s (s.considerIf b) := by
  unfold State.considerIf
  exact Spares.ite _ (Spares.considerHead h) (Spares.refl i s)

theorem Spares.dropRequest {i j : Fin 16} {s : State} (hj : i ≠ j) : Spares i s (s.dropRequest j) := by
  unfold State.dropRequest
  refine Spares.setGrant ?_ hj _
  exact (Spares.refl i s).of_same rfl rfl rfl fun _ m => (List.mem_filter.1 m).1

theorem Spares.withdrawRequest {i j : Fin 16} {s : State} (h : s.freeOf i) (hj : i ≠ j) : Spares i s (s.withdrawRequest j) := by
  unfold State.withdrawRequest
  split
  · exact Spares.refl i s
  · have h1 : Spares i s (s.dropRequest j) := Spares.dropRequest hj
    dsimp only
    split
    · exact h1.trans (Spares.considerIf (h1.free h) _)
    · have h2 := h1.closeFail (i := i) ‹_› failWithheld
      exact h2.trans (Spares.considerIf (h2.free h) _)

theorem Spares.requestGrant {i j : Fin 16} {s : State} (h : s.freeOf i) (hj : i ≠ j) (who : Requester) (level : Nat) :
    Spares i s (s.requestGrant j who level) := by
  unfold State.requestGrant
  split
  · exact (Spares.refl i s).grantTo hj _ _
  · unfold State.joinRequest
    have h0 : Spares i s { s with grantQueue := joinQueue s.grantQueue { load := j, requester := who, level := level, joined := s.now } } := by
      refine ⟨fun x r m => ?_, fun _ => rfl, fun _ m _ => m, fun _ m _ => m⟩
      have hm : r = { load := j, requester := who, level := level, joined := s.now } ∨ r ∈ s.grantQueue := by
        unfold joinQueue at m
        split at m
        · simp only [List.mem_append, List.mem_singleton] at m
          rcases m with (m | m) | m
          · exact .inr (List.takeWhile_sublist _ |>.subset m)
          · exact .inl m
          · exact .inr (List.dropWhile_sublist _ |>.subset m)
        · simp only [List.mem_append, List.mem_singleton] at m
          exact m.symm
      rcases hm with e | m
      · subst e; exact Ne.symm hj
      · exact x r m
    have h1 := h0.setGrant hj .waiting
    exact h1.trans (Spares.considerIf (h1.free h) _)

theorem Spares.engineGrant {i j : Fin 16} {s : State} (h : s.freeOf i) (hj : i ≠ j) (level : Nat) : Spares i s (s.engineGrant j level) := by
  unfold State.engineGrant
  exact Spares.ite _ ((Spares.refl i s).of_same rfl rfl rfl fun _ m => m) (Spares.requestGrant h hj _ _)

/-- A withdrawn request is gone (R49). -/
theorem freeOf_withdrawRequest (s : State) (i : Fin 16) : (s.withdrawRequest i).freeOf i := by
  unfold State.withdrawRequest
  split
  · rename_i h
    intro r m
    simpa using List.find?_eq_none.1 h r m
  · have h1 : (s.dropRequest i).freeOf i := fun r m => by simpa using (List.mem_filter.1 m).2
    dsimp only
    split
    · exact (Spares.considerIf h1 _).free h1
    · have h2 := ((Spares.refl i (s.dropRequest i)).closeFail ‹_› failWithheld).free h1
      exact (Spares.considerIf h2 _).free h2

/-- What an engine off leaves of its own load: no request, commanded 0, and confirmed 0 already or an off queued (R49). -/
structure IsOff (i : Fin 16) (s : State) : Prop where
  free : s.freeOf i
  commanded : (s.record i).commanded = some 0
  queued : (s.record i).confirmed = some 0 ∨ (QItem.drive i 0 false ∈ s.urgent ∧ (s.record i).owner = .engine)

theorem mem_mergeInto_self (q : List QItem) (i : Fin 16) (item : QItem) : item ∈ mergeInto q i item := by
  unfold mergeInto
  split
  · rename_i h
    obtain ⟨x, hx, hd⟩ := List.any_eq_true.1 h
    exact List.mem_map.2 ⟨x, hx, by simp [hd]⟩
  · simp

theorem record_queueDrive (s : State) (i j : Fin 16) (level : Nat) : (s.queueDrive i level).record j =
    if j = i then { s.record i with commanded := some level, owner := .engine, attempt := .first } else s.record j := by
  refine Eq.trans ?_ (record_modRecord s i j (fun r => { r with commanded := some level, owner := .engine, attempt := .first }))
  unfold State.queueDrive State.mergeDrive
  split <;> rfl

theorem grantQueue_queueDrive (s : State) (i : Fin 16) (level : Nat) : (s.queueDrive i level).grantQueue = s.grantQueue := by
  unfold State.queueDrive State.mergeDrive
  split <;> rfl

/-- R30, R34: a queued engine DRIVE stands in the queue of its class and level. -/
theorem mem_queueDrive (s : State) (i : Fin 16) (level : Nat) :
    QItem.drive i level false ∈
      if urgentDrive (s.entry i).cls level then (s.queueDrive i level).urgent else (s.queueDrive i level).normal := by
  have he : ((s.modRecord i fun r => { r with commanded := some level, owner := .engine, attempt := .first }).entry i) = s.entry i :=
    entry_modRecord ..
  unfold State.queueDrive State.mergeDrive
  rw [he]
  split
  · exact mem_mergeInto_self _ _ _
  · exact mem_mergeInto_self _ _ _

theorem isOff_engineOff (s : State) (i : Fin 16) : IsOff i (s.engineOff i) := by
  have hw := freeOf_withdrawRequest s i
  unfold State.engineOff
  dsimp only
  generalize s.withdrawRequest i = t at hw
  split
  · rename_i h
    simp only [LoadRecord.alreadyOff, Bool.and_eq_true, beq_iff_eq] at h
    exact ⟨hw, h.1, .inl h.2⟩
  · refine ⟨fun r m => hw r (by rwa [grantQueue_queueDrive] at m), by rw [record_queueDrive, if_pos rfl], .inr ⟨?_, by rw [record_queueDrive, if_pos rfl]⟩⟩
    have hm := mem_queueDrive t i 0
    rwa [if_pos (by simp [urgentDrive])] at hm

theorem IsOff.spared {i : Fin 16} {s t : State} (h : IsOff i s) (g : Spares i s t) : IsOff i t where
  free := g.free h.free
  commanded := by rw [g.record h.free]; exact h.commanded
  queued := by
    rw [g.record h.free]
    exact h.queued.imp_right fun x => ⟨g.urgent _ x.1 (by simp [isDriveFor]), x.2⟩

theorem IsOff.engineOff {i : Fin 16} {s : State} (h : IsOff i s) (j : Fin 16) : IsOff i (s.engineOff j) := by
  by_cases hj : i = j
  · exact hj ▸ isOff_engineOff s j
  · refine h.spared ?_
    have hw := Spares.withdrawRequest h.free hj
    unfold State.engineOff
    exact Spares.ite _ hw (hw.queueDrive hj _)

/-- An engine request for another load (R48). -/
theorem Spares.engineOn {i j : Fin 16} {s : State} (h : s.freeOf i) (hj : i ≠ j) (level : Nat) : Spares i s (s.engineOn j level) := by
  have r := Spares.refl i s
  have hw := Spares.withdrawRequest h hj
  have hp (l : Nat) : Spares i s (s.setPendingLevel j l) := by
    refine ⟨fun x q m => ?_, fun _ => rfl, fun _ m _ => m, fun _ m _ => m⟩
    obtain ⟨a, ha, rfl⟩ := List.mem_map.1 m
    split
    · exact x a ha
    · exact x a ha
  unfold State.engineOn State.driveHeld
  dsimp only
  (repeat' split) <;>
    first
    | exact r
    | exact r.queueDrive hj _
    | exact Spares.engineGrant h hj _
    | exact hw.trans (Spares.engineGrant (hw.free h) hj _)
    | exact hp _
    | exact r.modRecord hj _

/-- An engine off for another load (R49). -/
theorem Spares.engineOff {i j : Fin 16} {s : State} (h : s.freeOf i) (hj : i ≠ j) : Spares i s (s.engineOff j) := by
  have hw := Spares.withdrawRequest h hj
  unfold State.engineOff
  exact Spares.ite _ hw (hw.queueDrive hj _)

theorem Spares.engineDrive {i j : Fin 16} {s : State} (h : s.freeOf i) (hj : i ≠ j) (level : Nat) :
    Spares i s (s.engineDrive j level) := by
  unfold State.engineDrive
  exact Spares.ite _ (Spares.engineOff h hj) (Spares.engineOn h hj _)

theorem Spares.onLoad {i : Fin 16} {s : State} (j : Option (Fin 16)) (f : State → Fin 16 → State)
    (hf : ∀ k, j = some k → Spares i s (f s k)) : Spares i s (s.onLoad j f) := by
  cases j with
  | none => exact Spares.refl i s
  | some k => exact hf k rfl

end Sys2Proof.Machine
end

