-- ==== Sys2Proof/Laws/Writes.lean ====
section
/-! SUPPORT. What reading and storing a WRITE's records and setting a watch do, once. -/

namespace Sys2Proof.Laws

open Sys2Proof Sys2Proof.Machine

/-- Records are read as a whole exactly where each of them reads (R174). -/
theorem parseFrom_ok {α : Type} (read : List Byte → Option α) (records : List (List Byte)) (new : List α) (n : Nat) :
    parseFrom read n records = .ok new ↔ records.map read = new.map some := by
  induction records generalizing new n with
  | nil => cases new <;> simp [parseFrom]
  | cons r rs ih =>
    cases h : read r with
    | none => cases new <;> simp [parseFrom, h]
    | some a =>
      have tail (as : List α) : parseFrom read (n + 1) rs = .ok as ↔ rs.map read = as.map some := ih as (n + 1)
      simp only [parseFrom, h, List.map_cons]
      cases new with
      | nil => cases parseFrom read (n + 1) rs <;> simp
      | cons x xs =>
        rw [List.map_cons, List.cons.injEq, ← tail xs]
        cases parseFrom read (n + 1) rs <;> simp

/-- The first record that does not read gives the index of the answer (R174). -/
theorem parseFrom_firstBad {α : Type} (read : List Byte → Option α) (records : List (List Byte)) (index n : Nat)
    (h : FirstBad read records n) : parseFrom read index records = .error (index + n) := by
  obtain ⟨good, bad, rest, rfl, rfl, hg, hb⟩ := h
  induction good generalizing index with
  | nil => simp [parseFrom, hb]
  | cons g gs ih =>
    obtain ⟨a, ha⟩ := Option.ne_none_iff_exists'.mp (hg g (by simp))
    have := ih (index + 1) (fun r hr => hg r (by simp [hr]))
    simp [parseFrom, ha, this, Nat.add_comm 1, Nat.add_assoc]

/-- What a table holds after records have been stored from an index upwards (R174). -/
theorem storeFrom_get {α : Type} {m : Nat} (v : Vector α m) (index : Nat) (new : List α) (i : Fin m) :
    (storeFrom v index new).get i = storedAt index new i.val (v.get i) := by
  induction new generalizing v index with
  | nil => simp [storeFrom, storedAt]
  | cons a as ih =>
    rw [storeFrom, ih]
    simp only [storedAt, Vector.get_eq_getElem, Vector.getElem_setIfInBounds]
    rcases Nat.lt_trichotomy index i.val with h | h | h
    · obtain ⟨k, hk⟩ : ∃ k, i.val - index = k + 1 := ⟨i.val - index - 1, by omega⟩
      have : i.val - (index + 1) = k := by omega
      simp [hk, this, Nat.le_of_lt h, Nat.succ_le_of_lt h, Nat.ne_of_lt h]
    · subst h; simp
    · simp [show ¬index ≤ i.val by omega, show ¬index + 1 ≤ i.val by omega, Nat.ne_of_gt h]

/-- The entries a WRITE of LOADS leaves (R43). -/
theorem loadsAfter_storedAt (s : State) (index : Nat) (new : List LoadEntry) (i : Fin 16) :
    s.loadsAfter index new i = storedAt index new i.val (s.entry i) := rfl

/-- The bindings a WRITE of CHANNELS leaves (R64). -/
theorem bindingsAfter_storedAt (s : State) (index : Nat) (new : List Binding) (n : Fin 8) :
    s.bindingsAfter index new n = storedAt index new n.val (s.binding n) := rfl

/-- One watch changed, every other left as it is. -/
theorem watches_get_put (w : Watches) (i j : WatchId) (x : Watch) : (w.put i x).get j = if j = i then x else w.get j := by
  cases i <;> cases j <;> (try rename_i a b; cases a <;> cases b) <;> (try rename_i a; cases a) <;> rfl

/-- An emission, made or not, leaves the watches. -/
theorem watches_emitIf (s : State) (b : Bool) (e : Event) : (s.emitIf b e).watches = s.watches := by
  cases b <;> rfl

/-- A watch that is set stands as it was set, MET exactly where its condition is confirmed; every other is as it was (R72). -/
theorem setWatch_watch (s : State) (i j : WatchId) (side : Side) (level : Int) :
    (s.setWatch i side level).watch j = if j = i then {
      side := side, level := level,
      state := if confirmedOn (s.channel (watchUse i)) side level then .met else .notMet } else s.watch j := by
  simp only [State.watch, State.setWatch, watches_emitIf]
  exact watches_get_put _ _ _ _

end Sys2Proof.Laws
end

