-- ==== Sys2Proof/Tests/Slice0.lean ====
section
/-! SUPPORT. Tests: the well-formedness checks with the terms they refuse, the CHECK of R4, one step of each family on a small
part, and, for every statement that has hypotheses, a state and operands that meet them. -/

namespace Sys2Proof.Tests

open Sys2Proof Sys2Proof.Machine

set_option Elab.async false

/-! ## Well-formedness: each check refuses -/

/-- A payload of 41 bytes. -/
def longPayload : List Byte := List.replicate 41 0

def goodChar : RawChar := { data := 0xA7, parity := (0xA7 : Byte).msb, stop := true }

def frameTo (dest src : Byte) (payload : List Byte) : Frame :=
  { dest := dest, src := src, kind := 0x10, tag := 7, payload := payload }

theorem test_wf_badCharacter : Instr.wellFormed (.badCharacter .bus goodChar) = false ∧
    Instr.wellFormed (.badCharacter .bus { goodChar with stop := false }) = true := by decide

theorem test_wf_addressError : Instr.wellFormed (.upstreamAddressError (frameTo 120 121 [])) = false ∧
    Instr.wellFormed (.upstreamAddressError (frameTo 121 121 longPayload)) = false ∧
    Instr.wellFormed (.upstreamAddressError (frameTo 121 121 [])) = true := by decide

theorem test_wf_nodeFrame : Instr.wellFormed (.controllerNodeFrame 120 0x10 0 []) = false ∧
    Instr.wellFormed (.controllerNodeFrame 0 0x10 0 []) = false ∧
    Instr.wellFormed (.controllerNodeFrame 119 0x10 0 longPayload) = false ∧
    Instr.wellFormed (.controllerNodeFrame 119 0x10 0 []) = true := by decide

theorem test_wf_badKind : Instr.wellFormed (.managementBadKind 0x20 0 []) = false ∧
    Instr.wellFormed (.managementBadKind 0x28 0 []) = false ∧
    Instr.wellFormed (.managementBadKind 0x29 0 longPayload) = false ∧
    Instr.wellFormed (.managementBadKind 0x29 0 []) = true := by decide

theorem test_wf_managementPayload : ∀ c ∈ [Instr.seek 0 longPayload, .write 0 longPayload, .read 0 longPayload,
      .validate 0 longPayload, .start 0 longPayload, .cancel 0 longPayload, .clear 0 longPayload, .report 0 longPayload,
      .linkReset 0 longPayload, .exchangeReply (frameTo 120 1 longPayload), .busStray (frameTo 120 1 longPayload)],
    c.wellFormed = false := by decide

/-! ## R4: the CHECK -/

theorem test_crc_ofDigits : crcBytes crcStart [0x31, 0x32, 0x33, 0x34, 0x35, 0x36, 0x37, 0x38, 0x39] = 0x29B1 := by
  decide +kernel

/-! ## A small part

Loads: 0 a heater TOP, 1 a fan, 2 a lock motor, all of cavity 0; 3 the blower; 4 the converter. Bindings: 0 the probe and 1 the
door of cavity 0, polled; 2 the tachometer, not polled. -/

def slot (node : Byte) (cls : LoadClass) (cavity : LoadCav) (position : LoadPos) (rated : Nat) (kind : LevelKind) : LoadSlot :=
  { entry := { node := node, cls := cls, cavity := cavity, position := position, rated := rated, minOff := 0, kind := kind }
    record := LoadRecord.fresh }

def chan (use : Use) (node : Byte) (channel : Nat) (poll : Bool) : ChanSlot :=
  { binding := { use := use, node := node, channel := channel, poll := poll }
    record := { ChanRecord.unbound with state := .unknown } }

def small : State := { State.reset with
  loads := ((((State.reset.loads.set 0 (slot 11 .heater (.of .zero) (.at .top) 50 .switched)).set 1
    (slot 12 .fan (.of .zero) .nowhere 5 .levelled)).set 2 (slot 13 .lock (.of .zero) .nowhere 10 .switched)).set 3
    (slot 14 .blower .shared .nowhere 10 .levelled)).set 4 (slot 15 .converter .shared .nowhere 20 .switched)
  chans := ((State.reset.chans.set 0 (chan (.probe .zero) 20 0 true)).set 1 (chan (.door .zero) 20 1 true)).set 2
    (chan .tacho 21 0 false) }

/-- `small` with cavity 0 in a state. -/
def inState (st : CavState) : State := small.modCav .zero (fun k => { k with state := st })

/-- The next state of a step, or the state itself. -/
def next (s : State) (c : Instr) : State :=
  match step { s with pending := [c] } with
  | .next t => t
  | _ => s

theorem small_ready : small.Ready := ⟨rfl, rfl⟩

/-! ## One step of each command -/

/-- The payloads that wait upstream. -/
def sent (s : State) : List (List Byte) := s.outQueue.map Frame.payload

/-- `small` with an ASK of the controller for node 20 relayed, in flight. -/
def asked : State := next (next small (.controllerNodeFrame 20 0x12 9 [0])) .busTakeFrame

def windowOpen : State := next asked .busFrameSent

theorem test_powerOnReset : next { small with now := 7 } .powerOnReset = State.resetAt 7 := by decide +kernel

theorem test_resetInputHeld : (next asked .resetInputHeld).exchange = none ∧ (next asked .resetInputHeld).busTx.frame = none := by
  decide +kernel

theorem test_stopAsserted : ((next (inState .cooldown) .stopAsserted).cav .zero).reason = .stop ∧
    (next (inState .cooldown) .stopAsserted).faultOut = true := by decide +kernel

theorem test_stopDeasserted : sent (next { small with stopAsserted := true } .stopDeasserted) ≠ [] := by decide +kernel

theorem test_badCharacter :
    (next small (.badCharacter .bus { goodChar with stop := false })).bus.count.charErrors = 1 := by decide +kernel

theorem test_lengthError : (next small (.lengthError .bus)).bus.count.lengthErrors = 1 := by decide +kernel

theorem test_crcError : (next small (.crcError .upstream)).up.count.crcErrors = 1 := by decide +kernel

theorem test_goodByte_gapAbort :
    (next (next small (.goodByteArrives .bus 0xA7)) (.gapAbort .bus)).bus.count.gapAborts = 1 := by decide +kernel

theorem test_goodByteArrives : (next small (.goodByteArrives .bus 0xA7)).bus.rx.stage = .header ∧
    (next small (.goodByteArrives .bus 0xA6)).bus.rx.stage = .hunt := by decide +kernel

theorem test_addressError_and_stray : (next small (.upstreamAddressError (frameTo 121 121 []))).up.count.discarded = 1 ∧
    (next small (.busStray (frameTo 121 20 []))).bus.count.discarded = 1 := by decide +kernel

theorem test_nodeFrame_relayed : asked.busTx.frame = some { dest := 20, src := 121, kind := 0x12, tag := 9, payload := [0] } ∧
    asked.live = true := by decide +kernel

theorem test_exchangeReply : (next windowOpen (.exchangeReply
      { dest := 121, src := 20, kind := 0x13, tag := 9, payload := [0, 0, 0, 50] })).outQueue.map Frame.kind = [0x32, 0x13] ∧
    ((next windowOpen (.exchangeReply { dest := 121, src := 20, kind := 0x13, tag := 9, payload := [0, 0, 0, 50] })).chanRecord
      0).latest = some (.num 50) := by decide +kernel

theorem test_replyWindowExpired : [20, 6] ∈ sent (next windowOpen .replyWindowExpired) := by decide +kernel

theorem test_relayEntryExpired : [20, 5] ∈ sent (next (next small (.controllerNodeFrame 20 0x12 9 [0])) (.relayEntryExpired 9)) := by
  decide +kernel

theorem test_seek : (next small (.seek 5 [4, 1, 39])).pointer = { table := .segments, bank := .one, index := 39 } ∧
    [0] ∈ sent (next small (.seek 5 [4, 1, 39])) := by decide +kernel

theorem test_write : ((next (next small (.seek 5 [5, 0, 0])) (.write 6 [1, 2, 3, 4, 5, 39])).bank .zero).state = .written ∧
    [0, 6] ∈ sent (next (next small (.seek 5 [5, 0, 0])) (.write 6 [1, 2, 3, 4, 5, 39])) := by decide +kernel

theorem test_read : [0, 4, 2, 0xFF, 0xFF] ∈ sent (next (next small (.seek 5 [5, 0, 4])) (.read 6 [40])) := by decide +kernel

theorem test_validate : (sent (next small (.validate 6 [0]))).any (fun p => p.take 1 == [7]) = true ∧
    ((next small (.validate 6 [0])).bank .zero).finding = some { check := .limitsUnset, table := .bankLimits, index := 0 } := by
  decide +kernel

theorem test_start_cancel_clear_refused : [10] ∈ sent (next small (.start 6 [0, 0, 0])) ∧
    [7] ∈ sent (next (inState .opened) (.start 6 [0, 0, 0])) ∧
    [12] ∈ sent (next small (.cancel 6 [0])) ∧ [12] ∈ sent (next small (.clear 6 [0])) := by decide +kernel

theorem test_report_badKind : [3] ∈ sent (next small (.report 6 [200, 0])) ∧
    [1] ∈ sent (next small (.managementBadKind 0x30 6 [])) := by
  decide +kernel

theorem test_linkReset : (next asked (.linkReset 6 [])).relay = [] ∧
    [0] ∈ sent (next asked (.linkReset 6 [])) := by decide +kernel

theorem test_transmitStart : (next asked .upstreamTransmitStart).outQueue = [] ∧
    (next asked .upstreamTransmitStart).upTx.frame.map Frame.kind = some 0x32 := by decide +kernel

theorem test_linkSilent : (next asked .linkSilent).live = false := by decide +kernel

theorem test_pollerRun : (next small .pollerRun).normal = [.ask 0, .ask 1] ∧ (next small .pollerRun).pollDue = millis 2000 := by
  decide +kernel

/-- The tachometer LIVE with its stale timer. -/
def tachoLive : State := small.modChan 2 (fun r => { r with state := .live, stale := some 9 })

theorem test_channelStale : ((next tachoLive (.channelStale 2)).chanRecord 2).state = .stale := by decide +kernel

/-- A grant request of relay entry 9 for the heater, waiting for the minimum off time. -/
def waiting : State :=
  { (small.modRecord 0 (fun r => { r with confirmed := some 0, grant := .waiting, offSince := some 0 })) with
    minOff := some 5, grantQueue := [{ load := 0, requester := .relay 9, level := 100, joined := 0 }],
    relay := [{ frame := frameTo 11 121 [100], stage := .grantWait, openedAt := 0, stageSince := 0, hold := some 9,
                carriesGrant := false, admitted := true }] }

theorem test_minOffTimerExpired : (next waiting .minOffTimerExpired).grantQueue = [] := by decide +kernel

/-- Cavity 0 in RUN on bank 0, with its window running and the heater's off mark due. -/
def running : State :=
  { ((inState .run).modCav .zero (fun k => { k with
      bank := some .zero, segment := some 0, short := some 3, long := some 4, elapsed := .running 0, hold := .running 6 })) with
    windows := small.windows.set .zero { DutyWindow.reset with
      running := true, start := some 0, period := some 20, offMark := { top := some 2, bottom := none, rear := none } },
    loads := small.loads.set 0 { entry := small.entry 0, record := { small.record 0 with commanded := some 100, confirmed := some 100 } } }

theorem test_windowStart : ((next running (.windowStart .zero)).window .zero).start = some (seconds 20) := by decide +kernel

theorem test_offMark : ((next running (.offMark .zero .top)).window .zero).offMark.top = none ∧
    ((next running (.offMark .zero .top)).record 0).commanded = some 0 := by decide +kernel

theorem test_segmentTimers : ((next running (.shortTimerExpired .zero)).cav .zero).short = none ∧
    ((next running (.longTimerExpired .zero)).cav .zero).reason = .causeLimit ∧
    ((next running (.soakHoldComplete .zero)).cav .zero).hold = .stopped := by decide +kernel

theorem test_overtime : ((next running (.overtime .zero)).cav .zero).state = .cooldown ∧
    ((next running (.overtime .zero)).cav .zero).reason = .overtime := by decide +kernel

/-- Cavity 0 with its survey, dwell and blind cool timers running. -/
def cavTimers (st : CavState) : State :=
  small.modCav .zero (fun k => { k with state := st, survey := some 1, dwell := some 2, blind := some 3 })

theorem test_cavityTimers : ((next (cavTimers .survey) (.surveyExpired .zero)).cav .zero).reason = .survey ∧
    ((next (cavTimers .cooldown) (.dwellExpired .zero)).cav .zero).state = .release ∧
    ((next (cavTimers .cooldown) (.blindCoolExpired .zero)).cav .zero).blindExpired = true := by decide +kernel

/-- Cavity 0 in LOCKING or RELEASE with its lock in a travel and every timer of the lock running. -/
def travelling (st : CavState) (l : LockState) (held : Bool) (code : Option Nat) : State :=
  ((inState st).modLock .zero (fun k => { k with
    state := l, attempt := 1, held := held, purpose := .plain, leave := some 4, finish := some 5, travel := some 6 })).modRecord 2
      (fun r => { r with confirmed := code })

theorem test_lockTimers :
    ((next (travelling .locking .engaging false none) (.lockLeaveTimerExpired .zero)).lock .zero).purpose = .nextAttempt ∧
    ((next (travelling .release .disengaging false none) (.lockFinishTimerExpired .zero)).lock .zero).jam = .releaseTimeout ∧
    ((next (travelling .release .disengaging false (some 2)) (.lockTravelTimerExpired .zero)).lock .zero).state = .unlocked := by
  decide +kernel

/-- The blower at LOW, with all three of its timers running. -/
def blowing : State := small.modAir (fun a => { a with
  level := .low, runOn := some 7, stall := .arming, arming := some 8, stallTimer := some 9 })

theorem test_blowerTimers : (next blowing .runOnExpired).air.level = .off ∧ (next blowing .armingExpired).air.stall = .watching ∧
    (next blowing .stallTimerExpired).air.stall = .stalled := by decide +kernel

theorem test_busFrameSent : windowOpen.exchange.map Exchange.phase = some (.window (9 * Config.charTime + millis 40)) := by
  decide +kernel

/-! ## Every statement's hypotheses are met: steps, resets, invariants -/

theorem ready_of {s : State} (h : (!s.resetHeld && s.events.isEmpty) = true) : s.Ready := by
  simp only [Bool.and_eq_true, Bool.not_eq_true', List.isEmpty_iff] at h
  exact h

theorem steps_on {s : State} {c : Instr} (h : s.pending = [c]) : ∃ t, step s = .next t := by
  unfold step; rw [h]; cases c <;> exact ⟨_, rfl⟩

theorem runs_on (c : Instr) (s : State) : ∃ t, exec c s = .next t := by cases c <;> exact ⟨_, rfl⟩

theorem met_StepRunsTheFrontOfTheQueue :
    ({ small with pending := [.pollerRun, .linkSilent] } : State).pending = .pollerRun :: [.linkSilent] ∧
    small.pending = [] ∧ small.events = [] ∧ ({ small with resetHeld := true } : State).resetHeld = true := ⟨rfl, rfl, rfl, rfl⟩

theorem met_PowerOnResetClearsTheTraffic : (frameTo 121 20 (List.replicate 40 0)).payload.length ≤ 40 := by decide

theorem met_ResetHeld : (next small .resetInputHeld).resetHeld = true ∧ Instr.pollerRun ≠ .powerOnReset ∧
    Instr.pollerRun ≠ .resetInputHeld := by decide +kernel

/-- A halted cavity, the FAULT line asserted, a command waiting. -/
def faulty : State := { inState .halted with faultOut := true, pending := [.pollerRun] }

theorem met_FaultPinRight : faulty.FaultPinRight ∧ ∃ t, step faulty = .next t :=
  ⟨by unfold State.FaultPinRight; decide +kernel, steps_on rfl⟩

/-- FAULT stands for a lock whose jam reason stands, and for a halted cavity, and for nothing in reset (R184, log 36). -/
theorem test_faultCondition :
    (small.modLock .one (fun k => { k with state := .disengaging, jam := .latchLost })).faultCondition = true ∧
    (small.modLock .one (fun k => { k with state := .disengaging })).faultCondition = false ∧
    (inState .halted).faultCondition = true ∧ ({ inState .halted with resetHeld := true } : State).faultCondition = false := by
  decide +kernel

def entry (tag : Byte) (stage : RelayStage) (hold : Timer) : RelayEntry :=
  { frame := { dest := 20, src := 121, kind := 0x12, tag := tag, payload := [0] }, stage := stage, openedAt := 0,
    stageSince := 0, hold := hold, carriesGrant := false, admitted := false }

/-- `n` open relay entries with the TAGs below `n`, and `m` frames waiting upstream. -/
def busy (n m : Nat) : State := { small with
  relay := (List.range n).map (fun k => entry (BitVec.ofNat 8 k) .queued (some 9)),
  outQueue := List.replicate m (frameTo 121 120 []), pending := [.pollerRun] }

theorem met_PlacesKept : (busy 8 8).PlacesKept ∧ ∃ t, step (busy 8 8) = .next t :=
  ⟨by unfold State.PlacesKept; decide +kernel, steps_on rfl⟩

/-- Grants held to exactly the budget limit. -/
def fullBudget : State :=
  { small.modRecord 0 (fun r => { r with grant := .held }) with limits := { Limits.reset with budget := 50 }, pending := [.pollerRun] }

theorem met_BudgetKept : fullBudget.BudgetKept ∧ fullBudget.heldSum = 50 ∧ ∃ t, step fullBudget = .next t :=
  ⟨by unfold State.BudgetKept; decide +kernel, by decide +kernel, steps_on rfl⟩

def stacked (a : Cause) : StackEntry := { segment := 39, cause := a, longLeft := some 0, holdLeft := none }

/-- Cavity 0 in RUN with a full recovery stack. -/
def deep : State :=
  { ((inState .run).modCav .zero (fun k => { k with
      stack := [stacked .overheat, stacked .ductHot, stacked .loadFault, stacked .linkLost], bank := some .zero })) with
    pending := [.pollerRun] }

theorem met_StacksSound : deep.StacksSound ∧ ∃ t, step deep = .next t :=
  ⟨fun c => by cases c <;> (unfold StackSound; decide +kernel), steps_on rfl⟩

/-- Every counter at its limit and each level of the blower at its least. -/
def counted : State :=
  let full : Counters := { accepted := 65535, crcErrors := 65535, charErrors := 65535, gapAborts := 65535, lengthErrors := 65535,
                           discarded := 65535 }
  { small with
    up := { small.up with count := full }, bus := { small.bus with count := full },
    limits := { Limits.reset with map := { low := 1, mid := 1, high := 1 } }, pending := [.pollerRun] }

theorem met_RangesKept : counted.RangesKept ∧ ∃ t, step counted = .next t :=
  ⟨by unfold State.RangesKept Counters.Bounded; decide +kernel, steps_on rfl⟩

theorem met_OnlyWritesChangeTheTables : Instr.pollerRun.wellFormed = true ∧ mayWriteTables .pollerRun = false ∧
    ∃ t, exec .pollerRun small = .next t := ⟨rfl, rfl, runs_on _ _⟩

/-! ## Ports and receivers -/

/-- `small` with a receiver's stage, stored bytes and first CHECK byte on the bus. -/
def receiving (stage : RxStage) (stored : List Byte) (hi : Option Byte) : State :=
  small.modRx .bus (fun r => { r with stage := stage, stored := stored, crc := 0x29B1, checkHigh := hi, gap := some 9 })

theorem met_Receiver_hunts : small.Ready ∧ (small.port .bus).rx.stage = .hunt ∧ (small.port .upstream).rx.stage = .hunt ∧
    { goodChar with stop := false }.good = false := by
  unfold State.Ready; decide +kernel

theorem met_Receiver_storesTheHeader :
    ((receiving .header [] none).Ready ∧ ((receiving .header [] none).port .bus).rx.stage = .header ∧
      ((receiving .header [] none).port .bus).rx.stored.length < 4) ∧
    ((receiving .header [1, 2, 3] none).Ready ∧ ((receiving .header [1, 2, 3] none).port .bus).rx.stage = .header ∧
      ((receiving .header [1, 2, 3] none).port .bus).rx.stored.length < 4) ∧
    ((receiving .header [1, 2, 3, 4] none).Ready ∧ ((receiving .header [1, 2, 3, 4] none).port .bus).rx.stage = .header ∧
      ((receiving .header [1, 2, 3, 4] none).port .bus).rx.stored.length = 4) ∧
    40 < (41 : Byte).toNat ∧ 1 ≤ (1 : Byte).toNat ∧ (1 : Byte).toNat ≤ 40 ∧ 1 ≤ (40 : Byte).toNat ∧ (40 : Byte).toNat ≤ 40 := by
  unfold State.Ready; decide +kernel

/-- The receiver of the bus in CHECK, a frame without payload stored. -/
def checking (hi : Option Byte) : State := receiving .check [1, 2, 3, 4, 0] hi

theorem met_BodyAndCheckEndTheFrame :
    ((receiving .body [1, 2, 3, 4, 1] none).Ready ∧ ((receiving .body [1, 2, 3, 4, 1] none).port .bus).rx.stage = .body ∧
      ((receiving .body [1, 2, 3, 4, 1] none).port .bus).rx.stored = 1 :: 2 :: 3 :: 4 :: 1 :: []) ∧
    ((checking none).Ready ∧ ((checking none).port .bus).rx.stage = .check ∧ ((checking none).port .bus).rx.checkHigh = none) ∧
    ((checking (some 0x29)).Ready ∧ ((checking (some 0x29)).port .bus).rx.stage = .check ∧
      ((checking (some 0x29)).port .bus).rx.checkHigh = some 0x29 ∧
      ((checking (some 0x29)).port .bus).rx.stored = 1 :: 2 :: 3 :: 4 :: 0 :: []) ∧
    ¬((0x29 : Byte) = highByte ((checking (some 0x29)).port .bus).rx.crc ∧
      (0xB0 : Byte) = lowByte ((checking (some 0x29)).port .bus).rx.crc) ∧
    ((0x29 : Byte) = highByte ((checking (some 0x29)).port .bus).rx.crc ∧
      (0xB1 : Byte) = lowByte ((checking (some 0x29)).port .bus).rx.crc) := by
  unfold State.Ready; decide +kernel

theorem met_FrameOnTheLine : (small.port .bus).rx.stage = .hunt ∧ (frameTo 120 20 []).payload.length ≤ 40 ∧
    (frameTo 120 20 (List.replicate 40 0xA7)).payload.length ≤ 40 := by decide +kernel

theorem met_AbandonedFrames : (receiving .header [] none).Ready ∧ ((receiving .header [] none).port .bus).rx.gap = some 9 ∧
    { goodChar with parity := false }.good = false := by
  unfold State.Ready; decide +kernel

theorem met_UnacceptedFrames : small.Ready ∧
    (∀ f ∈ [frameTo 121 121 [], frameTo 0 121 [], frameTo 1 120 [], frameTo 121 121 (List.replicate 40 0)],
      f.payload.length ≤ 40 ∧ ¬(f.src = 121 ∧ 1 ≤ f.dest.toNat ∧ f.dest.toNat ≤ 120)) ∧
    small.exchange = none ∧ windowOpen.Ready ∧ (frameTo 121 19 []).payload.length ≤ 40 ∧
    ∃ x, windowOpen.exchange = some x ∧ x.isReply windowOpen.now (frameTo 121 19 []) = false :=
  ⟨small_ready, by decide, rfl, ready_of (by decide +kernel), by decide, ⟨_, rfl, by decide +kernel⟩⟩

theorem met_AcceptedFrameMakesTheLinkLive : small.Ready ∧ fromController (.seek 1 [0, 0, 0]) = true ∧
    Instr.wellFormed (.seek 1 [0, 0, 0]) = true ∧ ∃ t, exec (.seek 1 [0, 0, 0]) small = .next t :=
  ⟨small_ready, rfl, rfl, runs_on _ _⟩

theorem met_UpstreamSendsInOrder : (busy 0 2).Ready ∧ (busy 0 2).outQueue = frameTo 121 120 [] :: [frameTo 121 120 []] ∧
    (List.replicate 40 (0 : Byte)).length ≤ 40 := ⟨⟨rfl, rfl⟩, by decide +kernel⟩

/-! ## Traffic and the load bus -/

theorem met_NoPlaceMeansNoEffect : (∀ s ∈ [busy 0 16, busy 8 8], s.Ready ∧ s.placeTest = false) ∧
    isNodeAddress 119 = true ∧ (List.replicate 40 (0 : Byte)).length ≤ 40 ∧ isManagementKind 0x29 = false ∧
    Instr.report 1 [] ∈ [Instr.seek 1 [], .write 1 [], .read 1 [], .validate 1 [], .start 1 [], .cancel 1 [], .clear 1 [],
      .report 1 []] := by
  unfold State.Ready; decide +kernel

theorem met_NodeFramesAreCheckedInOrder : isNodeAddress 1 = true ∧ isNodeAddress 20 = true ∧
    ((busy 8 7).Ready ∧ (busy 8 7).placeTest = true ∧ 8 ≤ (busy 8 7).relay.length) ∧
    ((busy 7 8).Ready ∧ (busy 7 8).placeTest = true ∧ (busy 7 8).relay.length < 8 ∧ ∃ e ∈ (busy 7 8).relay, e.frame.tag = 6) ∧
    (∀ e ∈ (busy 7 8).relay, e.frame.tag ≠ 7) ∧
    (0x12 : Byte) ≠ 0x10 ∧ ∀ i, ((busy 7 8).entry i).cls = .unused ∨ ((busy 7 8).entry i).node ≠ 20 := by
  unfold State.Ready; decide +kernel

/-- What the statement of WITHHELD asks of every state and node. -/
def addressed (s : State) (dest : Byte) (i : Fin 16) : Bool :=
  !s.resetHeld && s.events.isEmpty && isNodeAddress dest && s.placeTest && s.relay.isEmpty && s.loadAt dest == some i

/-- Cavity 0 OPEN, a request for its heater waiting behind one for its fan. -/
def requesting (who : Requester) : State :=
  { (inState .opened).modRecord 0 (fun r => { r with grant := .waiting }) with
    grantQueue := [{ load := 1, requester := .engine, level := 50, joined := 0 }, { load := 0, requester := who, level := 100, joined := 0 }] }

/-- Cavity 0 OPEN, the heaters refused by the Admission Table. -/
def refusing : State := { inState .opened with admission := small.admission.set 0 { action := .refuse, limit := 0 } }

theorem met_AdmissionRefuses :
    (addressed small 11 0 = true ∧ (∀ l : Byte, [] ≠ [l]) ∧ 100 < (101 : Byte).toNat) ∧
    (addressed small 13 2 = true ∧ (small.entry 2).cls = .lock) ∧
    ((small.entry 0).cls.cavityClass = true ∧ (small.entry 0).cavity = .of .zero ∧ (small.cav .zero).state ≠ .opened) ∧
    (addressed (inState .run) 15 4 = true ∧ ((inState .run).entry 4).cls = .converter ∧ ((inState .run).cav .zero).state = .run) ∧
    (addressed { small with stopAsserted := true } 11 0 = true ∧ (small.entry 0).cls.heating = true ∧
      ({ small with stopAsserted := true } : State).stopAsserted = true) ∧
    (addressed (small.modAir (fun a => { a with stall := .stalled })) 11 0 = true ∧
      (small.modAir (fun a => { a with stall := .stalled })).air.stall = .stalled) ∧
    (addressed (requesting .engine) 11 0 = true ∧ ((requesting .engine).record 0).grant = .waiting ∧
      ((requesting .engine).requestOf 0).map GrantRequest.requester = some .engine) ∧
    (addressed refusing 11 0 = true ∧ budgeted (refusing.entry 0).cls = true ∧
      (refusing.admission.get (admissionIndex (refusing.entry 0).cls)).action = .refuse) :=
  ⟨⟨by decide +kernel, fun l => by simp, by decide⟩, by decide +kernel⟩

/-- Cavity 0 OPEN, its heater's grant held, the heaters' level clamped. -/
def admitting : State :=
  { ((inState .opened).modRecord 0 (fun r => { r with grant := .held })) with
    admission := small.admission.set 0 { action := .clamp, limit := 60 } }

theorem admits_of {s : State} {dest tag l : Byte} {i : Fin 16} {x : Nat} (a : addressed s dest i = true ∨
      (isNodeAddress dest = true ∧ s.placeTest = true ∧ s.relay.length < 8 ∧ (∀ e ∈ s.relay, e.frame.tag ≠ tag) ∧
        s.loadAt dest = some i))
    (h : l.toNat ≤ 100 ∧ budgeted (s.entry i).cls = true ∧ s.admissionRefuses i = false ∧
      admissionLevel (s.admission.get (admissionIndex (s.entry i).cls)) l.toNat = some x) :
    s.Admits dest tag l i (if (s.entry i).kind = .switched ∧ 0 < x then 100 else x) := by
  rcases a with a | ⟨a1, a2, a3, a4, a5⟩
  · simp only [addressed, Bool.and_eq_true, Bool.not_eq_true', List.isEmpty_iff, beq_iff_eq] at a
    exact ⟨a.1.1.1.2, a.1.1.2, by simp [a.1.2], by simp [a.1.2], a.2, h.1, h.2.1, h.2.2.1, x, h.2.2.2, rfl⟩
  · exact ⟨a1, a2, a3, a4, a5, h.1, h.2.1, h.2.2.1, x, h.2.2.2, rfl⟩

/-- Cavity 0 OPEN, its heater without a grant, at a confirmed level and with a fault. -/
def ungranted (confirmed : Option Nat) (fault : LoadFault) : State :=
  (inState .opened).modRecord 0 (fun r => { r with confirmed := confirmed, fault := fault })

/-- A controller request of relay entry 9 for the heater waits. -/
def superseding : State :=
  { requesting (.relay 9) with
    relay := [{ frame := { frameTo 11 121 [100] with tag := 9 }, stage := .grantWait, openedAt := 0, stageSince := 0,
                hold := some 9, carriesGrant := false, admitted := true }] }

theorem met_AdmittedDriveGoesByItsGrant :
    (admitting.Admits 11 3 100 0 100 ∧ (admitting.record 0).grant = .held) ∧
    ((ungranted none .noFault).Admits 11 3 0 0 0 ∧ ((ungranted none .noFault).record 0).grant = .noGrant) ∧
    ((ungranted none .mismatch).Admits 11 3 1 0 100 ∧ ((ungranted none .mismatch).record 0).fault ≠ .noFault) ∧
    ((ungranted none .noFault).Admits 11 3 1 0 100 ∧ (ungranted none .noFault).grantQueue = [] ∧
      (ungranted none .noFault).fits 0 = true ∧ (ungranted none .noFault).offCondition 0 = true) ∧
    ((ungranted (some 100) .noFault).Admits 11 3 1 0 100 ∧ (ungranted (some 100) .noFault).offCondition 0 = false) ∧
    (superseding.Admits 11 3 1 0 100 ∧ superseding.Admits 11 3 0 0 0 ∧ (superseding.record 0).grant = .waiting ∧
      (superseding.requestOf 0).map GrantRequest.requester = some (.relay 9)) ∧
    (superseding.relayEntry 9).isSome = true :=
  ⟨⟨admits_of (x := 60) (.inl (by decide +kernel)) (by decide +kernel), by decide +kernel⟩,
    ⟨admits_of (x := 0) (.inl (by decide +kernel)) (by decide +kernel), by decide +kernel⟩,
    ⟨admits_of (x := 1) (.inl (by decide +kernel)) (by decide +kernel), by decide +kernel⟩,
    ⟨admits_of (x := 1) (.inl (by decide +kernel)) (by decide +kernel), by decide +kernel⟩,
    ⟨admits_of (x := 1) (.inl (by decide +kernel)) (by decide +kernel), by decide +kernel⟩,
    ⟨admits_of (x := 1) (.inr (by decide +kernel)) (by decide +kernel),
      admits_of (x := 0) (.inr (by decide +kernel)) (by decide +kernel), by decide +kernel⟩, by decide +kernel⟩

theorem met_BlowerFollows_drive : addressed small 14 3 = true ∧ (small.entry 3).cls = .blower ∧
    ∀ l ∈ [(0 : Byte), 33, 34, 66, 67, 100], l.toNat ≤ 100 := by decide +kernel

/-- An entry of TAG 9 for the heater that carries its grant. -/
def carryingEntry : RelayEntry := { entry 9 .queued (some 9) with frame := { frameTo 11 121 [100] with tag := 9 }, carriesGrant := true }

/-- Relay entry 9 for the heater in QUEUED, carrying the grant the heater holds; entry 8 for a node. -/
def carrying (node : Byte) : State :=
  { small.modRecord 0 (fun r => { r with grant := .held }) with
    normal := [.relayed 9, .relayed 8],
    relay := [carryingEntry,
              { entry 8 .queued (some 9) with frame := { frameTo node 121 [100] with tag := 8 } }] }

/-- Relay entry 9 waits for the heater's grant. -/
def holding : State := { waiting with relay := [{ entry 9 .grantWait (some 9) with frame := { frameTo 11 121 [100] with tag := 9 } }] }

theorem met_HoldExpiry :
    ((busy 1 0).Ready ∧ (busy 1 0).relayEntry 0 = some (entry 0 .queued (some 9)) ∧ (entry 0 .queued (some 9)).hold = some 9 ∧
      (entry 0 .queued (some 9)).carriesGrant = false) ∧
    (holding.Ready ∧ (holding.relayEntry 9).map RelayEntry.stage = some .grantWait ∧ holding.waitingLoad 9 = some 0 ∧
      (holding.record 0).grant = .waiting ∧ (holding.relayEntry 9).map RelayEntry.hold = some (some 9)) ∧
    (∀ node ∈ [(11 : Byte), 20], (carrying node).Ready ∧ (carrying node).relayEntry 9 = some carryingEntry ∧
      (carrying node).loadAt carryingEntry.frame.dest = some 0 ∧ ((carrying node).record 0).grant = .held) ∧
    (∀ node ∈ [(11 : Byte), 20], (((carrying node).relay.filter (fun x => x.frame.tag != 9)).find? (fun x =>
      x.stage == .queued && x.frame.dest == ((carrying node).entry 0).node && isDriveOn x.frame)).isSome = (node == 11)) := by
  unfold State.Ready; decide +kernel

/-- The link LIVE, relay entry 9 an unsent on of the heater, and the fan left on by the controller. -/
def leaving (entries : List RelayEntry) : State :=
  { small.modRecord 1 (fun r => { r with owner := .controller, commanded := some 50 }) with
    live := true, silence := some 9, relay := entries }

theorem met_SilenceTakesOver : (asked.Ready ∧ asked.live = true ∧ asked.silence = some (millis 3000)) ∧
    ((leaving [carryingEntry]).Ready ∧ (leaving [carryingEntry]).live = true ∧ (leaving [carryingEntry]).silence = some 9 ∧
      carryingEntry ∈ (leaving [carryingEntry]).relay ∧ carryingEntry.unsent = true ∧ isDriveOn carryingEntry.frame = true ∧
      (leaving [carryingEntry]).loadAt carryingEntry.frame.dest = some 0 ∧
      budgeted ((leaving [carryingEntry]).entry 0).cls = true) ∧
    ((leaving []).Ready ∧ (leaving []).live = true ∧ (leaving []).silence = some 9 ∧
      (∀ x ∈ (leaving []).relay, x.unsent = false) ∧
      (leaving []).grantQueue = [] ∧ (∀ c ∈ [Which.zero, .one], ((leaving []).cav c).state ≠ .run) ∧
      budgeted ((leaving []).entry 1).cls = true ∧ ((leaving []).record 1).owner = .controller ∧
      ((leaving []).record 1).commanded = some (49 + 1)) :=
  ⟨⟨ready_of (by decide +kernel), by decide +kernel⟩, by unfold State.Ready; decide +kernel, by unfold State.Ready; decide +kernel⟩

/-- An engine DRIVE and a relayed frame wait for the bus. -/
def queued : State := { busy 1 0 with urgent := [.drive 0 0 false], normal := [.relayed 0, .ask 1] }

/-- A relayed frame and an ASK wait for the bus. -/
def relayedNext : State := { queued with urgent := [] }

def askNext : State := { small with normal := [.ask 1] }

/-- An engine DRIVE at the head of the normal queue. -/
def driveNext : State := { small with normal := [.drive 0 100 false, .ask 1] }

theorem met_BusTakes :
    (queued.Ready ∧ queued.exchange = none ∧ queued.urgent = .drive 0 0 false :: []) ∧
    (driveNext.Ready ∧ driveNext.exchange = none ∧ driveNext.urgent = [] ∧ driveNext.normal = .drive 0 100 false :: [.ask 1]) ∧
    (relayedNext.Ready ∧ relayedNext.exchange = none ∧ relayedNext.urgent = [] ∧ relayedNext.normal = .relayed 0 :: [.ask 1] ∧
      relayedNext.relayEntry 0 = some (entry 0 .queued (some 9))) ∧
    (askNext.Ready ∧ askNext.exchange = none ∧ askNext.urgent = [] ∧ askNext.normal = .ask 1 :: []) ∧
    (windowOpen.Ready ∧ windowOpen.exchange.isSome = true) ∧ small.Ready ∧ small.urgent = [] ∧ small.normal = [] := by
  unfold State.Ready; decide +kernel

theorem met_BusTakes_windowOpens : asked.Ready ∧ ∃ x, asked.exchange = some x ∧ x.phase = .sending (9 * Config.charTime) :=
  ⟨ready_of (by decide +kernel), _, rfl, by decide +kernel⟩

/-- An exchange of a party for a frame, in its reply window until 9. -/
def exchanging (party : Party) (expects : Expect) (kind : Byte) (node : Byte) : State :=
  { small with
    now := 9,
    exchange := some { frame := { dest := node, src := 120, kind := kind, tag := 7, payload := [0] }, phase := .window 9,
                       windowLength := 3, expects := expects, party := party } }

def stateReply : Frame := { dest := 120, src := 11, kind := 0x11, tag := 7, payload := [100, 1] }

def readingReply : Frame := { dest := 120, src := 20, kind := 0x13, tag := 7, payload := [0, 0, 0x08, 0x98] }

theorem met_AcceptedReply :
    (∃ x, (exchanging (.drive 0 100 true) .state 0x10 11).exchange = some x ∧ x.phase = .window 9 ∧
      (exchanging (.drive 0 100 true) .state 0x10 11).now ≤ 9 ∧ stateReply.src = x.frame.dest ∧ stateReply.dest = x.frame.src ∧
      stateReply.tag = x.frame.tag ∧ x.expects.admits stateReply.kind = true) ∧
    ((exchanging (.drive 0 100 true) .state 0x10 11).Ready ∧ replyLenGood stateReply = true ∧ stateReply.payload.length ≤ 40 ∧
      stateReply.kind = 0x11 ∧ stateReply.payload = [100, 1] ∧
      (exchanging (.drive 0 100 true) .state 0x10 11).loadAt stateReply.src = some 0 ∧
      stateOf ((exchanging (.drive 0 100 true) .state 0x10 11).entry 0).cls 100 1 = some (100, .hot)) ∧
    (∃ x, (exchanging .poller .reading 0x12 20).exchange = some x ∧ x.phase = .window 9 ∧
      (exchanging .poller .reading 0x12 20).now ≤ 9 ∧ readingReply.src = x.frame.dest ∧ readingReply.dest = x.frame.src ∧
      readingReply.tag = x.frame.tag ∧ x.expects.admits readingReply.kind = true) ∧
    (exchanging .poller .reading 0x12 20).Ready ∧ replyLenGood readingReply = true ∧ readingReply.payload.length ≤ 40 ∧
    readingReply.kind = 0x13 ∧ readingReply.payload = [0, 0, 0x08, 0x98] ∧
    (exchanging .poller .reading 0x12 20).bindingFor readingReply.src 0 = some 0 := by
  refine ⟨⟨_, rfl, by decide +kernel⟩, ?_, ⟨_, rfl, by decide +kernel⟩, ?_⟩ <;> unfold State.Ready <;> decide +kernel

/-- An engine off for the heater in its reply window, at an attempt. -/
def offInFlight (a : Attempt) : State :=
  (exchanging (.drive 0 0 true) .state 0x10 11).modRecord 0 (fun r => { r with attempt := a, confirmed := some 100 })

/-- The part when the party of an exchange takes its reply (R33). -/
def tapped (s : State) (f : Frame) : State :=
  (State.tap (State.count { s.modRx .bus Receiver.hunt with exchange := none } .bus Counters.addAccepted) f).settle

/-- The parties of a reply: a relay entry, an engine DRIVE at its attempts, with each outcome; and the two clauses of tapping. -/
theorem met_AcceptedReply_parties :
    ((exchanging (.relay 7) .state 0x10 11).Ready ∧
      ((tapped { exchanging (.relay 7) .state 0x10 11 with relay := [entry 7 .inFlight none] } stateReply).relayEntry 7).isSome = true) ∧
    (((tapped (offInFlight .first) { stateReply with payload := [0, 2] }).record 0).attempt = .first ∧
      ((tapped (offInFlight .again) { stateReply with payload := [0, 2] }).record 0).attempt ≠ .first) ∧
    (stateOf .heater 101 0 = none ∧ stateOf .heater 0 2 = some (0, .fault) ∧ stateOf .heater 100 1 = some (100, .hot) ∧
      stateOf .heater 0 0 = some (0, .ok)) ∧
    ((fullBudget.record 0).grant = .held ∧ fullBudget.grantQueue = [] ∧ fullBudget.normal.find? (fullBudget.isOnFor 0) = none) ∧
    ((carrying 20).normal.find? ((carrying 20).isOnFor 0) = some (.relayed 9) ∧ ((carrying 20).record 0).grant = .held) ∧
    budgeted (small.entry 0).cls = true ∧ (small.record 0).grant = .noGrant := by
  unfold State.Ready; decide +kernel

theorem met_ExpiredWindow :
    (windowOpen.Ready ∧ (windowOpen.relayEntry 9).isSome = true ∧
      ∃ x, windowOpen.exchange = some x ∧ x.party = .relay 9 ∧ ∃ w, x.phase = .window w) ∧
    ((offInFlight .first).Ready ∧ ((offInFlight .first).record 0).attempt = .first ∧
      (offInFlight .first).urgent.any (isDriveFor 0) = false ∧ (offInFlight .first).normal.any (isDriveFor 0) = false ∧
      ∃ x, (offInFlight .first).exchange = some x ∧ x.phase = .window 9 ∧ x.party = .drive 0 0 true) ∧
    ((offInFlight .again).Ready ∧ ((offInFlight .again).record 0).attempt = .again ∧
      ((offInFlight .again).record 0).fault = .noFault ∧ ((offInFlight .again).record 0).confirmed ≠ some 0 ∧
      ∃ x, (offInFlight .again).exchange = some x ∧ x.phase = .window 9 ∧ x.party = .drive 0 0 true) ∧
    (exchanging .poller .reading 0x12 20).Ready ∧
    ∃ x, (exchanging .poller .reading 0x12 20).exchange = some x ∧ x.phase = .window 9 ∧ x.party = .poller :=
  ⟨⟨ready_of (by decide +kernel), by decide +kernel, _, rfl, by decide +kernel, _, rfl⟩,
    ⟨ready_of (by decide +kernel), by decide +kernel, by decide +kernel, by decide +kernel, _, rfl, rfl, rfl⟩,
    ⟨ready_of (by decide +kernel), by decide +kernel, by decide +kernel, by decide +kernel, _, rfl, rfl, rfl⟩,
    ready_of (by decide +kernel), _, rfl, rfl, rfl⟩

theorem met_PollerQueues : small.Ready ∧ (small.binding 0).use ≠ .unused ∧ (small.binding 0).poll = true ∧
    ({ small with normal := [.ask 0] } : State).normal.count (.ask 0) ≤ 1 ∧ small.normal.count (.ask 2) ≤ 1 := by
  unfold State.Ready; decide +kernel

/-! ## Management -/

theorem met_SeekAndRead_seek : small.Ready ∧ small.placeTest = true ∧
    (tableIdOf 4 = some .segments ∧ isBankTable .segments = true ∧ whichOf 1 = some .one ∧
      (39 : Byte).toNat < recordCount .segments) ∧
    (tableIdOf 0 = some .loads ∧ isBankTable .loads = false ∧ (15 : Byte).toNat < recordCount .loads) ∧
    tableIdOf 8 = none ∧ whichOf 2 = none ∧ recordCount .segments ≤ (40 : Byte).toNat ∧
      recordCount .loads ≤ (16 : Byte).toNat := by
  unfold State.Ready; decide +kernel

/-- `small` with the access pointer at a table's record, a cavity's state aside. -/
def pointing (st : CavState) (t : TableId) (index : Nat) : State :=
  { inState st with pointer := { table := t, bank := .zero, index := index } }

/-- One record of the Load Table: an unused entry. -/
def unusedEntry : List Byte := [1, 0, 0, 0, 0, 0, 0]

theorem met_WriteIsWholeOrNothing :
    ((pointing .run .loads 15).Ready ∧ (pointing .run .loads 15).placeTest = true ∧ (pointing .run .loads 15).quiet = false ∧
      isBankTable .loads = false ∧ (pointing .opened .loads 15).Ready ∧ (pointing .opened .loads 15).quiet = true) ∧
    ([0] : List Byte).length % recordSize .loads ≠ 0 ∧ ([] : List Byte).length / recordSize .loads = 0 ∧
    (recordCount .loads < 15 + (unusedEntry ++ unusedEntry).length / recordSize .loads ∧
      (unusedEntry ++ unusedEntry).length % recordSize .loads = 0) ∧
    (15 + unusedEntry.length / recordSize .loads ≤ recordCount .loads ∧ unusedEntry.length % recordSize .loads = 0 ∧
      0 < unusedEntry.length / recordSize .loads) ∧
    ((pointing .run .causes 5).Ready ∧ isBankTable .causes = true ∧
      5 + [(40 : Byte)].length / recordSize .causes ≤ recordCount .causes ∧
      ((pointing .run .causes 5).heard.writeOwner .causes .zero 5 (chunks 1 1 [40])).toOption.isSome = true) ∧
    ((pointing .opened .admission 3).Ready ∧ (pointing .opened .admission 3).quiet = true ∧
      3 + ([3, 0] : List Byte).length / recordSize .admission ≤ recordCount .admission ∧
      ((pointing .opened .admission 3).heard.writeOwner .admission .zero 3 (chunks 2 1 [3, 0])).toOption = none) := by
  unfold State.Ready; decide +kernel

theorem met_BankWrite : 0 < (({ small with banks := small.banks.set .zero { Bank.reset with binds := 1 } } : State).bank .zero).binds ∧
    (small.bank .zero).binds = 0 ∧ isBankTable .segments = true ∧ (Bank.reset.store .causes 5 [[40]]).toOption.isSome = true ∧
    (Bank.reset.store .segments 39 [List.replicate 15 0xFF]).toOption = none := by decide +kernel

theorem met_SeekAndRead_read : small.Ready ∧ (1 : Byte).toNat ≤ 40 ∧ 1 ≤ (40 : Byte).toNat ∧ 1 ≤ (1 : Byte).toNat ∧
    (40 : Byte).toNat ≤ 40 ∧ small.placeTest = true := by
  unfold State.Ready; decide +kernel

def goodLimits : BankLimits :=
  { startLimit := 99, release := 100, dwell := 0, blind := 600, maxCycle := 600, overshoot := 10, riseMin := 2, ceiling := 600,
    causeLimit := Vector.replicate 6 1, coolFan := 0 }

def goodBank : Bank := { Bank.reset with limits := goodLimits, state := .valid }

theorem met_ValidateGivesTheFirstFinding : small.Ready ∧ small.placeTest = true ∧
    ({ small with banks := small.banks.set .zero goodBank } : State).Ready ∧
    ({ small with banks := small.banks.set .zero goodBank } : State).bank .zero = goodBank ∧ validateBank goodBank = none ∧
      (validateBank (small.bank .zero)).isSome = true ∧
    whichOf 0 = some .zero := by
  unfold State.Ready; decide +kernel

theorem met_ReportAndMalformed : small.Ready ∧ small.placeTest = true ∧ (small.heard.snapshot 0 0).isSome = true ∧
    small.heard.snapshot 200 0 = none ∧
    isManagementKind 0x1F = false ∧ isManagementKind 0x29 = false ∧ ([0, 0] : List Byte).length ≠ 3 ∧
      ([] : List Byte).length ≠ 1 ∧
    (List.replicate 40 (0 : Byte)).length ≠ 2 ∧ (List.replicate 40 (0 : Byte)).length ≤ 40 := by
  unfold State.Ready; decide +kernel

/-- A relayed frame, an ASK and an engine request wait when the link is reset. -/
def resetting : State := { requesting .engine with normal := [.relayed 0, .ask 1], relay := [entry 0 .queued (some 9)] }

theorem met_LinkReset : ((busy 8 8).Ready ∧ (List.replicate 40 (0 : Byte)).length ≤ 40) ∧ resetting.Ready ∧
    (QItem.ask 1 ∈ resetting.normal ∧ ∀ x ∈ [(0 : Byte)], QItem.ask 1 ≠ .relayed x) ∧
    ∃ r ∈ resetting.grantQueue, r.load = 0 ∧ ∀ r' ∈ resetting.grantQueue, r'.load = r.load → r'.requester = .engine := by
  unfold State.Ready; decide +kernel

/-! ## The cleaning cycle -/

def numReading (v : Int) : ChanRecord :=
  { state := .live, latest := some (.num v), previous := some (.num v), quality := some .good, goodRun := 2, badRun := 0,
    lastGood := some 0, stale := some (seconds 5) }

/-- Cavity 0 OPEN with its lock unlocked, its door closed and its probe cool, and bank 0 valid; the heater and the fan at a level. -/
def startable (level : Nat) : State :=
  let on (r : LoadRecord) : LoadRecord := { r with commanded := some level, confirmed := some level }
  let s := (((inState .opened).modLock .zero (fun k => { k with state := .unlocked })).modRecord 0 on).modRecord 1 on
  let closed : ChanValue := .door .closed .retracted
  { (s.modBank .zero (fun _ => goodBank)) with
    chans := (s.chans.set 0 { binding := s.binding 0, record := numReading 99 }).set 1
      { binding := s.binding 1, record := { numReading 0 with latest := some closed, previous := some closed } } }

theorem met_StartBindsTheBank :
    small.Ready ∧ small.placeTest = true ∧ (startable 0).Ready ∧ (startable 50).Ready ∧ (startable 50).placeTest = true ∧
    (startable 50).grantQueue = [] ∧ (startable 50).relay = [] ∧
    (whichOf 0 = some .zero ∧ (39 : Byte).toNat < 40 ∧ (startable 0).placeTest = true ∧ (startable 0).grantQueue = [] ∧
      (startable 0).relay = []) ∧
    small.heard.startRefusal .zero .zero 0 = some (codeCavityBusy, []) ∧
    ((startable 50).heard.startRefusal .zero .zero 39 = none ∧ 0 ∈ (startable 50).cavityLoads .zero ∧
      ((startable 50).record 0).confirmed ≠ some 0) ∧
    ((startable 0).heard.startRefusal .zero .zero 39 = none ∧
      (∀ i ∈ (startable 0).cavityLoads .zero, ((startable 0).record i).confirmed = some 0) ∧
      ((startable 0).lock .zero).state = .unlocked ∧ ((startable 0).motor .zero).isSome = true) := by
  unfold State.Ready; decide +kernel

/-- `startable` with its loads off, and its lock without a motor, or JAMMED. -/
def motorless : State := { startable 0 with loads := (startable 0).loads.set 2 { entry := LoadEntry.reset, record := LoadRecord.fresh } }

def jammedAtStart : State := (startable 0).modLock .zero (fun k => { k with state := .jammed, jam := .latchLost })

theorem met_StartBindsTheBank_locking :
    (∀ s ∈ [motorless, jammedAtStart], s.Ready ∧ s.placeTest = true ∧ s.grantQueue = [] ∧ s.relay = [] ∧
      s.heard.startRefusal .zero .zero 39 = none ∧ ∀ i ∈ s.cavityLoads .zero, (s.record i).confirmed = some 0) ∧
    ((motorless.lock .zero).state = .unlocked ∧ (motorless.motor .zero).isSome = false) ∧
    (jammedAtStart.lock .zero).state = .jammed := by
  unfold State.Ready; decide +kernel

theorem test_start : ((next (startable 50) (.start 6 [0, 0, 39])).cav .zero).state = .prepare ∧
    ((next (startable 0) (.start 6 [0, 0, 39])).lock .zero).state = .engaging ∧
    ((next motorless (.start 6 [0, 0, 39])).cav .zero).reason = .lockEngage ∧
    ((next jammedAtStart (.start 6 [0, 0, 39])).cav .zero).reason = .lockJam := by decide +kernel

theorem met_CancelAndClear_cancel :
    (∀ s ∈ [inState .prepare, inState .locking, (inState .locking).modCav .zero (fun k => { k with backOff := .door }), running,
      inState .survey, inState .opened, inState .cooldown, inState .release, inState .halted],
      s.Ready ∧ s.placeTest = true) ∧
    whichOf 0 = some .zero ∧ ((inState .prepare).cav .zero).state = .prepare ∧
    (((inState .locking).cav .zero).state = .locking ∧ ((inState .locking).cav .zero).backOff = .noBackOff) ∧
    (((inState .locking).modCav .zero (fun k => { k with backOff := .door })).cav .zero).backOff ≠ .noBackOff ∧
    (running.cav .zero).state = .run ∧
    ∀ st ∈ [CavState.survey, .opened, .cooldown, .release, .halted], ((inState st).cav .zero).state = st := by
  unfold State.Ready; decide +kernel

/-- Cavity 0 halted, with a cool probe. -/
def haltedCool : State :=
  let s := inState .halted
  { s with chans := s.chans.set 0 { binding := s.binding 0, record := numReading 99 } }

theorem met_CancelAndClear_clear : (haltedCool.Ready ∧ haltedCool.placeTest = true ∧ (inState .halted).Ready ∧ small.Ready) ∧
    ((haltedCool.cav .zero).state = .halted ∧ haltedCool.heard.clearSafe .zero = true) ∧
    ((inState .halted).cav .zero).state = .halted ∧ (inState .halted).heard.clearSafe .zero = false ∧
    (small.cav .zero).state ≠ .halted ∧ ({ small with stopAsserted := true } : State).stopAsserted = true := by
  unfold State.Ready; decide +kernel

theorem met_Stop : ((inState .prepare).Ready ∧ (inState .prepare).stopAsserted = false ∧ (inState .prepare).Active .zero) ∧
    ((inState .release).Ready ∧ (inState .release).stopAsserted = false ∧ (inState .release).Active .zero) ∧
    ((inState .opened).Ready ∧ (inState .opened).stopAsserted = false ∧ ((inState .opened).cav .zero).state = .opened) ∧
    (((leaving [{ carryingEntry with admitted := true }]).Ready ∧ (leaving [carryingEntry]).stopAsserted = false) ∧
      (leaving [{ carryingEntry with admitted := true }]).relayEntry 9 = some { carryingEntry with admitted := true } ∧
      carryingEntry.unsent = true ∧ small.loadAt carryingEntry.frame.dest = some 0 ∧ (small.entry 0).cls.heating = true) ∧
    (small.relay = [] ∧ small.grantQueue = [] ∧ small.stopAsserted = false) ∧
    ({ small with stopAsserted := true } : State).Ready ∧ ({ small with stopAsserted := true } : State).stopAsserted = true := by
  unfold State.Ready State.Active; decide +kernel

theorem met_Survey_expires : (cavTimers .survey).Ready ∧ ((cavTimers .survey).cav .zero).survey = some 1 := ⟨⟨rfl, rfl⟩, by decide +kernel⟩

/-- `small` with cavity 0 confirmed by travel time. -/
def timed : State := { small with limits := { small.limits with mode := small.limits.mode.set .zero .timed } }

theorem met_Survey_decides : (small.cav .zero).state = .survey ∧ (small.lock .zero).state = .unknown ∧
    small.limits.mode.get .zero ≠ .timed ∧ timed.limits.mode.get .zero = .timed ∧ small.stopAsserted = false ∧
    small.air.stall ≠ .stalled ∧ ({ small with stopAsserted := true } : State).stopAsserted = true := by decide +kernel

/-- What a survey finds decides as the findings stand (R98). -/
theorem test_surveyDecides :
    ((small.decideSurvey .zero .closed .retracted).cav .zero).state = .opened ∧
    ((small.decideSurvey .zero .closed .extended).cav .zero).state = .cooldown ∧
    ((small.decideSurvey .zero .opened .extended).cav .zero).state = .halted ∧
    ((small.decideSurvey .zero .closed .absent).cav .zero).state = .halted ∧
    ((timed.decideSurvey .zero .closed .absent).cav .zero).state = .cooldown ∧
    ((timed.decideSurvey .zero .opened .absent).cav .zero).state = .opened := by decide +kernel

def segment (kind : SegKind) : Segment := { Segment.zero with kind := kind, next := 39 }

theorem met_ZeroTimeSegments : (segment .check).kind = .check ∧ (segment .mark).kind = .mark ∧ (segment .fin).kind = .fin ∧
    (segment .ret).kind = .ret ∧ (small.cav .zero).stack = [] ∧
    ((deep.cav .zero).stack = stacked .overheat :: [stacked .ductHot, stacked .loadFault, stacked .linkLost] ∧
      (deep.cav .zero).pending = Vector.replicate 6 false) ∧
    (small.segmentAt .zero 0).kind.timed = false ∧
    ((small.modCav .zero (fun k => { k with zeroRun := 8 })).cav .zero).zeroRun = 8 := by decide +kernel

theorem met_EndedCycle : running.Ready ∧ (running.cav .zero).state = .run ∧ (running.cav .zero).firstFault = none ∧
    Reason.overtime ≠ .complete ∧ (running.cav .zero).elapsed = .running 0 ∧ (running.limitsOfCav .zero).isSome = true ∧
    ((running.modCav .zero (fun k => { k with firstFault := some (small.faultNow .zero .stop) })).cav .zero).firstFault ≠ none :=
  ⟨ready_of (by decide +kernel), by decide +kernel⟩

/-- Cavity 0 in RUN on a bank whose limit of each cause is 1, with cause vectors. -/
def causing : State := { deep with banks := deep.banks.set .zero { goodBank with causes := (Vector.replicate 6 0xFF).set 0 39 } }

theorem met_CauseIsCounted : (causing.cav .zero).state = .run ∧ (causing.cav .zero).bank = some .zero ∧
    (causing.cav .zero).counts.get Cause.overheat.index + 1 ≤ (causing.bank .zero).limits.causeLimit.get Cause.overheat.index ∧
    (causing.bank .zero).causes.get Cause.overheat.index ≠ 0xFF ∧ (causing.bank .zero).causes.get Cause.timeout.index = 0xFF ∧
    4 ≤ (causing.cav .zero).stack.length ∧
    (((causing.modCav .zero (fun k => { k with stack := k.stack.drop 1 })).cav .zero).stack.length < 4) ∧
    (causing.bank .zero).limits.causeLimit.get Cause.overheat.index <
      ((causing.modCav .zero (fun k => { k with counts := Vector.replicate 6 1 })).cav .zero).counts.get Cause.overheat.index + 1 := by
  decide +kernel

theorem met_SegmentTimers : running.Ready ∧ (running.cav .zero).short = some 3 ∧ (running.cav .zero).long = some 4 ∧
    (small.cav .zero).state ≠ .run ∧ (running.cav .zero).hold = .running 6 ∧
    (deep.cav .zero).stack = stacked .overheat :: [stacked .ductHot, stacked .loadFault, stacked .linkLost] ∧
    (stacked .overheat).cause ≠ .linkLost ∧ (deep.cav .zero).pending = Vector.replicate 6 false :=
  ⟨ready_of (by decide +kernel), by decide +kernel⟩

theorem met_DwellAndBlindCool : (cavTimers .cooldown).Ready ∧ ((cavTimers .cooldown).cav .zero).dwell = some 2 ∧
    ((cavTimers .cooldown).cav .zero).blind = some 3 ∧ (small.motor .zero).isSome = true ∧ (small.motor .one).isSome = false ∧
    ∀ l ∈ [LockState.unknown, .unlocked, .engaging, .locked, .disengaging, .jammed],
      ((small.modLock .zero (fun k => { k with state := l })).lock .zero).state = l := ⟨⟨rfl, rfl⟩, by decide +kernel⟩

/-! ## Lock, blower, loads and channels -/

theorem met_LockTimers :
    ((travelling .locking .engaging false none).Ready ∧ (travelling .run .engaging true none).Ready ∧
      (travelling .release .disengaging false none).Ready ∧ (travelling .locking .engaging false (some 1)).Ready ∧
      (travelling .release .disengaging false (some 2)).Ready) ∧
    ((travelling .run .engaging true none).lock .zero).state = .engaging ∧
      ((travelling .run .engaging true none).lock .zero).leave = some 4 ∧
    ((travelling .release .disengaging false none).lock .zero).finish = some 5 ∧
    ((travelling .locking .engaging false (some 1)).lock .zero).travel = some 6 ∧
    ((travelling .locking .engaging false (some 1)).lock .zero).state = .engaging ∧
    ((travelling .release .disengaging false (some 2)).lock .zero).travel = some 6 ∧
    ((travelling .release .disengaging false (some 2)).lock .zero).state = .disengaging ∧
    ((travelling .locking .engaging false none).lock .zero).leave = some 4 ∧
      ((travelling .locking .engaging false none).lock .zero).finish = some 5 ∧
    (((travelling .locking .engaging false none).lock .zero).travel = some 6 ∧
      (travelling .locking .engaging false none).motorConfirmed .zero ≠ some 1 ∧
      (travelling .locking .engaging false none).motorConfirmed .zero ≠ some 2) ∧
    (((travelling .locking .engaging false none).lock .zero).state = .engaging ∧
      ((travelling .locking .engaging false none).lock .zero).held = false) ∧
    ((travelling .run .engaging true none).lock .zero).held = true ∧
      ((travelling .release .disengaging false none).lock .zero).state = .disengaging ∧
    ((travelling .locking .engaging false (some 2)).Ready ∧
      (travelling .locking .engaging false (some 2)).motorConfirmed .zero ≠ some 1 ∧
      ((travelling .locking .engaging false (some 2)).lock .zero).travel = some 6 ∧
      (travelling .release .disengaging false (some 1)).Ready ∧
      (travelling .release .disengaging false (some 1)).motorConfirmed .zero ≠ some 2 ∧
      ((travelling .release .disengaging false (some 1)).lock .zero).travel = some 6) ∧
    (travelling .locking .engaging false (some 1)).motorConfirmed .zero = some 1 ∧
    (travelling .release .disengaging false (some 2)).motorConfirmed .zero = some 2 ∧
    ((travelling .release .disengaging false (some 2)).lock .zero).purpose = .plain ∧
    (∀ p ∈ [Purpose.nextAttempt, .failed],
      let s := (travelling .locking .disengaging false (some 2)).modLock .zero (fun k => { k with purpose := p })
      s.Ready ∧ (s.lock .zero).travel = some 6 ∧ (s.lock .zero).state = .disengaging ∧ s.motorConfirmed .zero = some 2 ∧
        (s.lock .zero).purpose = p) ∧
    ((travelling .locking .engaging false none).modLock .zero (fun k => { k with attempt := 2 })).Ready := by
  unfold State.Ready; decide +kernel

/-- The premises of each clause on door reports: the confirm modes, the states, the purposes; and a GOOD reading of DOOR0. -/
theorem met_DoorReports :
    (small.limits.mode.get .zero = .position ∧ timed.limits.mode.get .zero ≠ .position) ∧
    (∀ l ∈ [LockState.unknown, .unlocked, .engaging, .locked, .disengaging, .jammed],
      ((small.modLock .zero (fun k => { k with state := l })).lock .zero).state = l) ∧
    (∀ h ∈ [false, true], ((travelling .locking .engaging h none).lock .zero).held = h) ∧
    (∀ p ∈ [Purpose.plain, .nextAttempt, .failed],
      (((travelling .locking .disengaging false none).modLock .zero (fun k => { k with purpose := p })).lock .zero).purpose = p) ∧
    (small.binding 1).use = .door .zero ∧ readValue (.door .zero) 0 0x01 0x02 = (.good, some (.door .closed .extended)) := by
  decide +kernel

/-- The converter's record in a state, its demand as a context may have left it. -/
def converterAt (g : Grant) (level : Nat) (f : LoadFault) (demand : Bool) : State :=
  (small.modRecord 4 (fun r => { r with grant := g, commanded := some level, confirmed := some level, fault := f })).modAir
    (fun a => { a with convDemand := demand })

theorem met_Converter : small.sharedLoad .converter = some 4 ∧ State.reset.sharedLoad .converter = none ∧ small.grantQueue = [] ∧
    (small.entry 4).cls = .converter ∧ ConvField.wants .on = true ∧ ConvField.wants .onNeedsLit = true ∧
      ConvField.wants .off = false ∧
    ((small.air.convCav.get .one).wants = false ∧ small.air.convDemand = false) ∧
    (((small.modAir (fun a => { a with convCav := a.convCav.set .one .on })).air.convCav.get (otherCav .zero)).wants = true) ∧
    (((converterAt .held 0 .noFault false).record 4).grant = .held ∧
      ((converterAt .held 0 .noFault false).record 4).standsAt 100 = false) ∧
    ((converterAt .held 100 .noFault false).record 4).standsAt 100 = true ∧
    (((converterAt .noGrant 0 .noFault false).record 4).grant = .noGrant ∧
      ((converterAt .noGrant 0 .noFault false).record 4).fault = .noFault) ∧
    ((converterAt .noGrant 0 .mismatch false).record 4).fault ≠ .noFault ∧
      (converterAt .noGrant 100 .noFault true).air.convDemand = true := by
  decide +kernel

/-- The tachometer LIVE after two GOOD readings at 600, and the SPEED watch in a state. -/
def speeding (w : WatchState) (goodRun : Nat) : State :=
  { small.modChan 2 (fun _ => { numReading 600 with goodRun := goodRun }) with
    watches := { small.watches with speed := { side := .atOrAbove, level := 600, state := w } } }

/-- The tachometer's record after one more GOOD reading. -/
def spun (lo : Byte) : ChanRecord := readInto 0 (seconds 5) (numReading 600) (readValue .tacho 0 0x02 lo)

/-- The blower at LOW, its stall check in a state, with a stall timer. -/
def checkingStall (k : StallCheck) (t : Timer) : State :=
  small.modAir (fun a => { a with level := .low, stall := k, stallTimer := t })

theorem met_Readings :
    ((speeding .notMet 2).watch .speed).state = .notMet ∧
    confirmedOn ((speeding .notMet 2).channel .tacho) .atOrAbove 600 = true ∧
    confirmedOn ((speeding .notMet 1).channel .tacho) .atOrAbove 600 = false ∧
    (((speeding .met 2).watch .speed).state = .met ∧ ((speeding .met 2).channel .tacho).quality = some .good ∧
      valueMeets .atOrAbove 601 ((speeding .met 2).channel .tacho).latest = false ∧
      valueMeets .atOrAbove 600 ((speeding .met 2).channel .tacho).latest = true) ∧
    (small.watch .speed).state = .cleared ∧ WatchId.dip ≠ .speed ∧
    (speeding .notMet 2).bindingOfUse (watchUse .speed) = some 2 ∧
    confirmedOn (spun 0x58) .atOrAbove 600 = true ∧
    ((spun 0x57).state = .live ∧ (spun 0x57).quality = some .good ∧ valueMeets .atOrAbove 600 (spun 0x57).latest = false) ∧
    ((checkingStall .watching none).air.stall = .watching ∧ (checkingStall .watching none).air.stallTimer = none) ∧
    ((checkingStall .stalled none).air.stall = .stalled ∧ (checkingStall .stalled none).air.level ≠ .off ∧
      (checkingStall .stalled none).air.stallTimer = none ∧ ((checkingStall .stalled none).bindingOfUse .tacho).isSome = true ∧
      ((checkingStall .stalled none).sharedLoad .blower).isSome = true ∧
      ((checkingStall .stalled none).watch .speed).state ≠ .met ∧
      (((speeding .met 2).modAir (fun a => { a with level := .low, stall := .stalled })).watch .speed).state = .met) ∧
    (confirmedOn ((speeding .met 2).channel .tacho) .atOrAbove 600 = true ∧
      confirmedOn ((speeding .met 2).channel .tacho) .atOrAbove 601 = false) ∧
    (State.reset.bindingOfUse .tacho).isSome = false := by decide +kernel

theorem met_BlowerTimers : blowing.Ready ∧ blowing.air.runOn = some 7 ∧ blowing.air.arming = some 8 ∧
    blowing.air.stallTimer = some 9 ∧
    blowing.air.level ≠ .off ∧ (blowing.watch .speed).state ≠ .met ∧ blowing.RangesKept ∧
    (blowing.modCav .one (fun k => { k with state := .locking })).Active .one :=
  ⟨⟨rfl, rfl⟩, by decide +kernel, by decide +kernel, by decide +kernel, by decide +kernel, by decide +kernel,
    by unfold State.RangesKept Counters.Bounded; decide +kernel, .inr (.inl (by decide +kernel))⟩

/-- Cavity 0's window running with its end due. -/
theorem met_WindowsStart : running.Ready ∧ (running.window .zero).ends = some (seconds 20) ∧
    (running.window .zero).offMark.get .top = some 2 ∧ running.heater .zero .top = some 0 :=
  ⟨ready_of (by decide +kernel), by decide +kernel⟩

/-- `running` on a bank whose TOP duty is 50 % at every target, its lock LOCKED, and its heater's record. -/
def heating (duty : Nat) (r : LoadRecord) : State :=
  { (running.modLock .zero (fun k => { k with state := .locked })) with
    banks := running.banks.set .zero { goodBank with
      duty := Vector.replicate 8 { threshold := some 0, top := duty, bottom := 0, rear := 0 } },
    chans := running.chans.set 0 { binding := running.binding 0, record := numReading 0 },
    loads := running.loads.set 0 { entry := running.entry 0, record := r } }

theorem met_WindowsStart_heaters :
    let fresh := LoadRecord.fresh
    let at100 : LoadRecord := { fresh with grant := .held, commanded := some 100, confirmed := some 100 }
    let due (d : Nat) (r : LoadRecord) : Nat :=
      treatDuty 20 ((State.dutiesFor { heating d r with now := seconds 20 } .zero ((heating d r).presentSegment .zero).target).get .top)
    (∀ r ∈ [fresh, at100, { fresh with grant := .held }, { fresh with fault := .mismatch }],
      (heating 50 r).Ready ∧ ((heating 50 r).window .zero).ends = some (seconds 20) ∧ (heating 50 r).heater .zero .top = some 0 ∧
        due 50 r = 50 ∧ due 0 r = 0 ∧ ((heating 50 r).cav .zero).state = .run ∧ ((heating 50 r).lock .zero).state = .locked ∧
        (heating 50 r).grantQueue = [] ∧ (heating 50 r).record 0 = r) ∧
    at100.standsAt 100 = true ∧ LoadRecord.standsAt { fresh with grant := .held } 100 = false := by
  unfold State.Ready; decide +kernel

theorem met_MinimumOffTime : waiting.Ready ∧ waiting.minOff = some 5 ∧
    (∃ r : GrantRequest, waiting.grantQueue = [r] ∧ r.requester = .relay 9 ∧ r.load = 0) ∧ (waiting.record 0).fault = .noFault ∧
    waiting.fits 0 = true ∧ State.offCondition { waiting with now := max waiting.now 5 } 0 = true :=
  ⟨⟨rfl, rfl⟩, by decide +kernel, ⟨_, rfl, rfl, rfl⟩, by decide +kernel⟩

theorem met_StaleChannel : tachoLive.Ready ∧ (tachoLive.chanRecord 2).stale = some 9 ∧ (tachoLive.chanRecord 2).state = .live :=
  ⟨ready_of (by decide +kernel), by decide +kernel⟩

theorem met_InsideExpiries : insideExpiry (.dwellExpired .zero) = true ∧
    ∃ t, exec (.dwellExpired .zero) (cavTimers .cooldown) = .next t :=
  ⟨rfl, runs_on _ _⟩

/-! ## What the wider statements ask for -/

theorem met_SeekAndRead_end : (pointing .opened .loads 16).Ready ∧ (pointing .opened .loads 16).placeTest = true ∧
    (pointing .opened .loads 16).pointer.index = recordCount .loads ∧ 1 ≤ (1 : Byte).toNat ∧ (40 : Byte).toNat ≤ 40 ∧
    40 < (41 : Byte).toNat ∧ [0, 16, 0] ∈ sent (next (pointing .opened .loads 16) (.read 6 [1])) := by
  unfold State.Ready; decide +kernel

/-- An unused entry at node 1, as `unusedEntry` lays it out. -/
def unusedAt1 : LoadEntry :=
  { node := 1, cls := .unused, cavity := .of .zero, position := .nowhere, rated := 0, minOff := 0, kind := .switched }

theorem firstBad_of {α : Type} {read : List Byte → Option α} {good bad : List Byte} (h : read good ≠ none ∧ read bad = none) :
    FirstBad read [good, bad] 1 ∧ FirstBad read [bad] 0 :=
  ⟨⟨[good], bad, [], rfl, rfl, by simpa using h.1, h.2⟩, [], bad, [], rfl, rfl, by simp, h.2⟩

/-- The entry that `small` holds at 0 after a WRITE of one record there. -/
def written0 (e : LoadEntry) : LoadEntry := storedAt 0 [e] 0 (small.entry 0)

theorem met_LoadsWrite :
    (FirstBad loadEntryOf [unusedEntry, List.replicate 7 0] 1 ∧ FirstBad loadEntryOf [List.replicate 7 0] 0) ∧
    [unusedEntry].map loadEntryOf = [unusedAt1].map some ∧
    ((small.entry 0).cls ≠ .unused ∧ written0 unusedAt1 ≠ small.entry 0 ∧
      fullBudget.loads.map LoadSlot.entry = small.loads.map LoadSlot.entry ∧
      (fullBudget.record 0).grant ≠ .noGrant ∧ QItem.drive 0 0 false ∈ queued.urgent ∧
        QItem.drive 0 100 false ∈ driveNext.normal ∧
      (offInFlight .first).exchange.map Exchange.party = some (.drive 0 0 true)) ∧
    ((∀ i, (small.record i).grant = .noGrant) ∧ small.urgent = [] ∧ small.normal = [] ∧ small.exchange = none) ∧
    ((written0 { unusedAt1 with cls := .blower, cavity := .of .zero }).cavity ≠ .shared ∧
      (written0 { unusedAt1 with cls := .lock, cavity := .shared }).cavity = .shared ∧
      ((written0 { unusedAt1 with cls := .heater, cavity := .of .zero }).cls = .heater ∧
        (written0 { unusedAt1 with cls := .heater, cavity := .of .zero }).position = .nowhere) ∧
      (written0 { unusedAt1 with cls := .lamp, cavity := .of .zero, position := .at .rear }).position ≠ .nowhere ∧
      (written0 { unusedAt1 with cls := .lamp, cavity := .of .zero, node := 12 }).node = (small.entry 1).node ∧
      (written0 { unusedAt1 with cls := .fan, cavity := .of .zero }).cavity = (small.entry 1).cavity) :=
  ⟨firstBad_of (by decide), by decide +kernel⟩

/-- The entries of `small` after a WRITE of an unused entry at the table's end. -/
def afterLast (i : Fin 16) : LoadEntry := storedAt 15 [unusedAt1] i.val (small.entry i)

theorem met_LoadsWrite_stores :
    (∀ i : Fin 16, (afterLast i).cls ≠ .unused → afterLast i = small.entry i) ∧
    (∀ i j : Fin 16, (afterLast i).cls ≠ .unused → (afterLast j).cls ≠ .unused → j ≠ i →
      (afterLast i).node ≠ (afterLast j).node ∧ (afterLast i).cls ≠ (afterLast j).cls) ∧
    (small.writeOwner .loads .zero 15 [unusedEntry]).toOption.isSome = true ∧
    (small.writeOwner .loads .zero 0 [loadEntryBytes { unusedAt1 with cls := .lamp, cavity := .of .zero, node := 12 }]).toOption.isSome =
      false := by decide +kernel

/-- SPEED MET on a tachometer that is LIVE. -/
def speedSeen : State := { tachoLive with watches := { tachoLive.watches with speed := { side := .atOrAbove, level := 600, state := .met } } }

theorem met_ChannelsWrite :
    (FirstBad bindingOf [[0, 1, 0, 0], [0, 0, 0, 0]] 1 ∧ FirstBad bindingOf [[0, 0, 0, 0]] 0) ∧
    [[0, 1, 0, 0]].map bindingOf = [Binding.mk .unused 1 0 false].map some ∧
    (storedAt 7 [Binding.mk .tacho 30 0 false] 7 (small.binding 7)).use = (small.binding 2).use ∧
    ((storedAt 7 [Binding.mk .bay 21 0 false] 7 (small.binding 7)).node = (small.binding 2).node ∧
      (storedAt 7 [Binding.mk .bay 21 0 false] 7 (small.binding 7)).channel = (small.binding 2).channel) ∧
    (∀ i j : Fin 8, (small.binding i).use ≠ .unused → (small.binding j).use ≠ .unused → j ≠ i →
      (small.binding i).use ≠ (small.binding j).use) ∧
    (small.writeOwner .channels .zero 2 [[0, 1, 0, 0]]).toOption.isSome = true ∧
    ((speedSeen.watch .speed).state = .met ∧ (speedSeen.channel (watchUse .speed)).state = .live ∧
      (speedSeen.binding 2).use = .tacho ∧
      (storedAt 2 [Binding.mk .unused 1 0 false] 2 (speedSeen.binding 2)).use ≠ (speedSeen.binding 2).use) :=
  ⟨firstBad_of (by decide), by decide +kernel⟩

theorem met_AdmissionAndLimits :
    (FirstBad admissionOf [[0, 100], [0, 101]] 1 ∧ FirstBad admissionOf [[0, 101]] 0) ∧
    [[1, 100]].map admissionOf = [AdmissionRecord.mk .clamp 100].map some ∧ limitsOf [] = none ∧
    (∀ l ∈ [Limits.reset, { Limits.reset with budget := 49 }, { Limits.reset with budget := 50, dip := 100, duct := 400, light := 200, bay := 80 },
        { Limits.reset with map := { low := 1, mid := 1, high := 1 } }, { Limits.reset with tacho := { low := 0, mid := 0, high := 0 } }],
      limitsOf (limitsBytes l) = some l) ∧
    fullBudget.heldSum = 50 ∧ blowing.sharedLoad .blower = some 3 ∧ blowing.air.level = .low ∧ Limits.reset.map.at .low ≠ 1 ∧
    Limits.reset.tacho.at .low ≠ 0 ∧ Limits.reset.dip ≠ 100 ∧ Limits.reset.duct ≠ 400 ∧ Limits.reset.light ≠ 200 ∧
      Limits.reset.bay ≠ 80 :=
  ⟨firstBad_of (by decide), by decide +kernel⟩

theorem met_BankStore :
    (FirstBad segmentOf [segmentBytes Segment.zero, List.replicate 15 0xFF] 1 ∧ FirstBad segmentOf [List.replicate 15 0xFF] 0) ∧
    (FirstBad dutyBandOf [[0x80, 0, 1, 2, 3], [0, 0, 101, 0, 0]] 1 ∧ FirstBad dutyBandOf [[0, 0, 101, 0, 0]] 0) ∧
    [segmentBytes Segment.zero].map segmentOf = [Segment.zero].map some ∧
    [[0x80, 0, 1, 2, 3]].map dutyBandOf = [DutyBand.zero].map some ∧
    [[0x02, 0x58, 100, 100, 100]].map dutyBandOf = [DutyBand.mk (some 600) 100 100 100].map some ∧
    [[(40 : Byte)]] = [(40 : Byte)].map (fun v => [v]) ∧ bankLimitsOf [] = none ∧
    bankLimitsOf (bankLimitsBytes goodLimits) = some goodLimits :=
  ⟨firstBad_of (by decide +kernel), firstBad_of (by decide +kernel), by decide +kernel, by decide +kernel, by decide +kernel, rfl, rfl, by decide +kernel⟩

/-- `goodBank` with the same record at every index of its Segment Table. -/
def bankOf (g : Segment) : Bank := { goodBank with segments := Vector.replicate 40 g }

/-- A bank fails checks 1, 4 and 8 where the finding says so. -/
theorem met_Fails : (small.bank .zero).Fails { check := .limitsUnset, table := .bankLimits, index := 0 } ∧
    (bankOf { Segment.zero with kind := .mark, next := 40 }).Fails { check := .nextIndex, table := .segments, index := 39 } ∧
    Bank.Fails { goodBank with duty := goodBank.duty.set 7 { DutyBand.zero with threshold := some 0 } }
      { check := .bandOrder, table := .duty, index := 7 } :=
  ⟨⟨⟨rfl, rfl⟩, by decide +kernel⟩, ⟨rfl, 39, rfl, by decide +kernel, by decide⟩, ⟨rfl, 6, 7, rfl, rfl, by decide +kernel, by decide +kernel⟩⟩

theorem test_validate_order :
    validateBank (bankOf { Segment.zero with kind := .ramp, next := 40 }) = some { check := .nextIndex, table := .segments, index := 0 } ∧
    validateBank (bankOf { Segment.zero with kind := .ramp, next := 39 }) = some { check := .rampDuration, table := .segments, index := 0 } := by
  decide +kernel

theorem met_Range : small.Ready ∧ small.placeTest = true ∧ 1 < (2 : Byte).toNat ∧ ¬1 < (1 : Byte).toNat ∧ 40 ≤ (40 : Byte).toNat ∧
    Instr.validate 6 [2] ∈ [Instr.validate 6 [2], .cancel 6 [2], .clear 6 [2]] ∧
      [3] ∈ sent (next small (.start 6 [0, 0, 40])) := by
  unfold State.Ready; decide +kernel

theorem met_Snapshots : whichOf 0 = some .zero ∧ whichOf 1 = some .one ∧
    ((small.modBank .zero Bank.validated).bank .zero).finding = some { check := .limitsUnset, table := .bankLimits, index := 0 } ∧
    (running.window .zero).period = some 20 ∧ ((next running (.windowStart .zero)).window .zero).duty.isSome = true ∧
    ((running.endCycle .zero .overtime).cav .zero).firstFault.isSome = true ∧ (small.entry 0).cls ≠ .unused ∧
    ((0 : Byte).toNat ≤ 1 ∧ (1 : Byte) ≠ 0) ∧ 16 ≤ (16 : Byte).toNat ∧ 8 ≤ (8 : Byte).toNat ∧ 2 ≤ (2 : Byte).toNat ∧
      4 ≤ (4 : Byte).toNat ∧
    7 ≤ (7 : Byte).toNat := by decide +kernel

theorem met_Notices : CavState.run ≠ (small.cav .zero).state ∧ LockState.locked ≠ (small.lock .zero).state ∧
    (next small .linkSilent).outQueue.length ≤ 16 := by decide +kernel

/-- `startable` at one of the refusals of R100. -/
def refusedAt (k : Nat) : State :=
  let s := startable 0
  match k with
  | 0 => s.modBank .zero (fun b => { b with segments := Vector.replicate 40 { Segment.zero with kind := .ret } })
  | 1 => { s with stopAsserted := true }
  | 2 => s.modAir (fun a => { a with stall := .stalled })
  | 3 => s.modChan 1 (fun r => { r with goodRun := 1 })
  | 4 => s.modChan 0 (fun r => { r with state := .stale })
  | _ => s.modChan 0 (fun r => { r with latest := some (.num 100) })

theorem met_StartRefusals :
    ((small.cav .zero).state ≠ .opened ∧ small.startRefusal .zero .zero 0 = some (10, [])) ∧
    (((inState .opened).bank .zero).state ≠ .valid ∧ (inState .opened).startRefusal .zero .zero 0 = some (7, [])) ∧
    (∀ k ∈ [0, 1, 2, 3, 4, 5], ((refusedAt k).cav .zero).state = .opened ∧ ((refusedAt k).bank .zero).state = .valid ∧
      (refusedAt k).startRefusal .zero .zero 39 = some (11, [BitVec.ofNat 8 k])) ∧
    (startable 0).startRefusal .zero .zero 39 = none ∧ (startable 0).startRefusal .one .zero 39 = some (10, []) := by decide +kernel

/-- Relay entry 9 admitted, unsent, for a node. -/
def admittedEntry (node : Byte) : RelayEntry := { entry 9 .queued (some 9) with frame := frameTo node 121 [100], admitted := true }

theorem met_Withdrawals :
    (∀ s ∈ [{ startable 0 with relay := [{ admittedEntry 11 with frame := { frameTo 11 121 [100] with tag := 9 } }] }],
      s.Ready ∧ s.placeTest = true ∧ s.heard.startRefusal .zero .zero 39 = none ∧
        (s.relayEntry 9).map RelayEntry.unsent = some true ∧
        (s.relayEntry 9).map RelayEntry.admitted = some true ∧ s.loadAt 11 = some 0 ∧ 0 ∈ s.cavityLoads .zero) ∧
    ∀ s ∈ [{ small with relay := [admittedEntry 15] }], s.relayEntry 7 = some (admittedEntry 15) ∧
      (admittedEntry 15).unsent = true ∧
      (admittedEntry 15).admitted = true ∧ s.loadAt 15 = some 4 ∧ (s.entry 4).cls = .converter := by
  unfold State.Ready; decide +kernel

/-- Cavity 0 halted on no bank, its probe LIVE and confirmed at a temperature. -/
def haltedAt (t : Int) : State :=
  let s := inState .halted
  { s with chans := s.chans.set 0 { binding := s.binding 0, record := numReading t } }

theorem met_CancelAndClear_safe :
    (((haltedAt 300).channel (.probe .zero)).state = .live ∧ ((haltedAt 300).cav .zero).bank = none ∧
      (haltedAt 300).clearSafe .zero = true ∧
      (haltedAt 301).clearSafe .zero = false) ∧
    ({ haltedAt 300 with stopAsserted := true } : State).clearSafe .zero = false ∧
    ((haltedAt 300).modAir (fun a => { a with stall := .stalled })).clearSafe .zero = false ∧
    (((inState .halted).channel (.probe .zero)).state ≠ .live ∧ ((inState .halted).cav .zero).blindExpired = false ∧
      ((inState .halted).modCav .zero (fun k => { k with blindExpired := true })).clearSafe .zero = true) := by decide +kernel

/-- Cavity 0's survey has started. -/
def reading0 : State := small.modCav .zero (fun k => { k with stage := .reading })

theorem met_Survey_starts :
    ((small.cav .zero).state = .survey ∧ (small.cav .zero).stage = .waiting ∧ small.grantQueue = [] ∧
      0 ∈ small.cavityLoads .zero) ∧
    ((small.binding 0).use = .probe .zero ∧ (small.binding 1).use = .door .zero ∧ (small.entry 2).cls = .lock ∧
      (small.entry 2).cavity = .of .zero) ∧
    ((small.cav .one).state = .survey ∧ ∀ n, (small.binding n).use ≠ .probe .one) ∧
    (reading0.cav .zero).stage ≠ .waiting ∧ ((inState .opened).cav .zero).state ≠ .survey ∧ small.stopAsserted = false ∧
    ((small.surveyAfterWrite .zero false).cav .zero).survey = some (seconds 10) ∧
      reading0.surveyAfterWrite .zero false = reading0 := by
  decide +kernel

/-- Cavity 0 in RUN, its recovery stack full and a cause pending. -/
def deepPending (a : Cause) : State := deep.setPending .zero a true

theorem met_ZeroTime_returns :
    (((deepPending .overheat).cav .zero).stack = stacked .overheat :: [stacked .ductHot, stacked .loadFault, stacked .linkLost] ∧
      ((deepPending .overheat).cav .zero).pending.get Cause.overheat.index = true ∧ (∀ d : Fin 6, ¬d < Cause.overheat.index) ∧
      Cause.overheat.index < (stacked .ductHot).cause.index) ∧
    ((small.cav .zero).zeroRun < 8 ∧ (small.modCav .zero (fun k => { k with zeroRun := 7 })).cavs.zero.zeroRun < 8 ∧
      (small.segmentAt .zero 0).kind ∉ [SegKind.ramp, .soak, .cool]) ∧
    ((haltedAt 300).probeTemp .zero = some 300 ∧
      (haltedAt 300).checkHolds .zero { Segment.zero with cond := .tempAtOrBelow, target := 300 } = true ∧
      (haltedAt 300).checkHolds .zero { Segment.zero with cond := .tempAtOrBelow, target := 299 } = false ∧
      (haltedAt 300).checkHolds .zero { Segment.zero with cond := .tempAtOrAbove, target := 300 } = true) ∧
    ((inState .locking).checkHolds .one { Segment.zero with cond := .otherCavityActive } = true ∧
      small.checkHolds .zero { Segment.zero with cond := .cycleTimeAtLeast, duration := 0 } = true ∧
      small.checkHolds .zero { Segment.zero with cond := .mainsNormal } = false ∧
      small.checkHolds .zero { Segment.zero with cond := .converterLit } = false) := by decide +kernel

/-- Cavity 0 in RUN at 0 degrees on a bank of one segment, its heater and fan in a record. -/
def onSegment (g : Segment) (r : LoadRecord) : State :=
  ((heating 50 LoadRecord.fresh).modBank .zero (fun b => { b with segments := Vector.replicate 40 g })).modRecord 1 (fun _ => r)

def ramp (short : Nat) (converter : ConvField) : Segment :=
  { Segment.zero with kind := .ramp, target := 100, band := 5, duration := 60, short := short, fan := 50, converter := converter }

theorem met_TimedSegments :
    (∀ k ∈ [SegKind.ramp, .soak, .cool],
      ((onSegment { Segment.zero with kind := k } LoadRecord.fresh).segmentAt .zero 39).kind = k) ∧
    (∀ s ∈ [onSegment (ramp 0 .off) { LoadRecord.fresh with grant := .held }, onSegment (ramp 30 .onNeedsLit) { LoadRecord.fresh with fault := .mismatch }],
      (s.cav .zero).bank = some .zero ∧ s.cavLoad .zero .fan = some 1 ∧ s.grantQueue = [] ∧ s.air.lit = false ∧
        s.probeTemp .zero = some 0 ∧ 0 < (s.segmentAt .zero 0).fan ∧ s.heater .zero .top = some 0) ∧
    (((onSegment (ramp 0 .off) { LoadRecord.fresh with grant := .held }).record 1).grant = .held ∧
      ((onSegment (ramp 0 .off) { LoadRecord.fresh with grant := .held }).record 1).standsAt 50 = false ∧
      ((onSegment (ramp 30 .onNeedsLit) { LoadRecord.fresh with fault := .mismatch }).record 1).fault ≠ .noFault ∧
      ((onSegment (ramp 30 .onNeedsLit) LoadRecord.fresh).record 1).grant = .noGrant) ∧
    ((ramp 0 .off).converter ≠ .onNeedsLit ∧ (ramp 0 .off).short = 0 ∧ 0 < (ramp 30 .on).short ∧ Segment.zero.fan = 0 ∧
      seconds 0 = 0 ∧ 0 < seconds 1 ∧ (0 : Int) - 0 ≤ 0 ∧ (0 : Int) < 1 - 0) ∧
    (((onSegment (ramp 30 .off) LoadRecord.fresh).enterTimed .zero 0 (some (some 7, none))).cav .zero).long = some 7 ∧
    (((onSegment { Segment.zero with kind := .soak } LoadRecord.fresh).enterTimed .zero 0 (some (none, some 7))).cav .zero).hold = .running 7 ∧
    (((onSegment { Segment.zero with kind := .soak, target := 1 } LoadRecord.fresh).enterTimed .zero 0 (some (none, some 7))).cav .zero).hold =
      .standing 7 := by decide +kernel

theorem met_CausesAreRaised :
    ((running.cav .zero).state = .run ∧ (small.cav .zero).state ≠ .run ∧ (small.entry 0).cls ∈ [LoadClass.heater, .fan, .lamp] ∧
      (small.entry 0).cavity = .of .zero ∧ ((inState .prepare).cav .zero).state = .prepare) ∧
    ((running.cav .zero).stack = [] ∧ (running.cav .zero).pending = Vector.replicate 6 false) ∧
    (((deep.cav .zero).stack.head?.map StackEntry.cause) = some .overheat ∧ Cause.overheat.index ≤ Cause.ductHot.index ∧
      Cause.ductHot ≠ .timeout ∧ (∀ d : Fin 6, ((deep.cav .zero).pending.set Cause.ductHot.index true).get d = true →
        d = Cause.ductHot.index)) ∧
    (∀ k ∈ [SegKind.ramp, .soak, .cool], ((onSegment { Segment.zero with kind := k } LoadRecord.fresh).presentSegment .zero).kind = k ∧
      ((onSegment { Segment.zero with kind := k } LoadRecord.fresh).cav .zero).segment = some 0) ∧
    ((onSegment { Segment.zero with kind := .soak } LoadRecord.fresh).cav .zero).hold = .running 6 := by decide +kernel

/-- Cavity 0 in LOCKING, backing off or not. -/
def backingOff (b : BackOff) : State := (inState .locking).modCav .zero (fun k => { k with backOff := b })

/-- Cavity 0 in PREPARE with each of its loads commanded and confirmed 0. -/
def preparedOff : State :=
  { inState .prepare with loads := small.loads.map (fun l => { l with
    record := { LoadRecord.fresh with commanded := some 0, confirmed := some 0 } }) }

theorem met_ContextsAct_reports :
    ((∀ b ∈ [BackOff.noBackOff, .cancelled, .door, .probeLost], ((backingOff b).cav .zero).state = .locking ∧
        ((backingOff b).cav .zero).backOff = b) ∧
      LockReport.engageAborted ∈ [LockReport.locked, .engageFailed, .engageAborted] ∧
      (∀ j, LockReport.locked ≠ .jammed j)) ∧
    ((∀ st ∈ [CavState.survey, .opened, .prepare, .locking, .run, .cooldown, .release, .halted],
        ((inState st).cav .zero).state = st) ∧
      (inState .release).cavLoad .zero .fan = some 1 ∧
      ((inState .release).handle (.lock .zero .unlocked)).urgent ≠ []) ∧
    (∀ e ∈ [ChanState.unknown, .stale, .failed, .unbound], e ≠ .live) := by
  refine ⟨⟨by decide +kernel, by decide, fun j => by cases j <;> decide⟩, by decide +kernel, by decide⟩

theorem met_ContextsAct_prepare :
    ((preparedOff.cav .zero).state = .prepare ∧ (∀ j ∈ preparedOff.cavityLoads .zero,
        (preparedOff.record j).commanded = some 0 ∧ (preparedOff.record j).confirmed = some 0) ∧
      (preparedOff.entry 0).cls ∈ [LoadClass.heater, .fan, .lamp] ∧ (preparedOff.entry 0).cavity = .of .zero ∧
      ((preparedOff.handle (.stateTapped 0)).cav .zero).state = .locking) ∧
    (0 ∈ (inState .prepare).cavityLoads .zero ∧ ((inState .prepare).record 0).confirmed ≠ some 0 ∧
      (inState .prepare).handle (.stateTapped 0) = inState .prepare) := by decide +kernel

theorem met_ContextsAct_dwell :
    (((cavTimers .cooldown).cav .zero).state = .cooldown ∧ ((cavTimers .cooldown).cav .zero).bank = none ∧
      (((cavTimers .cooldown).handle (.watch (.release .zero) true)).cav .zero).dwell = some (seconds 120)) ∧
    ∀ d ∈ [0, 1],
      let s := (inState .cooldown).modCav .zero (fun k => { k with bank := some .zero })
      let s1 := s.modBank .zero (fun b => { b with limits := { goodLimits with dwell := d } })
      (s1.cav .zero).bank = some .zero ∧ (s1.bank .zero).limits.dwell = d ∧
        ((s1.handle (.watch (.release .zero) true)).cav .zero).state = (if d = 0 then .release else .cooldown) := by
  decide +kernel

theorem met_ContextsAct_lock :
    (∀ l ∈ [LockState.unknown, .unlocked, .engaging, .locked, .disengaging, .jammed],
      ((travelling .locking l false none).lock .zero).state = l) ∧
    ((small.motor .zero).isSome = true ∧ (small.motor .one).isSome = false ∧ (small.lock .one).state = .unknown ∧
      (small.engageLock .one).events = [.lock .one .engageFailed]) ∧
    ((((travelling .release .disengaging false none).halt .zero .lockJam).lock .zero).state = .engaging ∧
      (((travelling .run .locked false none).halt .zero .stop).lock .zero).held = true) := by decide +kernel

/-- The controller alone asks for the blower. -/
def asking : State := small.modAir (fun a => { a with controllerDemand := .low, level := .low })

theorem met_BlowerFollows :
    ({ small.air with bayDemand := .off } = small.air ∧ ({ small.air with bayDemand := .high } : Airflow).highest = .high ∧
      small.air.highest = .off ∧ asking.air.highest = .low ∧
        ({ asking.air with controllerDemand := .off } : Airflow).highest = .off) ∧
    (asking.limits.runOn ≠ 0 ∧ ({ asking with limits := { asking.limits with runOn := 0 } } : State).limits.runOn = 0) ∧
    (small.air.level ≠ .low ∧ asking.air.level ≠ .off ∧ small.sharedLoad .blower = some 3 ∧ (small.binding 2).use = .tacho ∧
      (small.entry 3).cls = .blower ∧ ∀ n, (State.reset.binding n).use ≠ .tacho) ∧
    (asking.air.stall = .idle ∧ (checkingStall .arming none).air.stall = .arming ∧
      (checkingStall .stalled none).air.stall = .stalled ∧
      asking.refreshAble.air.stall = .arming ∧ ({ asking with loads := State.reset.loads } : State).refreshAble = { asking with loads := State.reset.loads }) :=
  by decide +kernel

theorem met_BlowerFollows_ranges : small.RangesKept ∧ asking.RangesKept := by
  unfold State.RangesKept Counters.Bounded; decide +kernel

/-- Cavity 0 in a RAMP that waits for LIT. -/
def awaitingLit (short : Nat) : State :=
  (onSegment (ramp short .onNeedsLit) LoadRecord.fresh).modCav .zero (fun k => { k with litWait := true })

theorem met_LitAndDuties :
    ((small.cav .zero).litWait = false ∧ ((awaitingLit 0).cav .zero).litWait = true ∧
      ((awaitingLit 0).presentSegment .zero).short = 0 ∧
      0 < ((awaitingLit 30).presentSegment .zero).short ∧ (awaitingLit 30).probeTemp .zero = some 0) ∧
    (((heating 50 LoadRecord.fresh).cav .zero).bank = some .zero ∧ (heating 50 LoadRecord.fresh).probeTemp .zero = some 0 ∧
      (∀ i, (((heating 50 LoadRecord.fresh).bank .zero).duty.get i).threshold = some 0) ∧ (0 : Int) ≤ 0 - 0 ∧
        ¬(0 : Int) ≤ -1 - 0 ∧
      ((heating 50 LoadRecord.fresh).dutiesFor .zero 0).top = 50 ∧ ((heating 50 LoadRecord.fresh).dutiesFor .zero (-1)).top = 0 ∧
      ((awaitingLit 0).dutiesFor .zero 0).top = 0) := by decide +kernel

theorem met_StaleChannel_watches :
    (speedSeen.Ready ∧ (speedSeen.chanRecord 2).stale = some 9 ∧ WatchId.speed ∈ watchesOn (speedSeen.binding 2).use ∧
      (speedSeen.watch .speed).state = .met ∧ WatchId.dip ∉ watchesOn (speedSeen.binding 2).use) ∧
    ((tachoLive.modChan 2 (fun r => { r with state := .failed })).chanRecord 2).state ≠ .live := by
  unfold State.Ready; decide +kernel

/-- The tachometer's record FAILED, at a good run. -/
def failedRecord (goodRun : Nat) : ChanRecord := { numReading 600 with state := .failed, goodRun := goodRun, stale := none }

theorem met_ReadingsAreRead :
    ((numReading 0).state ≠ .unbound ∧ (failedRecord 0).state = .failed ∧ (failedRecord 0).goodRun = 0 ∧
      1 ≤ (failedRecord 1).goodRun ∧
      Quality.openCircuit ≠ .good ∧ 3 ≤ (3 : Byte).toNat) ∧
    (Use.bay ∈ [Use.probe .zero, .bay, .duct] ∧ readValue .bay 0 0xFF 0x9C = (.good, some (.num (-100))) ∧
      readValue .bay 0 0xFF 0x9B = (.outOfRange, none) ∧ readValue .duct 0 0x05 0x78 = (.good, some (.num 1400)) ∧
      readValue .duct 0 0x05 0x79 = (.outOfRange, none) ∧ readValue .mains 0 0x01 0x2C = (.good, some (.num 300)) ∧
      readValue .mains 0 0x01 0x2D = (.outOfRange, none) ∧ readValue .tacho 0 0x23 0x29 = (.outOfRange, none)) ∧
    (1 < (2 : Byte).toNat ∧ 3 < (4 : Byte).toNat ∧ readValue (.door .zero) 0 1 3 = (.good, some (.door .closed .absent))) := by
  decide +kernel

theorem met_LinkLost : ∀ s ∈ [{ running with live := true, silence := some 9 }], s.Ready ∧ s.live = true ∧ s.silence = some 9 ∧
    (s.cav .zero).state = .run ∧ (s.cav .zero).bank ≠ none ∧ (s.cav .zero).stack = [] ∧
    (s.cav .zero).pending = Vector.replicate 6 false := by
  unfold State.Ready; decide +kernel

/-- R72, R126: a watch set anew keeps the events it has given, and gives those of its own state. -/
theorem test_setWatch_keeps_events :
    let u := { speeding .met 2 with events := [Event.watch .speed true] }
    (u.setWatch .speed .atOrAbove 601).events = [.watch .speed true, .watch .speed false] ∧
    ((u.setWatch .speed .atOrAbove 601).setWatch .speed .atOrAbove 600).events =
      [.watch .speed true, .watch .speed false, .watch .speed true] ∧
    (u.setWatch .speed .atOrAbove 600).events = [.watch .speed true] := by decide +kernel

/-- R166: SPEED MET clears a stall only while SPEED is MET as it is acted on. -/
theorem test_speedMet_afterLapse :
    let s (w : WatchState) := (speeding w 2).modAir (fun a => { a with level := .low, stall := .stalled })
    (s .met).speedMet.air.stall = .watching ∧ (s .notMet).speedMet = s .notMet := by decide +kernel

/-- R45, R48: an engine request held back by the heater check makes the ENGINE the owner. -/
theorem test_heaterCheck_owner :
    let s := small.modRecord 0 (fun r => { r with grant := .held, commanded := some 0 })
    s.heaterCheck 0 = false ∧ (s.driveHeld 0 100).record 0 = { s.record 0 with owner := .engine } ∧
      (s.driveHeld 0 100).normal = [] ∧ ((small.grantTo 0 .engine 100).record 0).owner = .engine := by decide +kernel

/-- R178, R188: the CHANNEL report of an unused binding ends with a presence byte of 0. -/
theorem test_unusedChannel : State.reset.snapshot 3 7 = some (bindingBytes (State.reset.binding 7) ++ [0]) ∧
    (small.snapshot 3 0).map List.getLast? = some (some 0) := by decide +kernel

/-! ## Later clauses of the statements -/

/-- A SEGMENTS record of a kind, its target 1100, band 40, fan level 100. -/
def segmentRecord (kind cond marker : Byte) : List Byte :=
  [kind, 0x04, 0x4C, 40, 0, 60, 1, 0, cond, 200, 201, marker, 3, 100, 2]

theorem met_SegmentRecords :
    (segmentOf (segmentRecord 1 9 99) = some { Segment.zero with
      kind := .ramp, target := 1100, band := 40, duration := 60, short := 256, next := 200, blower := .high, fan := 100,
      converter := .onNeedsLit }) ∧
    (segmentOf (segmentRecord 4 1 99) = some { Segment.zero with
      kind := .check, cond := .tempAtOrAbove, target := 1100, next := 200, alternate := 201 }) ∧
    (segmentOf (segmentRecord 4 2 99) = some { Segment.zero with
      kind := .check, cond := .cycleTimeAtLeast, duration := 60, next := 200, alternate := 201 }) ∧
    segmentOf (segmentRecord 5 9 15) = some { Segment.zero with kind := .mark, marker := 15, next := 200 } ∧
    segmentOf (segmentRecord 6 9 99) = some { Segment.zero with kind := .ret } ∧
    (∀ r ∈ [segmentRecord 4 6 0, segmentRecord 5 0 16, segmentRecord 7 0 0, (segmentRecord 1 0 0).set 2 0x4D,
      (segmentRecord 2 0 0).set 3 41, (segmentRecord 3 0 0).set 13 101, (segmentRecord 3 0 0).set 12 4], segmentOf r = none) := by
  decide +kernel

/-- Cavity 0 in LOCKING with its lock in a state. -/
def lockingWith (l : LockState) : State := travelling .locking l false none

theorem met_CancelAndClear_lock :
    (∀ l ∈ [LockState.unknown, .unlocked, .engaging, .locked, .disengaging, .jammed],
      (lockingWith l).Ready ∧ (lockingWith l).placeTest = true ∧ ((lockingWith l).cav .zero).state = .locking ∧
        ((lockingWith l).cav .zero).backOff = .noBackOff ∧ (lockingWith l).motor .zero = some 2 ∧
        ((lockingWith l).lock .zero).state = l) ∧
    ∀ s ∈ [small.modCav .one (fun k => { k with state := .locking })],
      s.Ready ∧ s.motor .one = none ∧ (s.cav .one).state = .locking ∧ (s.cav .one).backOff = .noBackOff := by
  unfold State.Ready; decide +kernel

theorem met_Survey_more :
    (small.modAir (fun a => { a with stall := .stalled })).air.stall = .stalled ∧ (small.motor .zero).isSome = true ∧
    ((small.modAir (fun a => { a with stall := .stalled })).decideSurvey .zero .closed .extended).cavs.zero.reason = .blowerStall ∧
    (waiting.grantQueue ≠ [] ∧ (waiting.cav .zero).state = .survey ∧ 0 ∈ waiting.cavityLoads .zero ∧
      (waiting.surveyAfterWrite .zero true).grantQueue = []) := by decide +kernel

/-- Cavity 0 in RUN on a bank with a cooldown fan level, its fan in a record. -/
def cooling (fan : Nat) (r : LoadRecord) : State :=
  (onSegment Segment.zero r).modBank .zero (fun b => { b with limits := { goodLimits with coolFan := fan } })

theorem met_EndedCycle_fan :
    (∀ r ∈ [{ LoadRecord.fresh with grant := .held }, LoadRecord.fresh, { LoadRecord.fresh with fault := .mismatch }],
      ((cooling 50 r).cav .zero).state = .run ∧ (cooling 50 r).cavLoad .zero .fan = some 1 ∧ (cooling 50 r).grantQueue = [] ∧
        ((cooling 50 r).cav .zero).bank = some .zero ∧ (cooling 50 r).record 1 = r ∧ r.standsAt 50 = false ∧
        (cooling 50 r).heater .zero .top = some 0) ∧
    (((cooling 0 LoadRecord.fresh).endCycle .zero .overtime).record 1).commanded = some 0 ∧
    ((running.modCav .zero (fun k => { k with bank := none })).cav .zero).bank = none := by decide +kernel

theorem met_Halt_converter :
    ∀ s ∈ [(inState .run).modAir (fun a => { a with convDemand := true, convCav := { zero := .on, one := .off } })],
      s.air.convDemand = true ∧ (s.air.convCav.get (otherCav .zero)).wants = false ∧ s.sharedLoad .converter = some 4 ∧
        ((s.halt .zero .stop).record 4).commanded = some 0 ∧ s.heater .zero .top = some 0 := by decide +kernel

theorem met_Timeout_pending :
    (((deepPending .linkLost).cav .zero).stack = stacked .overheat :: [stacked .ductHot, stacked .loadFault, stacked .linkLost] ∧
      ((deepPending .linkLost).cav .zero).pending.get Cause.linkLost.index = true ∧
      (∀ d : Fin 6, ((deepPending .linkLost).cav .zero).pending.get d = true → Cause.overheat.index ≤ d) ∧
      (((deepPending .linkLost).raise .zero .timeout).cav .zero).reason = .timeoutInRecovery) := by decide +kernel

theorem met_Stall_withdraws :
    ∀ s ∈ [{ leaving [{ carryingEntry with admitted := true }] with air := { blowing.air with stallTimer := some 9 } }],
      s.Ready ∧ s.air.level ≠ .off ∧ s.air.stallTimer = some 9 ∧ s.sharedLoad .blower = some 3 ∧
        s.relayEntry 9 = some { carryingEntry with admitted := true } ∧ carryingEntry.unsent = true ∧
        s.loadAt carryingEntry.frame.dest = some 0 ∧ (s.entry 0).cls.heating = true ∧
        (next s .stallTimerExpired).relay = [] := by
  unfold State.Ready; decide +kernel

theorem met_Stall_ranges :
    ({ leaving [{ carryingEntry with admitted := true }] with air := { blowing.air with stallTimer := some 9 } } : State).RangesKept := by
  unfold State.RangesKept Counters.Bounded; decide +kernel

end Sys2Proof.Tests
end

