-- ==== Sys2Proof/Proofs/Ports.lean ====
section
/-! SUPPORT. What a change of a port's receiver or counters does, once, and what a good byte does in each stage of a receiver
(R6 to R8), each as one change of the receiver of its port. -/

namespace Sys2Proof.Machine

/-! ## A port's receiver and counters -/

@[simp] theorem port_modPort (s : State) (p : Port) (f : PortState → PortState) : (s.modPort p f).port p = f (s.port p) := by
  cases p <;> rfl

theorem modPort_modPort (s : State) (p : Port) (f g : PortState → PortState) :
    (s.modPort p f).modPort p g = s.modPort p (fun q => g (f q)) := by
  cases p <;> rfl

/-- A change of a port goes by what the port holds. -/
theorem modPort_congr {s : State} {p : Port} {f g : PortState → PortState} (h : f (s.port p) = g (s.port p)) :
    s.modPort p f = s.modPort p g := by
  cases p
  · exact congrArg (fun q => { s with up := q }) h
  · exact congrArg (fun q => { s with bus := q }) h

@[simp] theorem rx_modRx (s : State) (p : Port) (f : Receiver → Receiver) :
    ((s.modRx p f).port p).rx = f (s.port p).rx := by simp [State.modRx]

@[simp] theorem count_modRx (s : State) (p : Port) (f : Receiver → Receiver) :
    ((s.modRx p f).port p).count = (s.port p).count := by simp [State.modRx]

@[simp] theorem rx_count (s : State) (p : Port) (f : Counters → Counters) :
    ((s.count p f).port p).rx = (s.port p).rx := by simp [State.count]

@[simp] theorem count_count (s : State) (p : Port) (f : Counters → Counters) :
    ((s.count p f).port p).count = f (s.port p).count := by simp [State.count]

@[simp] theorem now_modRx (s : State) (p : Port) (f : Receiver → Receiver) : (s.modRx p f).now = s.now :=
  now_modPort ..

@[simp] theorem events_modRx (s : State) (p : Port) (f : Receiver → Receiver) : (s.modRx p f).events = s.events :=
  events_modPort ..

@[simp] theorem events_count (s : State) (p : Port) (f : Counters → Counters) : (s.count p f).events = s.events :=
  events_modPort ..

@[simp] theorem modRx_modRx (s : State) (p : Port) (f g : Receiver → Receiver) :
    (s.modRx p f).modRx p g = s.modRx p (fun r => g (f r)) := modPort_modPort ..

/-- A change of a receiver goes by what the receiver holds. -/
theorem modRx_congr {s : State} {p : Port} {f g : Receiver → Receiver} (h : f (s.port p).rx = g (s.port p).rx) :
    s.modRx p f = s.modRx p g := modPort_congr (by simp only [h])

/-- The receiver and the counters of a port are apart. -/
theorem modRx_count (s : State) (p : Port) (f : Receiver → Receiver) (g : Counters → Counters) :
    (s.count p g).modRx p f = (s.modRx p f).count p g := by
  cases p <;> rfl

theorem abandon_eq (s : State) (p : Port) (g : Counters → Counters) :
    s.abandon p g = (s.modRx p Receiver.hunt).count p g := modRx_count ..

@[simp] theorem events_abandon (s : State) (p : Port) (g : Counters → Counters) : (s.abandon p g).events = s.events := by
  simp [abandon_eq]

/-- What ends a command leaves the ports' receiving sides alone. -/
@[simp] theorem port_conclude (s : State) (p : Port) : s.conclude.port p = s.port p := by
  obtain ⟨fs, n, h, -⟩ := conclude_eq s
  rw [h]
  cases p <;> rfl

/-! ## A good byte, by the receiver's stage (R6 to R8) -/

/-- R6: HUNT takes SYNC as the start of a frame and lets any other byte go. -/
theorem goodByte_of_hunt {s : State} {p : Port} (h : (s.port p).rx.stage = .hunt) (b : Byte) :
    s.goodByte p b = s.modRx p (fun r =>
      if b = syncByte then
        { stage := .header, stored := [], crc := crcStart, checkHigh := none, gap := some (s.now + gapTime), awaitHigh := false }
      else { r with awaitHigh := false }) := by
  unfold State.goodByte
  simp only [rx_modRx, h]
  unfold State.huntByte
  by_cases hb : b = syncByte
  · simp [hb, State.timer]
  · simp [hb]

/-- R7, R8: a byte is stored, and the line has been seen high. -/
theorem storeByte_eq (s : State) (p : Port) (b : Byte) :
    (s.modRx p (fun r => { r with awaitHigh := false })).storeByte p b = s.modRx p (fun r => storedRx s.now r b) := by
  simp [State.storeByte, storedRx, State.timer]

/-- R7: HEADER stores the byte, then goes by how many it has stored. -/
theorem goodByte_of_header {s : State} {p : Port} (h : (s.port p).rx.stage = .header) (b : Byte) :
    s.goodByte p b = (s.modRx p (fun r => storedRx s.now r b)).afterHeader p := by
  unfold State.goodByte
  simp only [rx_modRx, h, storeByte_eq]

/-- R8: BODY stores the byte, then goes by how many it has stored. -/
theorem goodByte_of_body {s : State} {p : Port} (h : (s.port p).rx.stage = .body) (b : Byte) :
    s.goodByte p b = (s.modRx p (fun r => storedRx s.now r b)).afterBody p := by
  unfold State.goodByte
  simp only [rx_modRx, h, storeByte_eq]

/-- R8: CHECK takes the byte as the first or the second of two. -/
theorem goodByte_of_check {s : State} {p : Port} (h : (s.port p).rx.stage = .check) (b : Byte) :
    s.goodByte p b = (s.modRx p (fun r => { r with awaitHigh := false })).checkByte p b := by
  unfold State.goodByte
  simp only [rx_modRx, h]

/-! ## HEADER after its byte (R7) -/

/-- R7: nothing is tested before the fifth byte. -/
theorem afterHeader_of_short {s : State} {p : Port} (h : (s.port p).rx.stored.length < 5) : s.afterHeader p = s := by
  unfold State.afterHeader
  split
  · rename_i heq
    simp [heq] at h
  · rfl

/-- R7: the fifth byte is LEN, and decides. -/
theorem afterHeader_of_len {s : State} {p : Port} {head : List Byte} {len : Byte}
    (h : (s.port p).rx.stored = head ++ [len]) (hh : head.length = 4) :
    s.afterHeader p = if 40 < len.toNat then s.abandon p Counters.addLength
      else s.rxStage p (if len = 0 then .check else .body) := by
  obtain ⟨dest, src, kind, tag, rfl⟩ := List.length_eq_four.mp hh
  unfold State.afterHeader
  rw [h]
  split_ifs <;> simp_all

/-! ## BODY after its byte (R8) -/

/-- R8: BODY ends once LEN payload bytes are stored. -/
theorem afterBody_of_stored {s : State} {p : Port} {dest src kind tag len : Byte} {payload : List Byte}
    (h : (s.port p).rx.stored = dest :: src :: kind :: tag :: len :: payload) :
    s.afterBody p = if len.toNat ≤ payload.length then s.rxStage p .check else s := by
  unfold State.afterBody
  rw [h]

end Sys2Proof.Machine
end

