-- ==== Sys2Proof/Proofs/Reception.lean ====
section
/-! PROOFS. Reception at a port (R6 to R8): O13 and O14. -/

namespace Sys2Proof.Machine

/-! ## The commands of characters -/

theorem exec_goodByteArrives {s : State} (h : s.Ready) (p : Port) (b : Byte) :
    exec (.goodByteArrives p b) s = .next (s.goodByte p b).settle.conclude := act_of_ready h

/-- A good byte that only changes its port delivers no report, so it ends at once. -/
theorem exec_goodByteArrives_of_eq {s u : State} (h : s.Ready) {p : Port} {b : Byte} (hu : s.goodByte p b = u)
    (he : u.events = s.events) : exec (.goodByteArrives p b) s = .next u.conclude := by
  rw [exec_goodByteArrives h, hu, settle_of_no_events (he.trans h.2)]

/-- R1, R9: a bad character ends the frame in reception with a count; the line is awaited high after a low stop bit. -/
theorem character_of_bad {ch : RawChar} (h : ch.good = false) (s : State) (p : Port) :
    s.character p ch = (s.modRx p (fun r => { r.hunt with awaitHigh := !ch.stop })).count p Counters.addChar := by
  simp [State.character, h, abandon_eq, modRx_count]

theorem exec_badCharacter {s : State} (h : s.Ready) (p : Port) {ch : RawChar} (hc : ch.good = false) :
    exec (.badCharacter p ch) s =
      .next ((s.modRx p (fun r => { r.hunt with awaitHigh := !ch.stop })).count p Counters.addChar).conclude := by
  have he : (s.character p ch).events = [] := by simp [character_of_bad hc, h.2]
  exact (act_of_quiet h he).trans (by rw [character_of_bad hc])

/-! ## HUNT and HEADER (R6, R7) -/

theorem badCharacter_keeps_hunt {s : State} (h : s.Ready) (p : Port) {ch : RawChar} (hc : ch.good = false) :
    ∃ t, exec (.badCharacter p ch) s = .next t ∧ (t.port p).rx.stage = .hunt ∧
      (t.port p).count = { (s.port p).count with charErrors := min 65535 ((s.port p).count.charErrors + 1) } :=
  ⟨_, exec_badCharacter h p hc, by simp [Receiver.hunt], by simp [Counters.addChar, bump]⟩

/-- R7: the first four bytes of HEADER are stored untested. -/
theorem goodByte_of_header_early {s : State} {p : Port} (h : (s.port p).rx.stage = .header)
    (hn : (s.port p).rx.stored.length < 4) (b : Byte) : s.goodByte p b = s.modRx p (fun r => storedRx s.now r b) := by
  rw [goodByte_of_header h, afterHeader_of_short]
  simpa [storedRx] using Nat.succ_lt_succ hn

/-- R7: the fifth byte of HEADER is LEN: above 40 it ends the frame, at 0 CHECK follows, else BODY. -/
theorem goodByte_of_header_len {s : State} {p : Port} (h : (s.port p).rx.stage = .header)
    (hn : (s.port p).rx.stored.length = 4) (b : Byte) :
    s.goodByte p b = if 40 < b.toNat then (s.modRx p (fun r => (storedRx s.now r b).hunt)).count p Counters.addLength
      else s.modRx p (fun r => { storedRx s.now r b with stage := if b = 0 then .check else .body }) := by
  have hs : ((s.modRx p (fun r => storedRx s.now r b)).port p).rx.stored = (s.port p).rx.stored ++ [b] := by
    simp [storedRx]
  rw [goodByte_of_header h, afterHeader_of_len hs hn]
  simp [abandon_eq, State.rxStage]

/-- Settles O13: each clause is the effect of a good byte in HUNT or HEADER, or of a bad character, on the receiver of its
port. -/
theorem receiverHuntsAndStoresTheHeader : Obligations.ReceiverHuntsAndStoresTheHeader := by
  refine ⟨⟨?hunt, ?bad, ?back⟩, ?header⟩
  case hunt =>
    intro s p b hr hst
    exact exec_goodByteArrives_of_eq hr (goodByte_of_hunt hst b) (events_modRx ..)
  case bad =>
    intro s p ch hr hc _
    exact badCharacter_keeps_hunt hr p hc
  case back =>
    intro r
    exact ⟨rfl, rfl, rfl, rfl⟩
  case header =>
    intro s p b hr hst
    refine ⟨fun hn => ?early, fun hn hlen => ?long, fun hn hlen => ?empty, fun hn hpos hlen => ?payload⟩
    case early => exact exec_goodByteArrives_of_eq hr (goodByte_of_header_early hst hn b) (events_modRx ..)
    case long =>
      have hu := goodByte_of_header_len hst hn b
      rw [if_pos hlen] at hu
      exact exec_goodByteArrives_of_eq hr hu (by simp)
    case empty =>
      subst hlen
      exact exec_goodByteArrives_of_eq hr (goodByte_of_header_len hst hn 0) (events_modRx ..)
    case payload =>
      have hne : b ≠ 0 := by rintro rfl; simp at hpos
      have hu := goodByte_of_header_len hst hn b
      simp only [if_neg hlen.not_gt, if_neg hne] at hu
      exact exec_goodByteArrives_of_eq hr hu (events_modRx ..)

/-! ## BODY and CHECK (R8) -/

/-- R8: a payload byte is stored; with LEN of them CHECK follows. -/
theorem goodByte_of_body_stored {s : State} {p : Port} {dest src kind tag len : Byte} {payload : List Byte}
    (h : (s.port p).rx.stage = .body) (hs : (s.port p).rx.stored = dest :: src :: kind :: tag :: len :: payload) (b : Byte) :
    s.goodByte p b = s.modRx p (fun r =>
      { storedRx s.now r b with stage := if len.toNat ≤ payload.length + 1 then .check else .body }) := by
  have hb : ((s.modRx p (fun r => storedRx s.now r b)).port p).rx.stored =
      dest :: src :: kind :: tag :: len :: (payload ++ [b]) := by simp [storedRx, hs]
  rw [goodByte_of_body h, afterBody_of_stored hb, List.length_append, List.length_singleton]
  by_cases hlen : len.toNat ≤ payload.length + 1
  · simp [hlen, State.rxStage]
  · simp only [if_neg hlen]
    exact modRx_congr (by simp [storedRx, h])

/-- R8: the first CHECK byte is stored. -/
theorem goodByte_of_check_first {s : State} {p : Port} (h : (s.port p).rx.stage = .check)
    (hh : (s.port p).rx.checkHigh = none) (b : Byte) :
    s.goodByte p b = s.modRx p (fun r =>
      { r with checkHigh := some b, gap := some (s.now + gapTime), awaitHigh := false }) := by
  rw [goodByte_of_check h]
  simp [State.checkByte, hh, State.timer]

/-- R8: the second CHECK byte ends the frame. -/
theorem goodByte_of_check_second {s : State} {p : Port} {hi : Byte} (h : (s.port p).rx.stage = .check)
    (hh : (s.port p).rx.checkHigh = some hi) (b : Byte) :
    s.goodByte p b = (s.modRx p (fun r => { r with awaitHigh := false })).endCheck p hi b := by
  rw [goodByte_of_check h]
  simp [State.checkByte, hh]

/-- R8: a CHECK other than the CRC register ends the frame with a count. -/
theorem goodByte_of_check_wrong {s : State} {p : Port} {hi b : Byte} (h : (s.port p).rx.stage = .check)
    (hh : (s.port p).rx.checkHigh = some hi) (hw : ¬(hi = highByte (s.port p).rx.crc ∧ b = lowByte (s.port p).rx.crc)) :
    s.goodByte p b = (s.modRx p (fun r => { r.hunt with awaitHigh := false })).count p Counters.addCrc := by
  rw [goodByte_of_check_second h hh]
  simp [State.endCheck, hw, abandon_eq, Receiver.hunt]

/-- R8: a CHECK equal to the CRC register hands the stored frame to acceptance. -/
theorem goodByte_of_check_right {s : State} {p : Port} {hi b dest src kind tag len : Byte} {payload : List Byte}
    (h : (s.port p).rx.stage = .check) (hh : (s.port p).rx.checkHigh = some hi)
    (hs : (s.port p).rx.stored = dest :: src :: kind :: tag :: len :: payload)
    (hhi : hi = highByte (s.port p).rx.crc) (hlo : b = lowByte (s.port p).rx.crc) :
    s.goodByte p b = (s.modRx p (fun r => { r.hunt with awaitHigh := false })).deliver p
      { dest := dest, src := src, kind := kind, tag := tag, payload := payload } := by
  rw [goodByte_of_check_second h hh]
  simp [State.endCheck, hhi, hlo, hs, frameOfStored, Receiver.hunt]

/-- Settles O14: the four clauses are what a good byte does in BODY, and in CHECK as the first byte, as a wrong second byte and
as a right one. -/
theorem bodyAndCheckEndTheFrame : Obligations.BodyAndCheckEndTheFrame := by
  refine ⟨?body, ?first, ?wrong, ?right⟩
  case body =>
    intro s p b dest src kind tag len payload hr hst hs
    exact exec_goodByteArrives_of_eq hr (goodByte_of_body_stored hst hs b) (events_modRx ..)
  case first =>
    intro s p b hr hst hh
    exact exec_goodByteArrives_of_eq hr (goodByte_of_check_first hst hh b) (events_modRx ..)
  case wrong =>
    intro s p b hi hr hst hh hw
    exact exec_goodByteArrives_of_eq hr (goodByte_of_check_wrong hst hh hw) (by simp)
  case right =>
    intro s p b hi dest src kind tag len payload hr hst hh hs hhi hlo
    unfold Answers
    rw [exec_goodByteArrives hr, goodByte_of_check_right hst hh hs hhi hlo]

end Sys2Proof.Machine
end

