-- ==== Sys2Proof/Proofs/TrafficReset.lean ====
section
/-! PROOFS. The traffic state after a power-on reset, and the stray that may follow it (R11, R41): O3. -/

namespace Sys2Proof.Machine

/-! ## A frame on the load bus that is no reply (R11) -/

/-- R11: a frame that is the reply of no exchange in flight is counted as a stray. -/
theorem busFrame_of_not_reply {s : State} {f : Frame} (h : ∀ x, s.exchange = some x → x.isReply s.now f = false) :
    s.busFrame f = s.count .bus Counters.addDiscarded := by
  unfold State.busFrame
  cases hx : s.exchange with
  | none => rfl
  | some x => simp [h x hx]

/-- R7, R11: such a frame, received whole on the load bus, ends its reception and is counted. -/
theorem frameArrives_bus_of_not_reply {s : State} {f : Frame} (hlen : f.payload.length ≤ 40)
    (h : ∀ x, s.exchange = some x → x.isReply s.now f = false) :
    s.frameArrives .bus f = (s.modRx .bus Receiver.hunt).count .bus Counters.addDiscarded := by
  have hfits : payloadFits f.payload = true := decide_eq_true hlen
  unfold State.frameArrives
  rw [if_pos hfits]
  exact busFrame_of_not_reply (s := s.modRx .bus Receiver.hunt) h

/-- R11: a reply that completes with no exchange in flight delivers no report; it is a stray. -/
theorem exec_exchangeReply_of_no_exchange {s : State} {f : Frame} (hr : s.Ready) (hx : s.exchange = none)
    (hlen : f.payload.length ≤ 40) :
    exec (.exchangeReply f) s = .next ((s.modRx .bus Receiver.hunt).count .bus Counters.addDiscarded).conclude := by
  have hstray := frameArrives_bus_of_not_reply hlen (by simp [hx] : ∀ x, s.exchange = some x → x.isReply s.now f = false)
  have hquiet : (s.frameArrives .bus f).events = [] := by simp [hstray, hr.2]
  exact (act_of_quiet hr hquiet).trans (by rw [hstray])

/-- What ends a command leaves the exchange in flight alone. -/
@[simp] theorem exchange_conclude (s : State) : s.conclude.exchange = s.exchange := by
  obtain ⟨fs, n, h, -⟩ := conclude_eq s
  rw [h]

/-- R11: a stray on the load bus leaves no exchange where there was none, and counts once. -/
theorem exchangeReply_counts_stray {s : State} {f : Frame} (hr : s.Ready) (hx : s.exchange = none)
    (hlen : f.payload.length ≤ 40) :
    ∃ u, exec (.exchangeReply f) s = .next u ∧ u.bus.count = s.bus.count.addDiscarded ∧ u.exchange = none := by
  refine ⟨_, exec_exchangeReply_of_no_exchange hr hx hlen, ?count, ?exchange⟩
  case count =>
    calc (((s.modRx .bus Receiver.hunt).count .bus Counters.addDiscarded).conclude.port .bus).count
        = (s.port .bus).count.addDiscarded := by simp
      _ = s.bus.count.addDiscarded := rfl
  case exchange => exact (exchange_conclude _).trans hx

/-! ## The power-on reset state (R41) -/

/-- R185: a part that leaves reset is ready for a command, whatever commands wait. -/
theorem ready_resetAt (now : Time) (waiting : List Instr) : { State.resetAt now with pending := waiting }.Ready := ⟨rfl, rfl⟩

/-- R41: the Admission Table passes every class. -/
theorem admission_resetAt (now : Time) (k : Fin 4) : ((State.resetAt now).admission.get k).action = .pass :=
  congrArg AdmissionRecord.action (Vector.get_replicate 4 _ k)

/-- Settles O3: the reset state holds what R41 lists; having no exchange in flight and a discarded count of 0, it takes a
reply as its first stray. -/
theorem powerOnResetClearsTheTraffic : Obligations.PowerOnResetClearsTheTraffic := by
  intro s
  refine ⟨{ State.resetAt s.now with pending := s.pending }, rfl, rfl, admission_resetAt s.now, rfl, rfl, rfl, rfl, rfl, rfl, rfl,
    fun f hlen => ?stray⟩
  exact exchangeReply_counts_stray (ready_resetAt s.now s.pending) rfl hlen

end Sys2Proof.Machine
end

