-- ==== Sys2Proof/Proofs/Commands.lean ====
section
/-! PROOFS. A command as its own effect between the reports that stand over and the notices: O1, O2, O5, and what every
effect keeps of the invariants of the part: O6 to O11. -/

namespace Sys2Proof.Machine

-- One proof at a time: proofs elaborated side by side ask for more threads than the check's memory limit leaves room for.
set_option Elab.async false

/-! ## A command's own effect -/

/-- The effect of each command's own event, without what surrounds it. The two resets are not taken this way. -/
def effect : Instr → State → State
  | .powerOnReset, s => s
  | .resetInputHeld, s => s
  | .stopAsserted, s => s.assertStop
  | .stopDeasserted, s => s.deassertStop
  | .badCharacter p ch, s => s.character p ch
  | .lengthError p, s => s.abandon p Counters.addLength
  | .crcError p, s => s.abandon p Counters.addCrc
  | .gapAbort p, s => s.gapExpires p
  | .upstreamAddressError f, s => s.frameArrives .upstream f
  | .controllerNodeFrame dest kind tag payload, s =>
    s.frameArrives .upstream { dest := dest, src := 121, kind := kind, tag := tag, payload := payload }
  | .managementBadKind kind tag payload, s => s.frameArrives .upstream (toPart kind tag payload)
  | .seek tag payload, s => s.frameArrives .upstream (toPart 0x20 tag payload)
  | .write tag payload, s => s.frameArrives .upstream (toPart 0x21 tag payload)
  | .read tag payload, s => s.frameArrives .upstream (toPart 0x22 tag payload)
  | .validate tag payload, s => s.frameArrives .upstream (toPart 0x23 tag payload)
  | .start tag payload, s => s.frameArrives .upstream (toPart 0x24 tag payload)
  | .cancel tag payload, s => s.frameArrives .upstream (toPart 0x25 tag payload)
  | .clear tag payload, s => s.frameArrives .upstream (toPart 0x26 tag payload)
  | .report tag payload, s => s.frameArrives .upstream (toPart 0x27 tag payload)
  | .linkReset tag payload, s => s.frameArrives .upstream (toPart 0x28 tag payload)
  | .busTakeFrame, s => s.takeFrame
  | .busFrameSent, s => s.openReplyWindow
  | .exchangeReply f, s => s.frameArrives .bus f
  | .busStray f, s => s.frameArrives .bus f
  | .replyWindowExpired, s => s.expireWindow
  | .upstreamTransmitStart, s => s.transmit
  | .linkSilent, s => if s.live then s.expire s.silence State.goSilent else s
  | .relayEntryExpired tag, s => s.holdExpires tag
  | .pollerRun, s => (s.advance s.pollDue).runPoller
  | .channelStale n, s => s.expire (s.chanRecord n).stale (fun s => s.goStale n)
  | .minOffTimerExpired, s => s.expire s.minOff State.considerHead
  | .windowStart c, s => s.expire (s.window c).ends (fun s => s.nextWindow c)
  | .offMark c p, s => s.expire ((s.window c).offMark.get p) (fun s => s.reachOffMark c p)
  | .surveyExpired c, s => s.expire (s.cav c).survey (fun s => s.halt c .survey)
  | .shortTimerExpired c, s => s.expire (s.cav c).short (fun s => s.shortExpires c)
  | .longTimerExpired c, s => s.expire (s.cav c).long (fun s => s.longExpires c)
  | .soakHoldComplete c, s => s.expire ((s.cav c).hold.ends s.now) (fun s => s.completeSegment c)
  | .overtime c, s => s.expire (s.overtimeAt c) (fun s => s.endCycle c .overtime)
  | .dwellExpired c, s => s.expire (s.cav c).dwell (fun s => s.enterRelease c)
  | .blindCoolExpired c, s => s.expire (s.cav c).blind (fun s => s.blindExpires c)
  | .lockLeaveTimerExpired c, s => s.expire (s.lock c).leave (fun s => s.leaveExpires c)
  | .lockFinishTimerExpired c, s => s.expire (s.lock c).finish (fun s => s.finishExpires c)
  | .lockTravelTimerExpired c, s => s.expire (s.lock c).travel (fun s => s.travelExpires c)
  | .runOnExpired, s => s.expire s.air.runOn State.endRunOn
  | .armingExpired, s => s.expire s.air.arming State.endArming
  | .stallTimerExpired, s => s.expire s.air.stallTimer State.becomeStalled
  | .goodByteArrives p b, s => s.goodByte p b

/-- Every command but the two resets acts by its effect. -/
theorem exec_eq_act {c : Instr} (hp : c ≠ .powerOnReset) (hh : c ≠ .resetInputHeld) (s : State) :
    exec c s = act (effect c) s := by
  cases c
  case powerOnReset => exact absurd rfl hp
  case resetInputHeld => exact absurd rfl hh
  all_goals rfl

theorem answers_effect {c : Instr} (hp : c ≠ .powerOnReset) (hh : c ≠ .resetInputHeld) {s : State} (h : s.Ready) :
    Answers c s (effect c s) := (exec_eq_act hp hh s).trans (act_of_ready h)

/-- Settles O1: the front of the queue is what `step` runs, and its tick with no report standing over only lets time pass. -/
theorem stepRunsTheFrontOfTheQueue : Obligations.StepRunsTheFrontOfTheQueue := by
  refine ⟨fun s c rest h => ?front, fun s h hq => ?tick⟩
  case front => unfold step; rw [h]
  case tick =>
    have ht : (s.resetHeld || s.events.isEmpty) = true := by
      rcases hq with h | h <;> simp [h]
    have hs : step s = .next s.tick := by unfold step; rw [h]
    rw [hs, State.tick, if_pos ht]

/-- Settles O5: holding reset is `holdReset`, and every other command but a power-on reset acts, which a held part does not. -/
theorem resetHeldIdlesTheLinesAndTakesNothing : Obligations.ResetHeldIdlesTheLinesAndTakesNothing := by
  refine ⟨fun s => rfl, fun s c hr hp hh => ?_⟩
  rw [exec_eq_act hp hh, act_of_held hr]

/-! ## What an effect keeps -/

/-- `t` keeps what the invariants of the part speak of, but for `n` places upstream and `m` relay entries that it may add. -/
structure Grows (n m : Nat) (s t : State) : Prop where
  pending : t.pending = s.pending
  places : t.placesUsed ≤ s.placesUsed + n
  relay : t.relay.length ≤ s.relay.length + m
  budget : s.BudgetKept → t.BudgetKept
  recovery : s.StacksSound → t.StacksSound
  ranges : s.RangesKept → t.RangesKept

/-- `t` keeps the invariants of the part. -/
structure Safe (s t : State) : Prop where
  pending : t.pending = s.pending
  places : s.PlacesKept → t.PlacesKept
  budget : s.BudgetKept → t.BudgetKept
  recovery : s.StacksSound → t.StacksSound
  ranges : s.RangesKept → t.RangesKept

theorem Grows.trans {n m n' m' : Nat} {s t u : State} (h : Grows n m s t) (g : Grows n' m' t u) :
    Grows (n + n') (m + m') s u where
  pending := g.pending.trans h.pending
  places := by have := h.places; have := g.places; omega
  relay := by have := h.relay; have := g.relay; omega
  budget x := g.budget (h.budget x)
  recovery x := g.recovery (h.recovery x)
  ranges x := g.ranges (h.ranges x)

theorem Safe.trans {s t u : State} (h : Safe s t) (g : Safe t u) : Safe s u where
  pending := g.pending.trans h.pending
  places x := g.places (h.places x)
  budget x := g.budget (h.budget x)
  recovery x := g.recovery (h.recovery x)
  ranges x := g.ranges (h.ranges x)

theorem Grows.of_kept {s t : State} (h : Kept s t) : Grows 0 0 s t where
  pending := h.pending
  places := h.places
  relay := by simpa [tagsOf] using h.relay.length_le
  budget := h.held
  recovery := h.recovery
  ranges x := by unfold State.RangesKept; rw [h.up, h.bus, h.limits]; exact x

/-- A change that leaves the loads, LIMITS, the contexts and the counters as they are. -/
theorem Grows.of_same {n m : Nat} {s t : State} (places : t.placesUsed ≤ s.placesUsed + n)
    (relay : t.relay.length ≤ s.relay.length + m) (pending : t.pending = s.pending := by rfl)
    (loads : t.loads = s.loads := by rfl) (limits : t.limits = s.limits := by rfl) (cavs : t.cavs = s.cavs := by rfl)
    (up : t.up.count = s.up.count := by rfl) (bus : t.bus.count = s.bus.count := by rfl) : Grows n m s t where
  pending := pending
  places := places
  relay := relay
  budget x := by unfold State.BudgetKept; rw [heldSum_congr loads, limits]; exact x
  recovery x c := by unfold State.cav; rw [cavs]; exact x c
  ranges x := by unfold State.RangesKept; rw [up, bus, limits]; exact x

/-- What adds no place and no entry keeps the places. -/
theorem Safe.of_grows {s t : State} (h : Grows 0 0 s t) : Safe s t where
  pending := h.pending
  places x := ⟨h.places.trans x.1, h.relay.trans x.2⟩
  budget := h.budget
  recovery := h.recovery
  ranges := h.ranges

theorem Safe.refl (s : State) : Safe s s := .of_grows (.of_kept (Kept.refl s))

theorem Safe.of_kept {s t : State} (h : Kept s t) : Safe s t := .of_grows (.of_kept h)

/-- R15: a place found is there to take. -/
theorem Safe.of_placeTest {m : Nat} {s t : State} (h : Grows 1 m s t) (hp : s.placeTest = true)
    (hm : s.relay.length ≤ 8 → s.relay.length + m ≤ 8) : Safe s t where
  pending := h.pending
  places x := by
    have hf : s.relay.length < outPlaces - s.outQueue.length := of_decide_eq_true hp
    refine ⟨h.places.trans ?_, h.relay.trans (hm x.2)⟩
    unfold State.placesUsed
    omega
  budget := h.budget
  recovery := h.recovery
  ranges := h.ranges

theorem grows_place (s : State) (f : Frame) : Grows 1 0 s (s.place f) :=
  .of_same (by simp [State.placesUsed]; omega) (by simp)

theorem grows_openEntry (s : State) (f : Frame) (stage : RelayStage) (b : Bool) : Grows 1 1 s (s.openEntry f stage b) :=
  .of_same (by simp [State.placesUsed, State.openEntry]; omega) (by simp [State.openEntry])

/-! ## Ports -/

theorem bump_le (n : Nat) : bump n ≤ 65535 := Nat.min_le_left ..

/-- R12: counting once keeps every counter in its range. -/
def CountsOnce (f : Counters → Counters) : Prop := ∀ k : Counters, k.Bounded → (f k).Bounded

theorem bounded_zero : Counters.zero.Bounded := by simp [Counters.Bounded, Counters.zero]

theorem countsOnce_accepted : CountsOnce Counters.addAccepted :=
  fun _ ⟨_, hc, hr, hg, hl, hd⟩ => ⟨bump_le _, hc, hr, hg, hl, hd⟩
theorem countsOnce_crc : CountsOnce Counters.addCrc := fun _ ⟨ha, _, hr, hg, hl, hd⟩ => ⟨ha, bump_le _, hr, hg, hl, hd⟩
theorem countsOnce_char : CountsOnce Counters.addChar := fun _ ⟨ha, hc, _, hg, hl, hd⟩ => ⟨ha, hc, bump_le _, hg, hl, hd⟩
theorem countsOnce_gap : CountsOnce Counters.addGap := fun _ ⟨ha, hc, hr, _, hl, hd⟩ => ⟨ha, hc, hr, bump_le _, hl, hd⟩
theorem countsOnce_length : CountsOnce Counters.addLength :=
  fun _ ⟨ha, hc, hr, hg, _, hd⟩ => ⟨ha, hc, hr, hg, bump_le _, hd⟩
theorem countsOnce_discarded : CountsOnce Counters.addDiscarded :=
  fun _ ⟨ha, hc, hr, hg, hl, _⟩ => ⟨ha, hc, hr, hg, hl, bump_le _⟩

theorem grows_modPort (s : State) (p : Port) (f : PortState → PortState)
    (hf : (s.port p).count.Bounded → (f (s.port p)).count.Bounded) : Grows 0 0 s (s.modPort p f) where
  pending := pending_modPort ..
  places := by simp [State.placesUsed]
  relay := by simp
  budget x := by cases p <;> exact x
  recovery x := by cases p <;> exact x
  ranges x := by
    obtain ⟨hu, hb, hmap⟩ := x
    cases p
    · exact ⟨hf hu, hb, hmap⟩
    · exact ⟨hu, hf hb, hmap⟩

theorem grows_modRx (s : State) (p : Port) (f : Receiver → Receiver) : Grows 0 0 s (s.modRx p f) :=
  grows_modPort s p _ fun x => x

theorem grows_count (s : State) (p : Port) {f : Counters → Counters} (hf : CountsOnce f) : Grows 0 0 s (s.count p f) :=
  grows_modPort s p _ fun x => hf _ x

theorem grows_abandon (s : State) (p : Port) {f : Counters → Counters} (hf : CountsOnce f) : Grows 0 0 s (s.abandon p f) :=
  (grows_count s p hf).trans (grows_modRx ..)

theorem grows_advance (s : State) (t : Time) : Grows 0 0 s (s.advance t) := .of_same le_rfl le_rfl

/-- An expiry adds to its effect the moment it stands for. -/
theorem grows_expire {s : State} (t : Timer) (f : State → State) (hf : ∀ u, Kept u (f u)) : Grows 0 0 s (s.expire t f) := by
  unfold State.expire
  split
  · exact (grows_advance s _).trans (.of_kept (hf _))
  · exact .of_kept (Kept.refl s)

/-! ## Management commands (chapter 10) -/

/-- R42, R43: a table written with no busy entry changed holds no more current than before. -/
theorem heldCurrent_writeLoads {s : State} {after : Fin 16 → LoadEntry} (h : s.loadActive after = none) (i : Fin 16) :
    State.heldCurrent { s with loads := Vector.ofFn (fun i => (s.loads.get i).write (after i)) } i ≤ s.heldCurrent i := by
  have hget : ({ s with loads := Vector.ofFn (fun i => (s.loads.get i).write (after i)) } : State).loads.get i =
      (s.loads.get i).write (after i) := by simp [Vector.get_eq_getElem]
  unfold State.heldCurrent State.record State.entry
  rw [hget]
  unfold LoadSlot.write
  split
  case isFalse => simp [LoadRecord.fresh]
  case isTrue hw =>
    by_cases hg : (s.loads.get i).record.grant = .held
    · have hbusy : (s.loadBusy i) = true := by simp [State.loadBusy, State.record, hg]
      have hused : (s.entry i).used = true := by
        simp only [Bool.and_eq_true] at hw
        obtain ⟨⟨⟨_, hu⟩, _⟩, _⟩ := hw
        exact hu
      have hsame : after i = s.entry i := by
        simpa [hused, hbusy] using List.find?_eq_none.1 h i (List.mem_finRange i)
      simp [hg, hsame, State.entry]
    · simp [hg]

theorem kept_afterLoads {s₀ s : State} (h : Kept s₀ s) (fresh : Bool) (touched : Cav → Bool) :
    Kept s₀ (s.afterLoads fresh touched) := by
  unfold State.afterLoads
  exact kept_surveyAfterWrite (kept_surveyAfterWrite (kept_refreshLit (kept_refreshAble
    (kept_ite _ (kept_driveBlower h) h))) _ _) _ _

theorem grows_writeLoads {s t : State} {index : Nat} {records : List (List Byte)}
    (h : s.writeLoads index records = .ok t) : Grows 0 0 s t := by
  unfold State.writeLoads at h
  split at h
  · contradiction
  · dsimp only at h
    split at h
    · contradiction
    · contradiction
    · rename_i hact _
      cases h
      refine Grows.trans (n := 0) (m := 0) ?_ (.of_kept (kept_afterLoads (Kept.refl _) _ _))
      have hs := heldSum_le (heldCurrent_writeLoads hact)
      exact ⟨rfl, le_rfl, le_rfl, fun x => hs.trans x, fun x => x, fun x => x⟩

theorem kept_bindingReports {s₀ s : State} (h : Kept s₀ s) (before : State) : Kept s₀ (s.bindingReports before) :=
  kept_foldl _ (fun _ _ g => kept_announce g _ _ _) _ h

theorem grows_writeChannels {s t : State} {index : Nat} {records : List (List Byte)}
    (h : s.writeChannels index records = .ok t) : Grows 0 0 s t := by
  unfold State.writeChannels at h
  split at h
  · contradiction
  · dsimp only at h
    split at h
    · contradiction
    · cases h
      refine Grows.trans (n := 0) (m := 0) ?_ (.of_kept (kept_surveyAfterWrite (kept_surveyAfterWrite (kept_refreshAble
        (kept_bindingReports (Kept.refl _) _)) _ _) _ _))
      exact .of_same le_rfl le_rfl

theorem grows_writeAdmission {s t : State} {index : Nat} {records : List (List Byte)}
    (h : s.writeAdmission index records = .ok t) : Grows 0 0 s t := by
  unfold State.writeAdmission at h
  split at h
  · contradiction
  · cases h; exact .of_same le_rfl le_rfl

@[simp] theorem inRange_eq_some (p : Bool) (u : Unit) : inRange p = some u ↔ p = true := by
  cases p <;> simp [inRange]

/-- R175: a LIMITS record that reads has every field in its range. -/
theorem limitsInRange_of_limitsOf {r : List Byte} {l : Limits} (h : limitsOf r = some l) : limitsInRange l = true := by
  unfold limitsOf at h
  split at h
  · simp only [Option.bind_eq_bind, Option.bind_eq_some_iff, inRange_eq_some, Option.pure_def, Option.some.injEq] at h
    obtain ⟨_, _, _, _, _, hr, rfl⟩ := h
    exact hr
  · contradiction

theorem kept_resetWatch {s₀ s : State} (h : Kept s₀ s) (w : WatchId) (side : Side) (was level : Int) :
    Kept s₀ (s.resetWatch w side was level) := kept_ite _ h (kept_setWatch h _ _ _)

/-- R175: what follows a WRITE of LIMITS, the restart of the silence timer apart. -/
theorem kept_afterLimits (s : State) (old : Limits) :
    Kept { s with silence := s.timer (millis s.limits.silence) } (s.afterLimits old) := by
  have r := Kept.refl { s with silence := s.timer (millis s.limits.silence) }
  have hw := kept_resetWatch (kept_resetWatch (kept_resetWatch (kept_resetWatch (kept_resetWatch
    (kept_ite (old.budget = s.limits.budget) r (kept_considerHead r)) .dip .below old.dip s.limits.dip)
    .ductHot .above old.duct s.limits.duct) .light .atOrAbove old.light s.limits.light) .bayHot .above old.bay s.limits.bay)
    .bayCool .atOrBelow (old.bay - 10) (s.limits.bay - 10)
  have ha := kept_ite (old.tacho.at s.air.level = s.limits.tacho.at s.air.level) hw (kept_aimSpeed hw)
  exact kept_ite _ ha (kept_driveBlower ha)

theorem levelMap_of_limitsInRange {l : Limits} (h : limitsInRange l = true) : 1 ≤ l.map.low ∧ 1 ≤ l.map.mid ∧ 1 ≤ l.map.high := by
  simp only [limitsInRange, Bool.and_eq_true, decide_eq_true_eq] at h
  omega

/-- R175: new LIMITS whose level map is in range and whose budget the held sum does not pass, and a silence timer. -/
theorem grows_setLimits {s : State} {l : Limits} {t : Timer} (hmap : 1 ≤ l.map.low ∧ 1 ≤ l.map.mid ∧ 1 ≤ l.map.high)
    (hb : s.heldSum ≤ l.budget) : Grows 0 0 s { s with limits := l, silence := t } where
  pending := rfl
  places := le_rfl
  relay := le_rfl
  budget _ := hb
  recovery x := x
  ranges := fun ⟨hu, hbus, _⟩ => ⟨hu, hbus, hmap⟩

/-- R175: LIMITS are stored in range, and with a budget that the held sum does not pass. -/
theorem grows_writeLimits {s t : State} {records : List (List Byte)} (h : s.writeLimits records = .ok t) : Grows 0 0 s t := by
  unfold State.writeLimits at h
  split at h
  · contradiction
  · cases h; exact .of_kept (Kept.refl _)
  · rename_i l rest hp
    split at h
    · cases h
    · rename_i hb
      cases h
      obtain ⟨r, hr⟩ : ∃ r, limitsOf r = some l := by
        have := (Laws.parseFrom_ok limitsOf records (l :: rest) 0).1 hp
        cases records with
        | nil => simp at this
        | cons r rs => simp only [List.map_cons, List.cons.injEq] at this; exact ⟨r, this.1⟩
      have hmap := levelMap_of_limitsInRange (limitsInRange_of_limitsOf hr)
      exact (grows_setLimits hmap (not_lt.1 hb)).trans (.of_kept (kept_afterLimits { s with limits := l } s.limits))

theorem grows_modBank (s : State) (b : BankId) (f : Bank → Bank) : Grows 0 0 s (s.modBank b f) := .of_same le_rfl le_rfl

theorem grows_writeBank {s t : State} {k : TableId} {b : BankId} {index : Nat} {records : List (List Byte)}
    (h : s.writeBank k b index records = .ok t) : Grows 0 0 s t := by
  unfold State.writeBank at h
  split at h
  · contradiction
  · split at h
    · contradiction
    · cases h; exact grows_modBank s _ _

theorem grows_writeOwner {s t : State} {k : TableId} {b : BankId} {index : Nat} {records : List (List Byte)}
    (h : s.writeOwner k b index records = .ok t) : Grows 0 0 s t := by
  unfold State.writeOwner at h
  split at h
  · exact grows_writeLoads h
  · exact grows_writeChannels h
  · exact grows_writeAdmission h
  · exact grows_writeLimits h
  all_goals exact grows_writeBank h

theorem grows_writeAt {s t : State} {payload : List Byte} (h : s.writeAt payload = .ok t) : Grows 0 0 s t := by
  unfold State.writeAt at h
  dsimp only at h
  (repeat' split at h)
  · contradiction
  · contradiction
  · contradiction
  · exact grows_writeOwner h

theorem grows_movePointer (s : State) (n : Nat) : Grows 0 0 s (s.movePointer n) := .of_same le_rfl le_rfl

/-- A management command's body adds neither a place nor an entry. -/
def TameBody (body : State → List Byte → Answered) : Prop := ∀ (s : State) (payload : List Byte), Grows 0 0 s (body s payload).state

theorem tameBody_doSeek : TameBody State.doSeek := by
  intro s payload
  unfold State.doSeek
  (repeat' split) <;> exact .of_same le_rfl le_rfl

theorem tameBody_doWrite : TameBody State.doWrite := by
  intro s payload
  unfold State.doWrite
  split
  · exact .of_same le_rfl le_rfl
  · rename_i hw
    exact (grows_writeAt hw).trans (grows_movePointer _ _)

theorem tameBody_doRead : TameBody State.doRead := by
  intro s payload
  unfold State.doRead
  (repeat' split) <;> exact .of_same le_rfl le_rfl

theorem tameBody_doValidate : TameBody State.doValidate := by
  intro s payload
  unfold State.doValidate
  (repeat' split) <;> exact .of_same le_rfl le_rfl

theorem tameBody_doStart : TameBody State.doStart := by
  intro s payload
  unfold State.doStart
  (repeat' split)
  · exact .of_same le_rfl le_rfl
  · exact .of_same le_rfl le_rfl
  · exact .of_kept (kept_acceptStart (Kept.refl s) _ _ _)
  all_goals exact .of_same le_rfl le_rfl

theorem tameBody_doCancel : TameBody State.doCancel := by
  intro s payload
  unfold State.doCancel
  split
  · split
    · exact .of_same le_rfl le_rfl
    · rename_i c _
      split
      · rename_i heq
        have k := kept_cancelCavity (Kept.refl s) c
        rw [heq] at k
        exact .of_kept k
      · exact .of_same le_rfl le_rfl
  · exact .of_same le_rfl le_rfl

theorem tameBody_doClear : TameBody State.doClear := by
  intro s payload
  unfold State.doClear
  (repeat' split)
  · exact .of_same le_rfl le_rfl
  · exact .of_same le_rfl le_rfl
  · exact .of_kept (kept_enterRelease (Kept.refl s) _)
  all_goals exact .of_same le_rfl le_rfl

theorem tameBody_doReport : TameBody State.doReport := by
  intro s payload
  unfold State.doReport
  (repeat' split) <;> exact .of_same le_rfl le_rfl

theorem tameBody_doBadKind : TameBody State.doBadKind := fun _ _ => .of_same le_rfl le_rfl

theorem safe_manage (s : State) {body : State → List Byte → Answered} (hb : TameBody body) (tag : Byte) (payload : List Byte) :
    Safe s (s.manage body tag payload) := by
  unfold State.manage
  split
  · rename_i hp
    have hg : Grows 0 0 s (body s payload).state.settle := (hb s payload).trans (.of_kept (kept_of_settle _))
    exact Safe.of_placeTest (hg.trans (grows_place _ _)) hp (by simp)
  · exact .of_grows (grows_count s _ countsOnce_discarded)

/-! ## LINK-RESET (R182) -/

theorem kept_resetDrops (s : State) : Kept s (s.relay.foldl State.dropQueued (s.relay.foldl State.dropWait s)) :=
  kept_foldl _ (fun _ _ g => kept_dropQueued g _) _ (kept_foldl _ (fun _ _ g => kept_dropWait g _) _ (Kept.refl s))

theorem relay_resetLink (s : State) (tag : Byte) : (s.resetLink tag).relay = [] := rfl

theorem outQueue_resetLink (s : State) (tag : Byte) : (s.resetLink tag).outQueue = [answerFrame tag codeDone []] := rfl

theorem safe_resetLink (s : State) (tag : Byte) : Safe s (s.resetLink tag) := by
  have k := kept_resetDrops s
  exact {
    pending := k.pending
    places := fun _ => by
      unfold State.PlacesKept; rw [relay_resetLink, outQueue_resetLink]; simp [outPlaces]
    budget := k.held
    recovery := k.recovery
    ranges := fun ⟨_, _, hmap⟩ => ⟨bounded_zero, bounded_zero, by
      have : (s.resetLink tag).limits = s.limits := k.limits
      rw [this]; exact hmap⟩ }

theorem safe_serveNotices (s : State) : Safe s s.serveNotices := by
  obtain ⟨fs, n, h, hp⟩ := serveNotices_eq s
  rw [h]
  exact ⟨rfl, fun x => ⟨hp x.1, x.2⟩, fun x => x, fun x => x, fun x => x⟩

theorem safe_linkReset (s : State) (tag : Byte) : Safe s (s.linkReset tag) :=
  (((safe_resetLink s tag).trans (.of_kept (kept_flagPart (kept_flagCav (kept_flagCav (Kept.refl _) _) _)))).trans
    (safe_serveNotices _)).trans (.of_kept (kept_considerHead (Kept.refl _)))

theorem safe_managementFrame (s : State) (f : Frame) : Safe s (s.managementFrame f) := by
  unfold State.managementFrame
  split
  · exact safe_manage s tameBody_doSeek _ _
  · exact safe_manage s tameBody_doWrite _ _
  · exact safe_manage s tameBody_doRead _ _
  · exact safe_manage s tameBody_doValidate _ _
  · exact safe_manage s tameBody_doStart _ _
  · exact safe_manage s tameBody_doCancel _ _
  · exact safe_manage s tameBody_doClear _ _
  · exact safe_manage s tameBody_doReport _ _
  · exact safe_linkReset s _
  · exact safe_manage s tameBody_doBadKind _ _

/-! ## Node frames (R20 to R25) -/

theorem grows_openQueued (s : State) (f : Frame) (b : Bool) : Grows 1 1 s (s.openQueued f b) :=
  (grows_openEntry s f .queued b).trans (.of_kept ((Kept.refl _).with_normal _))

theorem grows_openDrive (s : State) (i : Fin 16) (f : Frame) (level : Nat) : Grows 1 1 s (s.openDrive i f level) :=
  (grows_openQueued s f true).trans (.of_kept (kept_commandByController (Kept.refl _) _ _))

theorem grows_refuseFrame (s : State) (f : Frame) (reason : Byte) : Grows 1 1 s (s.refuseFrame f reason) :=
  (grows_place s _).trans (.of_same (n := 0) (m := 1) le_rfl (Nat.le_succ _))

theorem grows_supersede (s : State) (i : Fin 16) (old : Byte) (f : Frame) (level : Nat) :
    Grows 1 1 s (s.supersede i old f level) := by
  unfold State.supersede
  split
  · have g1 := (Grows.of_kept (kept_closeFail (Kept.refl s) old failSuperseded)).trans (grows_openEntry _ f .grantWait true)
    exact g1.trans (.of_kept ((Kept.refl _).with_grantQueue _))
  · exact ((Grows.of_kept (kept_closeFail (kept_dropRequest (Kept.refl s) i) old failSuperseded)).trans
      (grows_openDrive _ i f level)).trans (.of_kept (kept_considerIf (Kept.refl _) _))

theorem grows_openByGrant (s : State) (i : Fin 16) (f : Frame) (level : Nat) : Grows 1 1 s (s.openByGrant i f level) := by
  unfold State.openByGrant
  (repeat' split)
  · exact grows_openDrive s i f level
  · exact grows_openDrive s i f level
  · exact grows_refuseFrame s f _
  · exact (grows_openEntry s f .grantWait true).trans (.of_kept (kept_requestGrant (Kept.refl _) _ _ _))
  · exact grows_supersede s i _ f level
  · exact grows_refuseFrame s f _
  · exact grows_refuseFrame s f _

theorem grows_postController (s : State) (d : BlowLevel) : Grows 0 0 s (s.postController d) := by
  have g : Grows 0 0 s (s.modAir fun a => { a with controllerDemand := d }) := .of_same le_rfl le_rfl
  exact g.trans (.of_kept (kept_followDemand (Kept.refl _) _))

/-- A frame more upstream, counted with one entry to spare. -/
theorem Grows.spare {n m : Nat} {s t : State} (h : Grows n 0 s t) : Grows n m s t :=
  { h with relay := h.relay.trans (Nat.le_add_right ..) }

theorem grows_blowerDrive (s : State) (i : Fin 16) (f : Frame) (level : Nat) : Grows 1 1 s (s.blowerDrive i f level) :=
  ((grows_postController s _).trans (grows_place _ _)).spare

theorem grows_admitDrive (s : State) (i : Fin 16) (f : Frame) : Grows 1 1 s (s.admitDrive i f) := by
  unfold State.admitDrive
  split
  · exact grows_refuseFrame s f _
  · split
    · exact grows_refuseFrame s f _
    · split
      case h_1 => exact grows_refuseFrame s f _
      case h_2 => exact grows_blowerDrive s i f _
      all_goals
        split
        · exact grows_refuseFrame s f _
        · split
          · exact grows_refuseFrame s f _
          · exact grows_openByGrant s i _ _

theorem safe_nodeFrame (s : State) (f : Frame) : Safe s (s.nodeFrame f) := by
  unfold State.nodeFrame
  split
  · rename_i hp
    split
    · exact .of_placeTest (grows_place s _) hp (by simp)
    · rename_i hfull
      have hroom : s.relay.length ≤ 8 → s.relay.length + 1 ≤ 8 := by omega
      split
      · exact .of_placeTest (grows_refuseFrame s f _) hp hroom
      · split
        · exact .of_placeTest (grows_admitDrive s _ f) hp hroom
        · exact .of_placeTest (grows_openQueued s f false) hp hroom
  · exact .of_grows (grows_count s _ countsOnce_discarded)

/-! ## Acceptance -/

theorem grows_hearController (s : State) : Grows 0 0 s s.hearController := by
  unfold State.hearController
  dsimp only
  split <;> exact .of_same le_rfl le_rfl

theorem safe_acceptUpstream (s : State) (f : Frame) : Safe s (s.acceptUpstream f) := by
  have g := Safe.of_grows ((grows_count s .upstream countsOnce_accepted).trans (grows_hearController _))
  unfold State.acceptUpstream
  dsimp only
  split
  · exact g.trans (safe_managementFrame _ f)
  · exact g.trans (safe_nodeFrame _ f)

theorem safe_upstreamFrame (s : State) (f : Frame) : Safe s (s.upstreamFrame f) := by
  unfold State.upstreamFrame
  split
  · exact safe_acceptUpstream s f
  · exact .of_grows (grows_count s _ countsOnce_discarded)

/-- A change of a load's record but for its grant leaves the held sum. -/
theorem grows_modRecord (s : State) (i : Fin 16) (f : LoadRecord → LoadRecord) (hf : ∀ r, (f r).grant = r.grant) :
    Grows 0 0 s (s.modRecord i f) where
  pending := by simp
  places := by simp [State.placesUsed]
  relay := by simp
  budget x := by
    have hs : (s.modRecord i f).heldSum ≤ s.heldSum := heldSum_le fun j => by
      unfold State.heldCurrent
      rw [record_modRecord, entry_modRecord]
      split
      · rename_i hj; subst hj; rw [hf]
      · exact le_rfl
    exact hs.trans x
  recovery x := x
  ranges x := x

theorem grant_tapped (r : LoadRecord) (now : Time) (reply : Option (Nat × NodeCond)) : (r.tapped now reply).grant = r.grant := by
  unfold LoadRecord.tapped
  split <;> rfl

theorem grows_tap (s : State) (f : Frame) : Grows 0 0 s (s.tap f) := by
  unfold State.tap
  split
  · unfold State.tapState
    (repeat' split)
    · exact (grows_modRecord s _ _ fun r => grant_tapped r _ _).trans (.of_kept (kept_tapLoad _ _ (Kept.refl _)))
    all_goals exact .of_kept (Kept.refl s)
  · exact .of_kept (kept_ite _ (kept_tapReading (Kept.refl s) f) (Kept.refl s))

theorem kept_handReply {s₀ s : State} (h : Kept s₀ s) (p : Party) (f : Frame) : Kept s₀ (s.handReply p f) := by
  cases p
  · exact kept_closeRelay h _ _
  · exact h
  · exact kept_judgeDrive h _ _ _ _
  · exact h

theorem kept_handExpiry {s₀ s : State} (h : Kept s₀ s) (p : Party) : Kept s₀ (s.handExpiry p) := by
  cases p
  · exact kept_closeFail h _ _
  · exact h
  · exact kept_judgeDrive h _ _ _ .noReply
  · exact h

theorem grows_setExchange (s : State) (x : Option Exchange) : Grows 0 0 s { s with exchange := x } := .of_same le_rfl le_rfl

theorem grows_endByReply (s : State) (x : Exchange) (f : Frame) : Grows 0 0 s (s.endByReply x f) :=
  (((grows_setExchange s none).trans (grows_count _ .bus countsOnce_accepted)).trans (grows_tap _ f)).trans
    (.of_kept (kept_handReply (kept_settle (Kept.refl _)) x.party f))

theorem grows_busFrame (s : State) (f : Frame) : Grows 0 0 s (s.busFrame f) := by
  unfold State.busFrame
  (repeat' split)
  · exact grows_endByReply s _ f
  all_goals exact grows_count s _ countsOnce_discarded

theorem safe_deliver (s : State) (p : Port) (f : Frame) : Safe s (s.deliver p f) := by
  cases p
  · exact safe_upstreamFrame s f
  · exact .of_grows (grows_busFrame s f)

theorem safe_modRx (s : State) (p : Port) (f : Receiver → Receiver) : Safe s (s.modRx p f) := .of_grows (grows_modRx s p f)

theorem safe_abandon (s : State) (p : Port) {f : Counters → Counters} (hf : CountsOnce f) : Safe s (s.abandon p f) :=
  .of_grows (grows_abandon s p hf)

theorem safe_frameArrives (s : State) (p : Port) (f : Frame) : Safe s (s.frameArrives p f) := by
  unfold State.frameArrives
  split
  · exact (safe_modRx s p _).trans (safe_deliver _ p f)
  · exact safe_abandon s p countsOnce_length

/-! ## Characters -/

theorem safe_afterHeader (s : State) (p : Port) : Safe s (s.afterHeader p) := by
  unfold State.afterHeader
  (repeat' split)
  · exact safe_abandon s p countsOnce_length
  · exact safe_modRx s p _
  · exact safe_modRx s p _
  · exact .refl s

theorem safe_afterBody (s : State) (p : Port) : Safe s (s.afterBody p) := by
  unfold State.afterBody
  (repeat' split)
  · exact safe_modRx s p _
  all_goals exact .refl s

theorem safe_checkByte (s : State) (p : Port) (b : Byte) : Safe s (s.checkByte p b) := by
  unfold State.checkByte State.endCheck
  dsimp only
  (repeat' split)
  · exact safe_modRx s p _
  · exact (safe_modRx s p _).trans (safe_deliver _ p _)
  · exact safe_modRx s p _
  · exact safe_abandon s p countsOnce_crc

theorem safe_goodByte (s : State) (p : Port) (b : Byte) : Safe s (s.goodByte p b) := by
  have h := safe_modRx s p fun r => { r with awaitHigh := false }
  unfold State.goodByte
  dsimp only
  split
  · unfold State.huntByte
    split
    · exact h.trans (safe_modRx _ p _)
    · exact h
  · exact (h.trans (safe_modRx _ p _)).trans (safe_afterHeader _ p)
  · exact (h.trans (safe_modRx _ p _)).trans (safe_afterBody _ p)
  · exact h.trans (safe_checkByte _ p b)

theorem safe_character (s : State) (p : Port) (ch : RawChar) : Safe s (s.character p ch) := by
  unfold State.character
  split
  · exact safe_goodByte s p _
  · exact (safe_abandon s p countsOnce_char).trans (safe_modRx _ p _)

theorem safe_gapExpires (s : State) (p : Port) : Safe s (s.gapExpires p) := by
  unfold State.gapExpires
  split
  · exact (Safe.of_grows (grows_advance s _)).trans (safe_abandon _ p countsOnce_gap)
  · exact .refl s

/-! ## The Bus Scheduler and the upstream transmitter -/

theorem grows_beginExchange (s : State) (f : Frame) (p : Party) : Grows 0 0 s (s.beginExchange f p) := .of_same le_rfl le_rfl

theorem grows_stepTag (s : State) : Grows 0 0 s s.stepTag := .of_same le_rfl le_rfl

theorem grows_sendItem (s : State) (q : QItem) (urgent : Bool) : Grows 0 0 s (s.sendItem q urgent) := by
  unfold State.sendItem
  split
  · rename_i i level again
    have g := grows_modRecord s i (fun r => { r with attempt := if again then .again else .first }) fun _ => rfl
    exact (g.trans (grows_beginExchange _ _ _)).trans (grows_stepTag _)
  · exact (grows_beginExchange s _ _).trans (grows_stepTag _)
  · split
    · exact (Grows.of_same (by simp [State.placesUsed, State.modRelay]) (by simp [State.modRelay])).trans
        (grows_beginExchange _ _ _)
    · exact .of_kept (Kept.refl s)

theorem grows_takeFrame (s : State) : Grows 0 0 s s.takeFrame := by
  unfold State.takeFrame
  (repeat' split)
  · exact .of_kept (Kept.refl s)
  · exact (grows_advance s _).trans ((Grows.of_kept ((Kept.refl _).with_urgent _)).trans (grows_sendItem _ _ true))
  · exact (grows_advance s _).trans ((Grows.of_kept ((Kept.refl _).with_normal _)).trans (grows_sendItem _ _ false))
  · exact .of_kept (Kept.refl s)

theorem grows_openReplyWindow (s : State) : Grows 0 0 s s.openReplyWindow := by
  unfold State.openReplyWindow
  (repeat' split)
  · exact (grows_advance s _).trans (grows_setExchange _ _)
  all_goals exact .of_kept (Kept.refl s)

theorem grows_expireWindow (s : State) : Grows 0 0 s s.expireWindow := by
  unfold State.expireWindow
  (repeat' split)
  · exact ((grows_advance s _).trans (grows_setExchange _ none)).trans (.of_kept (kept_handExpiry (Kept.refl _) _))
  all_goals exact .of_kept (Kept.refl s)

/-- R14: the frame whose sending begins leaves its place free. -/
theorem grows_transmit (s : State) : Grows 0 0 s s.transmit := by
  unfold State.transmit
  split
  · rename_i f rest h
    exact .of_same (by simp [State.placesUsed, State.advance, h]) le_rfl
  · exact .of_kept (Kept.refl s)

/-! ## Timers and the poller -/

theorem grows_takeOver (s : State) : Grows 0 0 s s.takeOver :=
  (Grows.of_kept (kept_engineOffs (kept_withdrawOns (Kept.refl s)) _)).trans (grows_postController _ .off)

theorem grows_goSilent (s : State) : Grows 0 0 s s.goSilent := by
  have g : Grows 0 0 s { s with live := false, silence := none } := .of_same le_rfl le_rfl
  unfold State.goSilent
  generalize { s with live := false, silence := none } = u at g ⊢
  exact (g.trans (grows_takeOver u)).trans (.of_kept (kept_flagPart (kept_raiseBoth (Kept.refl _) _)))

theorem grows_linkSilent (s : State) : Grows 0 0 s (if s.live then s.expire s.silence State.goSilent else s) := by
  unfold State.expire
  (repeat' split)
  · exact (grows_advance s _).trans (grows_goSilent _)
  all_goals exact .of_kept (Kept.refl s)

theorem relayEntry_advance (s : State) (t : Time) (tag : Byte) : (s.advance t).relayEntry tag = s.relayEntry tag := rfl

theorem grows_holdExpires (s : State) (tag : Byte) : Grows 0 0 s (s.holdExpires tag) := by
  unfold State.holdExpires State.expire
  split
  · rename_i e he
    split
    · exact (grows_advance s _).trans (.of_kept (kept_expireRelay (Kept.refl _) ((relayEntry_advance s _ tag).trans he)))
    · exact .of_kept (Kept.refl s)
  · exact .of_kept (Kept.refl s)

theorem grows_runPoller (s : State) : Grows 0 0 s s.runPoller := by
  have g := Grows.of_kept (kept_foldl State.pollBinding (fun _ _ g => kept_pollBinding g _) (indexes 8) (Kept.refl s))
  unfold State.runPoller
  dsimp only
  generalize (indexes 8).foldl State.pollBinding s = u at g ⊢
  have g1 : Grows 0 0 u { u with pollDue := u.now + millis u.limits.poll } := .of_same le_rfl le_rfl
  exact g.trans g1

theorem kept_nextWindow (s : State) (c : Cav) : Kept s (s.nextWindow c) := kept_startWindow (Kept.refl s) c _

theorem kept_reachOffMark (s : State) (c : Cav) (p : HeatPos) : Kept s (s.reachOffMark c p) :=
  kept_onLoad (kept_modWindow (Kept.refl s) c _) _ _ fun _ => kept_engineOff (kept_modWindow (Kept.refl s) c _) _

theorem kept_shortExpires (s : State) (c : Cav) : Kept s (s.shortExpires c) :=
  kept_raise (kept_modCav (Kept.refl s) c _ fun h => h) c _

theorem kept_longExpires (s : State) (c : Cav) : Kept s (s.longExpires c) :=
  kept_raise (kept_modCav (Kept.refl s) c _ fun h => h) c _

theorem kept_blindExpires (s : State) (c : Cav) : Kept s (s.blindExpires c) := kept_modCav (Kept.refl s) c _ fun h => h

theorem kept_leaveExpires (s : State) (c : Cav) : Kept s (s.leaveExpires c) :=
  kept_travelTimeout (kept_modLock (Kept.refl s) c _) c

theorem kept_finishExpires (s : State) (c : Cav) : Kept s (s.finishExpires c) :=
  kept_travelTimeout (kept_modLock (Kept.refl s) c _) c

theorem kept_travelExpires (s : State) (c : Cav) : Kept s (s.travelExpires c) :=
  kept_travelTimed (kept_modLock (Kept.refl s) c _) c

theorem kept_assertStopActs (s : State) (is : List (Fin 16)) :
    Kept s (((((s.flagPart).engineOffs is).withdrawHeating).haltActive .zero .stop).haltActive .one .stop) :=
  kept_haltActive (kept_haltActive (kept_withdrawHeating (kept_engineOffs (kept_flagPart (Kept.refl s)) is)) _ _) _ _

theorem grows_assertStop (s : State) : Grows 0 0 s s.assertStop := by
  have g : Grows 0 0 s { s with stopAsserted := true } := .of_same le_rfl le_rfl
  unfold State.assertStop
  split
  · exact .of_kept (Kept.refl s)
  · exact g.trans (.of_kept (kept_assertStopActs _ _))

theorem grows_deassertStop (s : State) : Grows 0 0 s s.deassertStop := by
  unfold State.deassertStop
  split
  · exact .of_same le_rfl le_rfl
  · exact .of_kept (Kept.refl s)

/-! ## Every command -/

/-- The effect of a timer inside the part: at its expiry an act that every block's acts are like. -/
theorem effect_of_insideExpiry {c : Instr} (h : insideExpiry c = true) (s : State) :
    ∃ (t : Timer) (f : State → State), effect c s = s.expire t f ∧ ∀ u, Kept u (f u) := by
  cases c
  case channelStale n => exact ⟨_, _, rfl, fun u => kept_goStale (Kept.refl u) n⟩
  case minOffTimerExpired => exact ⟨_, _, rfl, fun u => kept_considerHead (Kept.refl u)⟩
  case windowStart c => exact ⟨_, _, rfl, fun u => kept_nextWindow u c⟩
  case offMark c p => exact ⟨_, _, rfl, fun u => kept_reachOffMark u c p⟩
  case surveyExpired c => exact ⟨_, _, rfl, fun u => kept_halt (Kept.refl u) c _⟩
  case shortTimerExpired c => exact ⟨_, _, rfl, fun u => kept_shortExpires u c⟩
  case longTimerExpired c => exact ⟨_, _, rfl, fun u => kept_longExpires u c⟩
  case soakHoldComplete c => exact ⟨_, _, rfl, fun u => kept_completeSegment (Kept.refl u) c⟩
  case overtime c => exact ⟨_, _, rfl, fun u => kept_endCycle (Kept.refl u) c _⟩
  case dwellExpired c => exact ⟨_, _, rfl, fun u => kept_enterRelease (Kept.refl u) c⟩
  case blindCoolExpired c => exact ⟨_, _, rfl, fun u => kept_blindExpires u c⟩
  case lockLeaveTimerExpired c => exact ⟨_, _, rfl, fun u => kept_leaveExpires u c⟩
  case lockFinishTimerExpired c => exact ⟨_, _, rfl, fun u => kept_finishExpires u c⟩
  case lockTravelTimerExpired c => exact ⟨_, _, rfl, fun u => kept_travelExpires u c⟩
  case runOnExpired => exact ⟨_, _, rfl, fun u => kept_endRunOn (Kept.refl u)⟩
  case armingExpired => exact ⟨_, _, rfl, fun u => kept_endArming (Kept.refl u)⟩
  case stallTimerExpired => exact ⟨_, _, rfl, fun u => kept_becomeStalled (Kept.refl u)⟩
  all_goals cases h

theorem safe_of_insideExpiry {c : Instr} (h : insideExpiry c = true) (s : State) : Safe s (effect c s) := by
  obtain ⟨t, f, he, hf⟩ := effect_of_insideExpiry h s
  rw [he]
  exact .of_grows (grows_expire t f hf)

/-- R12, R15, R52, R135, R175: every command's own effect keeps the invariants of the part. -/
theorem safe_effect (c : Instr) (s : State) : Safe s (effect c s) := by
  cases c
  case powerOnReset => exact .refl s
  case resetInputHeld => exact .refl s
  case stopAsserted => exact .of_grows (grows_assertStop s)
  case stopDeasserted => exact .of_grows (grows_deassertStop s)
  case badCharacter p ch => exact safe_character s p ch
  case lengthError p => exact safe_abandon s p countsOnce_length
  case crcError p => exact safe_abandon s p countsOnce_crc
  case gapAbort p => exact safe_gapExpires s p
  case busTakeFrame => exact .of_grows (grows_takeFrame s)
  case busFrameSent => exact .of_grows (grows_openReplyWindow s)
  case replyWindowExpired => exact .of_grows (grows_expireWindow s)
  case upstreamTransmitStart => exact .of_grows (grows_transmit s)
  case linkSilent => exact .of_grows (grows_linkSilent s)
  case relayEntryExpired tag => exact .of_grows (grows_holdExpires s tag)
  case pollerRun => exact .of_grows ((grows_advance s _).trans (grows_runPoller _))
  case goodByteArrives p b => exact safe_goodByte s p b
  case upstreamAddressError | controllerNodeFrame | managementBadKind | seek | write | read | validate | start | cancel |
      clear | report | linkReset | exchangeReply | busStray => exact safe_frameArrives s _ _
  all_goals exact safe_of_insideExpiry rfl s

theorem safe_conclude (s : State) : Safe s s.conclude := by
  obtain ⟨fs, n, h, hp⟩ := conclude_eq s
  rw [h]
  exact ⟨rfl, fun x => ⟨hp x.1, x.2⟩, fun x => x, fun x => x, fun x => x⟩

theorem safe_whole (s : State) {f : State → State} (hf : ∀ u, Safe u (f u)) : Safe s (s.whole f) := by
  unfold State.whole
  split
  · exact .refl s
  · exact (((Safe.of_kept (kept_of_settle s)).trans (hf _)).trans (.of_kept (kept_of_settle _))).trans (safe_conclude _)

theorem safe_holdReset (s : State) : Safe s s.holdReset := .of_grows (.of_same le_rfl le_rfl)

/-! ## The reset state -/

theorem heldSum_resetAt (now : Time) : (State.resetAt now).heldSum = 0 := by
  rw [heldSum_eq_sum]
  refine Finset.sum_eq_zero fun i _ => ?_
  simp [State.heldCurrent, State.record, State.resetAt, LoadRecord.fresh]

theorem placesKept_resetAt (now : Time) : (State.resetAt now).PlacesKept := ⟨Nat.zero_le _, Nat.zero_le _⟩

theorem budgetKept_resetAt (now : Time) : (State.resetAt now).BudgetKept := by
  unfold State.BudgetKept
  rw [heldSum_resetAt]
  exact Nat.zero_le _

theorem stacksSound_resetAt (now : Time) : (State.resetAt now).StacksSound := fun c => by cases c <;> exact ⟨Nat.zero_le _, rfl⟩

theorem levelMap_reset : 1 ≤ Limits.reset.map.low ∧ 1 ≤ Limits.reset.map.mid ∧ 1 ≤ Limits.reset.map.high := by decide

theorem rangesKept_resetAt (now : Time) : (State.resetAt now).RangesKept :=
  ⟨bounded_zero, bounded_zero, levelMap_reset⟩

theorem faultPinRight_resetAt (now : Time) : (State.resetAt now).FaultPinRight := rfl

/-- Settles O11. -/
theorem invariantsHoldAtReset : Obligations.InvariantsHoldAtReset :=
  ⟨faultPinRight_resetAt 0, placesKept_resetAt 0, budgetKept_resetAt 0, stacksSound_resetAt 0, rangesKept_resetAt 0⟩

/-! ## Every step -/

/-- A command ends in the next state, which keeps the queue and the invariants; a power-on reset gives those of the reset state. -/
theorem safe_exec (c : Instr) (s : State) : ∃ t, exec c s = .next t ∧ t.pending = s.pending ∧ (s.PlacesKept → t.PlacesKept) ∧
    (s.BudgetKept → t.BudgetKept) ∧ (s.StacksSound → t.StacksSound) ∧ (s.RangesKept → t.RangesKept) := by
  by_cases hp : c = .powerOnReset
  · subst hp
    exact ⟨_, rfl, rfl, fun _ => placesKept_resetAt s.now, fun _ => budgetKept_resetAt s.now,
      fun _ => stacksSound_resetAt s.now, fun _ => rangesKept_resetAt s.now⟩
  · have h : ∃ t, exec c s = .next t ∧ Safe s t := by
      by_cases hh : c = .resetInputHeld
      · subst hh
        exact ⟨_, rfl, safe_holdReset s⟩
      · exact ⟨_, exec_eq_act hp hh s, safe_whole s (safe_effect c)⟩
    obtain ⟨t, he, hpend, hplaces, hbudget, hstacks, hranges⟩ := h
    exact ⟨t, he, hpend, hplaces, hbudget, hstacks, hranges⟩

/-- Settles O2. -/
theorem everyCommandAnswersAndLeavesTheQueue : Obligations.EveryCommandAnswersAndLeavesTheQueue := fun c s => by
  obtain ⟨t, he, hp, -⟩ := safe_exec c s
  exact ⟨t, he, hp⟩

/-- A tick lets time pass or acts on the reports that stand over. -/
theorem safe_tick (s : State) : Safe s s.tick := by
  unfold State.tick
  split
  · exact .of_grows (.of_same le_rfl le_rfl)
  · exact safe_whole s fun u => .refl u

/-- A step keeps the invariants. -/
theorem safe_step {s t : State} (h : step s = .next t) : (s.PlacesKept → t.PlacesKept) ∧ (s.BudgetKept → t.BudgetKept) ∧
    (s.StacksSound → t.StacksSound) ∧ (s.RangesKept → t.RangesKept) := by
  unfold step at h
  split at h
  · obtain rfl := Host.Outcome.next.inj h
    obtain ⟨-, hplaces, hbudget, hstacks, hranges⟩ := safe_tick s
    exact ⟨hplaces, hbudget, hstacks, hranges⟩
  · rename_i c rest _
    obtain ⟨u, he, -, hkept⟩ := safe_exec c { s with pending := rest }
    obtain rfl := Host.Outcome.next.inj (he.symm.trans h)
    exact hkept

/-- Settles O7. -/
theorem everyStepKeepsAPlaceForEveryClosingFrame : Obligations.EveryStepKeepsAPlaceForEveryClosingFrame :=
  fun _ _ h hs => (safe_step hs).1 h

/-- Settles O8. -/
theorem everyStepKeepsTheHeldSumWithinTheBudget : Obligations.EveryStepKeepsTheHeldSumWithinTheBudget :=
  fun _ _ h hs => (safe_step hs).2.1 h

/-- Settles O9. -/
theorem everyStepKeepsTheRecoveryStacksSound : Obligations.EveryStepKeepsTheRecoveryStacksSound :=
  fun _ _ h hs => (safe_step hs).2.2.1 h

/-- Settles O10. -/
theorem everyStepKeepsCountersAndLevelMapInRange : Obligations.EveryStepKeepsCountersAndLevelMapInRange :=
  fun _ _ h hs => (safe_step hs).2.2.2 h

/-! ## The FAULT line -/

theorem faultPinRight_conclude (s : State) : s.conclude.FaultPinRight := rfl

theorem faultPinRight_whole {s : State} (h : s.FaultPinRight) (f : State → State) : (s.whole f).FaultPinRight := by
  unfold State.whole
  split
  · exact h
  · exact faultPinRight_conclude _

theorem faultCondition_iff (s : State) : s.faultCondition = true ↔ s.resetHeld = false ∧
    ∃ c, (s.cav c).state = .halted ∨ (s.lock c).state = .jammed ∨ (s.lock c).jam ≠ .noJam := by
  have hc : ∀ p : Cav → Prop, (∃ c, p c) ↔ p .zero ∨ p .one := fun p =>
    ⟨fun ⟨c, h⟩ => by cases c; exacts [.inl h, .inr h], fun h => h.elim (⟨_, ·⟩) (⟨_, ·⟩)⟩
  rw [hc]
  simp only [State.faultCondition, LockUnit.faulty, Bool.and_eq_true, Bool.or_eq_true, beq_iff_eq, bne_iff_ne,
    Bool.not_eq_true']
  tauto

theorem faultPinRight_step {s t : State} (hs : s.FaultPinRight) (h : step s = .next t) : t.FaultPinRight := by
  unfold step at h
  split at h
  · obtain rfl := Host.Outcome.next.inj h
    unfold State.tick
    split
    · exact hs
    · exact faultPinRight_whole hs id
  · rename_i c rest _
    by_cases hp : c = .powerOnReset
    · subst hp
      obtain rfl := Host.Outcome.next.inj h
      rfl
    · by_cases hh : c = .resetInputHeld
      · subst hh
        obtain rfl := Host.Outcome.next.inj h
        rfl
      · rw [exec_eq_act hp hh] at h
        obtain rfl := Host.Outcome.next.inj h
        exact faultPinRight_whole (s := { s with pending := rest }) hs _

/-- Settles O6: every outcome but a reset's is concluded, which drives the line. -/
theorem everyStepKeepsTheFaultPinRight : Obligations.EveryStepKeepsTheFaultPinRight :=
  ⟨fun _ _ => faultPinRight_step, faultCondition_iff⟩

end Sys2Proof.Machine
end

