-- ==== Sys2Proof/Proofs/Tables.lean ====
section
/-! PROOFS. What leaves the tables alone, the inside timers that leave the link alone, and the power-on reset state: O4, O12,
O60. -/

namespace Sys2Proof.Machine

-- One proof at a time: proofs elaborated side by side ask for more threads than the check's memory limit leaves room for.
set_option Elab.async false

/-! ## The tables -/

namespace State.SameTables

theorem refl (s : State) : s.SameTables s := ⟨rfl, fun _ => rfl, fun _ => rfl, rfl, fun _ => rfl⟩

theorem trans {s t u : State} (h : s.SameTables t) (g : t.SameTables u) : s.SameTables u := by
  obtain ⟨hl, he, hb, ha, hc⟩ := h
  obtain ⟨gl, ge, gb, ga, gc⟩ := g
  exact ⟨gl.trans hl, fun i => (ge i).trans (he i), fun n => (gb n).trans (hb n), ga.trans ha, fun b => (gc b).trans (hc b)⟩

theorem of_kept {s t : State} (h : Kept s t) : s.SameTables t := ⟨h.limits, h.entry, h.binding, h.admission, h.content⟩

/-- A change that leaves the table fields themselves. -/
theorem of_same {s t : State} (limits : t.limits = s.limits := by rfl) (loads : t.loads = s.loads := by rfl)
    (chans : t.chans = s.chans := by rfl) (admission : t.admission = s.admission := by rfl)
    (banks : t.banks = s.banks := by rfl) : s.SameTables t :=
  ⟨limits, fun i => by unfold State.entry; rw [loads], fun n => by unfold State.binding; rw [chans], admission,
    fun b => by unfold State.bank; rw [banks]⟩

end State.SameTables

theorem sameTables_conclude (s : State) : s.SameTables s.conclude := by
  obtain ⟨fs, n, h, -⟩ := conclude_eq s
  rw [h]
  exact .of_same

theorem sameTables_settle (s : State) : s.SameTables s.settle := .of_kept (kept_of_settle s)

theorem sameTables_modPort (s : State) (p : Port) (f : PortState → PortState) : s.SameTables (s.modPort p f) := by
  cases p <;> exact .of_same

theorem sameTables_modRx (s : State) (p : Port) (f : Receiver → Receiver) : s.SameTables (s.modRx p f) := sameTables_modPort ..

theorem sameTables_count (s : State) (p : Port) (f : Counters → Counters) : s.SameTables (s.count p f) := sameTables_modPort ..

theorem sameTables_abandon (s : State) (p : Port) (f : Counters → Counters) : s.SameTables (s.abandon p f) :=
  (sameTables_count ..).trans (sameTables_modRx ..)

theorem sameTables_place (s : State) (f : Frame) : s.SameTables (s.place f) := .of_same

theorem sameTables_advance (s : State) (t : Time) : s.SameTables (s.advance t) := .of_same

theorem sameTables_modRecord (s : State) (i : Fin 16) (f : LoadRecord → LoadRecord) : s.SameTables (s.modRecord i f) :=
  ⟨rfl, fun j => by simp, fun _ => rfl, rfl, fun _ => rfl⟩

theorem sameTables_hearController (s : State) : s.SameTables s.hearController := by
  unfold State.hearController
  dsimp only
  split <;> exact .of_same

theorem sameTables_heard (s : State) : s.SameTables s.heard :=
  ((sameTables_modRx ..).trans (sameTables_count ..)).trans (sameTables_hearController _)

/-! ## Controller frames for nodes -/

theorem sameTables_openQueued (s : State) (f : Frame) (b : Bool) : s.SameTables (s.openQueued f b) := .of_same

theorem sameTables_openDrive (s : State) (i : Fin 16) (f : Frame) (level : Nat) : s.SameTables (s.openDrive i f level) :=
  (sameTables_openQueued s f true).trans (.of_kept (kept_commandByController (Kept.refl _) _ _))

theorem sameTables_openEntry (s : State) (f : Frame) (st : RelayStage) (b : Bool) : s.SameTables (s.openEntry f st b) := .of_same

theorem sameTables_supersede (s : State) (i : Fin 16) (old : Byte) (f : Frame) (level : Nat) :
    s.SameTables (s.supersede i old f level) := by
  unfold State.supersede
  split
  · have h := (State.SameTables.of_kept (kept_closeFail (Kept.refl s) old failSuperseded)).trans
      (sameTables_openEntry _ f .grantWait true)
    exact h.trans .of_same
  · exact ((State.SameTables.of_kept (kept_closeFail (kept_dropRequest (Kept.refl s) i) old failSuperseded)).trans
      (sameTables_openDrive _ i f level)).trans (.of_kept (kept_considerIf (Kept.refl _) _))

theorem sameTables_openByGrant (s : State) (i : Fin 16) (f : Frame) (level : Nat) : s.SameTables (s.openByGrant i f level) := by
  unfold State.openByGrant
  (repeat' split)
  · exact sameTables_openDrive s i f level
  · exact sameTables_openDrive s i f level
  · exact .of_same
  · exact (sameTables_openEntry s f .grantWait true).trans (.of_kept (kept_requestGrant (Kept.refl _) _ _ _))
  · exact sameTables_supersede s i _ f level
  · exact .of_same
  · exact .of_same

theorem sameTables_postController (s : State) (d : BlowLevel) : s.SameTables (s.postController d) := by
  have h : s.SameTables (s.modAir fun a => { a with controllerDemand := d }) := .of_same
  exact h.trans (.of_kept (kept_followDemand (Kept.refl _) _))

theorem sameTables_blowerDrive (s : State) (i : Fin 16) (f : Frame) (level : Nat) : s.SameTables (s.blowerDrive i f level) :=
  (sameTables_postController s _).trans (sameTables_place ..)

theorem sameTables_admitDrive (s : State) (i : Fin 16) (f : Frame) : s.SameTables (s.admitDrive i f) := by
  unfold State.admitDrive
  split
  · exact .of_same
  · split
    · exact .of_same
    · split
      case h_1 => exact .of_same
      case h_2 => exact sameTables_blowerDrive s i f _
      all_goals
        split
        · exact .of_same
        · split
          · exact .of_same
          · exact sameTables_openByGrant s i _ _

theorem sameTables_nodeFrame (s : State) (f : Frame) : s.SameTables (s.nodeFrame f) := by
  unfold State.nodeFrame
  (repeat' split)
  · exact .of_same
  · exact .of_same
  · exact sameTables_admitDrive s _ f
  · exact .of_same
  · exact sameTables_count ..

/-! ## Management commands but WRITE and VALIDATE -/

/-- A management command's body leaves the tables. -/
def TableFree (body : State → List Byte → Answered) : Prop := ∀ (s : State) (payload : List Byte), s.SameTables (body s payload).state

theorem tableFree_doSeek : TableFree State.doSeek := by
  intro s payload
  unfold State.doSeek
  (repeat' split) <;> exact .of_same

theorem tableFree_doRead : TableFree State.doRead := by
  intro s payload
  unfold State.doRead
  (repeat' split) <;> exact .of_same

theorem tableFree_doStart : TableFree State.doStart := by
  intro s payload
  unfold State.doStart
  (repeat' split)
  · exact .of_same
  · exact .of_same
  · exact .of_kept (kept_acceptStart (Kept.refl s) _ _ _)
  all_goals exact .of_same

theorem tableFree_doCancel : TableFree State.doCancel := by
  intro s payload
  unfold State.doCancel
  split
  · split
    · exact .of_same
    · rename_i c _
      split
      · rename_i heq
        have k := kept_cancelCavity (Kept.refl s) c
        rw [heq] at k
        exact .of_kept k
      · exact .of_same
  · exact .of_same

theorem tableFree_doClear : TableFree State.doClear := by
  intro s payload
  unfold State.doClear
  (repeat' split)
  · exact .of_same
  · exact .of_same
  · exact .of_kept (kept_enterRelease (Kept.refl s) _)
  all_goals exact .of_same

theorem tableFree_doReport : TableFree State.doReport := by
  intro s payload
  unfold State.doReport
  (repeat' split) <;> exact .of_same

theorem sameTables_manage {s : State} {body : State → List Byte → Answered} (hb : TableFree body) (tag : Byte)
    (payload : List Byte) : s.SameTables (s.manage body tag payload) := by
  unfold State.manage
  split
  · exact ((hb s payload).trans (sameTables_settle _)).trans (sameTables_place ..)
  · exact sameTables_count ..

theorem sameTables_resetLink (s : State) (tag : Byte) : s.SameTables (s.resetLink tag) := by
  have h := State.SameTables.of_kept (kept_resetDrops s)
  have g : State.SameTables (s.relay.foldl State.dropQueued (s.relay.foldl State.dropWait s)) (s.resetLink tag) := .of_same
  exact h.trans g

theorem sameTables_linkReset (s : State) (tag : Byte) : s.SameTables (s.linkReset tag) := by
  obtain ⟨fs, n, h, -⟩ := serveNotices_eq (((s.resetLink tag).flagCav .zero).flagCav .one).flagPart
  have hs : (((s.resetLink tag).flagCav .zero).flagCav .one).flagPart.SameTables
    (((s.resetLink tag).flagCav .zero).flagCav .one).flagPart.serveNotices := by rw [h]; exact .of_same
  have hf : (s.resetLink tag).SameTables (((s.resetLink tag).flagCav .zero).flagCav .one).flagPart := .of_same
  exact (((sameTables_resetLink s tag).trans hf).trans hs).trans (.of_kept (kept_considerHead (Kept.refl _)))

/-! ## The frames of the controller -/

theorem payloadFits_iff (payload : List Byte) : payloadFits payload = true ↔ payload.length ≤ 40 := decide_eq_true_iff

/-- R7: a frame whose LEN fits is handed to acceptance. -/
theorem frameArrives_of_fits (s : State) (p : Port) {f : Frame} (hlen : f.payload.length ≤ 40) :
    s.frameArrives p f = (s.modRx p Receiver.hunt).deliver p f := if_pos ((payloadFits_iff _).2 hlen)

theorem frameArrives_node (s : State) {dest : Byte} (kind tag : Byte) {payload : List Byte} (hlen : payload.length ≤ 40)
    (hd : isNodeAddress dest = true) :
    s.frameArrives .upstream { dest := dest, src := 121, kind := kind, tag := tag, payload := payload } =
      s.heard.nodeFrame { dest := dest, src := 121, kind := kind, tag := tag, payload := payload } := by
  simp only [isNodeAddress, Bool.and_eq_true, decide_eq_true_eq] at hd
  have hacc : acceptedUpstream { dest := dest, src := 121, kind := kind, tag := tag, payload := payload } = true := by
    simp [acceptedUpstream]; omega
  have h120 : dest ≠ 120 := by rintro rfl; simp at hd
  rw [frameArrives_of_fits s _ hlen]
  unfold State.deliver State.upstreamFrame State.acceptUpstream
  dsimp only
  rw [if_pos hacc, if_neg h120]
  rfl

theorem frameArrives_toPart (s : State) (kind tag : Byte) {payload : List Byte} (hlen : payload.length ≤ 40) :
    s.frameArrives .upstream (toPart kind tag payload) = s.heard.managementFrame (toPart kind tag payload) :=
  (frameArrives_of_fits s _ (f := toPart kind tag payload) hlen).trans rfl

section
variable (s : State) (tag : Byte) {payload : List Byte} (hlen : payload.length ≤ 40)
include hlen

theorem effect_controllerNodeFrame {dest : Byte} (kind : Byte) (hd : isNodeAddress dest = true) :
    effect (.controllerNodeFrame dest kind tag payload) s =
      s.heard.nodeFrame { dest := dest, src := 121, kind := kind, tag := tag, payload := payload } :=
  frameArrives_node s kind tag hlen hd

theorem effect_seek : effect (.seek tag payload) s = s.heard.manage State.doSeek tag payload := frameArrives_toPart s _ tag hlen
theorem effect_write : effect (.write tag payload) s = s.heard.manage State.doWrite tag payload :=
  frameArrives_toPart s _ tag hlen
theorem effect_read : effect (.read tag payload) s = s.heard.manage State.doRead tag payload := frameArrives_toPart s _ tag hlen
theorem effect_validate : effect (.validate tag payload) s = s.heard.manage State.doValidate tag payload :=
  frameArrives_toPart s _ tag hlen
theorem effect_start : effect (.start tag payload) s = s.heard.manage State.doStart tag payload :=
  frameArrives_toPart s _ tag hlen
theorem effect_cancel : effect (.cancel tag payload) s = s.heard.manage State.doCancel tag payload :=
  frameArrives_toPart s _ tag hlen
theorem effect_clear : effect (.clear tag payload) s = s.heard.manage State.doClear tag payload :=
  frameArrives_toPart s _ tag hlen
theorem effect_report : effect (.report tag payload) s = s.heard.manage State.doReport tag payload :=
  frameArrives_toPart s _ tag hlen
theorem effect_linkReset : effect (.linkReset tag payload) s = s.heard.linkReset tag := frameArrives_toPart s _ tag hlen

theorem effect_managementBadKind {kind : Byte} (hk : isManagementKind kind = false) :
    effect (.managementBadKind kind tag payload) s = s.heard.manage State.doBadKind tag payload := by
  refine (frameArrives_toPart s kind tag hlen).trans ?_
  have hk : ¬(32 ≤ kind.toNat ∧ kind.toNat ≤ 40) := by simpa [isManagementKind] using hk
  unfold State.managementFrame toPart
  dsimp only
  split
  case h_10 => rfl
  all_goals omega

end

/-! ## The load bus, the receivers and the link's timers -/

theorem sameTables_tap (s : State) (f : Frame) : s.SameTables (s.tap f) := by
  unfold State.tap
  split
  · unfold State.tapState
    (repeat' split)
    · exact (sameTables_modRecord s _ _).trans (.of_kept (kept_tapLoad _ _ (Kept.refl _)))
    all_goals exact .refl s
  · exact .of_kept (kept_ite _ (kept_tapReading (Kept.refl s) f) (Kept.refl s))

theorem sameTables_endByReply (s : State) (x : Exchange) (f : Frame) : s.SameTables (s.endByReply x f) := by
  have h : s.SameTables { s with exchange := none } := .of_same
  exact ((h.trans (sameTables_count _ .bus Counters.addAccepted)).trans (sameTables_tap _ f)).trans
    (.of_kept (kept_handReply (kept_settle (Kept.refl _)) x.party f))

theorem sameTables_busFrame (s : State) (f : Frame) : s.SameTables (s.busFrame f) := by
  unfold State.busFrame
  (repeat' split)
  · exact sameTables_endByReply s _ f
  all_goals exact sameTables_count ..

theorem sameTables_frameArrives_bus (s : State) (f : Frame) : s.SameTables (s.frameArrives .bus f) := by
  unfold State.frameArrives
  split
  · exact (sameTables_modRx ..).trans (sameTables_busFrame _ f)
  · exact sameTables_abandon ..

theorem sameTables_goodByte_bus (s : State) (b : Byte) : s.SameTables (s.goodByte .bus b) := by
  have h := sameTables_modRx s .bus fun r => { r with awaitHigh := false }
  unfold State.goodByte
  dsimp only
  generalize s.modRx .bus _ = u at h
  have hs : u.SameTables (u.storeByte .bus b) := sameTables_modRx ..
  split
  · unfold State.huntByte
    split
    · exact h.trans (sameTables_modRx ..)
    · exact h
  · refine (h.trans hs).trans ?_
    unfold State.afterHeader
    (repeat' split)
    · exact sameTables_abandon ..
    · exact sameTables_modRx ..
    · exact sameTables_modRx ..
    · exact .refl _
  · refine (h.trans hs).trans ?_
    unfold State.afterBody
    (repeat' split)
    · exact sameTables_modRx ..
    all_goals exact .refl _
  · refine h.trans ?_
    unfold State.checkByte State.endCheck
    dsimp only
    (repeat' split)
    · exact sameTables_modRx ..
    · exact (sameTables_modRx ..).trans (sameTables_busFrame _ _)
    · exact sameTables_modRx ..
    · exact sameTables_abandon ..

theorem sameTables_gapExpires (s : State) (p : Port) : s.SameTables (s.gapExpires p) := by
  unfold State.gapExpires
  split
  · exact (sameTables_advance ..).trans (sameTables_abandon ..)
  · exact .refl s

theorem sameTables_modRelay (s : State) (tag : Byte) (f : RelayEntry → RelayEntry) : s.SameTables (s.modRelay tag f) := .of_same

theorem sameTables_beginExchange (s : State) (f : Frame) (p : Party) : s.SameTables (s.beginExchange f p) := .of_same

theorem sameTables_stepTag (s : State) : s.SameTables s.stepTag := .of_same

theorem sameTables_sendItem (s : State) (q : QItem) (urgent : Bool) : s.SameTables (s.sendItem q urgent) := by
  unfold State.sendItem
  split
  · exact ((sameTables_modRecord ..).trans (sameTables_beginExchange ..)).trans (sameTables_stepTag _)
  · exact (sameTables_beginExchange ..).trans (sameTables_stepTag _)
  · split
    · exact (sameTables_modRelay ..).trans (sameTables_beginExchange ..)
    · exact .refl s

theorem sameTables_takeFrame (s : State) : s.SameTables s.takeFrame := by
  unfold State.takeFrame
  (repeat' split)
  · exact .refl s
  · exact (State.SameTables.of_same (t := { s.advance s.busTx.freeAt with urgent := _ })).trans (sameTables_sendItem _ _ true)
  · exact (State.SameTables.of_same (t := { s.advance s.busTx.freeAt with normal := _ })).trans (sameTables_sendItem _ _ false)
  · exact .refl s

theorem sameTables_openReplyWindow (s : State) : s.SameTables s.openReplyWindow := by
  unfold State.openReplyWindow
  (repeat' split)
  · exact .of_same
  all_goals exact .refl s

theorem sameTables_expireWindow (s : State) : s.SameTables s.expireWindow := by
  unfold State.expireWindow
  (repeat' split)
  · rename_i t _
    have h : s.SameTables { s.advance t with exchange := none } := .of_same
    exact h.trans (.of_kept (kept_handExpiry (Kept.refl _) _))
  all_goals exact .refl s

theorem sameTables_transmit (s : State) : s.SameTables s.transmit := by
  unfold State.transmit
  split
  · exact .of_same
  · exact .refl s

theorem sameTables_goSilent (s : State) : s.SameTables s.goSilent := by
  have h : s.SameTables { s with live := false, silence := none } := .of_same
  unfold State.goSilent
  generalize { s with live := false, silence := none } = u at h ⊢
  have ht : u.SameTables u.takeOver :=
    (State.SameTables.of_kept (kept_engineOffs (kept_withdrawOns (Kept.refl u)) _)).trans (sameTables_postController _ .off)
  exact (h.trans ht).trans (.of_kept (kept_flagPart (kept_raiseBoth (Kept.refl _) _)))

theorem sameTables_expire {s : State} (t : Timer) {f : State → State} (hf : ∀ u : State, u.SameTables (f u)) :
    s.SameTables (s.expire t f) := by
  unfold State.expire
  split
  · exact (sameTables_advance ..).trans (hf _)
  · exact .refl s

theorem sameTables_holdExpires (s : State) (tag : Byte) : s.SameTables (s.holdExpires tag) := by
  unfold State.holdExpires State.expire
  split
  · rename_i e he
    split
    · exact (sameTables_advance ..).trans (.of_kept (kept_expireRelay (Kept.refl _) ((relayEntry_advance s _ tag).trans he)))
    · exact .refl s
  · exact .refl s

theorem sameTables_runPoller (s : State) : s.SameTables s.runPoller := by
  have h := State.SameTables.of_kept (kept_foldl State.pollBinding (fun _ _ g => kept_pollBinding g _) (indexes 8) (Kept.refl s))
  unfold State.runPoller
  dsimp only
  generalize (indexes 8).foldl State.pollBinding s = u at h ⊢
  have g : u.SameTables { u with pollDue := u.now + millis u.limits.poll } := .of_same
  exact h.trans g

theorem sameTables_assertStop (s : State) : s.SameTables s.assertStop := by
  have h : s.SameTables { s with stopAsserted := true } := .of_same
  unfold State.assertStop
  split
  · exact .refl s
  · exact h.trans (.of_kept (kept_assertStopActs _ _))

theorem sameTables_deassertStop (s : State) : s.SameTables s.deassertStop := by
  unfold State.deassertStop
  split
  · exact .of_same
  · exact .refl s

/-! ## Every command but the writes -/

/-- R10: a frame with a wrong address only counts. -/
theorem frameArrives_of_not_accepted {s : State} {f : Frame} (hlen : f.payload.length ≤ 40) (h : acceptedUpstream f = false) :
    s.frameArrives .upstream f = (s.modRx .upstream Receiver.hunt).count .upstream Counters.addDiscarded := by
  rw [frameArrives_of_fits s _ hlen]
  simp [State.deliver, State.upstreamFrame, h]

theorem sameTables_of_insideExpiry {c : Instr} (h : insideExpiry c = true) (s : State) : s.SameTables (effect c s) := by
  obtain ⟨t, f, he, hf⟩ := effect_of_insideExpiry h s
  rw [he]
  exact sameTables_expire t fun u => .of_kept (hf u)

/-- R83, R90, R173: the effect of a command that is no WRITE and no VALIDATE leaves the tables. -/
theorem sameTables_effect {c : Instr} (hw : c.wellFormed = true) (hm : mayWriteTables c = false) (s : State) :
    s.SameTables (effect c s) := by
  have heard := sameTables_heard s
  cases c
  case powerOnReset => exact .refl s
  case resetInputHeld => exact .refl s
  case stopAsserted => exact sameTables_assertStop s
  case stopDeasserted => exact sameTables_deassertStop s
  case badCharacter p ch =>
    have hb : ch.good = false := by simpa [Instr.wellFormed] using hw
    have h : effect (.badCharacter p ch) s = _ := character_of_bad hb s p
    rw [h]
    exact (sameTables_modRx ..).trans (sameTables_count ..)
  case lengthError p => exact sameTables_abandon ..
  case crcError p => exact sameTables_abandon ..
  case gapAbort p => exact sameTables_gapExpires s p
  case upstreamAddressError f =>
    simp only [Instr.wellFormed, Bool.and_eq_true, Bool.not_eq_true'] at hw
    obtain ⟨hlen, hacc⟩ := hw
    have h : effect (.upstreamAddressError f) s = _ := frameArrives_of_not_accepted ((payloadFits_iff _).1 hlen) hacc
    rw [h]
    exact (sameTables_modRx ..).trans (sameTables_count ..)
  case controllerNodeFrame dest kind tag payload =>
    simp only [Instr.wellFormed, Bool.and_eq_true] at hw
    obtain ⟨hlen, hd⟩ := hw
    rw [effect_controllerNodeFrame s tag ((payloadFits_iff _).1 hlen) kind hd]
    exact heard.trans (sameTables_nodeFrame _ _)
  case managementBadKind kind tag payload =>
    simp only [Instr.wellFormed, Bool.and_eq_true, Bool.not_eq_true'] at hw
    obtain ⟨hlen, hk⟩ := hw
    rw [effect_managementBadKind s tag ((payloadFits_iff _).1 hlen) hk]
    exact heard.trans (sameTables_manage (fun _ _ => .of_same) _ _)
  case seek tag payload =>
    rw [effect_seek s tag ((payloadFits_iff _).1 hw)]
    exact heard.trans (sameTables_manage tableFree_doSeek _ _)
  case write => cases hm
  case read tag payload =>
    rw [effect_read s tag ((payloadFits_iff _).1 hw)]
    exact heard.trans (sameTables_manage tableFree_doRead _ _)
  case validate => cases hm
  case start tag payload =>
    rw [effect_start s tag ((payloadFits_iff _).1 hw)]
    exact heard.trans (sameTables_manage tableFree_doStart _ _)
  case cancel tag payload =>
    rw [effect_cancel s tag ((payloadFits_iff _).1 hw)]
    exact heard.trans (sameTables_manage tableFree_doCancel _ _)
  case clear tag payload =>
    rw [effect_clear s tag ((payloadFits_iff _).1 hw)]
    exact heard.trans (sameTables_manage tableFree_doClear _ _)
  case report tag payload =>
    rw [effect_report s tag ((payloadFits_iff _).1 hw)]
    exact heard.trans (sameTables_manage tableFree_doReport _ _)
  case linkReset tag payload =>
    rw [effect_linkReset s tag ((payloadFits_iff _).1 hw)]
    exact heard.trans (sameTables_linkReset _ _)
  case busTakeFrame => exact sameTables_takeFrame s
  case busFrameSent => exact sameTables_openReplyWindow s
  case exchangeReply f => exact sameTables_frameArrives_bus s f
  case busStray f => exact sameTables_frameArrives_bus s f
  case replyWindowExpired => exact sameTables_expireWindow s
  case upstreamTransmitStart => exact sameTables_transmit s
  case linkSilent =>
    unfold effect
    dsimp only
    split
    · exact sameTables_expire _ sameTables_goSilent
    · exact .refl s
  case relayEntryExpired tag => exact sameTables_holdExpires s tag
  case pollerRun => exact (sameTables_advance ..).trans (sameTables_runPoller _)
  case goodByteArrives p b =>
    cases p
    · cases hm
    · exact sameTables_goodByte_bus s b
  all_goals exact sameTables_of_insideExpiry rfl s

theorem sameTables_whole {s : State} {f : State → State} (hf : ∀ u : State, u.SameTables (f u)) : s.SameTables (s.whole f) := by
  unfold State.whole
  split
  · exact .refl s
  · exact (((sameTables_settle s).trans (hf _)).trans (sameTables_settle _)).trans (sameTables_conclude _)

/-- Settles O12. -/
theorem onlyWritesChangeTheTables : Obligations.OnlyWritesChangeTheTables := by
  intro s t c hw hm h
  by_cases hp : c = .powerOnReset
  · subst hp; cases hm
  · by_cases hh : c = .resetInputHeld
    · subst hh
      obtain rfl := Host.Outcome.next.inj h
      exact .of_same
    · rw [exec_eq_act hp hh] at h
      obtain rfl := Host.Outcome.next.inj h
      exact sameTables_whole (sameTables_effect hw hm)

/-! ## The timers inside the part -/

theorem Kept.with_now {s t : State} (h : Kept s t) (n : Time) : Kept { s with now := n } { t with now := n } :=
  { h with now := rfl }

/-- A timer inside the part moves the time on, acts as the blocks do, and is concluded. -/
theorem kept_insideExpiry {s t : State} {c : Instr} (h : insideExpiry c = true) (he : exec c s = .next t) :
    ∃ (n : Time) (u : State) (fs : List Frame) (ns : Notices) (b : Bool), s.now ≤ n ∧ Kept { s with now := n } u ∧
      t = { u with outQueue := u.outQueue ++ fs, notices := ns, faultOut := b } := by
  have hp : c ≠ .powerOnReset := by rintro rfl; cases h
  have hh : c ≠ .resetInputHeld := by rintro rfl; cases h
  rw [exec_eq_act hp hh] at he
  obtain rfl := Host.Outcome.next.inj he
  unfold State.whole
  split
  · exact ⟨s.now, s, [], s.notices, s.faultOut, le_rfl, Kept.refl s, by simp⟩
  · obtain ⟨tm, f, hf, hk⟩ := effect_of_insideExpiry h s.settle
    have hact : ∃ n, s.now ≤ n ∧ Kept { s with now := n } (effect c s.settle) := by
      rw [hf]
      have ks := kept_of_settle s
      unfold State.expire
      split
      · rename_i e
        have hm : max s.settle.now e = max s.now e := by rw [ks.now]
        exact ⟨max s.now e, le_max_left .., (ks.with_now _).trans (by rw [← hm]; exact hk _)⟩
      · exact ⟨s.now, le_rfl, ks⟩
    obtain ⟨n, hn, hk⟩ := hact
    obtain ⟨fs, ns, hc, -⟩ := conclude_eq (effect c s.settle).settle
    exact ⟨n, _, fs, ns, _, hn, kept_settle hk, hc⟩

/-- Settles O60. -/
theorem insideExpiriesLeaveTheLinkAlone : Obligations.InsideExpiriesLeaveTheLinkAlone := by
  intro s t c h he
  obtain ⟨n, u, fs, ns, b, hn, k, rfl⟩ := kept_insideExpiry h he
  exact ⟨k.up, k.bus, k.upTx, k.busTx, k.exchange, k.tagSeq, k.live, k.silence, k.pointer, k.resetHeld, k.stopAsserted,
    k.controllerDemand, k.pollDue, k.sent.trans (List.prefix_append ..), k.relay, hn.trans_eq k.now.symm,
    (State.SameTables.of_kept k).trans .of_same⟩

/-! ## The power-on reset state -/

/-- Settles O4: every field of the reset state is as the rules give. -/
theorem powerOnResetClearsTheBlocks : Obligations.PowerOnResetClearsTheBlocks := by
  intro s
  refine ⟨rfl, _, rfl, ?link, ?loads, ?channels, ?banks, ?cavities, ?locks, ⟨rfl, rfl, rfl, rfl, rfl, rfl⟩,
    rfl, rfl, rfl, rfl, rfl, rfl, rfl, rfl, rfl⟩
  case link => exact ⟨rfl, rfl, rfl, rfl, rfl, rfl, rfl, rfl, rfl, rfl⟩
  case loads =>
    refine ⟨fun i => by simp [State.entry, State.resetAt, LoadEntry.reset], heldSum_resetAt s.now, rfl, rfl, fun c => ?_, rfl⟩
    cases c <;> exact ⟨rfl, rfl, fun p => by cases p <;> rfl⟩
  case channels =>
    exact ⟨fun n => by simp [State.binding, State.chanRecord, State.resetAt, Binding.reset, ChanRecord.unbound],
      rfl, rfl, rfl, rfl⟩
  case banks => exact fun b => by cases b <;> exact ⟨rfl, rfl, rfl, rfl, rfl, rfl, rfl⟩
  case cavities => exact fun c => by cases c <;> exact ⟨rfl, rfl, rfl, rfl, rfl, rfl⟩
  case locks => exact fun c => by cases c <;> exact ⟨rfl, rfl, rfl, rfl, rfl, rfl, rfl, rfl⟩

end Sys2Proof.Machine
end

