-- ==== Sys2Proof/Proofs/OnTheLine.lean ====
section
/-! PROOFS. A frame received byte by byte as it stands on the line (R3, R4, R6 to R8): O15. -/

namespace Sys2Proof.Machine

-- One proof at a time: proofs elaborated side by side ask for more threads than the check's memory limit leaves room for.
set_option Elab.async false

/-- The receiver of a port after good bytes have been stored. -/
def storedRxs (now : Time) (r : Receiver) (bs : List Byte) : Receiver := bs.foldl (storedRx now) r

/-- Good bytes at a port, in order. -/
def goodBytes (s : State) (p : Port) (bs : List Byte) : State := bs.foldl (fun t b => t.goodByte p b) s

/-- The part with a receiver of its own choice at a port. -/
def State.withRx (s : State) (p : Port) (r : Receiver) : State := s.modRx p (fun _ => r)

section
variable (now : Time) (r : Receiver) (bs : List Byte)

theorem checkHigh_storedRxs : (storedRxs now r bs).checkHigh = r.checkHigh := by
  induction bs generalizing r with
  | nil => rfl
  | cons b bs ih => exact ih _

theorem stored_storedRxs : (storedRxs now r bs).stored = r.stored ++ bs := by
  induction bs generalizing r with
  | nil => simp [storedRxs]
  | cons b bs ih => exact (ih _).trans (by simp [storedRx])

/-- The stage plays no part in what is stored. -/
theorem storedRxs_stage (a b : RxStage) :
    ({ storedRxs now { r with stage := a } bs with stage := b } : Receiver) = { storedRxs now r bs with stage := b } := by
  induction bs generalizing r with
  | nil => rfl
  | cons x bs ih => exact ih (storedRx now r x)

theorem crc_storedRxs : (storedRxs now r bs).crc = crcBytes r.crc bs := by
  induction bs generalizing r with
  | nil => rfl
  | cons b bs ih => exact ih _

end

section
variable (s : State) (p : Port)

@[simp] theorem rx_withRx (r : Receiver) : ((s.withRx p r).port p).rx = r := rx_modRx ..

@[simp] theorem now_withRx (r : Receiver) : (s.withRx p r).now = s.now := now_modRx ..

theorem modRx_withRx (r : Receiver) (f : Receiver → Receiver) : (s.withRx p r).modRx p f = s.withRx p (f r) := modRx_modRx ..

theorem modRx_eq_withRx (f : Receiver → Receiver) : s.modRx p f = s.withRx p (f (s.port p).rx) := modRx_congr rfl

/-- R7: the first four bytes of HEADER are stored. -/
theorem goodBytes_header {r : Receiver} (hst : r.stage = .header) {bs : List Byte} (hn : r.stored.length + bs.length ≤ 4) :
    goodBytes (s.withRx p r) p bs = s.withRx p (storedRxs s.now r bs) := by
  induction bs generalizing r with
  | nil => rfl
  | cons b bs ih =>
    simp only [List.length_cons] at hn
    have hb : (s.withRx p r).goodByte p b = s.withRx p (storedRx s.now r b) := by
      rw [goodByte_of_header_early (by simpa using hst) (by simp; omega), modRx_withRx, now_withRx]
    calc goodBytes (s.withRx p r) p (b :: bs)
        = goodBytes ((s.withRx p r).goodByte p b) p bs := rfl
      _ = s.withRx p (storedRxs s.now r (b :: bs)) := by
        rw [hb]
        exact ih hst (by simp [storedRx]; omega)

/-- R8: the payload bytes that LEN announces are stored, and CHECK follows the last. -/
theorem goodBytes_body {dest src kind tag len : Byte} {bs : List Byte} (hne : bs ≠ []) :
    ∀ {r : Receiver} {payload : List Byte}, r.stage = .body → r.stored = dest :: src :: kind :: tag :: len :: payload →
      len.toNat = payload.length + bs.length →
      goodBytes (s.withRx p r) p bs = s.withRx p { storedRxs s.now r bs with stage := .check } := by
  induction bs with
  | nil => exact absurd rfl hne
  | cons b bs ih =>
    intro r payload hst hs hlen
    simp only [List.length_cons] at hlen
    have hb : (s.withRx p r).goodByte p b = s.withRx p
        { storedRx s.now r b with stage := if len.toNat ≤ payload.length + 1 then .check else .body } := by
      rw [goodByte_of_body_stored (by simpa using hst) (by simpa using hs), modRx_withRx, now_withRx]
    have hcons : goodBytes (s.withRx p r) p (b :: bs) = goodBytes ((s.withRx p r).goodByte p b) p bs := rfl
    rw [hcons, hb]
    by_cases hbs : bs = []
    · subst hbs
      have hle : len.toNat ≤ payload.length + 1 := by simp at hlen; omega
      rw [if_pos hle]
      rfl
    · have hpos : 0 < bs.length := List.length_pos_iff.2 hbs
      rw [if_neg (by omega : ¬len.toNat ≤ payload.length + 1)]
      have hbody : ({ storedRx s.now r b with stage := .body } : Receiver) = storedRx s.now r b := by simp [storedRx, hst]
      rw [hbody]
      exact ih hbs (payload := payload ++ [b]) hst (by simp [storedRx, hs]) (by simp; omega)

/-- R7, R8: the covered bytes of a frame leave the receiver in CHECK, every byte stored. -/
theorem goodBytes_covered (f : Frame) (hlen : f.payload.length ≤ 40) {r : Receiver} (hst : r.stage = .header)
    (hs : r.stored = []) :
    goodBytes (s.withRx p r) p (frameCovered f) = s.withRx p { storedRxs s.now r (frameCovered f) with stage := .check } := by
  let len : Byte := BitVec.ofNat 8 f.payload.length
  have hlen' : len.toNat = f.payload.length := by simp [len]; omega
  let r4 := storedRxs s.now r [f.dest, f.src, f.kind, f.tag]
  have h4 : goodBytes (s.withRx p r) p [f.dest, f.src, f.kind, f.tag] = s.withRx p r4 :=
    goodBytes_header s p hst (by simp [hs])
  have hst4 : r4.stage = .header := hst
  have hs4 : r4.stored = [f.dest, f.src, f.kind, f.tag] := by simp [r4, stored_storedRxs, hs]
  have h5 : (s.withRx p r4).goodByte p len =
      s.withRx p { storedRx s.now r4 len with stage := if len = 0 then .check else .body } := by
    rw [goodByte_of_header_len (by simpa using hst4) (by simp [hs4]), if_neg (by omega), modRx_withRx, now_withRx]
  have hsplit : goodBytes (s.withRx p r) p (frameCovered f) =
      goodBytes ((goodBytes (s.withRx p r) p [f.dest, f.src, f.kind, f.tag]).goodByte p len) p f.payload := rfl
  rw [hsplit, h4, h5]
  by_cases hp : f.payload = []
  · have hz : len = 0 := by simp [len, hp]
    have hc : frameCovered f = [f.dest, f.src, f.kind, f.tag, len] := by simp [frameCovered, hp, len]
    rw [if_pos hz, hc, hp]
    rfl
  · have hpos : 0 < f.payload.length := List.length_pos_iff.2 hp
    have hnz : len ≠ 0 := by
      intro h
      have := congrArg BitVec.toNat h
      rw [hlen'] at this
      simp at this
      exact hp this
    have hs5 : ({ storedRx s.now r4 len with stage := .body } : Receiver).stored = [f.dest, f.src, f.kind, f.tag, len] := by
      simp [storedRx, hs4]
    rw [if_neg hnz, goodBytes_body s p hp rfl hs5 (by simpa using hlen')]
    exact congrArg _ (storedRxs_stage s.now (storedRx s.now r4 len) f.payload .body .check)

/-- R8: the two bytes of CHECK, equal to the CRC register, hand the frame to acceptance. -/
theorem goodBytes_check {r : Receiver} {dest src kind tag len : Byte} {payload : List Byte} (hst : r.stage = .check)
    (hh : r.checkHigh = none) (hs : r.stored = dest :: src :: kind :: tag :: len :: payload) :
    goodBytes (s.withRx p r) p [highByte r.crc, lowByte r.crc] =
      State.deliver (s.withRx p { stage := .hunt, stored := [], crc := r.crc, checkHigh := none, gap := none, awaitHigh := false })
        p { dest := dest, src := src, kind := kind, tag := tag, payload := payload } := by
  have hcons : goodBytes (s.withRx p r) p [highByte r.crc, lowByte r.crc] =
    ((s.withRx p r).goodByte p (highByte r.crc)).goodByte p (lowByte r.crc) := rfl
  have hfirst := goodByte_of_check_first (s := s.withRx p r) (p := p) (by simpa using hst) (by simpa using hh) (highByte r.crc)
  rw [hcons, hfirst, modRx_withRx, goodByte_of_check_right (hi := highByte r.crc) (by simpa using hst) (by simp) (by simpa using hs) (by simp) (by simp), modRx_withRx]
  rfl

end

/-- Settles O15: SYNC opens the frame, the covered bytes are stored, and the two bytes of CHECK equal the register. -/
theorem frameOnTheLineIsReceivedWhole : Obligations.FrameOnTheLineIsReceivedWhole := by
  intro s p f hst hlen
  let r : Receiver :=
    { stage := .header, stored := [], crc := crcStart, checkHigh := none, gap := some (s.now + gapTime), awaitHigh := false }
  have hsync : s.goodByte p syncByte = s.withRx p r := by rw [goodByte_of_hunt hst, modRx_eq_withRx, if_pos rfl]
  have hcov := goodBytes_covered s p f hlen (r := r) rfl rfl
  let r2 : Receiver := { storedRxs s.now r (frameCovered f) with stage := .check }
  have hcrc : r2.crc = frameCheck f := crc_storedRxs s.now r (frameCovered f)
  have hsplit : (frameWire f).foldl (fun t b => t.goodByte p b) s =
      goodBytes (goodBytes (s.goodByte p syncByte) p (frameCovered f)) p [highByte (frameCheck f), lowByte (frameCheck f)] := by
    simp [frameWire, goodBytes]
  have hend := goodBytes_check s p (r := r2) (payload := f.payload) rfl (checkHigh_storedRxs s.now r (frameCovered f))
    (stored_storedRxs s.now r (frameCovered f))
  rw [hcrc] at hend
  rw [hsplit, hsync, hcov, hend]
  rfl

end Sys2Proof.Machine
end

