-- ==== Sys2Proof/Proofs/Link.lean ====
section
/-! PROOFS. Frames that only count, the controller's frames as they are accepted, and the commands that no place, no form or no
change of the part ends at once: O16, O17, O19, O20, O29, O30, O36. -/

namespace Sys2Proof.Machine

-- One proof at a time: proofs elaborated side by side ask for more threads than the check's memory limit leaves room for.
set_option Elab.async false

/-! ## Commands of a ready part -/

/-- An effect that delivers no report is concluded at once. -/
theorem exec_of_quiet {c : Instr} {s u : State} (hp : c ≠ .powerOnReset) (hh : c ≠ .resetInputHeld) (h : s.Ready)
    (he : effect c s = u) (hq : u.events = []) : exec c s = .next u.conclude := by
  subst he
  exact (exec_eq_act hp hh s).trans (act_of_quiet h hq)

/-- An effect is followed by the reports it delivered. -/
theorem answers_of_effect {c : Instr} {s u : State} (hp : c ≠ .powerOnReset) (hh : c ≠ .resetInputHeld) (h : s.Ready)
    (he : effect c s = u) : Answers c s u := by
  subst he
  exact answers_effect hp hh h

/-- Settles O16. -/
theorem abandonedAndUnacceptedFramesOnlyCount : Obligations.AbandonedAndUnacceptedFramesOnlyCount := by
  refine ⟨fun s p h => ?len, fun s p h => ?crc, fun s p e h hg => ?gap, fun s p ch h hc => ?char, fun s f h hlen hf => ?address,
    fun s f h hlen hx => ?stray⟩
  case len => exact exec_of_quiet nofun nofun h rfl (by simp [h.2])
  case crc => exact exec_of_quiet nofun nofun h rfl (by simp [h.2])
  case gap =>
    have he : effect (.gapAbort p) s = (s.advance e).abandon p Counters.addGap := by simp [effect, State.gapExpires, hg]
    exact exec_of_quiet nofun nofun h he (by simp [h.2])
  case char => exact (exec_badCharacter h p hc).trans (by simp only [modRx_count])
  case address =>
    have hacc : acceptedUpstream f = false := by
      simp only [acceptedUpstream, Bool.and_eq_false_iff, beq_eq_false_iff_ne, decide_eq_false_iff_not]
      by_contra hcon
      push Not at hcon
      exact hf ⟨hcon.1, hcon.2.1, hcon.2.2⟩
    have he : effect (.upstreamAddressError f) s = _ := frameArrives_of_not_accepted hlen hacc
    exact exec_of_quiet nofun nofun h he (by simp [h.2])
  case stray =>
    have he : effect (.busStray f) s = _ := frameArrives_bus_of_not_reply hlen hx
    exact exec_of_quiet nofun nofun h he (by simp [h.2])

/-! ## A frame accepted upstream (R10, R17) -/

theorem heard_eq (s : State) : s.heard = { s with
    up := { rx := s.up.rx.hunt, count := s.up.count.addAccepted }, live := true,
    silence := some (s.now + millis s.limits.silence),
    notices := if s.live then s.notices else { s.notices with part := true } } := by
  unfold State.heard State.hearController
  cases h : s.live <;> simp [State.modRx, State.count, State.modPort, State.timer, State.flagPart, h]

@[simp] theorem events_heard (s : State) : s.heard.events = s.events := by rw [heard_eq]

@[simp] theorem placeTest_heard (s : State) : s.heard.placeTest = s.placeTest := by rw [heard_eq]; rfl

/-- The link as an accepted frame leaves it: LIVE, the silence timer just started. -/
def State.Listening (s : State) : Prop := s.live = true ∧ s.silence = some (s.now + millis s.limits.silence)

theorem listening_heard (s : State) : s.heard.Listening := by rw [heard_eq]; exact ⟨rfl, rfl⟩

/-- `t` is of the same moment as `s`, and its link as an accepted frame leaves it where that of `s` is. -/
structure Hears (s t : State) : Prop where
  now : t.now = s.now
  listening : s.Listening → t.Listening

theorem Hears.refl (s : State) : Hears s s := ⟨rfl, id⟩

theorem Hears.trans {s t u : State} (h : Hears s t) (g : Hears t u) : Hears s u :=
  ⟨g.now.trans h.now, fun x => g.listening (h.listening x)⟩

theorem Hears.of_same {s t : State} (now : t.now = s.now := by rfl) (live : t.live = s.live := by rfl)
    (silence : t.silence = s.silence := by rfl) (limits : t.limits = s.limits := by rfl) : Hears s t :=
  ⟨now, fun ⟨hl, hs⟩ => ⟨live.trans hl, by rw [silence, now, limits]; exact hs⟩⟩

theorem Hears.of_kept {s t : State} (h : Kept s t) : Hears s t := .of_same h.now h.live h.silence h.limits

theorem hears_settle (s : State) : Hears s s.settle := .of_kept (kept_of_settle s)

theorem hears_conclude (s : State) : Hears s s.conclude := by
  obtain ⟨fs, n, h, -⟩ := conclude_eq s
  rw [h]
  exact .of_same

theorem hears_count (s : State) (p : Port) (f : Counters → Counters) : Hears s (s.count p f) := by
  cases p <;> exact .of_same

theorem hears_openDrive (s : State) (i : Fin 16) (f : Frame) (level : Nat) : Hears s (s.openDrive i f level) := by
  have h : Hears s (s.openQueued f true) := .of_same
  exact h.trans (.of_kept (kept_commandByController (Kept.refl _) _ _))

theorem hears_openByGrant (s : State) (i : Fin 16) (f : Frame) (level : Nat) : Hears s (s.openByGrant i f level) := by
  unfold State.openByGrant
  (repeat' split)
  · exact hears_openDrive s i f level
  · exact hears_openDrive s i f level
  · exact .of_same
  · have h : Hears s (s.openEntry f .grantWait true) := .of_same
    exact h.trans (.of_kept (kept_requestGrant (Kept.refl _) _ _ _))
  · unfold State.supersede
    split
    · exact (Hears.of_kept (kept_closeFail (Kept.refl s) _ failSuperseded)).trans .of_same
    · exact ((Hears.of_kept (kept_closeFail (kept_dropRequest (Kept.refl s) i) _ failSuperseded)).trans
        (hears_openDrive _ i f level)).trans (.of_kept (kept_considerIf (Kept.refl _) _))
  · exact .of_same
  · exact .of_same

theorem hears_admitDrive (s : State) (i : Fin 16) (f : Frame) : Hears s (s.admitDrive i f) := by
  unfold State.admitDrive
  split
  · exact .of_same
  · split
    · exact .of_same
    · split
      case h_1 => exact .of_same
      case h_2 =>
        have h : ∀ d, Hears s (s.modAir fun a => { a with controllerDemand := d }) := fun d => .of_same
        exact ((h _).trans (.of_kept (kept_followDemand (Kept.refl _) _))).trans .of_same
      all_goals
        split
        · exact .of_same
        · split
          · exact .of_same
          · exact hears_openByGrant s i _ _

theorem hears_nodeFrame (s : State) (f : Frame) : Hears s (s.nodeFrame f) := by
  unfold State.nodeFrame
  (repeat' split)
  · exact .of_same
  · exact .of_same
  · exact hears_admitDrive s _ f
  · exact .of_same
  · exact hears_count ..

theorem hears_writeOwner {s t : State} {k : TableId} {b : BankId} {index : Nat} {records : List (List Byte)}
    (h : s.writeOwner k b index records = .ok t) : Hears s t := by
  unfold State.writeOwner at h
  split at h
  case h_1 =>
    unfold State.writeLoads at h
    split at h
    · cases h
    · dsimp only at h
      split at h
      · cases h
      · cases h
      · obtain rfl := Except.ok.inj h
        have g : ∀ l, Hears s { s with loads := l } := fun l => .of_same
        exact (g _).trans (.of_kept (kept_afterLoads (Kept.refl _) _ _))
  case h_2 =>
    unfold State.writeChannels at h
    split at h
    · cases h
    · dsimp only at h
      split at h
      · cases h
      · obtain rfl := Except.ok.inj h
        have g : ∀ c n, Hears s { s with chans := c, normal := n } := fun c n => .of_same
        exact (g _ _).trans (.of_kept (kept_surveyAfterWrite (kept_surveyAfterWrite (kept_refreshAble
          (kept_bindingReports (Kept.refl _) _)) _ _) _ _))
  case h_3 =>
    unfold State.writeAdmission at h
    split at h
    · cases h
    · obtain rfl := Except.ok.inj h
      exact .of_same
  case h_4 =>
    unfold State.writeLimits at h
    split at h
    · cases h
    · obtain rfl := Except.ok.inj h
      exact .refl s
    · rename_i l rest _
      split at h
      · cases h
      · obtain rfl := Except.ok.inj h
        have g : Hears s { s with limits := l, silence := some (s.now + millis l.silence) } := ⟨rfl, fun ⟨hl, _⟩ => ⟨hl, rfl⟩⟩
        exact g.trans (.of_kept (kept_afterLimits { s with limits := l } s.limits))
  all_goals
    unfold State.writeBank at h
    split at h
    · cases h
    · split at h
      · cases h
      · obtain rfl := Except.ok.inj h
        exact .of_same

/-- A management command's body leaves the link as it hears it. -/
def HearingBody (body : State → List Byte → Answered) : Prop := ∀ (s : State) (payload : List Byte), Hears s (body s payload).state

theorem hearingBody_doSeek : HearingBody State.doSeek := by
  intro s payload
  unfold State.doSeek
  (repeat' split) <;> exact .of_same

theorem hearingBody_doWrite : HearingBody State.doWrite := by
  intro s payload
  unfold State.doWrite
  split
  · exact .of_same
  · rename_i hw
    unfold State.writeAt at hw
    dsimp only at hw
    (repeat' split at hw)
    · cases hw
    · cases hw
    · cases hw
    · have h : ∀ u n, Hears u (State.movePointer u n) := fun u n => .of_same
      exact (hears_writeOwner hw).trans (h _ _)

theorem hearingBody_doRead : HearingBody State.doRead := by
  intro s payload
  unfold State.doRead
  (repeat' split) <;> exact .of_same

theorem hearingBody_doValidate : HearingBody State.doValidate := by
  intro s payload
  unfold State.doValidate
  (repeat' split) <;> exact .of_same

theorem hearingBody_doStart : HearingBody State.doStart := by
  intro s payload
  unfold State.doStart
  (repeat' split)
  · exact .of_same
  · exact .of_same
  · exact .of_kept (kept_acceptStart (Kept.refl s) _ _ _)
  all_goals exact .of_same

theorem hearingBody_doCancel : HearingBody State.doCancel := by
  intro s payload
  unfold State.doCancel
  split
  · split
    · exact .of_same
    · rename_i c _
      split
      · rename_i heq
        have k := kept_cancelCavity (Kept.refl s) c
        rw [heq] at k
        exact .of_kept k
      · exact .of_same
  · exact .of_same

theorem hearingBody_doClear : HearingBody State.doClear := by
  intro s payload
  unfold State.doClear
  (repeat' split)
  · exact .of_same
  · exact .of_same
  · exact .of_kept (kept_enterRelease (Kept.refl s) _)
  all_goals exact .of_same

theorem hearingBody_doReport : HearingBody State.doReport := by
  intro s payload
  unfold State.doReport
  (repeat' split) <;> exact .of_same

theorem hears_manage {s : State} {body : State → List Byte → Answered} (hb : HearingBody body) (tag : Byte)
    (payload : List Byte) : Hears s (s.manage body tag payload) := by
  unfold State.manage
  split
  · exact ((hb s payload).trans (hears_settle _)).trans .of_same
  · exact hears_count ..

theorem hears_linkReset (s : State) (tag : Byte) : Hears s (s.linkReset tag) := by
  have hr : Hears s (s.resetLink tag) := (Hears.of_kept (kept_resetDrops s)).trans .of_same
  obtain ⟨fs, n, h, -⟩ := serveNotices_eq (((s.resetLink tag).flagCav .zero).flagCav .one).flagPart
  have hs : Hears (s.resetLink tag) (((s.resetLink tag).flagCav .zero).flagCav .one).flagPart.serveNotices := by
    rw [h]; exact .of_same
  exact (hr.trans hs).trans (.of_kept (kept_considerHead (Kept.refl _)))

/-- R10, R17: every frame of the controller is heard, and what follows leaves the link as it is heard. -/
theorem hears_effect {c : Instr} (hc : fromController c = true) (hw : c.wellFormed = true) (s : State) :
    Hears s.heard (effect c s) := by
  cases c
  case controllerNodeFrame dest kind tag payload =>
    simp only [Instr.wellFormed, Bool.and_eq_true] at hw
    obtain ⟨hlen, hd⟩ := hw
    rw [effect_controllerNodeFrame s tag ((payloadFits_iff _).1 hlen) kind hd]
    exact hears_nodeFrame ..
  case managementBadKind kind tag payload =>
    simp only [Instr.wellFormed, Bool.and_eq_true, Bool.not_eq_true'] at hw
    obtain ⟨hlen, hk⟩ := hw
    rw [effect_managementBadKind s tag ((payloadFits_iff _).1 hlen) hk]
    exact hears_manage (fun _ _ => .of_same) _ _
  case seek tag payload => rw [effect_seek s tag ((payloadFits_iff _).1 hw)]; exact hears_manage hearingBody_doSeek _ _
  case write tag payload => rw [effect_write s tag ((payloadFits_iff _).1 hw)]; exact hears_manage hearingBody_doWrite _ _
  case read tag payload => rw [effect_read s tag ((payloadFits_iff _).1 hw)]; exact hears_manage hearingBody_doRead _ _
  case validate tag payload =>
    rw [effect_validate s tag ((payloadFits_iff _).1 hw)]; exact hears_manage hearingBody_doValidate _ _
  case start tag payload => rw [effect_start s tag ((payloadFits_iff _).1 hw)]; exact hears_manage hearingBody_doStart _ _
  case cancel tag payload => rw [effect_cancel s tag ((payloadFits_iff _).1 hw)]; exact hears_manage hearingBody_doCancel _ _
  case clear tag payload => rw [effect_clear s tag ((payloadFits_iff _).1 hw)]; exact hears_manage hearingBody_doClear _ _
  case report tag payload => rw [effect_report s tag ((payloadFits_iff _).1 hw)]; exact hears_manage hearingBody_doReport _ _
  case linkReset tag payload => rw [effect_linkReset s tag ((payloadFits_iff _).1 hw)]; exact hears_linkReset _ _
  all_goals cases hc

/-- Settles O17. -/
theorem acceptedFrameMakesTheLinkLive : Obligations.AcceptedFrameMakesTheLinkLive := by
  refine ⟨heard_eq, fun c s t h hc hw he => ?_⟩
  have hp : c ≠ .powerOnReset := by rintro rfl; cases hc
  have hh : c ≠ .resetInputHeld := by rintro rfl; cases hc
  obtain rfl := Host.Outcome.next.inj ((answers_effect hp hh h).symm.trans he)
  have g := ((hears_effect hc hw s).trans (hears_settle _)).trans (hears_conclude _)
  have hnow : s.heard.now = s.now := by rw [heard_eq]
  obtain ⟨hlive, hsil⟩ := g.listening (listening_heard s)
  have hn := g.now.trans hnow
  exact ⟨hlive, hsil.trans (by rw [hn]), hn⟩

/-! ## Management commands that end at once -/

theorem manage_of_no_place {s : State} (hp : s.placeTest = false) (body : State → List Byte → Answered) (tag : Byte)
    (payload : List Byte) : s.manage body tag payload = s.count .upstream Counters.addDiscarded := by
  simp [State.manage, hp]

theorem manage_of_place {s : State} (hp : s.placeTest = true) (body : State → List Byte → Answered) (tag : Byte)
    (payload : List Byte) : s.manage body tag payload = (body s payload).placed tag := by
  simp [State.manage, hp]

/-- A body that delivers no report has its ANSWER placed at once. -/
theorem placed_of_quiet {a : Answered} (h : a.state.events = []) (tag : Byte) :
    a.placed tag = a.state.place (answerFrame tag a.code a.data) := by
  unfold Answered.placed
  rw [settle_of_no_events h]

/-- The commands of the Management Unit whose effect is a body on the part that has heard the frame. -/
def ManagedBy (c : Instr) (body : State → List Byte → Answered) (tag : Byte) (payload : List Byte) : Prop :=
  c ≠ .powerOnReset ∧ c ≠ .resetInputHeld ∧ ∀ s, effect c s = s.heard.manage body tag payload

section
variable (tag : Byte) {payload : List Byte} (hlen : payload.length ≤ 40)
include hlen

theorem managedBy_seek : ManagedBy (.seek tag payload) State.doSeek tag payload :=
  ⟨nofun, nofun, fun s => effect_seek s tag hlen⟩
theorem managedBy_write : ManagedBy (.write tag payload) State.doWrite tag payload :=
  ⟨nofun, nofun, fun s => effect_write s tag hlen⟩
theorem managedBy_read : ManagedBy (.read tag payload) State.doRead tag payload :=
  ⟨nofun, nofun, fun s => effect_read s tag hlen⟩
theorem managedBy_validate : ManagedBy (.validate tag payload) State.doValidate tag payload :=
  ⟨nofun, nofun, fun s => effect_validate s tag hlen⟩
theorem managedBy_start : ManagedBy (.start tag payload) State.doStart tag payload :=
  ⟨nofun, nofun, fun s => effect_start s tag hlen⟩
theorem managedBy_cancel : ManagedBy (.cancel tag payload) State.doCancel tag payload :=
  ⟨nofun, nofun, fun s => effect_cancel s tag hlen⟩
theorem managedBy_clear : ManagedBy (.clear tag payload) State.doClear tag payload :=
  ⟨nofun, nofun, fun s => effect_clear s tag hlen⟩
theorem managedBy_report : ManagedBy (.report tag payload) State.doReport tag payload :=
  ⟨nofun, nofun, fun s => effect_report s tag hlen⟩
theorem managedBy_badKind {kind : Byte} (hk : isManagementKind kind = false) :
    ManagedBy (.managementBadKind kind tag payload) State.doBadKind tag payload :=
  ⟨nofun, nofun, fun s => effect_managementBadKind s tag hlen hk⟩

end

section
variable {c : Instr} {body : State → List Byte → Answered} {tag : Byte} {payload : List Byte} (hm : ManagedBy c body tag payload)
  {s : State} (h : s.Ready)
include hm h

/-- R16: without a place a management command counts as an address error and does nothing else. -/
theorem exec_managed_of_no_place (hp : s.placeTest = false) :
    exec c s = .next (s.heard.count .upstream Counters.addDiscarded).conclude := by
  obtain ⟨h1, h2, he⟩ := hm
  exact exec_of_quiet h1 h2 h ((he s).trans (manage_of_no_place ((placeTest_heard s).trans hp) ..)) (by simp [h.2])

/-- R172: with a place it is carried out and answered. -/
theorem answers_managed (hp : s.placeTest = true) : Answers c s ((body s.heard payload).placed tag) := by
  obtain ⟨h1, h2, he⟩ := hm
  exact answers_of_effect h1 h2 h ((he s).trans (manage_of_place ((placeTest_heard s).trans hp) ..))

/-- A body that delivers no report ends with its ANSWER. -/
theorem exec_managed_of_quiet (hp : s.placeTest = true) {a : Answered} (hb : body s.heard payload = a) (hq : a.state.events = []) :
    exec c s = .next (a.state.place (answerFrame tag a.code a.data)).conclude := by
  have ha := answers_managed hm h hp
  rw [hb, placed_of_quiet hq] at ha
  exact ha.trans (by rw [settle_of_no_events (by simpa using hq)])

/-- A body that only answers. -/
theorem exec_managed_of_code (hp : s.placeTest = true) {code : Byte} {data : List Byte}
    (hb : body s.heard payload = { state := s.heard, code := code, data := data }) :
    exec c s = .next (s.heard.place (answerFrame tag code data)).conclude := by
  have hq : s.heard.events = [] := by simp [h.2]
  have he := exec_managed_of_quiet hm h hp (a := { state := s.heard, code := code, data := data }) hb hq
  exact he

end

/-- Settles O19: the place test fails on the part that has heard the frame too. -/
theorem noPlaceMeansNoEffect : Obligations.NoPlaceMeansNoEffect := by
  refine ⟨fun s dest kind tag payload h hlen hd hp => ?node, fun s kind tag payload h hlen hp hk => ?bad,
    fun s tag payload c h hlen hp hc => ?managed⟩
  case node =>
    have he := effect_controllerNodeFrame s tag hlen kind hd
    have hn : s.heard.placeTest = false := (placeTest_heard s).trans hp
    refine exec_of_quiet nofun nofun h (he.trans ?_) (by simp [h.2])
    simp [State.nodeFrame, hn]
  case bad => exact exec_managed_of_no_place (managedBy_badKind tag hlen hk) h hp
  case managed =>
    simp only [List.mem_cons, List.not_mem_nil, or_false] at hc
    rcases hc with rfl | rfl | rfl | rfl | rfl | rfl | rfl | rfl
    · exact exec_managed_of_no_place (managedBy_seek tag hlen) h hp
    · exact exec_managed_of_no_place (managedBy_write tag hlen) h hp
    · exact exec_managed_of_no_place (managedBy_read tag hlen) h hp
    · exact exec_managed_of_no_place (managedBy_validate tag hlen) h hp
    · exact exec_managed_of_no_place (managedBy_start tag hlen) h hp
    · exact exec_managed_of_no_place (managedBy_cancel tag hlen) h hp
    · exact exec_managed_of_no_place (managedBy_clear tag hlen) h hp
    · exact exec_managed_of_no_place (managedBy_report tag hlen) h hp

/-! ## Node frames in the order of their checks (R20) -/

theorem relayEntry_isSome_iff (s : State) (tag : Byte) : (s.relayEntry tag).isSome = true ↔ ∃ e ∈ s.relay, e.frame.tag = tag := by
  simp [State.relayEntry, List.find?_isSome]

theorem relayEntry_eq_none {s : State} {tag : Byte} (ht : ∀ e ∈ s.relay, e.frame.tag ≠ tag) : s.relayEntry tag = none := by
  rw [← Option.not_isSome_iff_eq_none, relayEntry_isSome_iff]
  rintro ⟨e, he, hte⟩
  exact ht e he hte

theorem findLoad_eq_none_iff (s : State) (p : LoadEntry → Bool) : s.findLoad p = none ↔ ∀ i, p (s.entry i) = false := by
  simp [State.findLoad, indexes]

theorem loadAt_eq_none_iff (s : State) (node : Byte) :
    s.loadAt node = none ↔ ∀ i, (s.entry i).cls = .unused ∨ (s.entry i).node ≠ node := by
  unfold State.loadAt
  rw [findLoad_eq_none_iff]
  simp only [LoadEntry.used, Bool.and_eq_false_iff, bne_eq_false_iff_eq, beq_eq_false_iff_ne]

theorem driveTarget_eq_none {s : State} {f : Frame}
    (h : f.kind ≠ kindDrive ∨ ∀ i, (s.entry i).cls = .unused ∨ (s.entry i).node ≠ f.dest) : s.driveTarget f = none := by
  unfold State.driveTarget
  split
  · rename_i hk
    rcases h with h | h
    · exact absurd hk h
    · exact (loadAt_eq_none_iff s f.dest).2 h
  · rfl

section
variable {s : State} {f : Frame} (hp : s.placeTest = true)
include hp

theorem nodeFrame_of_full (hn : 8 ≤ s.relay.length) : s.nodeFrame f = s.refuseFrame f failBusy := by
  simp [State.nodeFrame, hp, hn]

theorem nodeFrame_of_tag_open (hn : s.relay.length < 8) (ht : ∃ e ∈ s.relay, e.frame.tag = f.tag) :
    s.nodeFrame f = s.refuseFrame f failTagOpen := by
  simp [State.nodeFrame, hp, hn.not_ge, (relayEntry_isSome_iff s f.tag).2 ht]

section
variable (hn : s.relay.length < 8) (ht : ∀ e ∈ s.relay, e.frame.tag ≠ f.tag)
include hn ht

theorem nodeFrame_of_no_target (hd : s.driveTarget f = none) : s.nodeFrame f = s.openQueued f false := by
  simp [State.nodeFrame, hp, hn.not_ge, relayEntry_eq_none ht, hd]

theorem nodeFrame_of_target {i : Fin 16} (hd : s.driveTarget f = some i) : s.nodeFrame f = s.admitDrive i f := by
  simp [State.nodeFrame, hp, hn.not_ge, relayEntry_eq_none ht, hd]

end

end

theorem relay_heard (s : State) : s.heard.relay = s.relay := by rw [heard_eq]

theorem entry_heard (s : State) (i : Fin 16) : s.heard.entry i = s.entry i := by rw [heard_eq]; rfl

/-- Settles O20: each case is a branch of the arrival. -/
theorem nodeFramesAreCheckedInOrder : Obligations.NodeFramesAreCheckedInOrder := by
  intro s dest kind tag payload h hlen hd hp
  have he := effect_controllerNodeFrame s tag hlen kind hd
  have hph : s.heard.placeTest = true := (placeTest_heard s).trans hp
  have hr := relay_heard s
  refine ⟨fun hn => ?busy, fun hn ht => ?tagOpen, fun hn ht hk => ?queued⟩
  case busy => exact exec_of_quiet nofun nofun h (he.trans (nodeFrame_of_full hph (by rw [hr]; exact hn))) (by simp [h.2])
  case tagOpen =>
    exact exec_of_quiet nofun nofun h (he.trans (nodeFrame_of_tag_open hph (by rw [hr]; exact hn) (by rw [hr]; exact ht)))
      (by simp [h.2])
  case queued =>
    have hnone : s.heard.driveTarget { dest := dest, src := 121, kind := kind, tag := tag, payload := payload } = none :=
      driveTarget_eq_none (by simpa only [entry_heard, kindDrive] using hk)
    have hq := nodeFrame_of_no_target hph (by rw [hr]; exact hn) (by rw [hr]; exact ht) hnone
    refine exec_of_quiet nofun nofun h (he.trans (hq.trans ?_)) (by simp [h.2])
    rw [heard_eq]
    rfl

/-! ## SEEK and READ (R173, R176) -/

/-- Settles O29: each case is a branch of the body. -/
theorem seekAndReadUseThePointer : Obligations.SeekAndReadUseThePointer := by
  refine ⟨fun s tag table bank index h hp => ?seek, fun s tag count h hp => ?read⟩
  case seek =>
    have hm := managedBy_seek tag (payload := [table, bank, index]) (by simp)
    have hb : s.heard.pointer = s.pointer := by rw [heard_eq]
    refine ⟨fun t b ht hbank hi => ?done, fun hno => ?noTable, fun t ht hbank hi => ?range⟩
    case done =>
      have hbank' : (if isBankTable t then whichOf bank else some s.heard.pointer.bank) = some b := by rw [hb]; exact hbank
      refine exec_managed_of_quiet hm h hp (a := answerDone _) ?_ (by simpa [answerDone] using h.2)
      simp [State.doSeek, ht, hbank', hi.not_ge]
    case noTable =>
      refine exec_managed_of_code hm h hp ?_
      rcases hno with ht | ⟨t, ht, hbt, hbank⟩
      · simp [State.doSeek, ht, answerCode]
      · simp [State.doSeek, ht, hbt, hbank, answerCode]
    case range =>
      refine exec_managed_of_code hm h hp ?_
      by_cases hbt : isBankTable t = true
      · obtain ⟨b, hb⟩ := Option.ne_none_iff_exists'.1 (hbank hbt)
        simp [State.doSeek, ht, hbt, hb, hi, answerCode]
      · simp [State.doSeek, ht, hbt, hi, answerCode]
  case read =>
    have hm := managedBy_read tag (payload := [count]) (by simp)
    refine ⟨fun h1 h40 => ?some, fun h0 => ?zero, fun h40 => ?range⟩
    case some =>
      have hne : count ≠ 0 := by rintro rfl; simp at h1
      have hb : s.heard.doRead [count] = {
          state := s.heard.movePointer (s.heard.readCount count.toNat), code := codeDone
          data := [byteOf s.heard.pointer.index, byteOf (s.heard.readCount count.toNat)] ++
            s.heard.readRecords (s.heard.readCount count.toNat) } := by
        simp only [State.doRead, if_neg hne, if_neg h40.not_gt, List.cons_append, List.nil_append]
      refine (exec_managed_of_quiet hm h hp hb (by simpa using h.2)).trans ?_
      rw [heard_eq]
      rfl
    case zero => exact exec_managed_of_code hm h hp (by simp [State.doRead, h0, answerCode])
    case range =>
      have hne : count ≠ 0 := by rintro rfl; simp at h40
      exact exec_managed_of_code hm h hp (by simp only [State.doRead, if_neg hne, if_pos h40, answerCode])

/-! ## Commands whose form is wrong (R172, R177, R178) -/

/-- A body that answers BAD-FRAME on a payload and does nothing else. -/
def Misformed (body : State → List Byte → Answered) (payload : List Byte) : Prop :=
  ∀ s, body s payload = answerCode s codeBadFrame

theorem misformed_doSeek {payload : List Byte} (h : payload.length ≠ 3) : Misformed State.doSeek payload := by
  intro s
  unfold State.doSeek
  split
  · simp at h
  · rfl

theorem misformed_doRead {payload : List Byte} (h : payload.length ≠ 1) : Misformed State.doRead payload := by
  intro s
  unfold State.doRead
  split
  · simp at h
  · rfl

theorem misformed_doValidate {payload : List Byte} (h : payload.length ≠ 1) : Misformed State.doValidate payload := by
  intro s
  unfold State.doValidate
  split
  · simp at h
  · rfl

theorem misformed_doStart {payload : List Byte} (h : payload.length ≠ 3) : Misformed State.doStart payload := by
  intro s
  unfold State.doStart
  split
  · simp at h
  · rfl

theorem misformed_doCancel {payload : List Byte} (h : payload.length ≠ 1) : Misformed State.doCancel payload := by
  intro s
  unfold State.doCancel
  split
  · simp at h
  · rfl

theorem misformed_doClear {payload : List Byte} (h : payload.length ≠ 1) : Misformed State.doClear payload := by
  intro s
  unfold State.doClear
  split
  · simp at h
  · rfl

theorem misformed_doReport {payload : List Byte} (h : payload.length ≠ 2) : Misformed State.doReport payload := by
  intro s
  unfold State.doReport
  split
  · simp at h
  · rfl

theorem whichOf_eq_none {b : Byte} (h : 1 < b.toNat) : whichOf b = none := List.getElem?_eq_none h

theorem doStart_of_range {which bank entry : Byte} (h : 1 < which.toNat ∨ 1 < bank.toNat ∨ 40 ≤ entry.toNat) (s : State) :
    s.doStart [which, bank, entry] = answerCode s codeRange := by
  unfold State.doStart
  dsimp only
  split
  · rename_i c b hc hb
    rcases h with h | h | h
    · rw [whichOf_eq_none h] at hc; cases hc
    · rw [whichOf_eq_none h] at hb; cases hb
    · exact if_pos h
  · rfl

/-- Settles O36: the form tests of each body. -/
theorem reportAndMalformedCommandsChangeNothing : Obligations.ReportAndMalformedCommandsChangeNothing := by
  intro s tag h hp
  refine ⟨fun subject number data hs => ?snapshot, fun subject number hs => ?noSubject, fun kind payload hlen hk => ?kind,
    fun payload c hlen hc => ?form, fun which bank entry c hc => ?range⟩
  case snapshot => exact exec_managed_of_code (managedBy_report tag (by simp)) h hp (by simp [State.doReport, hs])
  case noSubject =>
    exact exec_managed_of_code (managedBy_report tag (by simp)) h hp (by simp [State.doReport, hs, answerCode])
  case kind => exact exec_managed_of_code (managedBy_badKind tag hlen hk) h hp rfl
  case form =>
    rcases hc with ⟨rfl, hn⟩ | ⟨rfl, hn⟩ | ⟨rfl, hn⟩ | ⟨rfl, hn⟩ | ⟨rfl, hn⟩ | ⟨rfl, hn⟩ | ⟨rfl, hn⟩
    · exact exec_managed_of_code (managedBy_seek tag hlen) h hp (misformed_doSeek hn _)
    · exact exec_managed_of_code (managedBy_read tag hlen) h hp (misformed_doRead hn _)
    · exact exec_managed_of_code (managedBy_validate tag hlen) h hp (misformed_doValidate hn _)
    · exact exec_managed_of_code (managedBy_start tag hlen) h hp (misformed_doStart hn _)
    · exact exec_managed_of_code (managedBy_cancel tag hlen) h hp (misformed_doCancel hn _)
    · exact exec_managed_of_code (managedBy_clear tag hlen) h hp (misformed_doClear hn _)
    · exact exec_managed_of_code (managedBy_report tag hlen) h hp (misformed_doReport hn _)
  case range =>
    rcases hc with ⟨hc, hw⟩ | ⟨rfl, hr⟩
    · have hnone := whichOf_eq_none hw
      simp only [List.mem_cons, List.not_mem_nil, or_false] at hc
      rcases hc with rfl | rfl | rfl
      · exact exec_managed_of_code (managedBy_validate tag (by simp)) h hp (by simp [State.doValidate, hnone, answerCode])
      · exact exec_managed_of_code (managedBy_cancel tag (by simp)) h hp (by simp [State.doCancel, hnone, answerCode])
      · exact exec_managed_of_code (managedBy_clear tag (by simp)) h hp (by simp [State.doClear, hnone, answerCode])
    · exact exec_managed_of_code (managedBy_start tag (by simp)) h hp (doStart_of_range hr _)

/-! ## WRITE before its owner's tests (R174) -/

theorem doWrite_of_error {s : State} {payload : List Byte} {code : Byte} {data : List Byte}
    (h : s.writeAt payload = .error (code, data)) : s.doWrite payload = { state := s, code := code, data := data } := by
  simp [State.doWrite, h]

theorem doWrite_of_ok {s u : State} {payload : List Byte} (h : s.writeAt payload = .ok u) :
    s.doWrite payload = {
      state := u.movePointer (payload.length / recordSize s.pointer.table), code := codeDone
      data := [byteOf (u.pointer.index + payload.length / recordSize s.pointer.table)] } := by
  simp [State.doWrite, h, State.movePointer]

section
variable {s : State} {payload : List Byte} (hn : payload.length % recordSize s.pointer.table = 0)
  (h0 : 0 < payload.length / recordSize s.pointer.table)
include hn h0

theorem writeAt_of_past_end
    (he : recordCount s.pointer.table < s.pointer.index + payload.length / recordSize s.pointer.table) :
    s.writeAt payload = .error (codeRange, [byteOf (recordCount s.pointer.table)]) := by
  simp [State.writeAt, hn, h0.ne', he, rangeAt]

theorem writeAt_of_not_quiet
    (he : s.pointer.index + payload.length / recordSize s.pointer.table ≤ recordCount s.pointer.table)
    (hb : isBankTable s.pointer.table = false) (hq : s.quiet = false) :
    s.writeAt payload = .error (codeNotQuiet, []) := by
  simp [State.writeAt, hn, h0.ne', he.not_gt, hb, hq]

theorem writeAt_of_owner
    (he : s.pointer.index + payload.length / recordSize s.pointer.table ≤ recordCount s.pointer.table)
    (hq : isBankTable s.pointer.table = true ∨ s.quiet = true) :
    s.writeAt payload = s.writeOwner s.pointer.table s.pointer.bank s.pointer.index
      (chunks (recordSize s.pointer.table) (payload.length / recordSize s.pointer.table) payload) := by
  have hquiet : (!isBankTable s.pointer.table && !s.quiet) = false := by rcases hq with h | h <;> simp [h]
  unfold State.writeAt
  dsimp only
  rw [if_neg (by simp [hn, h0.ne']), if_neg he.not_gt, hquiet]
  rfl

end

/-- Settles O30: WRITE's tests in their order. -/
theorem writeIsWholeOrNothing : Obligations.WriteIsWholeOrNothing := by
  intro s tag payload h hlen hp
  have hm := managedBy_write tag hlen
  have hptr : s.heard.pointer = s.pointer := by rw [heard_eq]
  have hquiet : s.heard.quiet = s.quiet := by rw [heard_eq]; rfl
  refine ⟨fun hbad => ?form, fun hn h0 he => ?pastEnd, fun hn h0 he hb hq => ?notQuiet, fun hn h0 he hq => ⟨fun code data hw => ?refused,
    fun u hw => ?taken⟩⟩
  case form =>
    refine exec_managed_of_code hm h hp (doWrite_of_error ?_)
    unfold State.writeAt
    dsimp only
    rw [hptr, if_pos hbad]
  case pastEnd =>
    rw [← hptr] at hn h0 he
    refine exec_managed_of_code hm h hp (doWrite_of_error ?_)
    rw [writeAt_of_past_end hn h0 he, hptr]
    rfl
  case notQuiet =>
    rw [← hptr] at hn h0 he hb
    exact exec_managed_of_code hm h hp (doWrite_of_error (writeAt_of_not_quiet hn h0 he hb (hquiet.trans hq)))
  case refused =>
    rw [← hptr] at hn h0 he hq hw
    rw [← hquiet] at hq
    exact exec_managed_of_code hm h hp (doWrite_of_error ((writeAt_of_owner hn h0 he hq).trans hw))
  case taken =>
    rw [← hptr] at hn h0 he hq hw
    rw [← hquiet] at hq
    have hd := doWrite_of_ok ((writeAt_of_owner hn h0 he hq).trans hw)
    have ha := answers_managed hm h hp
    rw [hd, hptr] at ha
    exact ha

end Sys2Proof.Machine
end

