-- ==== Sys2Proof/Proofs/Notices.lean ====
section
/-! PROOFS. The snapshots, the notices that end every command, the frames sent upstream and the link reset: O18, O37, O38,
O39. -/

namespace Sys2Proof.Machine

-- One proof at a time: proofs elaborated side by side ask for more threads than the check's memory limit leaves room for.
set_option Elab.async false

/-! ## Bytes -/

theorem natBytes_eq (n : Nat) : natBytes n = [BitVec.ofNat 8 (n / 256), BitVec.ofNat 8 n] := by
  have hi : highByte (BitVec.ofNat 16 n) = BitVec.ofNat 8 (n / 256) := by
    apply BitVec.eq_of_toNat_eq
    simp [highByte, Nat.shiftRight_eq_div_pow]
    omega
  have lo : lowByte (BitVec.ofNat 16 n) = BitVec.ofNat 8 n := by
    apply BitVec.eq_of_toNat_eq
    simp [lowByte]
  simp [natBytes, wordBytes, hi, lo]

theorem presenceByte_eq (r : ChanRecord) : presenceByte r =
    (if r.latest.isSome then 1 else 0) + (if r.previous.isSome then 2 else 0) + (if r.quality.isSome then 4 else 0) +
      if r.lastGood.isSome then 8 else 0 := by
  unfold presenceByte
  generalize r.latest.isSome = a
  generalize r.previous.isSome = b
  generalize r.quality.isSome = c
  generalize r.lastGood.isSome = d
  revert a b c d
  decide

theorem levelByte_eq : levelByte = indexByte := funext fun n => by cases n <;> rfl

theorem remainingBytes_eq (t : Option Time) : remainingBytes t = match t with
    | some t => natBytes (min 65534 ((t + (Config.sec - 1)) / Config.sec))
    | none => [0xFF, 0xFF] := by cases t <;> rfl

theorem stackBytes_some (e : StackEntry) :
    stackBytes (some e) = [byteOf e.segment, causeCode e.cause] ++ remainingBytes e.longLeft ++ remainingBytes e.holdLeft := rfl

theorem holdBytes_eq (now : Time) (h : Hold) : holdBytes now h = match h with
    | .stopped => [0xFF, 0xFF]
    | .running e => timerBytes now Config.sec (some e)
    | .standing t => natBytes (min 65534 ((t + (Config.sec - 1)) / Config.sec)) := by cases h <;> rfl

theorem bankByte_eq (b : Option BankId) :
    bankByte b = indexByte (b.map (fun b => match b with | .zero => 0 | .one => 1)) := by rcases b with _ | _ | _ <;> rfl

theorem bankByte_cases (b : Option BankId) : bankByte b = match b with
    | none => 0xFF
    | some .zero => 0
    | some .one => 1 := by rcases b with _ | _ | _ <;> rfl

theorem topCauseByte_cases (l : List StackEntry) : topCauseByte l = match l with
    | [] => 0xFF
    | e :: _ => causeCode e.cause := by cases l <;> rfl

theorem doorReportBytes_eq (r : Option (Door × Latch)) : doorReportBytes r = match r with
    | some (d, l) => [doorCode d, latchCode l]
    | none => [0xFF, 0xFF] := by rcases r with _ | ⟨d, l⟩ <;> rfl

/-! ## The snapshots (R178, R179) -/

theorem snapshot_load (s : State) (i : Fin 16) : s.snapshot 2 (BitVec.ofNat 8 i.val) = some (s.reportLoad i) := by
  have h : (BitVec.ofNat 8 i.val).toNat = i.val := by simp; omega
  have hi : (⟨(BitVec.ofNat 8 i.val).toNat, by omega⟩ : Fin 16) = i := Fin.ext h
  have hs : s.snapshot 2 (BitVec.ofNat 8 i.val) = if h : (BitVec.ofNat 8 i.val).toNat < 16 then
    some (s.reportLoad ⟨(BitVec.ofNat 8 i.val).toNat, h⟩) else none := rfl
  rw [hs, dif_pos (by omega), hi]

theorem snapshot_channel (s : State) (n : Fin 8) : s.snapshot 3 (BitVec.ofNat 8 n.val) = some (s.reportChannel n) := by
  have h : (BitVec.ofNat 8 n.val).toNat = n.val := by simp; omega
  have hn : (⟨(BitVec.ofNat 8 n.val).toNat, by omega⟩ : Fin 8) = n := Fin.ext h
  have hs : s.snapshot 3 (BitVec.ofNat 8 n.val) = if h : (BitVec.ofNat 8 n.val).toNat < 8 then
    some (s.reportChannel ⟨(BitVec.ofNat 8 n.val).toNat, h⟩) else none := rfl
  rw [hs, dif_pos (by omega), hn]

theorem snapshot_bank (s : State) {k : Byte} {b : BankId} (h : whichOf k = some b) : s.snapshot 4 k = some (s.reportBank b) := by
  have hs : s.snapshot 4 k = (whichOf k).map s.reportBank := rfl
  rw [hs, h]
  rfl

theorem length_periodBytes (p : Option Nat) : (periodBytes p).length = 2 := by cases p <;> rfl

theorem length_dutyBytes (d : Option (PerPos Nat)) : (dutyBytes d).length = 3 := by cases d <;> rfl

theorem length_findingBytes (f : Option Finding) : (findingBytes f).length = 3 := by cases f <;> rfl

theorem length_natBytes (n : Nat) : (natBytes n).length = 2 := rfl

theorem length_faultBytes (f : Option FaultRecord) : (faultBytes f).length = 7 := by
  cases f with
  | none => rfl
  | some f => cases h : f.temperature <;> simp [faultBytes, h, tempBytes, intBytes, wordBytes, length_natBytes]

theorem snapshot_none (s : State) {subject number : Byte}
    (h : (subject.toNat ≤ 1 ∧ number ≠ 0) ∨ (subject = 2 ∧ 16 ≤ number.toNat) ∨ (subject = 3 ∧ 8 ≤ number.toNat) ∨
      (subject = 4 ∧ 2 ≤ number.toNat) ∨ ((subject = 5 ∨ subject = 6) ∧ 4 ≤ number.toNat) ∨ 7 ≤ subject.toNat) :
    s.snapshot subject number = none := by
  have page (c : Cav) (hn : 4 ≤ number.toNat) : s.reportCavity c number = none := List.getElem?_eq_none hn
  rcases h with ⟨hs, hn⟩ | ⟨rfl, hn⟩ | ⟨rfl, hn⟩ | ⟨rfl, hn⟩ | ⟨rfl | rfl, hn⟩ | hs
  · unfold State.snapshot
    split
    · exact if_neg hn
    · exact if_neg hn
    all_goals simp_all
  · exact dif_neg hn.not_gt
  · exact dif_neg hn.not_gt
  · have hs : s.snapshot 4 number = (whichOf number).map s.reportBank := rfl
    rw [hs, whichOf_eq_none (by omega)]
    rfl
  · exact page .zero hn
  · exact page .one hn
  · unfold State.snapshot
    split
    case h_8 => rfl
    all_goals omega

/-- Settles O37: the statement's bytes are the model's; each snapshot is then its list of items. -/
theorem snapshotsCarryTheirItems : Obligations.SnapshotsCarryTheirItems := by
  intro s byte two temp left age one bit ports
  have htwo : two = natBytes := funext fun n => (natBytes_eq n).symm
  have htemp : temp = tempBytes := funext fun t => by cases t <;> rfl
  have hone : one = indexByte := funext fun n => by cases n <;> rfl
  have hleft : left = timerBytes s.now := funext fun u => funext fun t => by
    cases t
    · rfl
    · exact (natBytes_eq _).symm
  have hage : age = ageBytes s.now := funext fun u => funext fun t => by
    cases t
    · rfl
    · exact (natBytes_eq _).symm
  have hports : ports = countBytes := funext fun k => by simp only [ports, htwo]; rfl
  clear_value ports left age one temp two
  subst hports hleft hage hone htemp htwo
  refine ⟨rfl, rfl, fun i => ?load, fun n => ?channel, fun b k hk => ?bank, fun c => ?cavity, fun subject number h => snapshot_none s h⟩
  case load =>
    rw [snapshot_load]
    unfold State.reportLoad
    by_cases hu : (s.entry i).cls = .unused
    · simp [LoadEntry.used, hu]
    · have hused : (s.entry i).used = true := by simpa [LoadEntry.used] using hu
      rw [if_pos hused]
      intro r
      rw [if_neg hu]
      have hplace : indexByte (s.queuePlace i) =
          if r.grant = .waiting then indexByte (s.grantQueue.findIdx? (fun q => q.load == i)) else 0xFF := by
        unfold State.queuePlace
        split <;> rfl
      rw [← hplace, ← levelByte_eq]
      rfl
  case channel =>
    rw [snapshot_channel]
    unfold State.reportChannel chanRecordBytes
    rw [presenceByte_eq]
    rfl
  case bank =>
    exact ⟨findingBytes (s.bank b).finding, snapshot_bank s hk, length_findingBytes _, fun f hf => by rw [hf]; rfl⟩
  case cavity =>
    intro subject k l w entry
    have hsnap : ∀ page, s.snapshot subject page = s.reportCavity c page := fun page => by cases c <;> rfl
    have hentry : entry = stackBytes := funext fun e => by
      cases e with
      | none => rfl
      | some e =>
        have h := stackBytes_some e
        rw [remainingBytes_eq, remainingBytes_eq] at h
        exact h.symm
    clear_value entry
    subst hentry
    rw [hsnap, hsnap, hsnap, hsnap]
    refine ⟨?context, ⟨periodBytes w.period, dutyBytes w.duty, rfl, length_periodBytes _, length_dutyBytes _,
      fun p hp => by rw [hp]; rfl, fun d hd => by rw [hd]; rfl⟩, rfl, faultBytes k.firstFault, rfl, length_faultBytes _,
      fun f hf => by rw [hf]; rfl⟩
    exact congrArg some (by
      unfold State.pageContext
      dsimp only
      rw [holdBytes_eq, bankByte_eq, doorReportBytes_eq]
      rfl)

/-! ## The notices (R180, R181) -/

/-- The subjects of notices: a cavity, or the part. -/
abbrev Subject := Option Cav

def Notices.flag (n : Notices) : Subject → Bool
  | some c => n.cav.get c
  | none => n.part

def Notices.clear (n : Notices) : Subject → Notices
  | some c => { n with cav := n.cav.set c false }
  | none => { n with part := false }

/-- The notice a subject gets. -/
def State.noticeOf (s : State) : Subject → Frame
  | some c => notice (cavSubject c) (s.noticeCavity c)
  | none => notice 0 s.noticePart

/-- The places above the open relay entries. -/
def State.room (s : State) : Nat := 16 - s.outQueue.length - s.relay.length

/-- A subject's flag is served. -/
def State.serve (s : State) : Subject → State
  | some c => s.serveCav c
  | none => s.servePart

/-- The part with the notices of some subjects placed, their flags cleared. -/
def State.notified (s : State) (l : List Subject) : State :=
  { s with outQueue := s.outQueue ++ l.map s.noticeOf, notices := l.foldl Notices.clear s.notices }

theorem placeTest_iff_room (s : State) : s.placeTest = true ↔ 0 < s.room := by
  unfold State.placeTest State.freePlaces outPlaces State.room
  rw [decide_eq_true_iff]
  omega

theorem flag_clear (n : Notices) (x y : Subject) : (n.clear x).flag y = (n.flag y && decide (y ≠ x)) := by
  rcases x with _ | c <;> rcases y with _ | d <;> simp [Notices.clear, Notices.flag, Two.get_set]
  by_cases h : d = c <;> simp [h]

theorem serve_of_flag {s : State} {x : Subject} (hf : s.notices.flag x = true) (hr : 0 < s.room) : s.serve x = s.notified [x] := by
  have hp := (placeTest_iff_room s).2 hr
  cases x with
  | none => exact if_pos (by rw [hp]; simpa [Notices.flag] using hf)
  | some c => exact if_pos (by rw [hp]; simpa [Notices.flag] using hf)

theorem serve_of_no_flag {s : State} {x : Subject} (h : s.notices.flag x = false ∨ s.room = 0) : s.serve x = s := by
  have hp : (s.notices.flag x && s.placeTest) = false := by
    rcases h with h | h
    · simp [h]
    · have : s.placeTest = false := by
        rw [← Bool.not_eq_true, placeTest_iff_room]
        omega
      simp [this]
  cases x with
  | none => exact if_neg (by simpa [Notices.flag] using hp)
  | some c => exact if_neg (by simpa [Notices.flag] using hp)

theorem notified_nil (s : State) : s.notified [] = s := by simp [State.notified]

theorem notified_notified (s : State) (l m : List Subject) : (s.notified l).notified m = s.notified (l ++ m) := by
  have h : (s.notified l).noticeOf = s.noticeOf := funext fun x => by cases x <;> rfl
  simp only [State.notified, List.map_append, List.foldl_append, List.append_assoc] at h ⊢
  rw [h]

/-- R181: of different subjects in an order, as many flagged ones as there is room for are notified, first in order first. -/
theorem foldl_serve (l : List Subject) (hl : l.Nodup) : ∀ s : State,
    l.foldl State.serve s = s.notified ((l.filter s.notices.flag).take s.room) := by
  induction l with
  | nil => exact fun s => by simp [notified_nil]
  | cons x l ih =>
    intro s
    obtain ⟨hx, hl⟩ := List.nodup_cons.1 hl
    rw [List.foldl_cons]
    by_cases hf : s.notices.flag x = true
    · by_cases hr : 0 < s.room
      · have hflags : l.filter (s.notified [x]).notices.flag = l.filter s.notices.flag :=
          List.filter_congr fun y hy => by
            have hne : y ≠ x := fun h => hx (h ▸ hy)
            simp [State.notified, flag_clear, hne]
        have hroom : (s.notified [x]).room = s.room - 1 := by simp [State.notified, State.room]; omega
        obtain ⟨n, hn⟩ : ∃ n, s.room = n + 1 := ⟨s.room - 1, by omega⟩
        rw [serve_of_flag hf hr, ih hl, hflags, hroom, notified_notified, List.filter_cons_of_pos hf, hn]
        rfl
      · have h0 : s.room = 0 := by omega
        rw [serve_of_no_flag (.inr h0), ih hl, h0, List.take_zero, List.take_zero]
    · rw [serve_of_no_flag (.inl (by simpa using hf)), ih hl, List.filter_cons_of_neg hf]

theorem flag_foldl_clear (l : List Subject) (y : Subject) : ∀ n : Notices,
    (l.foldl Notices.clear n).flag y = (n.flag y && !l.contains y) := by
  induction l with
  | nil => simp
  | cons x l ih =>
    intro n
    rw [List.foldl_cons, ih, flag_clear, Bool.and_assoc]
    by_cases h : y = x <;> simp [h]

/-- The order of the subjects (R181). -/
def subjects : List Subject := [some .zero, some .one, none]

/-- The subjects that the notices served now go to. -/
def State.served (s : State) : List Subject := (subjects.filter s.notices.flag).take s.room

theorem serveNotices_notified (s : State) : s.serveNotices = s.notified s.served := foldl_serve subjects (by decide) s

theorem notices_eq_of_flags {n m : Notices} (h : ∀ x, n.flag x = m.flag x) : n = m := by
  obtain ⟨⟨z, o⟩, p⟩ := n
  obtain ⟨⟨z', o'⟩, p'⟩ := m
  have hz : z = z' := h (some .zero)
  have ho : o = o' := h (some .one)
  have hp : p = p' := h none
  rw [hz, ho, hp]

/-- What ends a command, whole. -/
theorem conclude_notified (s : State) : s.conclude = { s.notified s.served with faultOut := s.faultCondition } := by
  unfold State.conclude
  rw [serveNotices_notified]
  rfl

theorem kind_noticeOf (s : State) (x : Subject) : (s.noticeOf x).kind = 0x32 := by cases x <;> rfl

/-- What ends a command only adds notices behind the frames that wait upstream. -/
theorem conclude_adds_notices (s : State) : ∃ (fs : List Frame) (n : Notices),
    s.conclude = { s with outQueue := s.outQueue ++ fs, notices := n, faultOut := s.faultCondition } ∧ ∀ f ∈ fs, f.kind = 0x32 := by
  refine ⟨s.served.map s.noticeOf, _, conclude_notified s, fun f hf => ?_⟩
  obtain ⟨x, -, rfl⟩ := List.mem_map.1 hf
  exact kind_noticeOf s x

theorem setCavState_flags (s : State) (c : Cav) (st : CavState) : ((s.setCavState c st).cav c).state = st ∧
    (st ≠ (s.cav c).state → (s.setCavState c st).notices.cav.get c = true) := by
  unfold State.setCavState
  split
  · rename_i h
    exact ⟨by simpa using h, fun hne => absurd (by simpa using h.symm) hne⟩
  · exact ⟨by simp, fun _ => by simp [State.flagCav]⟩

theorem setLockState_flags (s : State) (c : Cav) (st : LockState) : ((s.setLockState c st).lock c).state = st ∧
    (st ≠ (s.lock c).state → (s.setLockState c st).notices.cav.get c = true) := by
  unfold State.setLockState
  split
  · rename_i h
    exact ⟨by simpa using h, fun hne => absurd (by simpa using h.symm) hne⟩
  · exact ⟨by simp, fun _ => by simp [State.flagCav]⟩

/-- Settles O38: serving goes down the list of subjects; the statement's notices are the model's, byte by byte. -/
theorem noticesAreServedInOrder : Obligations.NoticesAreServedInOrder := by
  refine ⟨?_, setCavState_flags, setLockState_flags⟩
  intro s byte two bit cavity part notice flagged inOrder served still
  have hnotice : notice = s.noticeOf := funext fun x => by
    have htwo : two = natBytes := funext fun n => (natBytes_eq n).symm
    clear_value two
    subst htwo
    have hcav : cavity = s.noticeCavity := funext fun c => by
      have hb := bankByte_cases (s.cav c).bank
      have ht := topCauseByte_cases (s.cav c).stack
      unfold State.noticeCavity
      dsimp only
      rw [hb, ht]
      exact congrArg _ rfl
    clear_value cavity
    subst hcav
    rcases x with _ | _ | _ <;> rfl
  have hflagged : flagged = s.notices.flag := funext fun x => by cases x <;> rfl
  have hserved : served = s.served := by
    unfold State.served
    rw [← hflagged]
    rfl
  have hn : ({ cav := { zero := still (some .zero), one := still (some .one) }, part := still none } : Notices) =
      s.served.foldl Notices.clear s.notices := notices_eq_of_flags fun x => by
    rw [flag_foldl_clear, ← hserved]
    rcases x with _ | _ | _ <;> rfl
  rw [hn, hnotice, hserved]
  exact conclude_notified s

/-! ## Entries dropped by a link reset (R40) -/

theorem LoadAct.dropRequest {s t : State} (h : LoadAct s t) (i : Fin 16) : LoadAct s (t.dropRequest i) := h.own _ _ _ _ _ _ _

theorem LoadAct.dropWait {s t : State} (h : LoadAct s t) (e : RelayEntry) : LoadAct s (t.dropWait e) := by
  unfold State.dropWait
  split
  · exact h.onLoad _ _ fun i => h.dropRequest i
  · exact h
  · exact h

theorem LoadAct.returnGrant {s t : State} (h : LoadAct s t) (i : Fin 16) : LoadAct s (t.returnGrant i) := by
  unfold State.returnGrant
  split <;> exact h.own _ _ _ _ _ _ _

theorem LoadAct.unqueue {s t : State} (h : LoadAct s t) (e : RelayEntry) : LoadAct s (t.unqueue e) := by
  have hd : LoadAct s (({ t with normal := t.normal.filter (fun q => q != QItem.relayed e.frame.tag) }).dropRelay e.frame.tag) :=
    h.own _ _ _ _ _ _ _
  unfold State.unqueue
  exact LoadAct.ite _ (hd.onLoad _ _ fun i => hd.returnGrant i) hd

theorem LoadAct.dropQueued {s t : State} (h : LoadAct s t) (e : RelayEntry) : LoadAct s (t.dropQueued e) := by
  unfold State.dropQueued
  split
  · exact LoadAct.ite _ (h.unqueue _) h
  · exact h

/-- `t` keeps the engine's DRIVEs and ASKs that `s` has queued, and the rank 0 requests. -/
structure EngineKept (s t : State) : Prop where
  urgent : t.urgent = s.urgent
  normal : ∀ q ∈ s.normal, (∀ x, q ≠ .relayed x) → q ∈ t.normal
  fewer : ∀ r ∈ t.grantQueue, r ∈ s.grantQueue
  requests : ∀ r ∈ s.grantQueue, (∀ r' ∈ s.grantQueue, r'.load = r.load → r'.requester = .engine) → r ∈ t.grantQueue

theorem EngineKept.of_same {s t : State} (urgent : t.urgent = s.urgent := by rfl) (normal : t.normal = s.normal := by rfl)
    (grantQueue : t.grantQueue = s.grantQueue := by rfl) : EngineKept s t :=
  ⟨urgent, fun _ hq _ => normal ▸ hq, fun _ hr => grantQueue ▸ hr, fun _ hr _ => grantQueue ▸ hr⟩

theorem EngineKept.trans {s t u : State} (h : EngineKept s t) (g : EngineKept t u) : EngineKept s u where
  urgent := g.urgent.trans h.urgent
  normal q hq hx := g.normal q (h.normal q hq hx) hx
  fewer r hr := h.fewer r (g.fewer r hr)
  requests r hr he := g.requests r (h.requests r hr he) fun r' hr' => he r' (h.fewer r' hr')

theorem EngineKept.foldl {f : State → RelayEntry → State} (hf : ∀ s e, EngineKept s (f s e)) (l : List RelayEntry) :
    ∀ s, EngineKept s (l.foldl f s) := by
  induction l with
  | nil => exact fun s => .of_same
  | cons e l ih => exact fun s => (hf s e).trans (ih _)

/-- A relayed request's load has no rank 0 request alone. -/
theorem engineKept_dropWait (s : State) (e : RelayEntry) : EngineKept s (s.dropWait e) := by
  unfold State.dropWait
  split
  · cases hw : s.waitingLoad e.frame.tag with
    | none => exact .of_same
    | some i =>
      refine ⟨rfl, fun _ hq _ => hq, fun r hr => (List.mem_filter.1 hr).1, fun r hr he => List.mem_filter.2 ⟨hr, ?_⟩⟩
      obtain ⟨r', hr', hi⟩ := Option.map_eq_some_iff.1 hw
      have hreq : r'.requester = .relay e.frame.tag := by simpa using List.find?_some hr'
      by_contra hload
      have := he r' (List.mem_of_find?_eq_some hr') (by simpa [hi] using Eq.symm (by simpa using hload : r.load = i))
      rw [hreq] at this
      cases this
  · exact .of_same
  · exact .of_same

theorem engineKept_unqueue (s : State) (e : RelayEntry) : EngineKept s (s.unqueue e) := by
  have hd : EngineKept s (({ s with normal := s.normal.filter (fun q => q != QItem.relayed e.frame.tag) }).dropRelay e.frame.tag) :=
    ⟨rfl, fun q hq hx => List.mem_filter.2 ⟨hq, by simpa using hx _⟩, fun _ hr => hr, fun _ hr _ => hr⟩
  unfold State.unqueue
  dsimp only
  split
  · unfold State.onLoad
    split
    · refine hd.trans ?_
      unfold State.returnGrant
      split <;> exact .of_same
    · exact hd
  · exact hd

theorem engineKept_dropQueued (s : State) (e : RelayEntry) : EngineKept s (s.dropQueued e) := by
  unfold State.dropQueued
  (repeat' split)
  · exact engineKept_unqueue s _
  · exact .of_same
  · exact .of_same

/-! ## LINK-RESET (R182) -/

/-- LINK-RESET up to the head's turn in the Grant Queue. -/
def State.linkCleared (s : State) (tag : Byte) : State := ((((s.resetLink tag).flagCav .zero).flagCav .one).flagPart).serveNotices

theorem linkReset_eq (s : State) (tag : Byte) : s.linkReset tag = (s.linkCleared tag).considerHead := rfl

theorem linkCleared_eq (s : State) (tag : Byte) : ∃ (fs : List Frame) (n : Notices),
    s.linkCleared tag = { s.resetLink tag with outQueue := answerFrame tag codeDone [] :: fs, notices := n } ∧
      ∀ f ∈ fs, f.kind = 0x32 := by
  let u := ((((s.resetLink tag).flagCav .zero).flagCav .one).flagPart)
  refine ⟨u.served.map u.noticeOf, _, serveNotices_notified u, fun f hf => ?_⟩
  obtain ⟨x, -, rfl⟩ := List.mem_map.1 hf
  exact kind_noticeOf u x

/-- R40: what a link reset drops leaves the other blocks alone. -/
theorem loadAct_resetDrops (s : State) : LoadAct s (s.relay.foldl State.dropQueued (s.relay.foldl State.dropWait s)) :=
  LoadAct.foldl _ (fun _ _ h => h.dropQueued _) _ (LoadAct.foldl _ (fun _ _ h => h.dropWait _) _ (LoadAct.refl s))

theorem loadAct_resetLink (s : State) (tag : Byte) : LoadAct s (s.resetLink tag) :=
  (loadAct_resetDrops s).trans ⟨rfl, rfl, rfl, rfl, rfl, rfl, rfl, rfl, rfl, List.prefix_refl _⟩

theorem engineKept_resetDrops (s : State) : EngineKept s (s.relay.foldl State.dropQueued (s.relay.foldl State.dropWait s)) :=
  (EngineKept.foldl engineKept_dropWait _ s).trans (EngineKept.foldl engineKept_dropQueued _ _)

theorem engineKept_resetLink (s : State) (tag : Byte) : EngineKept s (s.resetLink tag) :=
  (engineKept_resetDrops s).trans .of_same

/-- With no relay entry open, an act of the blocks places no frame. -/
theorem outQueue_of_kept {s t : State} (h : Kept s t) (hr : s.relay = []) : t.outQueue = s.outQueue ∧ t.relay = [] := by
  have htags : tagsOf t.relay = [] := by
    have := h.relay
    rw [hr] at this
    exact List.sublist_nil.1 this
  have hrel : t.relay = [] := List.map_eq_nil_iff.1 htags
  have hp := h.places
  simp only [State.placesUsed, hr, hrel, List.length_nil, add_zero] at hp
  exact ⟨(h.sent.eq_of_length_le hp).symm, hrel⟩

/-- What a LINK-RESET ends with, but for the notices. -/
theorem exec_linkReset {s : State} (tag : Byte) {payload : List Byte} (h : s.Ready) (hlen : payload.length ≤ 40) :
    ∃ (u : State) (fs : List Frame) (n : Notices) (b : Bool), Kept (s.heard.linkCleared tag) u ∧
      u.chans = (s.heard.linkCleared tag).chans ∧ (∀ f ∈ fs, f.kind = 0x32) ∧
      exec (.linkReset tag payload) s = .next { u with
        outQueue := answerFrame tag codeDone [] :: fs, notices := n, faultOut := b } := by
  have he := effect_linkReset s tag hlen
  obtain ⟨fs, n, hv, hfs⟩ := linkCleared_eq s.heard tag
  have hk : Kept (s.heard.linkCleared tag) (s.heard.linkReset tag).settle := kept_settle (kept_considerHead (Kept.refl _))
  have hrel : (s.heard.linkCleared tag).relay = [] := by rw [hv]; rfl
  obtain ⟨hout, -⟩ := outQueue_of_kept hk hrel
  obtain ⟨gs, n', hc, hgs⟩ := conclude_adds_notices (s.heard.linkReset tag).settle
  refine ⟨_, fs ++ gs, n', (s.heard.linkReset tag).settle.faultCondition, hk, ?_, ?_, ?_⟩
  · rw [chans_settle, linkReset_eq]
    exact (LoadAct.considerHead (LoadAct.refl _)).chans
  · intro f hf
    rcases List.mem_append.1 hf with hf | hf
    · exact hfs f hf
    · exact hgs f hf
  · have ha := answers_of_effect (c := .linkReset tag payload) nofun nofun h he
    unfold Answers at ha
    rw [ha, hc, hout, hv]
    rfl

/-- Settles O39: the part after the reset's own acts, then what the head's turn and the reports keep of it. -/
theorem linkResetClearsTheLink : Obligations.LinkResetClearsTheLink := by
  intro s tag payload h hlen
  obtain ⟨fs, n, hv, -⟩ := linkCleared_eq s.heard tag
  have kd := kept_resetDrops s.heard
  have lr := loadAct_resetLink s.heard tag
  have heard := heard_eq s
  constructor
  · obtain ⟨u, gs, n', b, hk, hch, hgs, he⟩ := exec_linkReset tag h hlen
    have hcl : (s.heard.resetLink tag).SameTables (s.heard.linkCleared tag) := by rw [hv]; exact .of_same
    have htables : s.SameTables u :=
      (((sameTables_heard s).trans (sameTables_resetLink s.heard tag)).trans hcl).trans (.of_kept hk)
    have hrel : (s.heard.linkCleared tag).relay = [] := by rw [hv]; rfl
    have hup : (s.heard.linkCleared tag).up.count = Counters.zero := by rw [hv]; rfl
    have hbus : (s.heard.linkCleared tag).bus.count = Counters.zero := by rw [hv]; rfl
    have hptr : (s.heard.linkCleared tag).pointer = { table := .loads, bank := .zero, index := 0 } := by rw [hv]; rfl
    have hex : (s.heard.linkCleared tag).exchange = s.exchange.map Exchange.closed := by
      rw [hv]; exact congrArg (Option.map Exchange.closed) (kd.exchange.trans (by rw [heard]))
    have hlive : (s.heard.linkCleared tag).live = true := by rw [hv]; exact kd.live.trans (by rw [heard])
    have htag : (s.heard.linkCleared tag).tagSeq = s.tagSeq := by rw [hv]; exact kd.tagSeq.trans (by rw [heard])
    have hstop : (s.heard.linkCleared tag).stopAsserted = s.stopAsserted := by rw [hv]; exact kd.stopAsserted.trans (by rw [heard])
    have hair : (s.heard.linkCleared tag).air.controllerDemand = s.air.controllerDemand := by
      rw [hv]; exact kd.controllerDemand.trans (by rw [heard])
    have hchans : (s.heard.linkCleared tag).chans = s.chans := by rw [hv]; exact lr.chans.trans (by rw [heard])
    obtain ⟨-, hrelay⟩ := outQueue_of_kept hk hrel
    exact ⟨_, gs, he, hrelay, rfl, hgs, (congrArg PortState.count hk.up).trans hup, (congrArg PortState.count hk.bus).trans hbus,
      congrArg Pointer.table (hk.pointer.trans hptr), congrArg Pointer.index (hk.pointer.trans hptr), hk.exchange.trans hex,
      hk.live.trans hlive, hk.tagSeq.trans htag, hk.stopAsserted.trans hstop, hk.controllerDemand.trans hair, hch.trans hchans,
      htables.trans .of_same⟩
  · have hs : EngineKept s s.heard := by rw [heard]; exact .of_same
    have hc : EngineKept (s.heard.resetLink tag) (s.heard.linkCleared tag) := by rw [hv]; exact .of_same
    have ek := (hs.trans (engineKept_resetLink s.heard tag)).trans hc
    refine ⟨s.heard.linkCleared tag, answers_of_effect nofun nofun h (effect_linkReset s tag hlen), ?_, ?_, ?_, ?_, ?_,
      ek.urgent, ek.normal, ek.requests⟩
    · rw [hv]; exact lr.cavs.trans (by rw [heard])
    · rw [hv]; exact lr.locks.trans (by rw [heard])
    · rw [hv]; exact lr.watches.trans (by rw [heard])
    · rw [hv]; exact lr.windows.trans (by rw [heard])
    · rw [hv]; exact lr.air.trans (by rw [heard])

/-! ## The upstream transmitter (R14) -/

/-- Settles O18. -/
theorem upstreamSendsInOrderPlaced : Obligations.UpstreamSendsInOrderPlaced := by
  refine ⟨fun s f => rfl, fun s f rest h hq => ?send, fun s => ⟨_, rfl, rfl⟩, fun s tag payload h hlen => ?reset⟩
  case send =>
    refine exec_of_quiet nofun nofun h ?_ h.2
    have he : effect .upstreamTransmitStart s = s.transmit := rfl
    rw [he]
    unfold State.transmit
    rw [hq]
    rfl
  case reset =>
    obtain ⟨u, fs, n, b, hk, -, hfs, he⟩ := exec_linkReset tag h hlen
    obtain ⟨gs, n', hv, -⟩ := linkCleared_eq s.heard tag
    have htx : (s.heard.linkCleared tag).upTx = s.upTx := by
      rw [hv]; exact (kept_resetDrops s.heard).upTx.trans (by rw [heard_eq])
    exact ⟨_, fs, he, rfl, hk.upTx.trans htx, hfs⟩

end Sys2Proof.Machine
end

