-- ==== Sys2Proof/Proofs/Validate.lean ====
section
/-! PROOFS. VALIDATE finds the first failing check of a bank (R91): O35. -/

namespace Sys2Proof.Machine

-- One proof at a time: proofs elaborated side by side ask for more threads than the check's memory limit leaves room for.
set_option Elab.async false

/-! ## A search for the finding of the lowest place -/

/-- The search finds the finding of the lowest place among those of `P`, and nothing where there is none. -/
structure Finds (o : Option Finding) (P : Finding → Prop) : Prop where
  none_iff : o = none ↔ ∀ f, ¬P f
  some_iff : ∀ f, o = some f ↔ P f ∧ ∀ g, P g → f.place ≤ g.place

/-- One check: it finds `f₀` where `p` holds. -/
def FindsAt (p : Prop) (f₀ f : Finding) : Prop := p ∧ f = f₀

theorem finds_ite (p : Prop) [Decidable p] (f₀ : Finding) : Finds (if p then some f₀ else none) (FindsAt p f₀) := by
  constructor
  · by_cases h : p <;> simp [h, FindsAt]
  · intro f
    by_cases h : p
    · simp only [h, if_true, Option.some.injEq, FindsAt, true_and]
      exact ⟨fun e => ⟨e.symm, fun g hg => by rw [hg, e]⟩, fun ⟨e, _⟩ => e.symm⟩
    · simp [h, FindsAt]

theorem Finds.congr {o : Option Finding} {P Q : Finding → Prop} (h : Finds o P) (hQ : ∀ f, Q f ↔ P f) : Finds o Q := by
  have : Q = P := funext fun f => propext (hQ f)
  rw [this]
  exact h

/-- A search followed by one among findings of higher places. -/
theorem Finds.or {o o' : Option Finding} {P P' : Finding → Prop} (h : Finds o P) (h' : Finds o' P')
    (hlt : ∀ f g, P f → P' g → f.place < g.place) : Finds (o.or o') (fun f => P f ∨ P' f) := by
  cases ho : o with
  | none =>
    have hnone := h.none_iff.1 ho
    have hcongr : ∀ f, (P f ∨ P' f) ↔ P' f := fun f => or_iff_right (hnone f)
    rw [Option.none_or]
    exact h'.congr hcongr
  | some f₁ =>
    obtain ⟨hf₁, hmin⟩ := (h.some_iff f₁).1 ho
    rw [Option.some_or]
    refine ⟨⟨nofun, fun hn => absurd (.inl hf₁) (hn f₁)⟩, fun f => ⟨?_, ?_⟩⟩
    · rintro ⟨⟩
      exact ⟨.inl hf₁, fun g hg => hg.elim (hmin g) fun hg => (hlt f₁ g hf₁ hg).le⟩
    · rintro ⟨hf | hf, hle⟩
      · rw [← ho]
        exact (h.some_iff f).2 ⟨hf, fun g hg => hle g (.inl hg)⟩
      · exact absurd (hle f₁ (.inl hf₁)) (hlt f₁ f hf₁ hf).not_ge

/-- A finding of `Q` on some item of a list, the items numbered from `n`. -/
def FindsIn {α : Type} (Q : Nat → α → Finding → Prop) (n : Nat) (l : List α) (f : Finding) : Prop :=
  ∃ k a, l[k]? = some a ∧ Q (n + k) a f

theorem findsIn_cons {α : Type} (Q : Nat → α → Finding → Prop) (n : Nat) (a : α) (l : List α) (f : Finding) :
    FindsIn Q n (a :: l) f ↔ Q n a f ∨ FindsIn Q (n + 1) l f := by
  constructor
  · rintro ⟨k, b, hk, hq⟩
    cases k with
    | zero =>
      obtain rfl : a = b := by simpa using hk
      exact .inl hq
    | succ k => exact .inr ⟨k, b, by simpa using hk, by rw [show n + 1 + k = n + (k + 1) by omega]; exact hq⟩
  · rintro (hq | ⟨k, b, hk, hq⟩)
    · exact ⟨0, a, rfl, hq⟩
    · exact ⟨k + 1, b, by simpa using hk, by rw [show n + (k + 1) = n + 1 + k by omega]; exact hq⟩

/-- A check made on each item of a list, when the findings of later items have higher places. -/
theorem finds_firstFinding {α : Type} {check : Nat → α → Option Finding} {Q : Nat → α → Finding → Prop}
    (hc : ∀ n a, Finds (check n a) (Q n a)) (hlt : ∀ m n a b f g, m < n → Q m a f → Q n b g → f.place < g.place)
    (l : List α) : ∀ n, Finds (firstFinding check n l) (FindsIn Q n l) := by
  induction l with
  | nil => exact fun n => ⟨by simp [firstFinding, FindsIn], by simp [firstFinding, FindsIn]⟩
  | cons a l ih =>
    intro n
    have hor : firstFinding check n (a :: l) = (check n a).or (firstFinding check (n + 1) l) := by
      rw [firstFinding]
      cases check n a <;> rfl
    rw [hor]
    refine ((hc n a).or (ih (n + 1)) ?_).congr (findsIn_cons Q n a l)
    rintro f g hf ⟨k, b, -, hg⟩
    exact hlt n (n + 1 + k) a b f g (by omega) hf hg

/-! ## The nine checks -/

/-- R91: the table a check is made on. -/
def BankCheck.table : BankCheck → TableId
  | .limitsUnset | .releaseAboveCeiling | .startAboveRelease => .bankLimits
  | .nextIndex | .alternateIndex | .rampDuration => .segments
  | .vectorIndex => .causes
  | .bandOrder | .bandDescent => .duty

/-- The finding of a check at an index. -/
def BankCheck.finding (c : BankCheck) (n : Nat) : Finding := { check := c, table := c.table, index := n }

/-- R91 checks 1 to 3. -/
def LimitsFail (l : BankLimits) (f : Finding) : Prop :=
  FindsAt (bankLimitsInRange l = false) (BankCheck.finding .limitsUnset 0) f ∨
    FindsAt (¬l.release < l.ceiling) (BankCheck.finding .releaseAboveCeiling 0) f ∨
    FindsAt (¬l.startLimit < l.release) (BankCheck.finding .startAboveRelease 0) f

/-- R91 checks 4 to 6 on one record. -/
def SegmentFail (n : Nat) (g : Segment) (f : Finding) : Prop :=
  FindsAt (g.kind.usesNext = true ∧ 40 ≤ g.next.toNat) (BankCheck.finding .nextIndex n) f ∨
    FindsAt (g.kind = .check ∧ 40 ≤ g.alternate.toNat) (BankCheck.finding .alternateIndex n) f ∨
    FindsAt (g.kind = .ramp ∧ g.duration = 0) (BankCheck.finding .rampDuration n) f

/-- R91 check 7 on one entry. -/
def VectorFail (n : Nat) (v : Byte) (f : Finding) : Prop :=
  FindsAt (v ≠ 0xFF ∧ 40 ≤ v.toNat) (BankCheck.finding .vectorIndex n) f

/-- R91 check 8 on a band and the one before it. -/
def OrderFail (n : Nat) (p : DutyBand × DutyBand) (f : Finding) : Prop :=
  FindsAt (p.1.threshold = none ∧ p.2.threshold ≠ none) (BankCheck.finding .bandOrder n) f

/-- R91 check 9 on a band and the one before it. -/
def DescentFail (n : Nat) (p : DutyBand × DutyBand) (f : Finding) : Prop :=
  FindsAt (∃ x y : Int, p.1.threshold = some x ∧ p.2.threshold = some y ∧ x ≤ y)
    (BankCheck.finding .bandDescent n) f

theorem finds_checkLimits (l : BankLimits) : Finds (checkLimits l) (LimitsFail l) := by
  have h1 := finds_ite (bankLimitsInRange l = false) (BankCheck.finding .limitsUnset 0)
  have h2 := finds_ite (¬l.release < l.ceiling) (BankCheck.finding .releaseAboveCeiling 0)
  have h3 := finds_ite (¬l.startLimit < l.release) (BankCheck.finding .startAboveRelease 0)
  have he : checkLimits l = (if bankLimitsInRange l = false then some (BankCheck.finding .limitsUnset 0) else none).or
      ((if ¬l.release < l.ceiling then some (BankCheck.finding .releaseAboveCeiling 0) else none).or
        (if ¬l.startLimit < l.release then some (BankCheck.finding .startAboveRelease 0) else none)) := by
    unfold checkLimits
    split_ifs <;> simp_all [BankCheck.finding, BankCheck.table]
  rw [he]
  refine h1.or (h2.or h3 ?_) ?_
  · rintro f g ⟨-, rfl⟩ ⟨-, rfl⟩
    decide
  · rintro f g ⟨-, rfl⟩ (⟨-, rfl⟩ | ⟨-, rfl⟩) <;> decide

theorem finds_checkSegment (n : Nat) (g : Segment) : Finds (checkSegment n g) (SegmentFail n g) := by
  have h1 := finds_ite (g.kind.usesNext = true ∧ 40 ≤ g.next.toNat) (BankCheck.finding .nextIndex n)
  have h2 := finds_ite (g.kind = .check ∧ 40 ≤ g.alternate.toNat) (BankCheck.finding .alternateIndex n)
  have h3 := finds_ite (g.kind = .ramp ∧ g.duration = 0) (BankCheck.finding .rampDuration n)
  have he : checkSegment n g = (if g.kind.usesNext = true ∧ 40 ≤ g.next.toNat then some (BankCheck.finding .nextIndex n) else none).or
      ((if g.kind = .check ∧ 40 ≤ g.alternate.toNat then some (BankCheck.finding .alternateIndex n) else none).or
        (if g.kind = .ramp ∧ g.duration = 0 then some (BankCheck.finding .rampDuration n) else none)) := by
    unfold checkSegment
    split_ifs <;> simp_all [BankCheck.finding, BankCheck.table]
  rw [he]
  refine h1.or (h2.or h3 ?_) ?_
  · rintro f g ⟨-, rfl⟩ ⟨-, rfl⟩
    simp [Finding.place, BankCheck.finding]
  · rintro f g ⟨-, rfl⟩ (⟨-, rfl⟩ | ⟨-, rfl⟩) <;> simp [Finding.place, BankCheck.finding]

theorem finds_checkVector (n : Nat) (v : Byte) : Finds (checkVector n v) (VectorFail n v) := finds_ite _ _

theorem finds_checkOrder (n : Nat) (p : DutyBand × DutyBand) : Finds (checkOrder n p) (OrderFail n p) := by
  have h := finds_ite (p.1.threshold = none ∧ p.2.threshold ≠ none) (BankCheck.finding .bandOrder n)
  have he : checkOrder n p =
      if p.1.threshold = none ∧ p.2.threshold ≠ none then some (BankCheck.finding .bandOrder n) else none := by
    unfold checkOrder
    exact if_congr (by simp [Option.isSome_iff_ne_none]) rfl rfl
  rw [he]
  exact h

theorem finds_checkDescent (n : Nat) (p : DutyBand × DutyBand) : Finds (checkDescent n p) (DescentFail n p) := by
  obtain ⟨a, b⟩ := p
  unfold checkDescent DescentFail
  cases ha : a.threshold with
  | none => exact ⟨by simp [FindsAt], by simp [FindsAt]⟩
  | some x =>
    cases hb : b.threshold with
    | none => exact ⟨by simp [FindsAt], by simp [FindsAt]⟩
    | some y =>
      have h := finds_ite (x ≤ y) (BankCheck.finding .bandDescent n)
      have he : (if y < x then none else some (BankCheck.finding .bandDescent n)) =
          if x ≤ y then some (BankCheck.finding .bandDescent n) else none := by
        by_cases h : y < x
        · rw [if_pos h, if_neg (by omega)]
        · rw [if_neg h, if_pos (by omega)]
      rw [← he] at h
      exact h.congr fun f => by simp [FindsAt]

/-! ## The whole bank -/

theorem getElem?_neighbours {α : Type} (l : List α) (k : Nat) (p : α × α) :
    (neighbours l)[k]? = some p ↔ l[k]? = some p.1 ∧ l[k + 1]? = some p.2 := by
  induction l generalizing k with
  | nil => simp [neighbours]
  | cons a l ih =>
    cases l with
    | nil => simp [neighbours]
    | cons b l =>
      obtain ⟨x, y⟩ := p
      cases k with
      | zero => simp [neighbours]
      | succ k => simpa [neighbours] using ih k

/-- R91: the findings of each of the five groups of checks. -/
def BankFail (b : Bank) (f : Finding) : Prop :=
  LimitsFail b.limits f ∨ FindsIn SegmentFail 0 b.segments.toList f ∨ FindsIn VectorFail 0 b.causes.toList f ∨
    FindsIn OrderFail 1 (neighbours b.duty.toList) f ∨ FindsIn DescentFail 1 (neighbours b.duty.toList) f

theorem findsIn_vector {α : Type} {m : Nat} (Q : Nat → α → Finding → Prop) (v : Vector α m) (f : Finding) :
    FindsIn Q 0 v.toList f ↔ ∃ i : Fin m, Q i.val (v.get i) f := by
  constructor
  · rintro ⟨k, a, hk, hq⟩
    obtain ⟨hlt, rfl⟩ := List.getElem?_eq_some_iff.1 hk
    refine ⟨⟨k, by simpa using hlt⟩, ?_⟩
    simpa [Vector.get_eq_getElem] using hq
  · rintro ⟨i, hq⟩
    exact ⟨i.val, v.get i, by simp [Vector.get_eq_getElem], by simpa using hq⟩

theorem findsIn_bands (Q : Nat → DutyBand × DutyBand → Finding → Prop) (v : Vector DutyBand 8) (f : Finding) :
    FindsIn Q 1 (neighbours v.toList) f ↔ ∃ i j : Fin 8, j.val = i.val + 1 ∧ Q j.val (v.get i, v.get j) f := by
  constructor
  · rintro ⟨k, ⟨x, y⟩, hk, hq⟩
    obtain ⟨hx, hy⟩ := (getElem?_neighbours _ k _).1 hk
    obtain ⟨hlt, rfl⟩ := List.getElem?_eq_some_iff.1 hx
    obtain ⟨hlt', rfl⟩ := List.getElem?_eq_some_iff.1 hy
    refine ⟨⟨k, by simpa using hlt⟩, ⟨k + 1, by simpa using hlt'⟩, rfl, ?_⟩
    simpa [Vector.get_eq_getElem, Nat.add_comm] using hq
  · rintro ⟨i, j, hj, hq⟩
    refine ⟨i.val, (v.get i, v.get j), (getElem?_neighbours _ _ _).2 ⟨?_, ?_⟩, by rw [Nat.add_comm, ← hj]; exact hq⟩
    · simp [Vector.get_eq_getElem]
    · simp [Vector.get_eq_getElem, ← hj]

theorem finds_validateBank (b : Bank) : Finds (validateBank b) (BankFail b) := by
  have hsegs := finds_firstFinding finds_checkSegment (by
    rintro m n a b f g hlt (⟨-, rfl⟩ | ⟨-, rfl⟩ | ⟨-, rfl⟩) (⟨-, rfl⟩ | ⟨-, rfl⟩ | ⟨-, rfl⟩) <;>
      simp only [Finding.place, BankCheck.finding] <;> omega) b.segments.toList 0
  have hcauses := finds_firstFinding finds_checkVector (by
    rintro m n a b f g hlt ⟨-, rfl⟩ ⟨-, rfl⟩
    simpa [Finding.place, BankCheck.finding] using hlt) b.causes.toList 0
  have horder := finds_firstFinding finds_checkOrder (by
    rintro m n a b f g hlt ⟨-, rfl⟩ ⟨-, rfl⟩
    simpa [Finding.place, BankCheck.finding] using hlt) (neighbours b.duty.toList) 1
  have hdescent := finds_firstFinding finds_checkDescent (by
    rintro m n a b f g hlt ⟨-, rfl⟩ ⟨-, rfl⟩
    simpa [Finding.place, BankCheck.finding] using hlt) (neighbours b.duty.toList) 1
  have place_limits : ∀ f, LimitsFail b.limits f → f.place ≤ 3 := by
    rintro f (⟨-, rfl⟩ | ⟨-, rfl⟩ | ⟨-, rfl⟩) <;> decide
  have place_segments : ∀ f, FindsIn SegmentFail 0 b.segments.toList f → 4 ≤ f.place ∧ f.place < 200 := by
    intro f hf
    obtain ⟨i, hq⟩ := (findsIn_vector _ _ _).1 hf
    rcases hq with ⟨-, rfl⟩ | ⟨-, rfl⟩ | ⟨-, rfl⟩ <;> simp only [Finding.place, BankCheck.finding] <;> omega
  have place_causes : ∀ f, FindsIn VectorFail 0 b.causes.toList f → 200 ≤ f.place ∧ f.place < 300 := by
    intro f hf
    obtain ⟨i, -, rfl⟩ := (findsIn_vector _ _ _).1 hf
    simp only [Finding.place, BankCheck.finding]
    omega
  have place_order : ∀ f, FindsIn OrderFail 1 (neighbours b.duty.toList) f → 300 ≤ f.place ∧ f.place < 400 := by
    intro f hf
    obtain ⟨i, j, -, -, rfl⟩ := (findsIn_bands _ _ _).1 hf
    simp only [Finding.place, BankCheck.finding]
    omega
  have place_descent : ∀ f, FindsIn DescentFail 1 (neighbours b.duty.toList) f → 400 ≤ f.place := by
    intro f hf
    obtain ⟨i, j, -, -, rfl⟩ := (findsIn_bands _ _ _).1 hf
    simp only [Finding.place, BankCheck.finding]
    omega
  refine (finds_checkLimits b.limits).or (hsegs.or (hcauses.or (horder.or hdescent ?_) ?_) ?_) ?_
  · exact fun f g hf hg => (place_order f hf).2.trans_le (place_descent g hg)
  · rintro f g hf (hg | hg)
    · exact (place_causes f hf).2.trans_le (place_order g hg).1
    · exact (place_causes f hf).2.trans (by have := place_descent g hg; omega)
  · rintro f g hf (hg | hg | hg)
    · exact (place_segments f hf).2.trans_le (place_causes g hg).1
    · exact (place_segments f hf).2.trans (by have := (place_order g hg).1; omega)
    · exact (place_segments f hf).2.trans (by have := place_descent g hg; omega)
  · rintro f g hf (hg | hg | hg | hg)
    · exact (place_limits f hf).trans_lt (place_segments g hg).1
    · exact (place_limits f hf).trans_lt (by have := (place_causes g hg).1; omega)
    · exact (place_limits f hf).trans_lt (by have := (place_order g hg).1; omega)
    · exact (place_limits f hf).trans_lt (by have := place_descent g hg; omega)

/-- R91: what a bank fails, check by check, is what the five groups find. -/
theorem fails_iff (b : Bank) (f : Finding) : b.Fails f ↔ BankFail b f := by
  unfold BankFail
  rw [findsIn_vector, findsIn_vector, findsIn_bands, findsIn_bands]
  constructor
  · obtain ⟨c, t, n⟩ := f
    cases c
    case limitsUnset => rintro ⟨⟨rfl, rfl⟩, h⟩; exact .inl (.inl ⟨h, rfl⟩)
    case releaseAboveCeiling => rintro ⟨⟨rfl, rfl⟩, h⟩; exact .inl (.inr (.inl ⟨h, rfl⟩))
    case startAboveRelease => rintro ⟨⟨rfl, rfl⟩, h⟩; exact .inl (.inr (.inr ⟨h, rfl⟩))
    case nextIndex => rintro ⟨rfl, i, rfl, h⟩; exact .inr (.inl ⟨i, .inl ⟨h, rfl⟩⟩)
    case alternateIndex => rintro ⟨rfl, i, rfl, h⟩; exact .inr (.inl ⟨i, .inr (.inl ⟨h, rfl⟩)⟩)
    case rampDuration => rintro ⟨rfl, i, rfl, h⟩; exact .inr (.inl ⟨i, .inr (.inr ⟨h, rfl⟩)⟩)
    case vectorIndex => rintro ⟨rfl, i, rfl, h⟩; exact .inr (.inr (.inl ⟨i, h, rfl⟩))
    case bandOrder => rintro ⟨rfl, i, j, rfl, hj, h⟩; exact .inr (.inr (.inr (.inl ⟨i, j, hj, h, rfl⟩)))
    case bandDescent => rintro ⟨rfl, i, j, rfl, hj, h⟩; exact .inr (.inr (.inr (.inr ⟨i, j, hj, h, rfl⟩)))
  · rintro ((⟨h, rfl⟩ | ⟨h, rfl⟩ | ⟨h, rfl⟩) | ⟨i, ⟨h, rfl⟩ | ⟨h, rfl⟩ | ⟨h, rfl⟩⟩ | ⟨i, h, rfl⟩ | ⟨i, j, hj, h, rfl⟩ |
      ⟨i, j, hj, h, rfl⟩)
    · exact ⟨⟨rfl, rfl⟩, h⟩
    · exact ⟨⟨rfl, rfl⟩, h⟩
    · exact ⟨⟨rfl, rfl⟩, h⟩
    · exact ⟨rfl, i, rfl, h⟩
    · exact ⟨rfl, i, rfl, h⟩
    · exact ⟨rfl, i, rfl, h⟩
    · exact ⟨rfl, i, rfl, h⟩
    · exact ⟨rfl, i, j, rfl, hj, h⟩
    · exact ⟨rfl, i, j, rfl, hj, h⟩

theorem finds_fails (b : Bank) : Finds (validateBank b) b.Fails := (finds_validateBank b).congr (fails_iff b)

/-- R91: a bank without a finding meets every check, in the rule's words. -/
theorem fails_none_iff (b : Bank) : (∀ f, ¬b.Fails f) ↔
    (bankLimitsInRange b.limits = true ∧ b.limits.release < b.limits.ceiling ∧ b.limits.startLimit < b.limits.release) ∧
    (∀ i : Fin 40, ((b.segments.get i).kind.usesNext = true → (b.segments.get i).next.toNat < 40) ∧
      ((b.segments.get i).kind = .check → (b.segments.get i).alternate.toNat < 40) ∧
      ((b.segments.get i).kind = .ramp → (b.segments.get i).duration ≠ 0)) ∧
    (∀ a : Fin 6, b.causes.get a = 0xFF ∨ (b.causes.get a).toNat < 40) ∧
    (∀ i j : Fin 8, j.val = i.val + 1 → (b.duty.get i).threshold = none → (b.duty.get j).threshold = none) ∧
    ∀ (i j : Fin 8) (x y : Int), j.val = i.val + 1 → (b.duty.get i).threshold = some x → (b.duty.get j).threshold = some y →
      y < x := by
  constructor
  · intro h
    refine ⟨⟨?_, ?_, ?_⟩, fun i => ⟨fun hk => ?_, fun hk => ?_, fun hk hd => ?_⟩, fun a => ?_, fun i j hj hi => ?_, fun i j x y hj hx hy => ?_⟩
    · by_contra hc
      exact h (BankCheck.finding .limitsUnset 0) ⟨⟨rfl, rfl⟩, by simpa using hc⟩
    · by_contra hc
      exact h (BankCheck.finding .releaseAboveCeiling 0) ⟨⟨rfl, rfl⟩, hc⟩
    · by_contra hc
      exact h (BankCheck.finding .startAboveRelease 0) ⟨⟨rfl, rfl⟩, hc⟩
    · by_contra hc
      exact h (BankCheck.finding .nextIndex i.val) ⟨rfl, i, rfl, hk, not_lt.1 hc⟩
    · by_contra hc
      exact h (BankCheck.finding .alternateIndex i.val) ⟨rfl, i, rfl, hk, not_lt.1 hc⟩
    · exact h (BankCheck.finding .rampDuration i.val) ⟨rfl, i, rfl, hk, hd⟩
    · by_contra hc
      push Not at hc
      exact h (BankCheck.finding .vectorIndex a.val) ⟨rfl, a, rfl, hc⟩
    · by_contra hc
      exact h (BankCheck.finding .bandOrder j.val) ⟨rfl, i, j, rfl, hj, hi, hc⟩
    · by_contra hc
      exact h (BankCheck.finding .bandDescent j.val) ⟨rfl, i, j, rfl, hj, x, y, hx, hy, not_lt.1 hc⟩
  · rintro ⟨⟨h1, h2, h3⟩, hseg, hvec, hord, hdesc⟩ f hf
    rw [fails_iff, BankFail, findsIn_vector, findsIn_vector, findsIn_bands, findsIn_bands] at hf
    rcases hf with (⟨h, -⟩ | ⟨h, -⟩ | ⟨h, -⟩) | ⟨i, ⟨h, -⟩ | ⟨h, -⟩ | ⟨h, -⟩⟩ | ⟨i, h, -⟩ | ⟨i, j, hj, h, -⟩ | ⟨i, j, hj, h, -⟩
    · simp [h1] at h
    · exact h h2
    · exact h h3
    · exact absurd ((hseg i).1 h.1) h.2.not_gt
    · exact absurd ((hseg i).2.1 h.1) h.2.not_gt
    · exact (hseg i).2.2 h.1 h.2
    · exact (hvec i).elim h.1 fun hlt => absurd hlt h.2.not_gt
    · exact h.2 (hord i j hj h.1)
    · obtain ⟨x, y, hx, hy, hle⟩ := h
      exact absurd (hdesc i j x y hj hx hy) hle.not_gt

/-! ## The command -/

/-- A change of a bank goes by what the bank holds. -/
theorem modBank_congr {s : State} {b : BankId} {f g : Bank → Bank} (h : f (s.bank b) = g (s.bank b)) :
    s.modBank b f = s.modBank b g := congrArg (fun k => { s with banks := s.banks.set b k }) h

theorem bank_heard (s : State) (b : BankId) : s.heard.bank b = s.bank b := by rw [heard_eq]; rfl

/-- Settles O35. -/
theorem validateGivesTheFirstFinding : Obligations.ValidateGivesTheFirstFinding := by
  refine ⟨fun b => ⟨(finds_fails b).none_iff, (finds_fails b).some_iff⟩,
    fun b => (finds_fails b).none_iff.trans (fails_none_iff b), fun s tag bank b h hp hb => ?_⟩
  have hm := managedBy_validate tag (payload := [bank]) (by simp)
  have hbank := bank_heard s b
  refine ⟨fun hv => ?valid, fun f hv => ?finding⟩
  case valid =>
    have hmod : s.heard.modBank b Bank.validated = s.heard.modBank b (fun k => { k with state := .valid, finding := none }) :=
      modBank_congr (by simp [Bank.validated, hbank, hv])
    rw [← hmod]
    exact exec_managed_of_quiet hm h hp (a := answerDone (s.heard.modBank b Bank.validated))
      (by simp [State.doValidate, hb, hbank, hv]) (by simpa [answerDone] using h.2)
  case finding =>
    have hmod : s.heard.modBank b Bank.validated = s.heard.modBank b (fun k => { k with finding := some f }) :=
      modBank_congr (by simp [Bank.validated, hbank, hv])
    rw [← hmod]
    exact exec_managed_of_quiet hm h hp
      (a := { state := s.heard.modBank b Bank.validated, code := codeBankInvalid, data := findingData f })
      (by simp [State.doValidate, hb, hbank, hv]) (by simpa using h.2)

end Sys2Proof.Machine
end

