-- ==== Sys2Proof/Proofs/Admission.lean ====
section
/-! PROOFS. What admission refuses (R21, R22): O21. -/

namespace Sys2Proof.Machine

-- One proof at a time: proofs elaborated side by side ask for more threads than the check's memory limit leaves room for.
set_option Elab.async false

/-- R21, R22: what has a DRIVE with this payload for load `i` refused by admission. -/
def State.Withholds (s : State) (i : Fin 16) (payload : List Byte) : Prop :=
  (∀ l : Byte, payload ≠ [l]) ∨ (∃ l : Byte, payload = [l] ∧ 100 < l.toNat) ∨ (s.entry i).cls = .lock ∨
    ((s.entry i).cls.cavityClass = true ∧ ∃ c, (s.entry i).cavity = .of c ∧ (s.cav c).state ≠ .opened) ∨
    ((s.entry i).cls = .converter ∧ ∃ c, (s.cav c).state = .run) ∨
    ((s.entry i).cls.heating = true ∧ (s.stopAsserted = true ∨ s.air.stall = .stalled)) ∨
    (budgeted (s.entry i).cls = true ∧ (s.record i).grant = .waiting ∧ ∃ r, s.requestOf i = some r ∧ r.requester = .engine) ∨
    (budgeted (s.entry i).cls = true ∧ (s.admission.get (admissionIndex (s.entry i).cls)).action = .refuse)

theorem budgeted_of_cavityClass (k : LoadClass) : k.cavityClass = true → budgeted k = true := by cases k <;> decide

theorem budgeted_of_heating (k : LoadClass) : k.heating = true → budgeted k = true := by cases k <;> decide

theorem driveLevel_of_byte {f : Frame} (hk : f.kind = kindDrive) {l : Byte} (hp : f.payload = [l]) :
    driveLevel f = some l.toNat := by
  simp [driveLevel, hk, hp]

theorem driveLevel_of_no_byte {f : Frame} (hp : ∀ l : Byte, f.payload ≠ [l]) : driveLevel f = none := by
  unfold driveLevel
  split
  · split
    · rename_i l h
      exact absurd h (hp l)
    · rfl
  · rfl

/-- R21: refusals 3 to 6. -/
theorem admissionRefuses_of {s : State} {i : Fin 16}
    (h : ((s.entry i).cls.cavityClass = true ∧ ∃ c, (s.entry i).cavity = .of c ∧ (s.cav c).state ≠ .opened) ∨
      ((s.entry i).cls = .converter ∧ ∃ c, (s.cav c).state = .run) ∨
      ((s.entry i).cls.heating = true ∧ (s.stopAsserted = true ∨ s.air.stall = .stalled)) ∨
      ((s.record i).grant = .waiting ∧ ∃ r, s.requestOf i = some r ∧ r.requester = .engine)) :
    s.admissionRefuses i = true := by
  unfold State.admissionRefuses
  simp only [Bool.or_eq_true, Bool.and_eq_true, beq_iff_eq, Bool.not_eq_true']
  rcases h with ⟨hc, c, hcav, hst⟩ | ⟨hc, c, hst⟩ | ⟨hc, hs⟩ | ⟨hg, r, hr, he⟩
  · exact .inl (.inl (.inl ⟨hc, by simp [State.ownCavityOpen, hcav, hst]⟩))
  · refine .inl (.inl (.inr ⟨hc, ?_⟩))
    cases c <;> simp [State.anyCavIn, hst]
  · exact .inl (.inr ⟨hc, hs⟩)
  · exact .inr ⟨hg, by simp [State.engineWaits, hr, he, Requester.isEngine]⟩

/-- R22: admission of a DRIVE for a budgeted load. -/
theorem admitDrive_of_budgeted {s : State} {i : Fin 16} {f : Frame} {l : Nat} (hb : budgeted (s.entry i).cls = true)
    (hl : driveLevel f = some l) (h100 : l ≤ 100) :
    s.admitDrive i f =
      if s.admissionRefuses i then s.refuseFrame f failWithheld
      else ((admissionLevel (s.admission.get (admissionIndex (s.entry i).cls)) l).map (fun l =>
        s.openByGrant i { f with payload := [byteOf (kindLevel (s.entry i) l)] } (kindLevel (s.entry i) l))).getD
          (s.refuseFrame f failWithheld) := by
  unfold State.admitDrive
  rw [hl]
  dsimp only
  rw [if_neg h100.not_gt]
  cases hc : (s.entry i).cls
  case lock | blower | unused => rw [hc] at hb; cases hb
  all_goals
    dsimp only
    split
    · rfl
    · cases admissionLevel _ l <;> rfl

theorem admitDrive_of_withholds {s : State} {i : Fin 16} {f : Frame} (hk : f.kind = kindDrive)
    (h : s.Withholds i f.payload) : s.admitDrive i f = s.refuseFrame f failWithheld := by
  by_cases hone : ∀ l : Byte, f.payload ≠ [l]
  · simp [State.admitDrive, driveLevel_of_no_byte hone]
  · push Not at hone
    obtain ⟨l, hl⟩ := hone
    have hlev := driveLevel_of_byte hk hl
    by_cases h100 : 100 < l.toNat
    · simp [State.admitDrive, hlev, h100]
    · by_cases hlock : (s.entry i).cls = .lock
      · simp [State.admitDrive, hlev, h100, hlock]
      · have hdrive (hb : budgeted (s.entry i).cls = true) := admitDrive_of_budgeted hb hlev (not_lt.1 h100)
        rcases h with h | ⟨l', h, h'⟩ | h | ⟨hc, h⟩ | ⟨hc, h⟩ | ⟨hc, h⟩ | ⟨hb, h⟩ | ⟨hb, h⟩
        · exact absurd hl (h l)
        · obtain rfl : l = l' := by simpa [hl] using h
          exact absurd h' h100
        · exact absurd h hlock
        · rw [hdrive (budgeted_of_cavityClass _ hc), if_pos (admissionRefuses_of (.inl ⟨hc, h⟩))]
        · rw [hdrive (by rw [hc]; rfl), if_pos (admissionRefuses_of (.inr (.inl ⟨hc, h⟩)))]
        · rw [hdrive (budgeted_of_heating _ hc), if_pos (admissionRefuses_of (.inr (.inr (.inl ⟨hc, h⟩))))]
        · rw [hdrive hb, if_pos (admissionRefuses_of (.inr (.inr (.inr h))))]
        · rw [hdrive hb]
          simp [admissionLevel, h]

/-- A DRIVE for a load that has a place, an entry and its TAG free comes to admission. -/
theorem effect_drive {s : State} {dest tag : Byte} {payload : List Byte} {i : Fin 16} (hlen : payload.length ≤ 40)
    (hd : isNodeAddress dest = true) (hp : s.placeTest = true) (hn : s.relay.length < 8)
    (ht : ∀ e ∈ s.relay, e.frame.tag ≠ tag) (hl : s.loadAt dest = some i) :
    effect (.controllerNodeFrame dest 0x10 tag payload) s =
      s.heard.admitDrive i { dest := dest, src := 121, kind := 0x10, tag := tag, payload := payload } := by
  refine (effect_controllerNodeFrame s tag hlen 0x10 hd).trans ?_
  refine nodeFrame_of_target ((placeTest_heard s).trans hp) (by rw [relay_heard]; exact hn) (by rw [relay_heard]; exact ht) ?_
  have hload : s.heard.loadAt dest = some i := by rw [heard_eq]; exact hl
  exact (if_pos rfl).trans hload

/-- Settles O21. -/
theorem admissionRefusesWithheld : Obligations.AdmissionRefusesWithheld := by
  intro s dest tag payload i h hlen hd hp hn ht hl hw
  have hwh : s.heard.Withholds i payload := by rw [heard_eq]; exact hw
  exact exec_of_quiet nofun nofun h
    ((effect_drive hlen hd hp hn ht hl).trans (admitDrive_of_withholds (f := ⟨dest, 121, 0x10, tag, payload⟩) rfl hwh))
    (by simp [h.2])

end Sys2Proof.Machine
end

