-- ==== Sys2Proof/Proofs/Bus.lean ====
section
/-! PROOFS. The load bus takes frames and waits for replies, and the poller (R31 to R36, R50, R65): O25, O27, O28. -/

namespace Sys2Proof.Machine

-- One proof at a time: proofs elaborated side by side ask for more threads than the check's memory limit leaves room for.
set_option Elab.async false

/-- A command whose effect delivers no report answers that effect, with notices behind what waits upstream. -/
theorem exec_adds_notices {c : Instr} {s u : State} (hp : c ≠ .powerOnReset) (hh : c ≠ .resetInputHeld) (h : s.Ready)
    (he : effect c s = u) (hq : u.events = []) : ∃ (fs : List Frame) (n : Notices) (b : Bool),
    exec c s = .next { u with outQueue := u.outQueue ++ fs, notices := n, faultOut := b } := by
  obtain ⟨fs, n, hc, -⟩ := conclude_adds_notices u
  exact ⟨fs, n, _, (exec_of_quiet hp hh h he hq).trans (congrArg _ hc)⟩

theorem record_modRecord_self (s : State) (i : Fin 16) (f : LoadRecord → LoadRecord) :
    (s.modRecord i f).record i = f (s.record i) := (record_modRecord s i i f).trans (if_pos rfl)

theorem record_of_loads {s t : State} (h : t.loads = s.loads) (i : Fin 16) : t.record i = s.record i := by
  unfold State.record
  rw [h]

theorem record_modRecord_of_ne (s : State) {i j : Fin 16} (hj : j ≠ i) (f : LoadRecord → LoadRecord) :
    (s.modRecord i f).record j = s.record j := (record_modRecord s i j f).trans (if_neg hj)

/-! ## Taking a frame (R31) -/

theorem takeFrame_of_urgent {s : State} {q : QItem} {rest : List QItem} (hx : s.exchange = none) (hu : s.urgent = q :: rest) :
    s.takeFrame = ({ s.advance s.busTx.freeAt with urgent := rest }).sendItem q true := by simp [State.takeFrame, hx, hu]

theorem takeFrame_of_normal {s : State} {q : QItem} {rest : List QItem} (hx : s.exchange = none) (hu : s.urgent = [])
    (hn : s.normal = q :: rest) :
    s.takeFrame = ({ s.advance s.busTx.freeAt with normal := rest }).sendItem q false := by simp [State.takeFrame, hx, hu, hn]

theorem takeFrame_of_nothing {s : State} (h : s.exchange.isSome = true ∨ (s.urgent = [] ∧ s.normal = [])) : s.takeFrame = s := by
  unfold State.takeFrame
  cases hx : s.exchange with
  | some x => rfl
  | none =>
    obtain ⟨hu, hn⟩ := h.resolve_left (by simp [hx])
    simp [hu, hn]

theorem sendItem_relayed {s : State} {tag : Byte} {e : RelayEntry} (he : s.relayEntry tag = some e) (b : Bool) :
    s.sendItem (.relayed tag) b = (s.modRelay tag (fun e =>
      { e with stage := .inFlight, stageSince := s.now, hold := none, carriesGrant := false })).beginExchange e.frame
        (.relay tag) := by simp [State.sendItem, he]

theorem tag_of_relayEntry {s : State} {tag : Byte} {e : RelayEntry} (h : s.relayEntry tag = some e) : e.frame.tag = tag := by
  simpa using List.find?_some h

/-- The entry of a TAG after each entry of that TAG has changed, its frame kept. -/
theorem relayEntry_modRelay {s : State} {tag : Byte} {e : RelayEntry} (h : s.relayEntry tag = some e)
    (f : RelayEntry → RelayEntry) (hf : ∀ e, (f e).frame = e.frame) : (s.modRelay tag f).relayEntry tag = some (f e) := by
  have htag : ∀ x : RelayEntry, (if x.frame.tag = tag then f x else x).frame.tag = x.frame.tag := fun x => by
    split
    · rw [hf]
    · rfl
  unfold State.relayEntry State.modRelay at *
  simp only [List.find?_map, Function.comp_def, htag, h, Option.map_some, if_pos (tag_of_relayEntry h)]

/-- R32: the reply window of a frame that is being sent opens at its end. -/
theorem openReplyWindow_of_sending {s : State} {x : Exchange} {e : Time} (hx : s.exchange = some x) (hp : x.phase = .sending e) :
    s.openReplyWindow = { s with now := max s.now e, exchange := some { x with phase := .window (e + x.windowLength) } } := by
  simp [State.openReplyWindow, hx, hp, State.advance]

/-- Settles O25: each head of the queues is a branch of the taking. -/
theorem busTakesThenTheReplyWindowOpens : Obligations.BusTakesThenTheReplyWindowOpens := by
  refine ⟨fun s i level again urgent rest h hx hq => ?drive, fun s tag rest e h hx hu hn he => ?relayed,
    fun s n rest h hx hu hn => ?ask, fun s h hn => ?nothing, fun s x e h hx hp => ?window⟩
  case drive =>
    have he : effect .busTakeFrame s = ({ s.advance s.busTx.freeAt with
        urgent := if urgent then rest else [], normal := if urgent then s.normal else rest } : State).sendItem
          (.drive i level again) urgent := by
      rcases hq with ⟨rfl, hu⟩ | ⟨rfl, hu, hn⟩
      · exact takeFrame_of_urgent hx hu
      · refine (takeFrame_of_normal hx hu hn).trans ?_
        simp only [Bool.false_eq_true, if_false, ← hu]
        rfl
    obtain ⟨fs, n, b, ht⟩ := exec_adds_notices (c := .busTakeFrame) nofun nofun h he (by simp [State.sendItem, h.2])
    let f : LoadRecord → LoadRecord := fun r => { r with attempt := if again then .again else .first }
    have hsame : s.SameTables (effect .busTakeFrame s) := sameTables_takeFrame s
    refine ⟨_, ht, rfl, rfl, rfl, rfl, rfl, rfl, ?_, fun j hj => ?_, rfl, rfl, rfl, (he ▸ hsame).trans .of_same⟩
    · exact (record_of_loads (s := s.modRecord i f) rfl i).trans (record_modRecord_self s i f)
    · exact (record_of_loads (s := s.modRecord i f) rfl j).trans (record_modRecord_of_ne s hj f)
  case relayed =>
    have hadv : ({ s.advance s.busTx.freeAt with normal := rest } : State).relayEntry tag = some e := he
    have hs := (takeFrame_of_normal hx hu hn).trans (sendItem_relayed hadv false)
    obtain ⟨fs, n, b, ht⟩ := exec_adds_notices (c := .busTakeFrame) nofun nofun h hs (by simp [h.2])
    refine ⟨_, ht, rfl, hu, rfl, rfl, rfl, ⟨_, rfl, rfl, rfl, rfl, rfl⟩, ?_, rfl, rfl, rfl, ?_⟩
    · exact relayEntry_modRelay hadv _ fun _ => rfl
    · exact (hs ▸ sameTables_takeFrame s).trans .of_same
  case ask =>
    have hs := takeFrame_of_normal hx hu hn
    obtain ⟨fs, k, b, ht⟩ := exec_adds_notices (c := .busTakeFrame) nofun nofun h hs (by simp [State.sendItem, h.2])
    refine ⟨_, _, ht, rfl, rfl, rfl, rfl, rfl, rfl, rfl, rfl, rfl, ?_⟩
    exact (hs ▸ sameTables_takeFrame s).trans .of_same
  case nothing => exact exec_of_quiet nofun nofun h (takeFrame_of_nothing hn) h.2
  case window => exact exec_of_quiet nofun nofun h (openReplyWindow_of_sending hx hp) h.2

/-! ## The end of the reply window (R33) -/

theorem expireWindow_of_window {s : State} {x : Exchange} {w : Time} (hx : s.exchange = some x) (hp : x.phase = .window w) :
    s.expireWindow = ({ s with now := max s.now w, exchange := none } : State).handExpiry x.party := by
  simp [State.expireWindow, hx, hp, State.advance]

/-- R26: what closing an open entry with a RELAY-FAIL does. -/
theorem closeFail_of_entry {s : State} {tag : Byte} {e : RelayEntry} (he : s.relayEntry tag = some e) (reason : Byte) :
    s.closeFail tag reason = { s with relay := s.relay.filter (fun r => r.frame.tag != tag),
                                      outQueue := s.outQueue ++ [relayFail tag e.frame.dest reason] } := by
  unfold State.closeFail State.closeRelay
  rw [he]
  rfl

/-- R50: the repeat of a DRIVE with none newer queued. -/
theorem repeatDrive_of_none {s : State} {i : Fin 16} (level : Nat) (urgent : Bool) (hu : s.urgent.any (isDriveFor i) = false)
    (hn : s.normal.any (isDriveFor i) = false) :
    s.repeatDrive i level urgent = { s.modRecord i (fun r => { r with attempt := .again }) with
      urgent := if urgent then .drive i level true :: s.urgent else s.urgent
      normal := if urgent then s.normal else .drive i level true :: s.normal } := by
  unfold State.repeatDrive
  rw [hu, hn]
  cases urgent <;> rfl

/-- R50: judgment of a DRIVE whose window has expired. -/
theorem judgeDrive_noReply (s : State) (i : Fin 16) (level : Nat) (urgent : Bool) : s.judgeDrive i level urgent .noReply =
    if (s.record i).attempt = .first then s.repeatDrive i level urgent else s.secondFailure i level .unresponsive := rfl

@[simp] theorem events_emitIf (s : State) (b : Bool) (e : Event) :
    (s.emitIf b e).events = s.events ++ if b then [e] else [] := by cases b <;> simp [State.emitIf]

@[simp] theorem exchange_emitIf (s : State) (b : Bool) (e : Event) : (s.emitIf b e).exchange = s.exchange := by
  cases b <;> rfl

@[simp] theorem record_emitIf (s : State) (b : Bool) (e : Event) (i : Fin 16) : (s.emitIf b e).record i = s.record i := by
  cases b <;> rfl

/-- R51: the second failure leaves the fault on the load, and reports the fault where there was none and an off that failed. -/
theorem secondFailure_facts (s : State) (i : Fin 16) (sent : Nat) (f : LoadFault) :
    let u := s.secondFailure i sent f
    u.exchange = s.exchange ∧ u.record i = { s.record i with fault := f, attempt := .noAttempt } ∧
      (∀ j, j ≠ i → u.record j = s.record j) ∧ ((s.record i).fault = .noFault → s.faultReport i ∈ u.events) ∧
      (sent = 0 → (s.record i).confirmed ≠ some 0 → Event.offFailed i ∈ u.events) := by
  intro u
  refine ⟨by simp [u, State.secondFailure], by simp [u, State.secondFailure], fun j hj => ?_,
    fun hf => ?_, fun h0 hc => ?_⟩
  · simp [u, State.secondFailure, record_modRecord_of_ne _ hj]
  · simp [u, State.secondFailure, State.faultReport, hf]
  · simp [u, State.secondFailure, h0, hc]

/-- Settles O27: each party is a branch of the handing over. -/
theorem expiredWindowGoesToItsParty : Obligations.ExpiredWindowGoesToItsParty := by
  intro s x w h hx hp
  have he : effect .replyWindowExpired s = ({ s with now := max s.now w, exchange := none } : State).handExpiry x.party :=
    expireWindow_of_window hx hp
  refine ⟨fun tag e hparty hentry => ?relay, fun i level urgent hparty ha hu hn => ?first,
    fun i level urgent hparty ha => ?second, fun hparty => ?poller⟩
  all_goals rw [hparty] at he
  case relay =>
    have hf : ({ s with now := max s.now w, exchange := none } : State).relayEntry tag = some e := hentry
    exact exec_of_quiet nofun nofun h (he.trans (closeFail_of_entry hf _)) h.2
  case first =>
    have hr := (he.trans (judgeDrive_noReply ..)).trans ((if_pos ha).trans (repeatDrive_of_none level urgent hu hn))
    obtain ⟨fs, n, b, ht⟩ := exec_adds_notices (c := .replyWindowExpired) nofun nofun h hr h.2
    let f : LoadRecord → LoadRecord := fun r => { r with attempt := .again }
    refine ⟨_, ht, rfl, rfl, rfl, (record_of_loads (s := s.modRecord i f) rfl i).trans (record_modRecord_self s i f),
      fun j hj => (record_of_loads (s := s.modRecord i f) rfl j).trans (record_modRecord_of_ne s hj f), ?_⟩
    have hs : s.SameTables (effect .replyWindowExpired s) := sameTables_expireWindow s
    rw [hr] at hs
    exact hs.trans .of_same
  case second =>
    have hr := (he.trans (judgeDrive_noReply ..)).trans (if_neg (by
      have : (s.record i).attempt ≠ .first := by rw [ha]; decide
      exact this))
    have hf := secondFailure_facts { s with now := max s.now w, exchange := none } i level .unresponsive
    obtain ⟨hex, hself, hother, hfault, hoff⟩ := hf
    exact ⟨_, answers_of_effect nofun nofun h hr, hex, hself, hother, hfault, hoff⟩
  case poller => exact exec_of_quiet nofun nofun h he h.2

/-! ## The poller (R65) -/

/-- R65: the ASKs that a poller run adds for these bindings. -/
def State.polls (s : State) (ns : List (Fin 8)) : List QItem :=
  (ns.filter (fun n => (s.binding n).use != .unused && (s.binding n).poll && !s.normal.contains (.ask n))).map .ask

theorem pollBinding_eq (s : State) (n : Fin 8) : s.pollBinding n = { s with normal := s.normal ++ s.polls [n] } := by
  unfold State.pollBinding State.polls
  rw [List.filter_singleton]
  split <;> rename_i h
  · rw [h]; rfl
  · rw [Bool.not_eq_true] at h
    rw [h]
    simp

/-- A binding's turn leaves the turns of the others as they are. -/
theorem polls_append (s : State) (q : List QItem) {ns : List (Fin 8)} (h : ∀ n ∈ ns, QItem.ask n ∉ q) :
    State.polls { s with normal := s.normal ++ q } ns = s.polls ns := by
  unfold State.polls
  congr 1
  refine List.filter_congr fun n hn => ?_
  have hb (m : Fin 8) : State.binding { s with normal := s.normal ++ q } m = s.binding m := rfl
  simp [hb, h n hn]

theorem foldl_pollBinding (ns : List (Fin 8)) (hd : ns.Nodup) : ∀ s : State,
    ns.foldl State.pollBinding s = { s with normal := s.normal ++ s.polls ns } := by
  induction ns with
  | nil => intro s; simp [State.polls]
  | cons n ns ih =>
    intro s
    obtain ⟨hn, hd⟩ := List.nodup_cons.1 hd
    have hnew : ∀ m ∈ ns, QItem.ask m ∉ s.polls [n] := by
      intro m hm hmem
      obtain ⟨k, hk, he⟩ := List.mem_map.1 hmem
      obtain rfl : k = n := by simpa using (List.mem_filter.1 hk).1
      obtain rfl := QItem.ask.inj he
      exact hn hm
    have happ : s.polls (n :: ns) = s.polls [n] ++ s.polls ns := by
      unfold State.polls
      rw [← List.map_append, ← List.filter_append, List.singleton_append]
    rw [List.foldl_cons, pollBinding_eq, ih hd, polls_append s _ hnew, happ, List.append_assoc]

theorem runPoller_eq (s : State) : s.runPoller = { s with
    normal := s.normal ++ s.polls (indexes 8), pollDue := s.now + millis s.limits.poll } := by
  have h : (indexes 8).foldl State.pollBinding s = _ := foldl_pollBinding (indexes 8) (List.nodup_finRange 8) s
  unfold State.runPoller
  rw [h]

theorem mem_polls {s : State} {q : QItem} : q ∈ s.polls (indexes 8) ↔
    ∃ n, q = .ask n ∧ (s.binding n).use ≠ .unused ∧ (s.binding n).poll = true ∧ .ask n ∉ s.normal := by
  unfold State.polls
  rw [List.mem_map]
  refine exists_congr fun n => ?_
  rw [List.mem_filter]
  simp only [Bool.and_eq_true, bne_iff_ne, Bool.not_eq_true', List.contains_eq_mem, decide_eq_false_iff_not, and_assoc]
  exact ⟨fun ⟨_, hu, hp, hn, he⟩ => ⟨he.symm, hu, hp, hn⟩, fun ⟨he, hu, hp, hn⟩ => ⟨List.mem_finRange n, hu, hp, hn, he.symm⟩⟩

theorem count_polls_le (s : State) (n : Fin 8) : (s.polls (indexes 8)).count (.ask n) ≤ 1 := by
  refine List.nodup_iff_count_le_one.1 ?_ _
  exact ((List.nodup_finRange 8).filter _).map fun _ _ => QItem.ask.inj

/-- Settles O28. -/
theorem pollerQueuesOneAskForEachBinding : Obligations.PollerQueuesOneAskForEachBinding := by
  intro s h
  have he : effect .pollerRun s = _ := runPoller_eq (s.advance s.pollDue)
  obtain ⟨fs, k, b, ht⟩ := exec_adds_notices (c := .pollerRun) nofun nofun h he h.2
  have hb (n : Fin 8) : (s.advance s.pollDue).binding n = s.binding n := rfl
  refine ⟨_, ht, rfl, rfl, ⟨_, rfl⟩, fun n hu hp => ?_, fun n hn => ?_, fun q hq => ?_, rfl, rfl, rfl, rfl, .of_same⟩
  · by_cases hin : QItem.ask n ∈ s.normal
    · exact List.mem_append_left _ hin
    · exact List.mem_append_right _ (mem_polls.2 ⟨n, rfl, hu, hp, hin⟩)
  · show (s.normal ++ _).count _ ≤ 1
    rw [List.count_append]
    by_cases hin : QItem.ask n ∈ s.normal
    · have h0 : ((s.advance s.pollDue).polls (indexes 8)).count (.ask n) = 0 := by
        refine List.count_eq_zero.2 fun hm => ?_
        obtain ⟨m, he, -, -, hnot⟩ := mem_polls.1 hm
        obtain rfl := QItem.ask.inj he
        exact hnot hin
      omega
    · have := List.count_eq_zero.2 hin
      have := count_polls_le (s.advance s.pollDue) n
      omega
  · rcases List.mem_append.1 hq with hq | hq
    · exact .inl hq
    · obtain ⟨n, rfl, hu, hp, -⟩ := mem_polls.1 hq
      exact .inr ⟨n, rfl, hu, hp⟩

end Sys2Proof.Machine
end

