-- ==== Sys2Proof/Proofs/Timers.lean ====
section
/-! PROOFS. The timers of the Grant Queue's head and of a channel (R55, R56, R69, R71, R73): O57, O58. -/

namespace Sys2Proof.Machine

-- One proof at a time: proofs elaborated side by side ask for more threads than the check's memory limit leaves room for.
set_option Elab.async false

/-- Reports acted on and notices served leave of an effect what the blocks keep, and the channels. -/
theorem exec_keeps {c : Instr} {s u : State} (hp : c ≠ .powerOnReset) (hh : c ≠ .resetInputHeld) (h : s.Ready)
    (he : effect c s = u) : ∃ (v : State) (fs : List Frame) (n : Notices) (b : Bool), v = u.settle ∧ Kept u v ∧ v.chans = u.chans ∧
      exec c s = .next { v with outQueue := v.outQueue ++ fs, notices := n, faultOut := b } := by
  obtain ⟨fs, n, hc, -⟩ := conclude_adds_notices u.settle
  exact ⟨u.settle, fs, n, _, rfl, kept_of_settle u, chans_settle u, (answers_of_effect hp hh h he).trans (congrArg _ hc)⟩

/-- R69: an expiry command of a running timer. -/
theorem expire_of_running {s : State} {t : Timer} {e : Time} (ht : t = some e) (f : State → State) :
    s.expire t f = f (s.advance e) := by rw [ht]; rfl

/-! ## The head of the Grant Queue (R55, R56) -/

/-- R55: a relayed request that is alone in the queue, sound and granted. -/
theorem considerHead_of_granted {s : State} {r : GrantRequest} {tag : Byte} (hq : s.grantQueue = [r])
    (hr : r.requester = .relay tag) (hf : (s.record r.load).fault = .noFault) (hfit : s.fits r.load = true)
    (hoff : s.offCondition r.load = true) :
    s.considerHead = { ({ s with grantQueue := [] } : State).grantTo r.load (.relay tag) r.level with minOff := none } := by
  simp [State.considerHead, hq, considerUpTo, hf, hfit, hoff, hr]

/-- R24, R55: a request granted to a relay entry is HELD, commanded at its level by the controller. -/
theorem record_grantTo_relay (s : State) (i : Fin 16) (tag : Byte) (level : Nat) (j : Fin 16) :
    (s.grantTo i (.relay tag) level).record j =
      if j = i then { s.record i with grant := .held, commanded := some level, owner := .controller } else s.record j := by
  let s1 := s.setGrant i .held
  have h : (s.grantTo i (.relay tag) level).record j =
      (s1.modRecord i (fun r => { r with commanded := some level, owner := .controller })).record j := record_of_loads rfl j
  rw [h]
  by_cases hj : j = i <;> simp [s1, State.setGrant, hj]

/-- Settles O57. -/
theorem minimumOffTimeGrantsTheHead : Obligations.MinimumOffTimeGrantsTheHead := by
  refine ⟨fun s e h hm => ?_, fun s e r tag h hm hq hr hf hfit hoff => ?_⟩
  · exact answers_of_effect nofun nofun h (expire_of_running hm _)
  · have he : effect .minOffTimerExpired s = (s.advance e).considerHead := expire_of_running hm _
    have hg := he.trans (considerHead_of_granted (s := s.advance e) hq hr hf hfit hoff)
    obtain ⟨fs, n, b, ht⟩ := exec_adds_notices (c := .minOffTimerExpired) nofun nofun h hg h.2
    have hrec (j : Fin 16) := record_grantTo_relay ({ s.advance e with grantQueue := [] }) r.load tag r.level j
    refine ⟨_, ht, rfl, rfl, rfl, ?_, fun j hj => ?_, rfl, rfl, fun x hx htag => ?_, rfl, rfl, ?_⟩
    · exact (hrec _).trans (if_pos rfl)
    · exact (hrec j).trans (if_neg hj)
    · obtain ⟨y, -, hy⟩ := List.mem_map.1 hx
      by_cases hyt : y.frame.tag = tag
      · rw [if_pos hyt] at hy
        subst hy
        exact ⟨rfl, rfl, rfl⟩
      · rw [if_neg hyt] at hy
        exact absurd (hy ▸ htag) hyt
    · have hs : s.SameTables (effect .minOffTimerExpired s) :=
        he ▸ State.SameTables.trans .of_same (.of_kept (kept_considerHead (Kept.refl (s.advance e))))
      exact (hg ▸ hs).trans .of_same

/-! ## A channel gone STALE (R69, R71, R73) -/

@[simp] theorem watch_putWatch (s : State) (w v : WatchId) (x : Watch) :
    (s.putWatch w x).watch v = if v = w then x else s.watch v := Laws.watches_get_put s.watches w v x

theorem watch_loseWatch (s : State) (w v : WatchId) : (s.loseWatch w).watch v =
    if v = w ∧ (s.watch v).state = .met then { s.watch v with state := .notMet } else s.watch v := by
  unfold State.loseWatch
  by_cases hv : v = w
  · subst hv
    split <;> rename_i h <;> simp [h]
  · split <;> simp [hv]

/-- R73: the MET watches among those named become NOT-MET. -/
theorem watch_foldl_loseWatch (l : List WatchId) (v : WatchId) : ∀ s : State, (l.foldl State.loseWatch s).watch v =
    if v ∈ l ∧ (s.watch v).state = .met then { s.watch v with state := .notMet } else s.watch v := by
  induction l with
  | nil => simp
  | cons w l ih =>
    intro s
    rw [List.foldl_cons, ih, watch_loseWatch]
    by_cases hv : v = w
    · subst hv
      by_cases hm : (s.watch v).state = .met <;> simp [hm]
    · simp [hv]

theorem events_foldl_loseWatch (l : List WatchId) : ∀ s : State, (l.foldl State.loseWatch s).events = s.events := by
  induction l with
  | nil => exact fun _ => rfl
  | cons w l ih =>
    intro s
    rw [List.foldl_cons, ih]
    unfold State.loseWatch
    split <;> rfl

/-- R71, R73: a use that leaves LIVE loses its MET watches, and is reported. -/
theorem reportChange_of_live (s : State) (u : Use) {entered : ChanState} (h : entered ≠ .live) :
    s.reportChange u .live entered = ((watchesOn u).foldl State.loseWatch s).emit (.chanState u .live entered) := by
  unfold State.reportChange State.announce
  rw [if_neg h.symm, if_pos rfl]

/-- R71: a use that was not LIVE keeps its watches. -/
theorem watches_reportChange_of_not_live (s : State) (u : Use) {left : ChanState} (h : left ≠ .live) (entered : ChanState) :
    (s.reportChange u left entered).watches = s.watches := by
  unfold State.reportChange State.announce
  split
  · rfl
  · rfl

/-- Settles O58. -/
theorem staleChannelLosesItsWatches : Obligations.StaleChannelLosesItsWatches := by
  intro s n e h hst
  let v := (s.advance e).modChan n (fun r => { r with state := .stale, goodRun := 0, stale := none })
  have he : effect (.channelStale n) s = v.reportChange (s.binding n).use (s.chanRecord n).state .stale :=
    expire_of_running (s := s) hst (fun s => s.goStale n)
  have hk : Kept v (effect (.channelStale n) s) := he ▸ kept_reportChange (Kept.refl v) _ _ _
  obtain ⟨t, fs, k, b, -, ht, hch, hex⟩ := exec_keeps (c := .channelStale n) nofun nofun h rfl
  have hchans : (effect (.channelStale n) s).chans = v.chans := by
    rw [he]
    exact (apart_reportChange (Apart.refl .zero .zero v) _ _ _).chans
  have hrec (m : Fin 8) : t.chanRecord m = v.chanRecord m := by unfold State.chanRecord; rw [hch, hchans]
  have hsame := sameTables_effect (c := .channelStale n) rfl rfl s
  refine ⟨_, _, answers_effect (c := .channelStale n) nofun nofun h, hex, ht.now.trans hk.now, (hrec n).trans (by simp [v]),
    fun m hm => (hrec m).trans (by simp [v, hm]), fun hl => ?_, fun hl => ?_, (hsame.trans (.of_kept ht)).trans .of_same⟩
  · rw [he, hl, reportChange_of_live _ _ (by decide)]
    refine ⟨?_, fun w => (watch_foldl_loseWatch _ w v).trans ?_⟩
    · rw [events_emit, events_foldl_loseWatch]
      simp [v, h.2]
    · rfl
  · rw [he, watches_reportChange_of_not_live _ _ hl]
    rfl

end Sys2Proof.Machine
end

