-- ==== Sys2Proof/Proofs/Contexts.lean ====
section
/-! PROOFS. What each act of the Cycle Engine leaves in the context of its cavity, item by item (R105 to R124). -/

namespace Sys2Proof.Machine

-- One proof at a time: proofs elaborated side by side ask for more threads than the check's memory limit leaves room for.
set_option Elab.async false

/-! ## Functions of the tables and the channels -/

theorem channel_of_chans {s t : State} (h : t.chans = s.chans) (u : Use) : t.channel u = s.channel u := by
  unfold State.channel State.bindingOfUse State.chanRecord State.binding
  rw [h]

theorem probeTemp_of_chans {s t : State} (h : t.chans = s.chans) (c : Cav) : t.probeTemp c = s.probeTemp c := by
  unfold State.probeTemp
  rw [channel_of_chans h]

/-- R89: the bank limits in use are of the bank a context names. -/
theorem limitsOfCav_of_kept {s t : State} (h : Kept s t) {c : Cav} (hb : (t.cav c).bank = (s.cav c).bank) :
    t.limitsOfCav c = s.limitsOfCav c := by
  have hl (b : BankId) : (t.bank b).limits = (s.bank b).limits := congrArg (fun x => x.2.2.2.1) (h.content b)
  simp only [State.limitsOfCav, hb, hl]

/-! ## The converter demand (R167) -/

/-- A context's converter demand and the combined one as a posting sets them. -/
def State.converterPosted (s : State) (c : Cav) (d : ConvField) : State :=
  (s.modCav c (fun k => { k with converter := d })).modAir (fun a => { a with
    convCav := a.convCav.set c d, convDemand := d.wants || (s.air.convCav.get (otherCav c)).wants })

theorem postConverter_eq (s : State) (c : Cav) (d : ConvField) : s.postConverter c d =
    if d.wants then (s.converterPosted c d).converterOn
    else if (s.air.convCav.get (otherCav c)).wants = false ∧ s.air.convDemand = true then (s.converterPosted c d).converterOff
    else s.converterPosted c d := by
  unfold State.postConverter State.converterPosted State.modAir
  cases c
  · cases hd : d.wants <;> cases ho : s.air.convCav.one.wants <;> simp [hd, ho, Two.set, Two.get, otherCav]
  · cases hd : d.wants <;> cases hz : s.air.convCav.zero.wants <;> simp [hd, hz, Two.set, Two.get, otherCav]

/-! ## Duty windows (R58, R61) -/

/-- A window as its end leaves it, its heaters still to be switched off. -/
def State.windowEnded (s : State) (c : Cav) : State :=
  s.modWindow c (fun w => { w with running := false, offMark := { top := none, bottom := none, rear := none } })

theorem loadAct_endWindow (s : State) (c : Cav) : LoadAct (s.windowEnded c) (s.endWindow c) := (LoadAct.refl _).heatersOff c

/-- The duties of a window as they stand after their treatment (R59). -/
def State.treatedFor (s : State) (c : Cav) (target : Int) : PerPos Nat :=
  let d := s.dutiesFor c target
  { top := treatDuty s.limits.window d.top, bottom := treatDuty s.limits.window d.bottom,
    rear := treatDuty s.limits.window d.rear }

/-- A window as its start leaves it, its heaters still to be switched. -/
def State.windowStarted (s : State) (c : Cav) (target : Int) : State :=
  let d := s.treatedFor c target
  s.modWindow c (fun _ =>
    { running := true, start := some s.now, period := some s.limits.window, duty := some d,
      offMark := { top := offMarkOf s.now s.limits.window d.top, bottom := offMarkOf s.now s.limits.window d.bottom,
                   rear := offMarkOf s.now s.limits.window d.rear } })

theorem startWindow_eq (s : State) (c : Cav) (target : Int) :
    s.startWindow c target = positions.foldl (State.switchHeater c (s.treatedFor c target)) (s.windowStarted c target) := rfl

theorem loadAct_startWindow (s : State) (c : Cav) (target : Int) :
    LoadAct (s.windowStarted c target) (s.startWindow c target) :=
  LoadAct.foldl _ (fun _ _ h => h.onLoad _ _ fun _ => h.engineDrive _ _) _ (LoadAct.refl _)

theorem cav_of_loadAct {s t : State} (h : LoadAct s t) (c : Cav) : t.cav c = s.cav c := by
  unfold State.cav
  rw [h.cavs]

section
variable (s : State) (c x : Cav)

/-! ## Acts of other blocks -/

@[simp] theorem cav_setWatch (w : WatchId) (side : Side) (level : Int) : (s.setWatch w side level).cav x = s.cav x :=
  cav_of_apart (fun _ _ => apart_setWatch (Apart.refl ..) ..) x

@[simp] theorem cav_clearWatch (w : WatchId) : (s.clearWatch w).cav x = s.cav x :=
  cav_of_apart (fun _ _ => apart_clearWatch (Apart.refl ..) ..) x

@[simp] theorem cav_heatersOff : (s.heatersOff c).cav x = s.cav x := cav_of_apart (fun _ _ => apart_heatersOff (Apart.refl ..) ..) x

@[simp] theorem cav_driveFan (level : Nat) : (s.driveFan c level).cav x = s.cav x :=
  cav_of_apart (fun _ _ => apart_driveFan (Apart.refl ..) ..) x

@[simp] theorem cav_converterOn : s.converterOn.cav x = s.cav x := cav_of_apart (fun _ _ => apart_converterOn (Apart.refl ..)) x

@[simp] theorem cav_converterOff : s.converterOff.cav x = s.cav x := cav_of_apart (fun _ _ => apart_converterOff (Apart.refl ..)) x

@[simp] theorem cav_followDemand (before : BlowLevel) : (s.followDemand before).cav x = s.cav x :=
  cav_of_apart (fun _ _ => apart_followDemand (Apart.refl ..) _) x

@[simp] theorem cav_engineOffs (is : List (Fin 16)) : (s.engineOffs is).cav x = s.cav x :=
  cav_of_apart (fun _ _ => apart_engineOffs (Apart.refl ..) _) x

@[simp] theorem cav_withdrawConverter : s.withdrawConverter.cav x = s.cav x :=
  cav_of_apart (fun _ _ => apart_withdrawConverter (Apart.refl ..)) x

/-- An act of a Lock Unit leaves the contexts alone. -/
theorem cav_of_lockAct {s t : State} {b : Cav} (h : ∀ a, Apart a b s t) (x : Cav) : t.cav x = s.cav x :=
  (h (otherCav x)).cav x (by cases x <;> simp [otherCav])

@[simp] theorem cav_releaseLock : (s.releaseLock c).cav x = s.cav x := cav_of_lockAct (fun _ => apart_releaseLock (Apart.refl ..)) x

@[simp] theorem cav_engageLock : (s.engageLock c).cav x = s.cav x := cav_of_lockAct (fun _ => apart_engageLock (Apart.refl ..)) x

@[simp] theorem cav_holdLock : (s.holdLock c).cav x = s.cav x := cav_of_lockAct (fun _ => apart_holdLock (Apart.refl ..)) x

@[simp] theorem cav_setLockState (st : LockState) : (s.setLockState c st).cav x = s.cav x :=
  cav_of_lockAct (fun _ => apart_setLockState (Apart.refl ..) _) x

/-! ## Duty windows -/

@[simp] theorem cav_endWindow : (s.endWindow c).cav x = s.cav x := by simp [State.endWindow]

@[simp] theorem cav_startWindow (target : Int) : (s.startWindow c target).cav x = s.cav x :=
  (cav_of_loadAct (loadAct_startWindow s c target) x).trans (cav_modWindow ..)

/-! ## Demands -/

@[simp] theorem cav_postBlower (d : BlowLevel) :
    (s.postBlower c d).cav x = if x = c then { s.cav c with blower := d } else s.cav x := by
  simp [State.postBlower, State.changeDemands]

@[simp] theorem cav_postConverter (d : ConvField) :
    (s.postConverter c d).cav x = if x = c then { s.cav c with converter := d } else s.cav x := by
  rw [postConverter_eq]
  split
  · simp [State.converterPosted]
  · split <;> simp [State.converterPosted]

/-! ## The context's own items -/

@[simp] theorem cav_setCavState (st : CavState) :
    (s.setCavState c st).cav x = if x = c then { s.cav c with state := st } else s.cav x := by
  unfold State.setCavState
  split
  · rename_i h
    by_cases hx : x = c
    · subst hx; simp [← h]
    · simp [hx]
  · simp

@[simp] theorem cav_stopHold : (s.stopHold c).cav x = if x = c then { s.cav c with hold := .stopped } else s.cav x := by
  simp [State.stopHold]

@[simp] theorem cav_leaveSegment : (s.leaveSegment c).cav x =
    if x = c then { s.cav c with long := none, short := none, litWait := false, hold := .stopped } else s.cav x := by
  by_cases hx : x = c <;> simp [State.leaveSegment, hx]

@[simp] theorem cav_emptyStack : (s.emptyStack c).cav x =
    if x = c then { s.cav c with stack := [], pending := Vector.replicate 6 false } else s.cav x := by simp [State.emptyStack]

@[simp] theorem cav_clearCavWatches : (s.clearCavWatches c).cav x = s.cav x := by simp [State.clearCavWatches]

@[simp] theorem cav_setReason (r : Reason) : (s.setReason c r).cav x = if x = c then { s.cav c with
    reason := r, firstFault := if (s.cav c).firstFault.isNone then some (s.faultNow c r) else (s.cav c).firstFault } else s.cav x := by
  unfold State.setReason State.fillFault
  have hf : (s.modCav c (fun k => { k with reason := r })).faultNow c r = s.faultNow c r := by
    have hp := probeTemp_of_chans (s := s) (t := s.modCav c (fun k => { k with reason := r })) rfl c
    simp [State.faultNow, hp]
  by_cases hx : x = c
  · subst hx
    cases h : (s.cav x).firstFault <;> simp [h, hf]
  · cases h : (s.cav c).firstFault <;> simp [h, hx]

@[simp] theorem cav_unbind : (s.unbind c).cav x = if x = c then { s.cav c with bank := none } else s.cav x := by
  unfold State.unbind
  split
  · simp
  · rename_i h
    by_cases hx : x = c
    · subst hx; simp [← h]
    · simp [hx]

/-! ## The moves of a cavity -/

/-- R118 steps 5 to 8. -/
@[simp] theorem cav_enterCooldown : (s.enterCooldown c).cav x = if x = c then { s.cav c with
    state := .cooldown, converter := .off, blower := .high, dwell := none } else s.cav x := by
  by_cases hx : x = c <;> simp [State.enterCooldown, hx]

/-- R118 steps 2 to 4. -/
@[simp] theorem cav_endRun : (s.endRun c).cav x = if x = c then { s.cav c with
    long := none, short := none, litWait := false, hold := .stopped, stack := [], pending := Vector.replicate 6 false,
    elapsed := stopElapsed s.now (s.cav c).elapsed } else s.cav x := by
  by_cases hx : x = c <;> simp [State.endRun, hx]

@[simp] theorem now_setReason (r : Reason) : (s.setReason c r).now = s.now := (kept_setReason (Kept.refl s) c r).now

/-- R118: how a cycle that ends leaves its context. -/
theorem cav_endCycle (r : Reason) : (s.endCycle c r).cav c = { s.cav c with
    reason := r, state := .cooldown, converter := .off, blower := .high, dwell := none, long := none, short := none,
    litWait := false, hold := .stopped, stack := [], pending := Vector.replicate 6 false,
    elapsed := stopElapsed s.now (s.cav c).elapsed,
    firstFault := if r ≠ .complete ∧ (s.cav c).firstFault.isNone then some (s.faultNow c r) else (s.cav c).firstFault } := by
  unfold State.endCycle
  by_cases hr : r = .complete <;> simp [hr]

/-- R105 steps 2 to 5. -/
theorem cav_openCavity : (s.openCavity c).cav c = { s.cav c with
    state := .opened, bank := none, segment := none, entryTemp := none, backOff := .noBackOff, survey := none, long := none,
    short := none, dwell := none, blind := none, blindExpired := false, hold := .stopped, blower := .off, converter := .off,
    elapsed := stopElapsed s.now (s.cav c).elapsed } := by
  simp [State.openCavity]

theorem cav_backToOpen (r : Reason) : (s.backToOpen c r).cav c = { s.cav c with
    state := .opened, bank := none, segment := none, entryTemp := none, backOff := .noBackOff, survey := none, long := none,
    short := none, dwell := none, blind := none, blindExpired := false, hold := .stopped, blower := .off, converter := .off,
    elapsed := stopElapsed s.now (s.cav c).elapsed, reason := r
    firstFault := if (s.cav c).firstFault.isNone then some (s.faultNow c r) else (s.cav c).firstFault } := by
  simp [State.backToOpen, cav_openCavity]

/-- R120. -/
theorem cav_enterRelease : (s.enterRelease c).cav c = { s.cav c with
    state := .release, dwell := none, blind := none, blindExpired := false } := by
  simp [State.enterRelease]

@[simp] theorem cav_haltHeaters : (s.haltHeaters c).cav x = s.cav x := by
  unfold State.haltHeaters
  split <;> simp

/-- R122 steps 1 to 5: the outputs of a cavity that halts. -/
def State.haltOutputs (s : State) (c : Cav) (r : Reason) : State :=
  ((((s.setReason c r).haltHeaters c).postConverter c .off).driveFan c (s.coolFan c)).postBlower c .high

theorem halt_eq (r : Reason) :
    s.halt c r = (((s.haltOutputs c r).haltItems c).holdLock c).setCavState c .halted := rfl

theorem kept_haltOutputs (r : Reason) : Kept s (s.haltOutputs c r) :=
  kept_postBlower (kept_driveFan (kept_postConverter (kept_haltHeaters (kept_setReason (Kept.refl s) c r) c) c .off) c _) c .high

@[simp] theorem cav_haltOutputs (r : Reason) : (s.haltOutputs c r).cav c = { s.cav c with
    reason := r, converter := .off, blower := .high
    firstFault := if (s.cav c).firstFault.isNone then some (s.faultNow c r) else (s.cav c).firstFault } := by
  simp [State.haltOutputs]

@[simp] theorem cav_haltItems : (s.haltItems c).cav c = { s.cav c with
    stack := [], pending := Vector.replicate 6 false, long := none, short := none, litWait := false, hold := .stopped,
    dwell := none, survey := none, stage := .noStage, backOff := .noBackOff, elapsed := stopElapsed s.now (s.cav c).elapsed,
    blind := s.timer (seconds (s.blindLimit c)), blindExpired := false } := by
  simp [State.haltItems]

/-- R122: how a halt leaves its context. -/
theorem cav_halt (r : Reason) : (s.halt c r).cav c = { s.cav c with
    reason := r, state := .halted, converter := .off, blower := .high, stack := [], pending := Vector.replicate 6 false,
    long := none, short := none, litWait := false, hold := .stopped, dwell := none, survey := none, stage := .noStage,
    backOff := .noBackOff, elapsed := stopElapsed s.now (s.cav c).elapsed,
    blind := some (s.now + seconds (s.blindLimit c)), blindExpired := false,
    firstFault := if (s.cav c).firstFault.isNone then some (s.faultNow c r) else (s.cav c).firstFault } := by
  have k := kept_haltOutputs s c r
  have hblind : (s.haltOutputs c r).blindLimit c = s.blindLimit c := by
    unfold State.blindLimit
    rw [limitsOfCav_of_kept k (by simp)]
  simp [halt_eq, hblind, State.timer, k.now]

end

end Sys2Proof.Machine
end

