-- ==== Sys2Proof/Proofs/Requests.lean ====
section
/-! PROOFS. What an engine request leaves of its own load and of the others (R48, R49, R53 to R55), and which load a class or a
position names (R93). -/

namespace Sys2Proof.Machine

-- One proof at a time: proofs elaborated side by side ask for more threads than the check's memory limit leaves room for.
set_option Elab.async false

/-! ## The loads of a cavity (R93) -/

theorem findLoad_of_entry {s t : State} (h : ∀ i, t.entry i = s.entry i) (p : LoadEntry → Bool) : t.findLoad p = s.findLoad p := by
  simp only [State.findLoad, h]

theorem entry_of_findLoad {s : State} {p : LoadEntry → Bool} {i : Fin 16} (h : s.findLoad p = some i) : p (s.entry i) = true := by
  unfold State.findLoad at h
  exact List.find?_some (p := fun i => p (s.entry i)) h

theorem entry_of_heater {s : State} {c : Cav} {p : HeatPos} {i : Fin 16} (h : s.heater c p = some i) :
    (s.entry i).cls = .heater ∧ (s.entry i).cavity = .of c ∧ (s.entry i).position = .at p := by
  simpa [and_assoc] using entry_of_findLoad h

theorem entry_of_cavLoad {s : State} {c : Cav} {k : LoadClass} {i : Fin 16} (h : s.cavLoad c k = some i) :
    (s.entry i).cls = k ∧ (s.entry i).cavity = .of c := by simpa using entry_of_findLoad h

theorem cls_of_sharedLoad {s : State} {k : LoadClass} {i : Fin 16} (h : s.sharedLoad k = some i) : (s.entry i).cls = k := by
  simpa using entry_of_findLoad h

theorem heater_of_entry {s t : State} (h : ∀ i, t.entry i = s.entry i) (c : Cav) (p : HeatPos) : t.heater c p = s.heater c p :=
  findLoad_of_entry h _

theorem cavLoad_of_entry {s t : State} (h : ∀ i, t.entry i = s.entry i) (c : Cav) (k : LoadClass) : t.cavLoad c k = s.cavLoad c k :=
  findLoad_of_entry h _

theorem sharedLoad_of_entry {s t : State} (h : ∀ i, t.entry i = s.entry i) (k : LoadClass) : t.sharedLoad k = s.sharedLoad k :=
  findLoad_of_entry h _

theorem ne_of_cls {s : State} {i j : Fin 16} (h : (s.entry i).cls ≠ (s.entry j).cls) : i ≠ j := by
  rintro rfl
  exact h rfl

/-! ## Levels and the heater check (R48) -/

theorem kindLevel_of_budgeted {e : LoadEntry} (hb : budgeted e.cls = true) {level : Nat} (h : 0 < level) :
    kindLevel e level = if e.kind = .switched then 100 else level := by
  have hl : e.cls ≠ .lock := by rintro hl; rw [hl] at hb; cases hb
  simp [kindLevel, hl, h]

theorem heaterCheck_of_not_heater {s : State} {i : Fin 16} (h : (s.entry i).cls ≠ .heater) : s.heaterCheck i = true := by
  unfold State.heaterCheck
  split
  · rename_i hc _; exact absurd hc h
  · rename_i hc _; exact absurd hc h
  · rfl

theorem heaterCheck_of_run {s : State} {i : Fin 16} {c : Cav} (hc : (s.entry i).cavity = .of c) (hs : (s.cav c).state = .run)
    (hl : (s.lock c).state = .locked) : s.heaterCheck i = true := by
  unfold State.heaterCheck
  split
  · rename_i d _ hd
    obtain rfl : c = d := by rw [hc] at hd; exact LoadCav.of.inj hd
    simp [hs, hl]
  · rename_i hd
    rw [hc] at hd
    cases hd
  · rfl

theorem heaterCheck_of_same {s t : State} (he : ∀ i, t.entry i = s.entry i) (hc : t.cavs = s.cavs) (hl : t.locks = s.locks)
    (i : Fin 16) : t.heaterCheck i = s.heaterCheck i := by
  unfold State.heaterCheck State.cav State.lock
  rw [he, hc, hl]

/-! ## A load with no request waiting -/

theorem requestOf_of_free {s : State} {i : Fin 16} (h : s.freeOf i) : s.requestOf i = none :=
  List.find?_eq_none.2 fun r hr => by simpa using h r hr

theorem withdrawRequest_of_free {s : State} {i : Fin 16} (h : s.freeOf i) : s.withdrawRequest i = s := by
  unfold State.withdrawRequest
  rw [requestOf_of_free h]

theorem engineOff_of_free {s : State} {i : Fin 16} (h : s.freeOf i) :
    s.engineOff i = if (s.record i).alreadyOff then s else s.queueDrive i 0 := by
  unfold State.engineOff
  rw [withdrawRequest_of_free h]

/-- R48: a budgeted load that is HELD takes a request at once. -/
theorem engineOn_of_held {s : State} {i : Fin 16} (hb : budgeted (s.entry i).cls = true) (hg : (s.record i).grant = .held)
    (hc : s.heaterCheck i = true) (level : Nat) : s.engineOn i level =
      if (s.record i).standsAt (kindLevel (s.entry i) level) then s.ownByEngine i
      else s.queueDrive i (kindLevel (s.entry i) level) := by
  unfold State.engineOn State.driveHeld
  rw [if_pos hb, hg, hc]
  cases (s.record i).standsAt (kindLevel (s.entry i) level) <;> rfl

/-- R48, R53: a budgeted load without a grant asks for one, or has its request refused. -/
theorem engineOn_of_noGrant {s : State} {i : Fin 16} (hb : budgeted (s.entry i).cls = true) (hg : (s.record i).grant = .noGrant)
    (level : Nat) : s.engineOn i level =
      if (s.record i).fault ≠ .noFault then s.emit (s.faultReport i)
      else s.requestGrant i .engine (kindLevel (s.entry i) level) := by
  unfold State.engineOn State.engineGrant
  rw [if_pos hb, hg]

/-- R48: a LOCK or the BLOWER needs no grant. -/
theorem engineOn_of_not_budgeted {s : State} {i : Fin 16} (hb : budgeted (s.entry i).cls = false) (level : Nat) :
    s.engineOn i level = s.queueDrive i (kindLevel (s.entry i) level) := by
  unfold State.engineOn
  rw [hb]
  rfl

/-! ## A load that is driven on its grant -/

/-- What an engine request leaves of its load, which it found HELD in `r`: driven at the level, or standing there already. -/
structure IsDriven (i : Fin 16) (level : Nat) (r : LoadRecord) (s : State) : Prop where
  free : s.freeOf i
  owner : (s.record i).owner = .engine
  grant : (s.record i).grant = .held
  driven : r.standsAt level = false → (s.record i).commanded = some level ∧ QItem.drive i level false ∈ s.normal
  stood : r.standsAt level = true → s.record i = { r with owner := .engine }

theorem urgentDrive_of_budgeted {k : LoadClass} (hb : budgeted k = true) {level : Nat} (h : 0 < level) :
    urgentDrive k level = false := by
  have h0 : (level == 0) = false := by simpa using h.ne'
  have hl : (k == .lock) = false := by cases k <;> first | rfl | cases hb
  have hw : (k == .blower) = false := by cases k <;> first | rfl | cases hb
  simp [urgentDrive, h0, hl, hw]

theorem kindLevel_pos (e : LoadEntry) {level : Nat} (h : 0 < level) : 0 < kindLevel e level := by
  unfold kindLevel
  split <;> omega

theorem isDriven_engineOn {s : State} {i : Fin 16} (hf : s.freeOf i) (hb : budgeted (s.entry i).cls = true)
    (hg : (s.record i).grant = .held) (hc : s.heaterCheck i = true) {level : Nat} (h : 0 < level) :
    IsDriven i (kindLevel (s.entry i) level) (s.record i) (s.engineOn i level) := by
  have hn := urgentDrive_of_budgeted hb (kindLevel_pos (s.entry i) h)
  rw [engineOn_of_held hb hg hc]
  generalize kindLevel (s.entry i) level = l at hn
  cases hs : (s.record i).standsAt l with
  | true =>
    have hr : (s.ownByEngine i).record i = { s.record i with owner := .engine } := by simp [State.ownByEngine]
    exact ⟨hf, by rw [if_pos rfl, hr], by rw [if_pos rfl, hr]; exact hg, fun hn => absurd (hs.symm.trans hn) (by decide), fun _ => hr⟩
  | false =>
    rw [if_neg (by decide)]
    have hr := record_queueDrive s i i l
    rw [if_pos rfl] at hr
    have hm := mem_queueDrive s i l
    rw [hn, if_neg (by decide)] at hm
    exact ⟨fun r m => hf r (by rwa [grantQueue_queueDrive] at m), by rw [hr], by rw [hr]; exact hg, fun _ => ⟨by rw [hr], hm⟩,
      fun hn => absurd (hs.symm.trans hn) (by decide)⟩

theorem IsDriven.spared {i : Fin 16} {level : Nat} {r : LoadRecord} {s t : State} (h : IsDriven i level r s) (g : Spares i s t) :
    IsDriven i level r t where
  free := g.free h.free
  owner := by rw [g.record h.free]; exact h.owner
  grant := by rw [g.record h.free]; exact h.grant
  driven hs := by
    rw [g.record h.free]
    exact (h.driven hs).imp_right fun m => g.normal _ m (by simp [isDriveFor])
  stood hs := by rw [g.record h.free]; exact h.stood hs

/-! ## A load whose grant the engine has asked for -/

/-- Load `i` is sound and may be driven, and it is HELD or the engine's request for it at `level` waits. -/
structure Asks (i : Fin 16) (level : Nat) (s : State) : Prop where
  sound : (s.record i).fault = .noFault
  check : s.heaterCheck i = true
  grant : (s.record i).grant = .held ∨
    ((s.record i).grant = .waiting ∧ ∃ r ∈ s.grantQueue, r.load = i ∧ r.requester = .engine ∧ r.level = level)

theorem Asks.of_same {i : Fin 16} {level : Nat} {s t : State} (h : Asks i level s) (hr : t.record i = s.record i)
    (he : ∀ j, t.entry j = s.entry j := by intro; rfl) (hc : t.cavs = s.cavs := by rfl) (hl : t.locks = s.locks := by rfl)
    (hg : ∀ r ∈ s.grantQueue, r.load = i → r ∈ t.grantQueue := by exact fun _ hr _ => hr) : Asks i level t where
  sound := by rw [hr]; exact h.sound
  check := (heaterCheck_of_same he hc hl i).trans h.check
  grant := by
    rw [hr]
    exact h.grant.imp_right fun ⟨hw, r, hm, hi, hq⟩ => ⟨hw, r, hg r hm hi, hi, hq⟩

theorem Asks.modRecord {i j : Fin 16} {level : Nat} {s : State} (h : Asks i level s) (hj : i ≠ j) (f : LoadRecord → LoadRecord) :
    Asks i level (s.modRecord j f) :=
  h.of_same (record_modRecord_of_ne s hj f) (fun k => entry_modRecord s j k f)

theorem Asks.setGrant {i j : Fin 16} {level : Nat} {s : State} (h : Asks i level s) (hj : i ≠ j) (g : Grant) :
    Asks i level (s.setGrant j g) := h.modRecord hj _

theorem Asks.closeFail {i : Fin 16} {level : Nat} {s : State} (h : Asks i level s) (tag reason : Byte) :
    Asks i level (s.closeFail tag reason) := by
  unfold State.closeFail State.closeRelay
  (repeat' split) <;> first | exact h | exact h.of_same rfl

theorem Asks.queueDrive {i j : Fin 16} {level : Nat} {s : State} (h : Asks i level s) (hj : i ≠ j) (l : Nat) :
    Asks i level (s.queueDrive j l) := by
  have g := h.modRecord hj (fun r => { r with commanded := some l, owner := .engine, attempt := .first })
  unfold State.queueDrive State.mergeDrive
  split <;> exact g.of_same rfl

theorem Asks.promoteRelay {i j : Fin 16} {level : Nat} {s : State} (h : Asks i level s) (hj : i ≠ j) (tag : Byte) (l : Nat) :
    Asks i level (s.promoteRelay j tag l) := by
  unfold State.promoteRelay State.commandByController
  refine Asks.modRecord ?_ hj _
  exact h.of_same rfl

theorem Asks.grantTo {i j : Fin 16} {level : Nat} {s : State} (h : Asks i level s) (hj : i ≠ j) (who : Requester) (l : Nat) :
    Asks i level (s.grantTo j who l) := by
  unfold State.grantTo
  split
  · split
    · exact (h.setGrant hj _).queueDrive hj _
    · exact (h.setGrant hj _).modRecord hj _
  · exact (h.setGrant hj _).promoteRelay hj _ _

theorem Asks.refuseRequest {i j : Fin 16} {level : Nat} {s : State} (h : Asks i level s) (hj : i ≠ j) (who : Requester) :
    Asks i level (s.refuseRequest j who) := by
  have hg := h.setGrant hj .noGrant
  unfold State.refuseRequest
  split
  · exact hg.of_same rfl
  · exact hg.closeFail _ _

/-- R55: a granted request leaves its load HELD, where it may be driven. -/
theorem asks_grantTo_self {s : State} {i : Fin 16} (hs : (s.record i).fault = .noFault) (hc : s.heaterCheck i = true)
    (who : Requester) (level l : Nat) : Asks i level (s.grantTo i who l) := by
  have hent : ∀ k, (s.setGrant i .held).entry k = s.entry k := fun k => entry_modRecord ..
  have hch : (s.setGrant i .held).heaterCheck i = true := (heaterCheck_of_same hent rfl rfl i).trans hc
  cases who with
  | engine =>
    have hgr : s.grantTo i .engine l = (s.setGrant i .held).queueDrive i l := by simp [State.grantTo, hc]
    rw [hgr]
    have hr := record_queueDrive (s.setGrant i .held) i i l
    rw [if_pos rfl] at hr
    have k := LoadAct.queueDrive (LoadAct.refl (s.setGrant i .held)) i l
    refine ⟨by rw [hr]; simpa [State.setGrant] using hs, ?_, .inl (by rw [hr]; simp [State.setGrant])⟩
    exact (heaterCheck_of_same (kept_queueDrive (Kept.refl _) i l).entry k.cavs k.locks i).trans hch
  | relay tag =>
    have hr := record_grantTo_relay s i tag l i
    rw [if_pos rfl] at hr
    refine ⟨by rw [hr]; exact hs, ?_, .inl (by rw [hr])⟩
    have he : ∀ k, (s.grantTo i (.relay tag) l).entry k = s.entry k := fun k => (entry_modRecord ..).trans (hent k)
    have hc' : (s.grantTo i (.relay tag) l).cavs = s.cavs := rfl
    have hl' : (s.grantTo i (.relay tag) l).locks = s.locks := rfl
    exact (heaterCheck_of_same he hc' hl' i).trans hc

theorem Asks.considerUpTo {i : Fin 16} {level : Nat} (n : Nat) : ∀ {s : State}, Asks i level s →
    Asks i level (Machine.considerUpTo n s) := by
  induction n with
  | zero => exact fun h => h.of_same rfl
  | succ n ih =>
    intro s h
    unfold Machine.considerUpTo
    split
    · exact h.of_same rfl
    · rename_i head rest hq
      have tail (hi : i ≠ head.load) : Asks i level { s with grantQueue := rest } := h.of_same rfl (hg := fun r hr hl => by
        rw [hq] at hr
        exact (List.mem_cons.1 hr).resolve_left (by rintro rfl; exact hi hl.symm))
      by_cases hi : i = head.load
      · rw [if_neg (by rw [← hi]; exact not_not.2 h.sound)]
        split
        · exact ih (hi ▸ asks_grantTo_self (s := { s with grantQueue := rest }) h.sound h.check _ _ _)
        · exact h.of_same rfl
      · split
        · exact ih ((tail hi).refuseRequest hi _)
        · split
          · exact ih ((tail hi).grantTo hi _ _)
          · exact h.of_same rfl

theorem Asks.considerIf {i : Fin 16} {level : Nat} {s : State} (h : Asks i level s) (b : Bool) : Asks i level (s.considerIf b) := by
  unfold State.considerIf
  split
  · exact Asks.considerUpTo _ h
  · exact h

theorem Asks.withdrawRequest {i j : Fin 16} {level : Nat} {s : State} (h : Asks i level s) (hj : i ≠ j) :
    Asks i level (s.withdrawRequest j) := by
  have hd : Asks i level (s.dropRequest j) := by
    refine Asks.setGrant ?_ hj _
    exact h.of_same rfl (hg := fun r hr hl => List.mem_filter.2 ⟨hr, by simpa [hl] using hj⟩)
  unfold State.withdrawRequest
  split
  · exact h
  · dsimp only
    split
    · exact hd.considerIf _
    · exact (hd.closeFail _ _).considerIf _

theorem mem_joinQueue {q : List GrantRequest} {r x : GrantRequest} : x ∈ joinQueue q r ↔ x = r ∨ x ∈ q := by
  unfold joinQueue
  split
  · have : x ∈ q ↔ x ∈ q.takeWhile (fun x => x.requester.isEngine) ∨ x ∈ q.dropWhile (fun x => x.requester.isEngine) := by
      rw [← List.mem_append, List.takeWhile_append_dropWhile]
    simp only [List.mem_append, List.mem_singleton]
    tauto
  · simp [or_comm]

theorem Asks.requestGrant {i j : Fin 16} {level : Nat} {s : State} (h : Asks i level s) (hj : i ≠ j) (who : Requester) (l : Nat) :
    Asks i level (s.requestGrant j who l) := by
  unfold State.requestGrant State.joinRequest
  split
  · exact h.grantTo hj _ _
  · refine Asks.considerIf (Asks.setGrant ?_ hj _) _
    exact h.of_same rfl (hg := fun r hr _ => mem_joinQueue.2 (.inr hr))

/-- R53: a request of a sound load without a grant. -/
theorem asks_requestGrant_self {s : State} {i : Fin 16} (hs : (s.record i).fault = .noFault) (hc : s.heaterCheck i = true)
    (level : Nat) : Asks i level (s.requestGrant i .engine level) := by
  unfold State.requestGrant State.joinRequest
  split
  · exact asks_grantTo_self hs hc _ _ _
  · let r : GrantRequest := { load := i, requester := .engine, level := level, joined := s.now }
    refine Asks.considerIf ⟨?_, ?_, .inr ⟨?_, r, mem_joinQueue.2 (.inl rfl), rfl, rfl, rfl⟩⟩ _
    · refine (congrArg LoadRecord.fault (record_modRecord_self ..)).trans hs
    · exact (heaterCheck_of_same (fun k => entry_modRecord ..) rfl rfl i).trans hc
    · exact congrArg LoadRecord.grant (record_modRecord_self ..)

theorem Asks.engineGrant {i j : Fin 16} {level : Nat} {s : State} (h : Asks i level s) (hj : i ≠ j) (l : Nat) :
    Asks i level (s.engineGrant j l) := by
  unfold State.engineGrant
  split
  · exact h.of_same rfl
  · exact h.requestGrant hj _ _

theorem Asks.engineOn {i j : Fin 16} {level : Nat} {s : State} (h : Asks i level s) (hj : i ≠ j) (l : Nat) :
    Asks i level (s.engineOn j l) := by
  have hp (l : Nat) : Asks i level (s.setPendingLevel j l) := h.of_same rfl (hg := fun r hr hl =>
    List.mem_map.2 ⟨r, hr, by rw [if_neg (by rw [hl]; exact hj)]⟩)
  unfold State.engineOn State.driveHeld
  dsimp only
  split
  · split
    · split
      · exact h.queueDrive hj _
      · exact h.modRecord hj _
    · split
      · exact hp _
      · exact (h.withdrawRequest hj).engineGrant hj _
    · exact h.engineGrant hj _
  · exact h.queueDrive hj _

theorem Asks.engineOff {i j : Fin 16} {level : Nat} {s : State} (h : Asks i level s) (hj : i ≠ j) : Asks i level (s.engineOff j) := by
  unfold State.engineOff
  dsimp only
  split
  · exact h.withdrawRequest hj
  · exact (h.withdrawRequest hj).queueDrive hj _

theorem Asks.engineDrive {i j : Fin 16} {level : Nat} {s : State} (h : Asks i level s) (hj : i ≠ j) (l : Nat) :
    Asks i level (s.engineDrive j l) := by
  unfold State.engineDrive
  split
  · exact h.engineOff hj
  · exact h.engineOn hj _

/-! ## An engine request at a level above 0 (R48, R53) -/

theorem engineDrive_of_pos (s : State) (i : Fin 16) {level : Nat} (h : 0 < level) : s.engineDrive i level = s.engineOn i level :=
  if_neg h.ne'

section
variable {s : State} {i : Fin 16} (hb : budgeted (s.entry i).cls = true) {level : Nat} (h : 0 < level)
include hb h

theorem isDriven_engineDrive (hf : s.freeOf i) (hg : (s.record i).grant = .held) (hc : s.heaterCheck i = true) :
    IsDriven i (if (s.entry i).kind = .switched then 100 else level) (s.record i) (s.engineDrive i level) := by
  rw [engineDrive_of_pos s i h, ← kindLevel_of_budgeted hb h]
  exact isDriven_engineOn hf hb hg hc h

theorem asks_engineDrive (hg : (s.record i).grant = .noGrant) (hs : (s.record i).fault = .noFault) (hc : s.heaterCheck i = true) :
    Asks i (if (s.entry i).kind = .switched then 100 else level) (s.engineDrive i level) := by
  rw [engineDrive_of_pos s i h, ← kindLevel_of_budgeted hb h, engineOn_of_noGrant hb hg, if_neg (not_not.2 hs)]
  exact asks_requestGrant_self hs hc _

theorem engineDrive_refused (hg : (s.record i).grant = .noGrant) (hs : (s.record i).fault ≠ .noFault) :
    s.engineDrive i level = s.emit (s.faultReport i) := by
  rw [engineDrive_of_pos s i h, engineOn_of_noGrant hb hg, if_pos hs]

end

theorem faultReport_of_not_converter {s : State} {i : Fin 16} (h : (s.entry i).cls ≠ .converter) :
    s.faultReport i = .loadFault i := if_neg h

end Sys2Proof.Machine
end

