-- ==== Sys2Proof/Proofs/Outputs.lean ====
section
/-! PROOFS. What the acts that drive the outputs of a cavity leave alone: the blower (R160 to R164), the converter (R167), a
lock's travel (R146 to R158), and the loads of other classes. -/

namespace Sys2Proof.Machine

-- One proof at a time: proofs elaborated side by side ask for more threads than the check's memory limit leaves room for.
set_option Elab.async false

/-! ## Acts on the blower -/

/-- What an act on the blower leaves: all but the loads, its level and checks, SPEED and the PART notice. -/
structure Blows (s t : State) : Prop where
  cavs : t.cavs = s.cavs
  locks : t.locks = s.locks
  windows : t.windows = s.windows
  chans : t.chans = s.chans
  banks : t.banks = s.banks
  watch : ∀ w, w ≠ .speed → t.watch w = s.watch w
  cavDemand : t.air.cavDemand = s.air.cavDemand
  controllerDemand : t.air.controllerDemand = s.air.controllerDemand
  bayDemand : t.air.bayDemand = s.air.bayDemand
  convCav : t.air.convCav = s.air.convCav
  convDemand : t.air.convDemand = s.air.convDemand
  lit : t.air.lit = s.air.lit
  cavNotices : t.notices.cav = s.notices.cav
  part : s.notices.part = true → t.notices.part = true
  events : ∀ e ∈ s.events, isWatchEvent .speed e = false → e ∈ t.events

theorem Blows.trans {s t u : State} (h : Blows s t) (g : Blows t u) : Blows s u where
  cavs := g.cavs.trans h.cavs
  locks := g.locks.trans h.locks
  windows := g.windows.trans h.windows
  chans := g.chans.trans h.chans
  banks := g.banks.trans h.banks
  watch w hw := (g.watch w hw).trans (h.watch w hw)
  cavDemand := g.cavDemand.trans h.cavDemand
  controllerDemand := g.controllerDemand.trans h.controllerDemand
  bayDemand := g.bayDemand.trans h.bayDemand
  convCav := g.convCav.trans h.convCav
  convDemand := g.convDemand.trans h.convDemand
  lit := g.lit.trans h.lit
  cavNotices := g.cavNotices.trans h.cavNotices
  part x := g.part (h.part x)
  events e he hs := g.events e (h.events e he hs) hs

theorem watch_of_loadAct {s t : State} (h : LoadAct s t) (w : WatchId) : t.watch w = s.watch w := by
  unfold State.watch
  rw [h.watches]

theorem Blows.of_loadAct {s t : State} (h : LoadAct s t) : Blows s t where
  cavs := h.cavs
  locks := h.locks
  windows := h.windows
  chans := h.chans
  banks := h.banks
  watch w _ := watch_of_loadAct h w
  cavDemand := by rw [h.air]
  controllerDemand := by rw [h.air]
  bayDemand := by rw [h.air]
  convCav := by rw [h.air]
  convDemand := by rw [h.air]
  lit := by rw [h.air]
  cavNotices := by rw [h.notices]
  part x := by rw [h.notices]; exact x
  events _ he _ := h.events.subset he

theorem Blows.refl (s : State) : Blows s s := .of_loadAct (LoadAct.refl s)

theorem Blows.ite {s t u : State} (p : Prop) [Decidable p] (h : Blows s t) (g : Blows s u) : Blows s (if p then t else u) := by
  split <;> assumption

/-- A change of the level, its run-on or the stall check, with the PART notice it may raise. -/
theorem Blows.of_air {s t : State} (cavs : t.cavs = s.cavs := by rfl) (locks : t.locks = s.locks := by rfl)
    (windows : t.windows = s.windows := by rfl) (chans : t.chans = s.chans := by rfl) (banks : t.banks = s.banks := by rfl)
    (watches : t.watches = s.watches := by rfl) (cavDemand : t.air.cavDemand = s.air.cavDemand := by rfl)
    (controllerDemand : t.air.controllerDemand = s.air.controllerDemand := by rfl)
    (bayDemand : t.air.bayDemand = s.air.bayDemand := by rfl) (convCav : t.air.convCav = s.air.convCav := by rfl)
    (convDemand : t.air.convDemand = s.air.convDemand := by rfl) (lit : t.air.lit = s.air.lit := by rfl)
    (cavNotices : t.notices.cav = s.notices.cav := by rfl)
    (part : s.notices.part = true → t.notices.part = true := by exact fun x => x) (events : t.events = s.events := by rfl) :
    Blows s t :=
  ⟨cavs, locks, windows, chans, banks, fun w _ => by unfold State.watch; rw [watches], cavDemand, controllerDemand, bayDemand,
    convCav, convDemand, lit, cavNotices, part, fun _ he _ => events ▸ he⟩

theorem emitIf_eq (s : State) (b : Bool) (e : Event) : s.emitIf b e = { s with events := s.events ++ if b then [e] else [] } := by
  cases b <;> simp [State.emitIf, State.emit]

/-- R72: the events that setting a watch delivers. -/
def State.setReports (s : State) (w : WatchId) (side : Side) (level : Int) : List Event :=
  let becomes := freshWatchState (s.channel (watchUse w)) side level
  (if becomes == .met && (s.watch w).state != .met then [.watch w true] else []) ++
    if becomes == .notMet && (s.watch w).state == .met then [.watch w false] else []

theorem setWatch_eq (s : State) (w : WatchId) (side : Side) (level : Int) : s.setWatch w side level =
    { s.putWatch w { side := side, level := level, state := freshWatchState (s.channel (watchUse w)) side level } with
      events := s.events ++ s.setReports w side level } := by
  unfold State.setWatch State.setReports
  dsimp only
  rw [emitIf_eq, emitIf_eq]
  simp only [events_putWatch, List.append_assoc]

theorem blows_setSpeed (s : State) (side : Side) (level : Int) : Blows s (s.setWatch .speed side level) := by
  rw [setWatch_eq]
  exact ⟨rfl, rfl, rfl, rfl, rfl, fun w hw => (Laws.watches_get_put ..).trans (if_neg hw), rfl, rfl, rfl, rfl, rfl, rfl, rfl,
    fun x => x, fun e he _ => List.mem_append_left _ he⟩

theorem blows_clearSpeed (s : State) : Blows s (s.clearWatch .speed) :=
  ⟨rfl, rfl, rfl, rfl, rfl, fun w hw => (Laws.watches_get_put ..).trans (if_neg hw), rfl, rfl, rfl, rfl, rfl, rfl, rfl,
    fun x => x, fun e he hs => List.mem_filter.2 ⟨he, by simp [hs]⟩⟩

theorem blows_aimSpeed (s : State) : Blows s s.aimSpeed := by
  unfold State.aimSpeed
  exact Blows.ite _ (blows_clearSpeed s) (blows_setSpeed s _ _)

theorem blows_stallAtLevel (s : State) : Blows s s.stallAtLevel := by
  unfold State.stallAtLevel
  exact Blows.ite _ (Blows.ite _ (.of_air (part := fun _ => rfl)) .of_air) (Blows.ite _ .of_air (Blows.refl s))

theorem blows_setLevel (s : State) (l : BlowLevel) : Blows s (s.setLevel l) := by
  have hl : Blows s (s.modAir (fun a => { a with level := l })) := .of_air
  unfold State.setLevel
  exact Blows.ite _ (Blows.refl s) (((hl.trans (.of_loadAct (LoadAct.refl _).driveBlower)).trans (blows_aimSpeed _)).trans
    (blows_stallAtLevel _))

theorem blows_followDemand (s : State) (before : BlowLevel) : Blows s (s.followDemand before) := by
  have hr : Blows s (s.modAir (fun a => { a with runOn := none })) := .of_air
  have hl : Blows s ((s.setLevel .low).modAir (fun a => { a with runOn := s.timer (seconds s.limits.runOn) })) :=
    (blows_setLevel s .low).trans .of_air
  unfold State.followDemand
  exact Blows.ite _ (Blows.refl s) (Blows.ite _ (Blows.ite _ (blows_setLevel s .off) hl) (hr.trans (blows_setLevel _ _)))

/-- A context's blower demand as a posting sets it. -/
def State.blowerPosted (s : State) (c : Cav) (d : BlowLevel) : State :=
  (s.modCav c (fun k => { k with blower := d })).modAir (fun a => { a with cavDemand := a.cavDemand.set c d })

theorem blows_postBlower (s : State) (c : Cav) (d : BlowLevel) : Blows (s.blowerPosted c d) (s.postBlower c d) :=
  blows_followDemand _ _

/-! ## Acts on a lock -/

/-- What an act on a lock leaves: all but the loads, the lock and its cavity's notice. -/
structure Bolts (s t : State) : Prop where
  cavs : t.cavs = s.cavs
  windows : t.windows = s.windows
  chans : t.chans = s.chans
  watches : t.watches = s.watches
  banks : t.banks = s.banks
  air : t.air = s.air
  part : t.notices.part = s.notices.part
  cavNotices : ∀ c, s.notices.cav.get c = true → t.notices.cav.get c = true
  events : s.events <+: t.events

theorem Bolts.trans {s t u : State} (h : Bolts s t) (g : Bolts t u) : Bolts s u where
  cavs := g.cavs.trans h.cavs
  windows := g.windows.trans h.windows
  chans := g.chans.trans h.chans
  watches := g.watches.trans h.watches
  banks := g.banks.trans h.banks
  air := g.air.trans h.air
  part := g.part.trans h.part
  cavNotices c x := g.cavNotices c (h.cavNotices c x)
  events := h.events.trans g.events

theorem Bolts.of_loadAct {s t : State} (h : LoadAct s t) : Bolts s t :=
  ⟨h.cavs, h.windows, h.chans, h.watches, h.banks, h.air, by rw [h.notices], fun c x => by rw [h.notices]; exact x, h.events⟩

theorem Bolts.refl (s : State) : Bolts s s := .of_loadAct (LoadAct.refl s)

section
variable {s t : State} (h : Bolts s t) (c : Cav)
include h

theorem Bolts.modLock (f : LockUnit → LockUnit) : Bolts s (t.modLock c f) :=
  h.trans ⟨rfl, rfl, rfl, rfl, rfl, rfl, rfl, fun _ x => x, List.prefix_refl _⟩

theorem Bolts.lockReport (r : LockReport) : Bolts s (t.lockReport c r) :=
  h.trans ⟨rfl, rfl, rfl, rfl, rfl, rfl, rfl, fun _ x => x, List.prefix_append ..⟩

theorem Bolts.setLockState (st : LockState) : Bolts s (t.setLockState c st) := by
  unfold State.setLockState
  split
  · exact h
  · refine (h.modLock c _).trans ⟨rfl, rfl, rfl, rfl, rfl, rfl, rfl, fun d x => ?_, List.prefix_refl _⟩
    show (t.notices.cav.set c true).get d = true
    rw [Two.get_set]
    split
    · rfl
    · exact x

theorem Bolts.startTravel (d : Travel) : Bolts s (t.startTravel c d) := by
  have hrun : Bolts s (((t.modLock c LockUnit.stopTimers).setLockState c (travelState d)).motorRun c d) :=
    ((h.modLock c _).setLockState c _).trans (.of_loadAct ((LoadAct.refl _).motorRun c d))
  unfold State.startTravel State.travelTimers
  split <;> exact hrun.modLock c _

theorem Bolts.endTravel (st : LockState) : Bolts s (t.endTravel c st) :=
  ((h.modLock c _).trans (.of_loadAct ((LoadAct.refl _).motorOff c))).setLockState c st

theorem Bolts.backOffLock (p : Purpose) : Bolts s (t.backOffLock c p) := (h.modLock c _).startTravel c _

theorem Bolts.jamLock (j : Jam) : Bolts s (t.jamLock c j) := by
  unfold State.jamLock
  split
  · exact h
  · exact ((((h.modLock c _).trans (.of_loadAct ((LoadAct.refl _).motorOff c))).modLock c _).setLockState c _).lockReport c _

theorem Bolts.engageLock : Bolts s (t.engageLock c) := by
  unfold State.engageLock
  split
  · split
    · exact (h.setLockState c _).lockReport c _
    · exact (h.modLock c _).startTravel c _
  · split
    · exact (h.setLockState c _).lockReport c _
    · exact (h.modLock c _).startTravel c _
  · exact h
  · exact h.lockReport c _
  · exact ((h.modLock c _).modLock c _).startTravel c _
  · exact h.lockReport c _

theorem Bolts.releaseLock : Bolts s (t.releaseLock c) := by
  have h1 := h.modLock c (fun k => { k with held := false })
  unfold State.releaseLock
  dsimp only
  split
  · exact ((h1.modLock c _).setLockState c _).lockReport c _
  · split
    · exact (h1.modLock c _).backOffLock c _
    · exact (h1.modLock c _).backOffLock c _
    · exact h1.lockReport c _
    · exact h1.backOffLock c _
    · exact h1.backOffLock c _
    · exact h1.modLock c _

theorem Bolts.holdLock : Bolts s (t.holdLock c) := by
  have h1 := h.modLock c (fun k => { k with held := true })
  unfold State.holdLock
  dsimp only
  split
  · exact (h1.modLock c _).startTravel c _
  all_goals exact h1

end

/-! ## Watches -/

section
variable (s : State) (c : Cav)

@[simp] theorem watch_clearWatch (w v : WatchId) : (s.clearWatch w).watch v = if v = w then Watch.clear else s.watch v :=
  Laws.watches_get_put ..

@[simp] theorem watch_endWindow (w : WatchId) : (s.endWindow c).watch w = s.watch w := watch_of_loadAct (loadAct_endWindow s c) w

@[simp] theorem watch_startWindow (target : Int) (w : WatchId) : (s.startWindow c target).watch w = s.watch w :=
  watch_of_loadAct (loadAct_startWindow s c target) w

@[simp] theorem watch_driveFan (level : Nat) (w : WatchId) : (s.driveFan c level).watch w = s.watch w :=
  watch_of_loadAct ((LoadAct.refl s).driveFan c level) w

theorem watch_postBlower (d : BlowLevel) {w : WatchId} (hw : w ≠ .speed) : (s.postBlower c d).watch w = s.watch w :=
  (blows_postBlower s c d).watch w hw

/-- R167: what a posting leaves but for the loads. -/
theorem loadAct_postConverter (d : ConvField) : LoadAct (s.converterPosted c d) (s.postConverter c d) := by
  rw [postConverter_eq]
  exact LoadAct.ite _ (LoadAct.refl _).converterOn (LoadAct.ite _ (LoadAct.refl _).converterOff (LoadAct.refl _))

@[simp] theorem watch_postConverter (d : ConvField) (w : WatchId) : (s.postConverter c d).watch w = s.watch w :=
  watch_of_loadAct (loadAct_postConverter s c d) w

@[simp] theorem watch_setCavState (st : CavState) (w : WatchId) : (s.setCavState c st).watch w = s.watch w := by
  unfold State.setCavState
  split <;> rfl

@[simp] theorem watch_stopHold (w : WatchId) : (s.stopHold c).watch w = s.watch w := rfl

@[simp] theorem watch_emptyStack (w : WatchId) : (s.emptyStack c).watch w = s.watch w := rfl

theorem watch_leaveSegment (w : WatchId) : (s.leaveSegment c).watch w =
    if w = .rise c ∨ w = .goal c then Watch.clear else s.watch w := by
  unfold State.leaveSegment
  by_cases hr : w = .rise c <;> by_cases hg : w = .goal c <;> simp [hr, hg]

@[simp] theorem watch_setReason (r : Reason) (w : WatchId) : (s.setReason c r).watch w = s.watch w := by
  unfold State.setReason State.fillFault
  split <;> rfl

end

/-! ## Loads an act is not about -/

/-- Load `i` has no request waiting, and stands as `Spares` says, its entry too. -/
structure Stands (i : Fin 16) (s t : State) : Prop where
  free : s.freeOf i
  spares : Spares i s t
  entry : ∀ j, t.entry j = s.entry j

theorem Stands.refl {i : Fin 16} {s : State} (h : s.freeOf i) : Stands i s s := ⟨h, Spares.refl i s, fun _ => rfl⟩

theorem Stands.trans {i : Fin 16} {s t u : State} (h : Stands i s t) (g : Stands i t u) : Stands i s u :=
  ⟨h.free, h.spares.trans g.spares, fun j => (g.entry j).trans (h.entry j)⟩

/-- An act of another block. -/
theorem Stands.of_same {i : Fin 16} {s t u : State} (h : Stands i s t) (loads : u.loads = t.loads := by rfl)
    (urgent : u.urgent = t.urgent := by rfl) (normal : u.normal = t.normal := by rfl)
    (grantQueue : u.grantQueue = t.grantQueue := by rfl) : Stands i s u where
  free := h.free
  spares := h.spares.of_same loads urgent normal fun _ m => grantQueue ▸ m
  entry j := by
    rw [← h.entry j]
    unfold State.entry
    rw [loads]

theorem Stands.now_free {i : Fin 16} {s t : State} (h : Stands i s t) : t.freeOf i := h.spares.free h.free

theorem Stands.record {i : Fin 16} {s t : State} (h : Stands i s t) : t.record i = s.record i := h.spares.record h.free

theorem IsOff.stands {i : Fin 16} {s t : State} (h : IsOff i s) (g : Stands i s t) : IsOff i t := h.spared g.spares

theorem IsDriven.stands {i : Fin 16} {level : Nat} {r : LoadRecord} {s t : State} (h : IsDriven i level r s) (g : Stands i s t) :
    IsDriven i level r t := h.spared g.spares

section
variable {i : Fin 16} {s t : State} (h : Stands i s t)
include h

theorem Stands.engineDrive {j : Fin 16} (hj : i ≠ j) (level : Nat) : Stands i s (t.engineDrive j level) :=
  ⟨h.free, h.spares.trans (Spares.engineDrive h.now_free hj level),
    fun k => ((kept_engineDrive (Kept.refl t) j level).entry k).trans (h.entry k)⟩

theorem Stands.engineOff {j : Fin 16} (hj : i ≠ j) : Stands i s (t.engineOff j) :=
  ⟨h.free, h.spares.trans (Spares.engineOff h.now_free hj),
    fun k => ((kept_engineOff (Kept.refl t) j).entry k).trans (h.entry k)⟩

theorem Stands.engineOn {j : Fin 16} (hj : i ≠ j) (level : Nat) : Stands i s (t.engineOn j level) :=
  ⟨h.free, h.spares.trans (Spares.engineOn h.now_free hj level),
    fun k => ((kept_engineOn (Kept.refl t) j level).entry k).trans (h.entry k)⟩

theorem Stands.onLoad {j : Option (Fin 16)} {f : State → Fin 16 → State} (hf : ∀ k, j = some k → Stands i s (f t k)) :
    Stands i s (t.onLoad j f) := by
  cases j with
  | none => exact h
  | some k => exact hf k rfl

theorem Stands.ite {u : State} (p : Prop) [Decidable p] (g : Stands i s u) : Stands i s (if p then t else u) := by
  split <;> assumption

theorem Stands.driveBlower (hc : (s.entry i).cls ≠ .blower) : Stands i s t.driveBlower :=
  h.onLoad fun j hj => h.engineDrive (ne_of_cls (s := t) (by rw [h.entry, cls_of_sharedLoad hj]; exact hc)) _

theorem Stands.setWatch (w : WatchId) (side : Side) (level : Int) : Stands i s (t.setWatch w side level) := by
  rw [setWatch_eq]
  exact h.of_same

theorem Stands.clearWatch (w : WatchId) : Stands i s (t.clearWatch w) := h.of_same

theorem Stands.aimSpeed : Stands i s t.aimSpeed := by
  unfold State.aimSpeed
  exact (h.clearWatch _).ite _ (h.setWatch ..)

theorem Stands.stallAtLevel : Stands i s t.stallAtLevel := by
  unfold State.stallAtLevel
  exact (h.of_same.ite _ h.of_same).ite _ (h.of_same.ite _ h)

theorem Stands.setLevel (hc : (s.entry i).cls ≠ .blower) (l : BlowLevel) : Stands i s (t.setLevel l) := by
  have hl : Stands i s (t.modAir (fun a => { a with level := l })) := h.of_same
  unfold State.setLevel
  exact h.ite _ (hl.driveBlower hc).aimSpeed.stallAtLevel

theorem Stands.followDemand (hc : (s.entry i).cls ≠ .blower) (before : BlowLevel) : Stands i s (t.followDemand before) := by
  have hr : Stands i s (t.modAir (fun a => { a with runOn := none })) := h.of_same
  unfold State.followDemand
  exact h.ite _ (((h.setLevel hc _).ite _ (h.setLevel hc _).of_same).ite _ (hr.setLevel hc _))

theorem Stands.postBlower (hc : (s.entry i).cls ≠ .blower) (c : Cav) (d : BlowLevel) : Stands i s (t.postBlower c d) := by
  have hp : Stands i s (t.blowerPosted c d) := h.of_same
  exact hp.followDemand hc _

theorem Stands.postConverter (hc : (s.entry i).cls ≠ .converter) (c : Cav) (d : ConvField) : Stands i s (t.postConverter c d) := by
  have hp : Stands i s (t.converterPosted c d) := h.of_same
  have hne {j : Fin 16} (hj : (t.converterPosted c d).sharedLoad .converter = some j) : i ≠ j :=
    ne_of_cls (s := t.converterPosted c d) (by rw [hp.entry, cls_of_sharedLoad hj]; exact hc)
  rw [postConverter_eq]
  exact (hp.onLoad fun j hj => hp.engineOn (hne hj) 100).ite _ ((hp.onLoad fun j hj => hp.engineOff (hne hj)).ite _ hp)

theorem Stands.driveFan (hc : (s.entry i).cls ≠ .fan) (c : Cav) (level : Nat) : Stands i s (t.driveFan c level) :=
  h.onLoad fun j hj => h.engineDrive (ne_of_cls (s := t) (by rw [h.entry, (entry_of_cavLoad hj).1]; exact hc)) _

theorem Stands.heatersOff (hc : (s.entry i).cls ≠ .heater) (c : Cav) : Stands i s (t.heatersOff c) := by
  unfold State.heatersOff
  generalize positions = ps
  induction ps generalizing t with
  | nil => exact h
  | cons p ps ih =>
    refine ih (h.onLoad fun j hj => h.engineOff (ne_of_cls (s := t) ?_))
    rw [h.entry, (entry_of_heater hj).1]
    exact hc

theorem Stands.endWindow (hc : (s.entry i).cls ≠ .heater) (c : Cav) : Stands i s (t.endWindow c) := by
  have hw : Stands i s (t.windowEnded c) := h.of_same
  exact hw.heatersOff hc c

theorem Stands.setCavState (c : Cav) (st : CavState) : Stands i s (t.setCavState c st) := by
  unfold State.setCavState
  exact h.ite _ h.of_same

theorem Stands.modCav (c : Cav) (f : CavCtx → CavCtx) : Stands i s (t.modCav c f) := h.of_same

theorem Stands.setReason (c : Cav) (r : Reason) : Stands i s (t.setReason c r) := by
  unfold State.setReason State.fillFault
  exact h.of_same.ite _ h.of_same

theorem Stands.motorRun (hc : (s.entry i).cls ≠ .lock) (c : Cav) (d : Travel) : Stands i s (t.motorRun c d) :=
  h.onLoad fun j hj => h.engineOn (ne_of_cls (s := t) (by rw [h.entry, (entry_of_cavLoad hj).1]; exact hc)) _

theorem Stands.setLockState (c : Cav) (st : LockState) : Stands i s (t.setLockState c st) := by
  unfold State.setLockState
  exact h.ite _ h.of_same

theorem Stands.startTravel (hc : (s.entry i).cls ≠ .lock) (c : Cav) (d : Travel) : Stands i s (t.startTravel c d) := by
  have h0 : Stands i s (t.modLock c LockUnit.stopTimers) := h.of_same
  have hrun := (h0.setLockState c (travelState d)).motorRun hc c d
  unfold State.startTravel State.travelTimers
  split <;> exact hrun.of_same

theorem Stands.holdLock (hc : (s.entry i).cls ≠ .lock) (c : Cav) : Stands i s (t.holdLock c) := by
  have h1 : Stands i s (t.modLock c (fun k => { k with held := true })) := h.of_same
  have h2 : Stands i s ((t.modLock c (fun k => { k with held := true })).setPurpose c .noPurpose) := h1.of_same
  unfold State.holdLock
  dsimp only
  split
  · exact h2.startTravel hc c _
  all_goals exact h1

end

/-! ## Loads an act switches off or drives -/

/-- R61: every HEATER of the cavity is switched off. -/
theorem isOff_heatersOff {s : State} {c : Cav} {p : HeatPos} {i : Fin 16} (hi : s.heater c p = some i) :
    IsOff i (s.heatersOff c) := by
  have hoff : ∀ (ps : List HeatPos) (t : State), (∀ j, t.entry j = s.entry j) → p ∈ ps ∨ IsOff i t →
      IsOff i (ps.foldl (fun s p => s.onLoad (s.heater c p) State.engineOff) t) := by
    intro ps
    induction ps with
    | nil => exact fun t _ h => h.resolve_left (by simp)
    | cons q ps ih =>
      intro t he h
      have hk := kept_onLoad (Kept.refl t) (t.heater c q) State.engineOff fun _ => kept_engineOff (Kept.refl t) _
      refine ih _ (fun j => (hk.entry j).trans (he j)) ?_
      rcases h with hm | ho
      · rcases List.mem_cons.1 hm with rfl | hm
        · right
          have hp : t.heater c p = some i := (heater_of_entry he ..).trans hi
          show IsOff i (t.onLoad (t.heater c p) State.engineOff)
          rw [hp]
          exact isOff_engineOff t i
        · exact .inl hm
      · right
        show IsOff i (t.onLoad (t.heater c q) State.engineOff)
        cases t.heater c q with
        | none => exact ho
        | some j => exact ho.engineOff j
  exact hoff positions s (fun _ => rfl) (.inl (by cases p <;> decide))

theorem isOff_endWindow {s : State} {c : Cav} {p : HeatPos} {i : Fin 16} (hi : s.heater c p = some i) :
    IsOff i (s.endWindow c) := isOff_heatersOff (s := s.windowEnded c) hi

theorem driveFan_of_load {s : State} {c : Cav} {i : Fin 16} (hi : s.cavLoad c .fan = some i) (level : Nat) :
    s.driveFan c level = s.engineDrive i level := by
  unfold State.driveFan
  rw [hi]
  rfl

end Sys2Proof.Machine
end

