-- ==== Sys2Proof/Proofs/Ends.lean ====
section
/-! PROOFS. The end of a cycle, the taking of a cause and the zero-time segments (R106, R114, R115, R118, R133, R136, R138): O44,
O46, O47. -/

namespace Sys2Proof.Machine

-- One proof at a time: proofs elaborated side by side ask for more threads than the check's memory limit leaves room for.
set_option Elab.async false

/-! ## A load asked for, while the blower moves -/

theorem Asks.of_loads {i : Fin 16} {level : Nat} {s t : State} (h : Asks i level s) (hc : (s.entry i).cls ≠ .heater)
    (loads : t.loads = s.loads := by rfl) (grantQueue : t.grantQueue = s.grantQueue := by rfl) : Asks i level t where
  sound := by rw [record_of_loads loads]; exact h.sound
  check := heaterCheck_of_not_heater (by unfold State.entry; rw [loads]; exact hc)
  grant := by rw [record_of_loads loads, grantQueue]; exact h.grant

theorem loads_setWatch (s : State) (w : WatchId) (side : Side) (level : Int) : (s.setWatch w side level).loads = s.loads := by
  rw [setWatch_eq]
  rfl

theorem grantQueue_setWatch (s : State) (w : WatchId) (side : Side) (level : Int) :
    (s.setWatch w side level).grantQueue = s.grantQueue := by
  rw [setWatch_eq]
  rfl

section
variable {i : Fin 16} {level : Nat} {s : State} (h : Asks i level s) (hh : (s.entry i).cls ≠ .heater)
  (hb : (s.entry i).cls ≠ .blower)
include h hh

theorem Asks.aimSpeed : Asks i level s.aimSpeed := by
  unfold State.aimSpeed
  split
  · exact h.of_loads hh
  · exact h.of_loads hh (loads_setWatch ..) (grantQueue_setWatch ..)

theorem Asks.stallAtLevel : Asks i level s.stallAtLevel := by
  unfold State.stallAtLevel
  (repeat' split)
  · exact h.of_loads hh
  · exact h.of_loads hh
  · exact h.of_loads hh
  · exact h

include hb

omit hh in
theorem Asks.driveBlower : Asks i level s.driveBlower := by
  unfold State.driveBlower State.onLoad
  split
  · rename_i j hj
    exact h.engineDrive (ne_of_cls (by rw [cls_of_sharedLoad hj]; exact hb)) _
  · exact h

theorem Asks.setLevel (l : BlowLevel) : Asks i level (s.setLevel l) := by
  unfold State.setLevel
  split
  · exact h
  · have hl : Asks i level (s.modAir (fun a => { a with level := l })) := h.of_loads hh
    have hd := hl.driveBlower hb
    have he : ∀ k, (s.modAir (fun a => { a with level := l })).driveBlower.entry k = s.entry k :=
      (kept_driveBlower (Kept.refl (s.modAir (fun a => { a with level := l })))).entry
    have ha := hd.aimSpeed (by rw [he]; exact hh)
    refine ha.stallAtLevel ?_
    rw [(kept_aimSpeed (Kept.refl _)).entry, he]
    exact hh

theorem Asks.followDemand (before : BlowLevel) : Asks i level (s.followDemand before) := by
  unfold State.followDemand
  dsimp only
  split
  · exact h
  · split
    · split
      · exact h.setLevel hh hb _
      · refine (h.setLevel hh hb _).of_loads ?_
        rw [(kept_setLevel (Kept.refl s) _).entry]
        exact hh
    · have hr : Asks i level (s.modAir (fun a => { a with runOn := none })) := h.of_loads hh
      exact hr.setLevel hh hb _

theorem Asks.postBlower (c : Cav) (d : BlowLevel) : Asks i level (s.postBlower c d) := by
  have hp : Asks i level (s.blowerPosted c d) := h.of_loads hh
  exact hp.followDemand hh hb _

end

/-! ## Entering COOLDOWN (R118 steps 5 to 8) -/

/-- COOLDOWN's outputs: the converter's demand withdrawn, the fan driven. -/
def State.cooled (s : State) (c : Cav) : State := (s.postConverter c .off).driveFan c (s.coolFan c)

/-- COOLDOWN's state, and the demand for air. -/
def State.cooling (s : State) (c : Cav) (level : Int) : State :=
  ((((s.postBlower c .high).setCavState c .cooldown)).modCav c (fun k => { k with dwell := none })).setWatch (.release c)
    .atOrBelow level

theorem enterCooldown_eq (s : State) (c : Cav) : s.enterCooldown c = (s.cooled c).cooling c (s.releaseTemp c) := rfl

section
variable (s : State) (c : Cav)

@[simp] theorem windows_setWatch (w : WatchId) (side : Side) (level : Int) :
    (s.setWatch w side level).windows = s.windows := by
  rw [setWatch_eq]
  rfl

@[simp] theorem air_setWatch (w : WatchId) (side : Side) (level : Int) : (s.setWatch w side level).air = s.air := by
  rw [setWatch_eq]
  rfl

@[simp] theorem notices_setWatch (w : WatchId) (side : Side) (level : Int) :
    (s.setWatch w side level).notices = s.notices := by
  rw [setWatch_eq]
  rfl

@[simp] theorem windows_setCavState (st : CavState) : (s.setCavState c st).windows = s.windows := by
  unfold State.setCavState
  split <;> rfl

@[simp] theorem air_setCavState (st : CavState) : (s.setCavState c st).air = s.air := by
  unfold State.setCavState
  split <;> rfl

@[simp] theorem events_setCavState (st : CavState) : (s.setCavState c st).events = s.events := by
  unfold State.setCavState
  split <;> rfl

theorem windows_cooled : (s.cooled c).windows = s.windows :=
  ((LoadAct.refl _).driveFan c _).windows.trans (loadAct_postConverter s c .off).windows

theorem air_cooled : (s.cooled c).air = (s.converterPosted c .off).air :=
  ((LoadAct.refl _).driveFan c _).air.trans (loadAct_postConverter s c .off).air

theorem convCav_converterPosted (d : ConvField) : (s.converterPosted c d).air.convCav = s.air.convCav.set c d := rfl

theorem windows_cooling (level : Int) : (s.cooling c level).windows = s.windows := by
  unfold State.cooling
  rw [windows_setWatch, windows_modCav, windows_setCavState]
  exact (blows_postBlower s c .high).windows

theorem cavDemand_cooling (level : Int) : (s.cooling c level).air.cavDemand = s.air.cavDemand.set c .high := by
  unfold State.cooling
  rw [air_setWatch, air_modCav, air_setCavState]
  exact (blows_postBlower s c .high).cavDemand

theorem convCav_cooling (level : Int) : (s.cooling c level).air.convCav = s.air.convCav := by
  unfold State.cooling
  rw [air_setWatch, air_modCav, air_setCavState]
  exact (blows_postBlower s c .high).convCav

theorem windows_enterCooldown : (s.enterCooldown c).windows = s.windows :=
  (windows_cooling (s.cooled c) c _).trans (windows_cooled s c)

theorem demands_enterCooldown : (s.enterCooldown c).air.cavDemand.get c = .high ∧ (s.enterCooldown c).air.convCav.get c = .off := by
  have h1 := cavDemand_cooling (s.cooled c) c (s.releaseTemp c)
  have h2 := convCav_cooling (s.cooled c) c (s.releaseTemp c)
  rw [air_cooled, convCav_converterPosted] at h2
  rw [enterCooldown_eq, h1, h2]
  exact ⟨Two.get_set_self _ c _, Two.get_set_self _ c _⟩

theorem watch_enterCooldown {w : WatchId} (hs : w ≠ .speed) (hr : w ≠ .release c) : (s.enterCooldown c).watch w = s.watch w := by
  rw [enterCooldown_eq]
  unfold State.cooling
  rw [Laws.setWatch_watch, if_neg hr]
  simp [watch_postBlower _ _ _ hs, State.cooled]

/-- A context whose state changes has its notice pending. -/
theorem notice_enterCooldown (h : (s.cav c).state ≠ .cooldown) : (s.enterCooldown c).notices.cav.get c = true := by
  rw [enterCooldown_eq]
  unfold State.cooling
  rw [notices_setWatch]
  refine (setCavState_flags _ c .cooldown).2 ?_
  simpa [State.cooled] using h.symm

theorem watch_enterCooldown_release : (s.enterCooldown c).watch (.release c) = {
    side := .atOrBelow, level := s.releaseTemp c
    state := if confirmedOn (s.channel (.probe c)) .atOrBelow (s.releaseTemp c) then .met else .notMet } := by
  have hch : ((((s.cooled c).postBlower c .high).setCavState c .cooldown).modCav c (fun k => { k with dwell := none })).chans =
      s.chans := by
    have h1 := (apart_setCavState (apart_postBlower (Apart.refl c c (s.cooled c)) .high) .cooldown).chans
    exact h1.trans (apart_driveFan (apart_postConverter (Apart.refl c c s) .off) c _).chans
  rw [enterCooldown_eq]
  unfold State.cooling
  rw [Laws.setWatch_watch, if_pos rfl, channel_of_chans hch]
  rfl

end

section
variable {s t : State} {i : Fin 16} (h : Stands i s t) (hb : (s.entry i).cls ≠ .blower)
include h hb

theorem Stands.cooling (c : Cav) (level : Int) : Stands i s (t.cooling c level) := by
  have hm : Stands i s ((((t.postBlower c .high).setCavState c .cooldown)).modCav c (fun k => { k with dwell := none })) :=
    ((h.postBlower hb c .high).setCavState c .cooldown).of_same
  exact hm.setWatch ..

theorem Stands.enterCooldown (hf : (s.entry i).cls ≠ .fan) (hv : (s.entry i).cls ≠ .converter) (c : Cav) :
    Stands i s (t.enterCooldown c) := by
  rw [enterCooldown_eq]
  exact ((h.postConverter hv c .off).driveFan hf c _).cooling hb c _

end

theorem Asks.cooling {i : Fin 16} {level : Nat} {s : State} (h : Asks i level s) (hh : (s.entry i).cls ≠ .heater)
    (hb : (s.entry i).cls ≠ .blower) (c : Cav) (l : Int) : Asks i level (s.cooling c l) := by
  have hp := h.postBlower hh hb c .high
  have he : ((s.postBlower c .high).entry i).cls ≠ .heater := by
    rw [(kept_postBlower (Kept.refl s) c .high).entry]
    exact hh
  have hl : ((s.postBlower c .high).setCavState c .cooldown).loads = (s.postBlower c .high).loads := by
    unfold State.setCavState
    split <;> rfl
  have hg : ((s.postBlower c .high).setCavState c .cooldown).grantQueue = (s.postBlower c .high).grantQueue := by
    unfold State.setCavState
    split <;> rfl
  exact hp.of_loads he ((loads_setWatch ..).trans hl) ((grantQueue_setWatch ..).trans hg)

theorem mem_events_cooling {s : State} {e : Event} (h : e ∈ s.events) (he : isWatchEvent .speed e = false) (c : Cav) (l : Int) :
    e ∈ (s.cooling c l).events := by
  unfold State.cooling
  rw [setWatch_eq]
  refine List.mem_append_left _ ?_
  simp only [events_modCav, events_setCavState]
  exact (blows_postBlower s c .high).events e h he

/-! ## The end of a cycle (R118) -/

/-- R118 step 1. -/
def State.ending (s : State) (c : Cav) (r : Reason) : State :=
  if r = .complete then s.modCav c (fun k => { k with reason := r }) else s.setReason c r

theorem endCycle_eq (s : State) (c : Cav) (r : Reason) : s.endCycle c r = ((s.ending c r).endRun c).enterCooldown c := rfl

theorem kept_ending (s : State) (c : Cav) (r : Reason) : Kept s (s.ending c r) := by
  unfold State.ending
  exact kept_ite _ (kept_modCav (Kept.refl s) c _ fun x => x) (kept_setReason (Kept.refl s) c r)

theorem stands_ending {s : State} {i : Fin 16} (h : s.freeOf i) (c : Cav) (r : Reason) : Stands i s (s.ending c r) := by
  unfold State.ending
  exact ((Stands.refl h).modCav c _).ite _ ((Stands.refl h).setReason c r)

/-- R118 steps 3 and 4. -/
def State.restored (s : State) (c : Cav) (elapsed : Elapsed → Elapsed) : State :=
  (((s.emptyStack c).leaveSegment c).modCav c (fun k => { k with elapsed := elapsed k.elapsed })).clearWatch (.ceiling c)

theorem endRun_eq (s : State) (c : Cav) : s.endRun c = (s.endWindow c).restored c (stopElapsed s.now) := rfl

theorem field_restored {α : Type} (s : State) (c : Cav) (f : Elapsed → Elapsed) (g : State → α)
    (hc : ∀ (t : State) (f : CavCtx → CavCtx), g (t.modCav c f) = g t) (hw : ∀ (t : State) (w : WatchId), g (t.clearWatch w) = g t)
    (hp : ∀ (t : State) (p : Event → Bool), g (t.purge p) = g t) : g (s.restored c f) = g s := by
  simp only [State.restored, State.emptyStack, State.leaveSegment, State.stopHold, hc, hw, hp]

theorem Stands.restored {s t : State} {i : Fin 16} (h : Stands i s t) (c : Cav) (f : Elapsed → Elapsed) :
    Stands i s (t.restored c f) :=
  h.of_same (field_restored t c f State.loads (fun _ _ => rfl) (fun _ _ => rfl) fun _ _ => rfl)
    (field_restored t c f State.urgent (fun _ _ => rfl) (fun _ _ => rfl) fun _ _ => rfl)
    (field_restored t c f State.normal (fun _ _ => rfl) (fun _ _ => rfl) fun _ _ => rfl)
    (field_restored t c f State.grantQueue (fun _ _ => rfl) (fun _ _ => rfl) fun _ _ => rfl)

theorem windows_restored (s : State) (c : Cav) (f : Elapsed → Elapsed) : (s.restored c f).windows = s.windows :=
  field_restored s c f State.windows (fun _ _ => rfl) (fun _ _ => rfl) fun _ _ => rfl

theorem stands_endRun {s t : State} {i : Fin 16} (h : Stands i s t) (hh : (s.entry i).cls ≠ .heater) (c : Cav) :
    Stands i s (t.endRun c) := by
  rw [endRun_eq]
  exact (h.endWindow hh c).restored c _

theorem isOff_endRun {s : State} {c : Cav} {p : HeatPos} {i : Fin 16} (hi : s.heater c p = some i) : IsOff i (s.endRun c) := by
  have ho := isOff_endWindow hi
  rw [endRun_eq]
  exact ho.stands ((Stands.refl ho.free).restored c _)

/-- How a cycle that ends leaves the rest of its cavity: the window ended, the watches cleared, the demands posted. -/
theorem endCycle_facts (s : State) (c : Cav) (r : Reason) (h : (s.cav c).state = .run) :
    let u := s.endCycle c r
    (u.window c).running = false ∧ (∀ p, (u.window c).offMark.get p = none) ∧
      (u.watch (.goal c)).state = .cleared ∧ (u.watch (.rise c)).state = .cleared ∧ (u.watch (.ceiling c)).state = .cleared ∧
      u.notices.cav.get c = true ∧ u.air.cavDemand.get c = .high ∧ u.air.convCav.get c = .off := by
  intro u
  let v := (s.ending c r).endRun c
  have hw : u.window c = ((s.ending c r).endWindow c).window c := by
    have h1 : u.windows = v.windows := windows_enterCooldown v c
    have h2 : v.windows = ((s.ending c r).endWindow c).windows := windows_restored _ c _
    unfold State.window
    rw [h1, h2]
  have hwin : u.window c = { (s.ending c r).window c with
      running := false, offMark := { top := none, bottom := none, rear := none } } := by
    rw [hw]
    unfold State.window
    rw [(loadAct_endWindow (s.ending c r) c).windows]
    exact Two.get_set_self ..
  have hcl (w : WatchId) (hs : w ≠ .speed) (hr : w ≠ .release c) (hc : w = .goal c ∨ w = .rise c ∨ w = .ceiling c) :
      (u.watch w).state = .cleared := by
    have hv : u.watch w = v.watch w := watch_enterCooldown v c hs hr
    rw [hv]
    rcases hc with rfl | rfl | rfl <;> simp [v, State.endRun, watch_leaveSegment, Watch.clear]
  have hstate : (v.cav c).state = .run := by
    simp only [v, cav_endRun, if_true]
    unfold State.ending
    split <;> simp [h]
  refine ⟨by rw [hwin], fun p => by rw [hwin]; cases p <;> rfl, hcl _ nofun nofun (.inl rfl), hcl _ nofun nofun (.inr (.inl rfl)),
    hcl _ nofun nofun (.inr (.inr rfl)), notice_enterCooldown v c (by rw [hstate]; decide), demands_enterCooldown v c⟩

/-- R118 with R49: every HEATER of the cavity is switched off. -/
theorem isOff_endCycle_heater {s : State} {c : Cav} {p : HeatPos} {i : Fin 16} (hi : s.heater c p = some i) (r : Reason) :
    IsOff i (s.endCycle c r) := by
  have he := (kept_ending s c r).entry
  have ho : IsOff i ((s.ending c r).endRun c) := isOff_endRun ((heater_of_entry he c p).trans hi)
  have hcls : (((s.ending c r).endRun c).entry i).cls = .heater := by
    rw [(kept_endRun (kept_ending s c r) c).entry, (entry_of_heater hi).1]
  exact ho.stands ((Stands.refl ho.free).enterCooldown (by rw [hcls]; decide) (by rw [hcls]; decide) (by rw [hcls]; decide) c)

/-- COOLDOWN with the cavity's fan. -/
theorem enterCooldown_of_fan {s : State} {c : Cav} {i : Fin 16} (hi : s.cavLoad c .fan = some i) :
    s.enterCooldown c = ((s.postConverter c .off).engineDrive i (s.coolFan c)).cooling c (s.releaseTemp c) := by
  have h : (s.postConverter c .off).cavLoad c .fan = some i :=
    (cavLoad_of_entry (kept_postConverter (Kept.refl s) c .off).entry c .fan).trans hi
  rw [enterCooldown_eq]
  unfold State.cooled
  rw [driveFan_of_load h]

/-- R118 with R48 and R49: the fan at COOLDOWN's fan level, in a cavity whose act before it left the fan's load alone. -/
theorem fan_enterCooldown {s v : State} {c : Cav} {i : Fin 16} {n : Nat} (k : Kept s v) (hi : s.cavLoad c .fan = some i)
    (hn : v.coolFan c = n) :
    let u := v.enterCooldown c
    (n = 0 → (u.record i).commanded = some 0 ∧ ((u.record i).confirmed = some 0 ∨ QItem.drive i 0 false ∈ u.urgent)) ∧
      (0 < n → Stands i s v →
        let l := if (s.entry i).kind = .switched then 100 else n
        ((s.record i).grant = .held → (u.record i).owner = .engine ∧ ((s.record i).standsAt l = false →
          (u.record i).commanded = some l ∧ QItem.drive i l false ∈ u.normal)) ∧
        ((s.record i).grant = .noGrant → (s.record i).fault = .noFault →
          (u.record i).grant = .held ∨ (u.record i).grant = .waiting) ∧
        ((s.record i).grant = .noGrant → (s.record i).fault ≠ .noFault →
          u.record i = s.record i ∧ Event.loadFault i ∈ u.events)) := by
  intro u
  subst hn
  let x := v.postConverter c .off
  let w := x.engineDrive i (v.coolFan c)
  have hu : u = w.cooling c (v.releaseTemp c) := enterCooldown_of_fan ((cavLoad_of_entry k.entry c .fan).trans hi)
  have kx : Kept s x := kept_postConverter k c .off
  have kw : Kept s w := kept_engineDrive kx i _
  have hcls := (entry_of_cavLoad hi).1
  have hw : (w.entry i).cls = .fan := by rw [kw.entry]; exact hcls
  have hx : x.entry i = s.entry i := kx.entry i
  have hbx : budgeted (x.entry i).cls = true := by rw [hx, hcls]; rfl
  have hcx : x.heaterCheck i = true := heaterCheck_of_not_heater (by rw [hx, hcls]; decide)
  refine ⟨fun h0 => ?_, fun hpos hst => ?_⟩
  · have ho : IsOff i w := by
      show IsOff i (x.engineDrive i (v.coolFan c))
      rw [h0]
      exact isOff_engineOff x i
    have hf := ho.stands ((Stands.refl ho.free).cooling (by rw [hw]; decide) c (v.releaseTemp c))
    rw [← hu] at hf
    exact ⟨hf.commanded, hf.queued.imp_right And.left⟩
  · have hsx : Stands i s x := hst.postConverter (by rw [hcls]; decide) c .off
    refine ⟨fun hg => ?_, fun hg hs => ?_, fun hg hs => ?_⟩
    · have hd := isDriven_engineDrive hbx hpos hsx.now_free (by rw [hsx.record]; exact hg) hcx
      have hf := hd.stands ((Stands.refl hd.free).cooling (by rw [hw]; decide) c (v.releaseTemp c))
      rw [← hu, hsx.record, hx] at hf
      exact ⟨hf.owner, hf.driven⟩
    · have ha := asks_engineDrive hbx hpos (by rw [hsx.record]; exact hg) (by rw [hsx.record]; exact hs) hcx
      have hf := ha.cooling (by rw [hw]; decide) (by rw [hw]; decide) c (v.releaseTemp c)
      rw [← hu] at hf
      exact hf.grant.imp_right And.left
    · have hr : w = x.emit (.loadFault i) :=
        (engineDrive_refused hbx hpos (by rw [hsx.record]; exact hg) (by rw [hsx.record]; exact hs)).trans
          (congrArg _ (faultReport_of_not_converter (by rw [hx, hcls]; decide)))
      have hsw : Stands i s w := by rw [hr]; exact hsx.of_same
      have hsu := hsw.cooling (by rw [hcls]; decide) c (v.releaseTemp c)
      have hm : Event.loadFault i ∈ w.events := by rw [hr]; exact List.mem_append_right _ (List.mem_singleton.2 rfl)
      rw [hu]
      exact ⟨hsu.record, mem_events_cooling hm rfl c _⟩

theorem bank_endRun_ending (s : State) (c : Cav) (r : Reason) : (((s.ending c r).endRun c).cav c).bank = (s.cav c).bank := by
  unfold State.ending
  split <;> simp

theorem coolFan_eq (s : State) (c : Cav) :
    s.coolFan c = match (s.cav c).bank with | some b => (s.bank b).limits.coolFan | none => 100 := by
  unfold State.coolFan State.limitsOfCav
  cases (s.cav c).bank <;> rfl

theorem releaseTemp_eq (s : State) (c : Cav) :
    s.releaseTemp c = match (s.cav c).bank with | some b => (s.bank b).limits.release | none => 300 := by
  unfold State.releaseTemp State.limitsOfCav
  cases (s.cav c).bank <;> rfl

/-- Settles O46. -/
theorem endedCycleCoolsDown : Obligations.EndedCycleCoolsDown := by
  refine ⟨fun s c r h => ?items, fun s c r h => ?outputs, fun s c since l h he hl => ?overtime⟩
  case items =>
    have hc := cav_endCycle s c r
    obtain ⟨hrun, hmark, hgoal, hrise, hceil, hnote, hblow, hconv⟩ := endCycle_facts s c r h
    refine ⟨by rw [hc], by rw [hc], by rw [hc], by rw [hc], by rw [hc], by rw [hc], by rw [hc], by rw [hc], by rw [hc],
      by rw [hc]; rfl, by rw [hc], by rw [hc], by rw [hc], by rw [hc], fun hf hr => ?_, fun hf => ?_, hrun, hmark, hgoal, hrise,
      hceil, hnote, hblow, hconv⟩
    · rw [hc]
      exact if_pos ⟨hr, by rw [hf]; rfl⟩
    · rw [hc]
      refine if_neg fun ⟨hr, hn⟩ => ?_
      exact hf.elim (fun hf => hf (Option.isNone_iff_eq_none.1 hn)) hr
  case outputs =>
    intro u level fan
    have kv : Kept s ((s.ending c r).endRun c) := kept_endRun (kept_ending s c r) c
    have hlim := limitsOfCav_of_kept kv (bank_endRun_ending s c r)
    have hlevel : ((s.ending c r).endRun c).releaseTemp c = level := by
      have h1 : ((s.ending c r).endRun c).releaseTemp c = s.releaseTemp c := by unfold State.releaseTemp; rw [hlim]
      exact h1.trans (releaseTemp_eq s c)
    have hfan : ((s.ending c r).endRun c).coolFan c = fan := by
      have h1 : ((s.ending c r).endRun c).coolFan c = s.coolFan c := by unfold State.coolFan; rw [hlim]
      exact h1.trans (coolFan_eq s c)
    have hch : ((s.ending c r).endRun c).chans = s.chans := by
      refine (apart_endRun (Apart.refl c c (s.ending c r))).chans.trans ?_
      unfold State.ending
      split
      · rfl
      · exact (apart_setReason (Apart.refl c c s) r).chans
    refine ⟨?_, fun p i hi => ?_, fun i hi => ?_⟩
    · have hw := watch_enterCooldown_release ((s.ending c r).endRun c) c
      rw [hlevel, channel_of_chans hch] at hw
      exact hw
    · have ho := isOff_endCycle_heater hi r
      exact ⟨ho.commanded, ho.queued.imp_right And.left, ho.free⟩
    · have hcls := (entry_of_cavLoad hi).1
      obtain ⟨hzero, hpos⟩ := fan_enterCooldown kv hi hfan
      refine ⟨hzero, fun h0 hf => ?_⟩
      have hs : Stands i s (s.ending c r) := stands_ending hf c r
      exact hpos h0 (stands_endRun hs (by rw [hcls]; decide) c)
  case overtime =>
    refine answers_of_effect nofun nofun h ?_
    have ho : s.overtimeAt c = some (since + seconds l.maxCycle) := by
      unfold State.overtimeAt
      rw [he, hl]
      rfl
    exact expire_of_running (s := s) ho (fun s => s.endCycle c .overtime)

/-! ## Taking a cause (R133, R136) -/

/-- R133 steps 1 and 2: the cause is no longer pending, and counted. -/
def State.counted (s : State) (c : Cav) (a : Cause) : State :=
  (s.setPending c a false).modCav c (fun k => { k with counts := k.counts.set a.index (k.counts.get a.index + 1) })

theorem takeCause_eq {s : State} {c : Cav} {b : BankId} (hb : (s.cav c).bank = some b) (a : Cause) (r : Nat × Resume) :
    s.takeCause c a r =
      if (s.bank b).limits.causeLimit.get a.index < (s.cav c).counts.get a.index + 1 then
        ((s.counted c a).endCycle c .causeLimit, none)
      else if (s.bank b).causes.get a.index = 0xFF then ((s.counted c a).endCycle c .unhandled, none)
      else if 4 ≤ (s.cav c).stack.length then ((s.counted c a).endCycle c .stackFull, none)
      else ((s.counted c a).pushCause c a r, some ((s.bank b).causes.get a.index).toNat) := by
  have hbank : ((s.counted c a).cav c).bank = some b := by simp [State.counted, State.setPending, hb]
  have hcount : ((s.counted c a).cav c).counts.get a.index = (s.cav c).counts.get a.index + 1 := by
    simp [State.counted, State.setPending, Vector.get_eq_getElem]
  have hstack : ((s.counted c a).cav c).stack = (s.cav c).stack := by simp [State.counted, State.setPending]
  have h : s.takeCause c a r = match ((s.counted c a).cav c).bank with
    | none => (s.counted c a, none)
    | some b =>
      if ((s.counted c a).bank b).limits.causeLimit.get a.index < ((s.counted c a).cav c).counts.get a.index then
        ((s.counted c a).endCycle c .causeLimit, none)
      else if ((s.counted c a).bank b).causes.get a.index = 0xFF then ((s.counted c a).endCycle c .unhandled, none)
      else if 4 ≤ ((s.counted c a).cav c).stack.length then ((s.counted c a).endCycle c .stackFull, none)
      else ((s.counted c a).pushCause c a r, some (((s.counted c a).bank b).causes.get a.index).toNat) := rfl
  rw [h, hbank]
  dsimp only
  rw [hcount, hstack]
  rfl

/-- R133 step 4: how a cause that is taken leaves its context. -/
theorem cav_pushCause (s : State) (c : Cav) (a : Cause) (r : Nat × Resume) : (s.pushCause c a r).cav c = { s.cav c with
    long := none, short := none, litWait := false, hold := .stopped
    stack := { segment := r.1, cause := a, longLeft := r.2.1, holdLeft := r.2.2 } :: (s.cav c).stack } := by
  simp [State.pushCause]

theorem index_injective {a d : Cause} (h : d ≠ a) : d.index ≠ a.index := by
  intro he
  cases a <;> cases d <;> first | exact h rfl | cases he

theorem counts_counted (s : State) (c : Cav) (a d : Cause) : ((s.counted c a).cav c).counts.get d.index =
    if d = a then (s.cav c).counts.get a.index + 1 else (s.cav c).counts.get d.index := by
  by_cases hd : d = a
  · subst hd
    simp [State.counted, State.setPending, Vector.get_eq_getElem]
  · have hi : (a.index : Nat) ≠ d.index := fun h => index_injective hd (Fin.ext h.symm)
    simp [State.counted, State.setPending, Vector.get_eq_getElem, hd, Vector.getElem_set_ne, hi]

/-- Settles O47: each outcome is a branch of the taking. -/
theorem causeIsCountedThenVectored : Obligations.CauseIsCountedThenVectored := by
  intro s c a r b hrun hb u n limit v
  have hu : u = _ := takeCause_eq hb a r
  have hcounts : ∀ d, (u.1.cav c).counts.get d.index =
      if d = a then (s.cav c).counts.get a.index + 1 else (s.cav c).counts.get d.index := by
    intro d
    rw [← counts_counted, hu]
    (repeat' split) <;> first | rw [cav_endCycle] | rw [cav_pushCause]
  have hend (r : Reason) : (((s.counted c a).endCycle c r).cav c).state = .cooldown ∧
      (((s.counted c a).endCycle c r).cav c).reason = r := by rw [cav_endCycle]; exact ⟨rfl, rfl⟩
  refine ⟨⟨(hcounts a).trans (if_pos rfl), fun d hd => (hcounts d).trans (if_neg hd)⟩, fun h => ?_, fun h hv => ?_,
    fun h hv hs => ?_, fun h hv hs => ?_⟩
  · rw [hu, if_pos h]
    exact ⟨rfl, hend _⟩
  · rw [hu, if_neg (not_lt.2 h), if_pos hv]
    exact ⟨rfl, hend _⟩
  · rw [hu, if_neg (not_lt.2 h), if_neg hv, if_pos hs]
    exact ⟨rfl, hend _⟩
  · rw [hu, if_neg (not_lt.2 h), if_neg hv, if_neg (not_le.2 hs)]
    have hc := cav_pushCause (s.counted c a) c a r
    have hstate : ((s.counted c a).cav c).state = .run := by simp [State.counted, State.setPending, hrun]
    have hstack : ((s.counted c a).cav c).stack = (s.cav c).stack := by simp [State.counted, State.setPending]
    have hpend : ((s.counted c a).cav c).pending.get a.index = false := by
      simp [State.counted, State.setPending, Vector.get_eq_getElem]
    refine ⟨rfl, by rw [hc]; exact hstate, by rw [hc, hstack], by rw [hc]; exact hpend, by rw [hc], ?_⟩
    exact Two.get_set_self _ c _

/-! ## Zero-time segments (R106, R114, R115, R138, R140) -/

theorem topPending_of {k : CavCtx} {a : Cause} (ha : k.pending.get a.index = true)
    (hd : ∀ d : Cause, d.index < a.index → k.pending.get d.index = false) : k.topPending = some a := by
  have h (d : Cause) (hlt : d.index < a.index) : k.pending.get d.index = false := hd d hlt
  unfold CavCtx.topPending causes
  cases a
  case overheat => simp [List.find?, ha]
  case ductHot => simp [List.find?, ha, h .overheat (by decide)]
  case loadFault => simp [List.find?, ha, h .overheat (by decide), h .ductHot (by decide)]
  case mainsDip => simp [List.find?, ha, h .overheat (by decide), h .ductHot (by decide), h .loadFault (by decide)]
  case timeout =>
    simp [List.find?, ha, h .overheat (by decide), h .ductHot (by decide), h .loadFault (by decide), h .mainsDip (by decide)]
  case linkLost =>
    simp [List.find?, ha, h .overheat (by decide), h .ductHot (by decide), h .loadFault (by decide), h .mainsDip (by decide),
      h .timeout (by decide)]

/-- R132: the top pending cause is taken where the stack is empty or it outranks the top. -/
theorem takeable_of {k : CavCtx} {a : Cause} (ht : k.topPending = some a)
    (hs : ∀ f ∈ k.stack.head?, a.index < f.cause.index) : k.takeable = some a := by
  unfold CavCtx.takeable
  rw [ht]
  cases hk : k.stack with
  | nil => rfl
  | cons e rest =>
    have : a.index < e.cause.index := hs e (by rw [hk]; rfl)
    exact if_pos (decide_eq_true this)

/-- R132: nothing is taken where the top pending cause does not outrank the top of the stack. -/
theorem takeable_eq_none {k : CavCtx} {a : Cause} (ht : k.topPending = some a)
    (hs : ∃ e ∈ k.stack.head?, e.cause.index ≤ a.index) : k.takeable = none := by
  unfold CavCtx.takeable
  rw [ht]
  obtain ⟨e, he, hle⟩ := hs
  cases hk : k.stack with
  | nil => rw [hk] at he; cases he
  | cons f rest =>
    rw [hk] at he
    obtain rfl : f = e := by simpa using he
    exact if_neg (by simpa [outranks] using hle)

theorem takeable_of_nothing_pending {k : CavCtx} (hp : k.pending = Vector.replicate 6 false) : k.takeable = none := by
  have ht : k.topPending = none := by
    unfold CavCtx.topPending
    rw [hp]
    decide
  unfold CavCtx.takeable
  rw [ht]

theorem afterPop_of_taken {s : State} {c : Cav} {a : Cause} (h : (s.cav c).takeable = some a) (e : StackEntry) :
    s.afterPop c e = match s.takeCause c a (e.segment, (e.longLeft, e.holdLeft)) with
      | (u, some v) => (u, .goto v)
      | (u, none) => (u, .done) := by
  unfold State.afterPop
  rw [h] <;> rfl

theorem doReturn_of_cons {s : State} {c : Cav} {e : StackEntry} {rest : List StackEntry} (h : (s.cav c).stack = e :: rest) :
    s.doReturn c = ((s.modCav c (fun k => { k with stack := rest })).flagCav c).afterPop c e := by
  unfold State.doReturn
  rw [h]

/-- A zero-time segment that leads on keeps the count of the run. -/
theorem zeroRun_takeCause {s t : State} {c : Cav} {a : Cause} {r : Nat × Resume} {v : Nat} (h : s.takeCause c a r = (t, some v)) :
    (t.cav c).zeroRun = (s.cav c).zeroRun := by
  have hc : ((s.counted c a).cav c).zeroRun = (s.cav c).zeroRun := by simp [State.counted, State.setPending]
  cases hb : (s.cav c).bank with
  | none =>
    have : s.takeCause c a r = (s.counted c a, none) := by
      have hbank : ((s.counted c a).cav c).bank = none := by simp [State.counted, State.setPending, hb]
      unfold State.takeCause
      dsimp only
      split
      · rfl
      · rename_i b' hb'
        exact absurd (hbank.symm.trans hb') nofun
    rw [this] at h
    exact absurd (congrArg Prod.snd h) nofun
  | some b =>
    rw [takeCause_eq hb] at h
    split at h
    · exact absurd (congrArg Prod.snd h) nofun
    · split at h
      · exact absurd (congrArg Prod.snd h) nofun
      · split at h
        · exact absurd (congrArg Prod.snd h) nofun
        · obtain rfl := congrArg Prod.fst h
          rw [← hc]
          show (((s.counted c a).pushCause c a r).cav c).zeroRun = _
          rw [cav_pushCause]

theorem zeroRun_actZero {s t : State} {c : Cav} {g : Segment} {v : Nat} (h : s.actZero c g = (t, .goto v)) :
    (t.cav c).zeroRun = (s.cav c).zeroRun := by
  unfold State.actZero at h
  split at h
  · obtain rfl := congrArg Prod.fst h
    rfl
  · obtain rfl := congrArg Prod.fst h
    simp
  · exact absurd (congrArg Prod.snd h) nofun
  · unfold State.doReturn State.afterPop at h
    split at h
    · exact absurd (congrArg Prod.snd h) nofun
    · split at h
      · split at h
        · rename_i hk
          obtain rfl := congrArg Prod.fst h
          exact (zeroRun_takeCause hk).trans (by simp)
        · exact absurd (congrArg Prod.snd h) nofun
      · exact absurd (congrArg Prod.snd h) nofun
  all_goals exact absurd (congrArg Prod.snd h) nofun

theorem not_timed {k : SegKind} (h : k ∉ [SegKind.ramp, .soak, .cool]) : k.timed = false := by
  cases k <;> first | rfl | exact absurd (by decide) h

theorem timed_of_mem {k : SegKind} (h : k ∈ [SegKind.ramp, .soak, .cool]) : k.timed = true := by
  cases k <;> first | rfl | exact absurd h (by decide)

/-- R106: a zero-time segment that is not the ninth of its run. -/
theorem enterSegment_of_zero {s : State} {c : Cav} {n : Nat} (hk : (s.segmentAt c n).kind.timed = false)
    (hz : (s.cav c).zeroRun < 8) : s.enterSegment c n = match (s.passZero c n).actZero c (s.segmentAt c n) with
      | (u, .goto v) => u.enterSegment c v
      | (u, .resume v r) => u.enterTimed c v (some r)
      | (u, .done) => u := by
  have hp : ((s.passZero c n).cav c).zeroRun = (s.cav c).zeroRun + 1 := by simp [State.passZero, State.setCeiling]
  have hw : 8 - (s.cav c).zeroRun = (7 - (s.cav c).zeroRun) + 1 := by omega
  unfold State.enterSegment
  rw [hw, walk_succ, hk]
  rw [if_neg (by decide)]
  cases h : (s.passZero c n).actZero c (s.segmentAt c n) with
  | mk u x =>
    cases x with
    | goto v =>
      have hu := (zeroRun_actZero h).trans hp
      have h8 : 8 - ((s.cav c).zeroRun + 1) = 7 - (s.cav c).zeroRun := by omega
      dsimp only
      rw [hu, h8]
    | resume v r => rfl
    | done => rfl

/-- R138: a RETURN whose stack holds an entry and with nothing pending re-enters it. -/
theorem actZero_return {s : State} {c : Cav} {g : Segment} {e : StackEntry} {rest : List StackEntry} (hg : g.kind = .ret)
    (hs : (s.cav c).stack = e :: rest) (hp : (s.cav c).pending = Vector.replicate 6 false) :
    s.actZero c g = ((s.modCav c (fun k => { k with stack := rest })).flagCav c, .resume e.segment (e.longLeft, e.holdLeft)) := by
  have ht : (((s.modCav c (fun k => { k with stack := rest })).flagCav c).cav c).takeable = none :=
    takeable_of_nothing_pending (by simp [hp])
  unfold State.actZero
  rw [hg]
  dsimp only
  rw [doReturn_of_cons hs]
  unfold State.afterPop
  rw [ht]

theorem probeTemp_any (t : Option Int) (p : Int → Bool) : t.any p = true ↔ ∃ x, t = some x ∧ p x = true := by
  cases t <;> simp

/-- Settles O44: each kind is a branch of the acting, each condition a case of the check. -/
theorem zeroTimeSegmentsActByTheirKind : Obligations.ZeroTimeSegmentsActByTheirKind := by
  refine ⟨fun s c g => ⟨fun h => ?check, fun h => ?mark, fun h hs => ?complete, fun h hs => ?recovery, fun h hs => ?stray,
    fun e rest h hs hp => ?resume, fun e rest a h hs ha hd ho => ?taken, fun n hk => ⟨fun hz => ?loop, fun hz => ?passed⟩⟩,
    fun s c g => ⟨fun h => ?below, fun h => ?above, fun h => ?time, fun h => ?other, fun h => ?mains, fun h => ?lit⟩⟩
  case check => unfold State.actZero; rw [h]
  case mark => unfold State.actZero; rw [h]
  case complete => unfold State.actZero; rw [h, hs]; rfl
  case recovery =>
    unfold State.actZero
    rw [h]
    cases hk : (s.cav c).stack with
    | nil => exact absurd hk hs
    | cons e rest => rfl
  case stray =>
    unfold State.actZero State.doReturn
    rw [h, hs]
  case resume =>
    rw [actZero_return h hs hp]
    exact ⟨rfl, by simp⟩
  case taken =>
    have ht : (((s.modCav c (fun k => { k with stack := rest })).flagCav c).cav c).takeable = some a := by
      refine takeable_of (topPending_of ?_ ?_) ?_
      · simpa using ha
      · simpa using hd
      · simpa using ho
    have hact : s.actZero c g = s.doReturn c := by unfold State.actZero; rw [h]
    rw [hact, doReturn_of_cons hs]
    exact afterPop_of_taken ht e
  case loop =>
    unfold State.enterSegment
    rw [hz, walk_zero, if_neg (by rw [not_timed hk]; decide)]
  case passed => exact enterSegment_of_zero (not_timed hk) hz
  case below => unfold State.checkHolds; rw [h]; simpa using probeTemp_any (s.probeTemp c) (fun t => decide (t ≤ g.target))
  case above => unfold State.checkHolds; rw [h]; simpa using probeTemp_any (s.probeTemp c) (fun t => decide (g.target ≤ t))
  case time => unfold State.checkHolds; rw [h]; exact decide_eq_true_iff
  case other => unfold State.checkHolds; rw [h]; simp
  case mains => unfold State.checkHolds; rw [h]; simp [State.isLive, State.isMet]
  case lit => unfold State.checkHolds; rw [h]

end Sys2Proof.Machine
end

