-- ==== Sys2Proof/Proofs/Locks.lean ====
section
/-! PROOFS. The lock units' travels and the expiries that end them (R144 to R150, R152, R153, R157): O51. -/

namespace Sys2Proof.Machine

-- One proof at a time: proofs elaborated side by side ask for more threads than the check's memory limit leaves room for.
set_option Elab.async false

theorem lock_of_loadAct {s t : State} (h : LoadAct s t) (c : Cav) : t.lock c = s.lock c := by
  unfold State.lock
  rw [h.locks]

/-! ## The motor -/

theorem motor_not_budgeted {s : State} {c : Cav} {i : Fin 16} (h : s.motor c = some i) : budgeted (s.entry i).cls = false := by
  rw [(entry_of_cavLoad h).1]
  rfl

theorem motor_of_entry {s t : State} (h : ∀ i, t.entry i = s.entry i) (c : Cav) : t.motor c = s.motor c := cavLoad_of_entry h c .lock

/-- R48: a motor is driven without a grant. -/
theorem motorRun_of_motor {s : State} {c : Cav} {i : Fin 16} (h : s.motor c = some i) (d : Travel) :
    s.motorRun c d = s.queueDrive i (motorCode d) := by
  have hk : kindLevel (s.entry i) (motorCode d) = motorCode d := by simp [kindLevel, (entry_of_cavLoad h).1]
  unfold State.motorRun
  rw [h]
  show s.engineOn i (motorCode d) = _
  rw [engineOn_of_not_budgeted (motor_not_budgeted h), hk]

theorem motorRun_of_none {s : State} {c : Cav} (h : s.motor c = none) (d : Travel) : s.motorRun c d = s := by
  unfold State.motorRun
  rw [h]
  rfl

theorem events_queueDrive (s : State) (i : Fin 16) (level : Nat) : (s.queueDrive i level).events = s.events := by
  unfold State.queueDrive State.mergeDrive
  split <;> rfl

@[simp] theorem events_motorRun (s : State) (c : Cav) (d : Travel) : (s.motorRun c d).events = s.events := by
  cases h : s.motor c with
  | none => rw [motorRun_of_none h]
  | some i => rw [motorRun_of_motor h, events_queueDrive]

/-- R30, R48: a motor's code is queued in the urgent queue. -/
theorem mem_motorRun {s : State} {c : Cav} {i : Fin 16} (h : s.motor c = some i) (d : Travel) :
    QItem.drive i (motorCode d) false ∈ (s.motorRun c d).urgent := by
  have hm := mem_queueDrive s i (motorCode d)
  rw [motorRun_of_motor h]
  rwa [if_pos (by simp [urgentDrive, (entry_of_cavLoad h).1])] at hm

/-! ## What each act leaves of the lock -/

section
variable (s : State) (c : Cav)

@[simp] theorem lock_motorRun (d : Travel) (x : Cav) : (s.motorRun c d).lock x = s.lock x :=
  lock_of_loadAct ((LoadAct.refl s).motorRun c d) x

@[simp] theorem lock_motorOff (x : Cav) : (s.motorOff c).lock x = s.lock x := lock_of_loadAct ((LoadAct.refl s).motorOff c) x

@[simp] theorem lock_setLockState (st : LockState) : (s.setLockState c st).lock c = { s.lock c with state := st } := by
  unfold State.setLockState
  split
  · rename_i h
    rw [← h]
  · simp

@[simp] theorem events_setLockState (st : LockState) : (s.setLockState c st).events = s.events := by
  unfold State.setLockState
  split <;> rfl

@[simp] theorem urgent_setLockState (st : LockState) : (s.setLockState c st).urgent = s.urgent := by
  unfold State.setLockState
  split <;> rfl

@[simp] theorem now_setLockState (st : LockState) : (s.setLockState c st).now = s.now := by
  unfold State.setLockState
  split <;> rfl

@[simp] theorem limits_setLockState (st : LockState) : (s.setLockState c st).limits = s.limits := by
  unfold State.setLockState
  split <;> rfl

@[simp] theorem now_motorRun (d : Travel) : (s.motorRun c d).now = s.now := (kept_motorRun (Kept.refl s) c d).now

@[simp] theorem limits_motorRun (d : Travel) : (s.motorRun c d).limits = s.limits := (kept_motorRun (Kept.refl s) c d).limits

/-- A lock whose travel starts, by its confirm mode (R146). -/
def LockUnit.travelling (k : LockUnit) (now : Time) (l : Limits) (mode : ConfirmMode) (d : Travel) : LockUnit :=
  match mode with
  | .position => { k with
      state := travelState d, travel := none, leaveMet := hasLeft d k.latch,
      finish := some (now + seconds (l.finishTime d)),
      leave := if hasLeft d k.latch then none else some (now + seconds (l.leaveTime d)) }
  | .timed => { k with state := travelState d, leave := none, finish := none, travel := some (now + seconds l.timedTravel) }

@[simp] theorem lock_startTravel (d : Travel) : (s.startTravel c d).lock c =
    (s.lock c).travelling s.now s.limits (s.limits.mode.get c) d := by
  unfold State.startTravel State.travelTimers
  simp only [limits_motorRun, limits_setLockState, limits_modLock]
  cases s.limits.mode.get c <;> simp [LockUnit.travelling, LockUnit.stopTimers, State.timer]

@[simp] theorem events_startTravel (d : Travel) : (s.startTravel c d).events = s.events := by
  unfold State.startTravel State.travelTimers
  split <;> simp

@[simp] theorem lock_endTravel (st : LockState) : (s.endTravel c st).lock c = { s.lock c with
    leave := none, finish := none, travel := none, leaveMet := false, state := st } := by
  simp [State.endTravel, LockUnit.stopTimers]

@[simp] theorem lock_setPurpose (p : Purpose) : (s.setPurpose c p).lock c = { s.lock c with purpose := p } := by
  simp [State.setPurpose]

@[simp] theorem lock_setAttempt (n : Nat) : (s.setAttempt c n).lock c = { s.lock c with attempt := n } := by
  simp [State.setAttempt]

@[simp] theorem events_setPurpose (p : Purpose) : (s.setPurpose c p).events = s.events := rfl

@[simp] theorem events_setAttempt (n : Nat) : (s.setAttempt c n).events = s.events := rfl

@[simp] theorem lock_lockReport (r : LockReport) (x : Cav) : (s.lockReport c r).lock x = s.lock x := rfl

@[simp] theorem events_lockReport (r : LockReport) : (s.lockReport c r).events = s.events ++ [.lock c r] := rfl

@[simp] theorem lock_backOffLock (p : Purpose) : (s.backOffLock c p).lock c =
    ({ s.lock c with purpose := p } : LockUnit).travelling s.now s.limits (s.limits.mode.get c) .release := by
  simp [State.backOffLock, State.setPurpose]

@[simp] theorem events_backOffLock (p : Purpose) : (s.backOffLock c p).events = s.events := by
  simp [State.backOffLock]

theorem state_travelling (k : LockUnit) (now : Time) (l : Limits) (m : ConfirmMode) (d : Travel) :
    (k.travelling now l m d).state = travelState d := by cases m <;> rfl

theorem purpose_travelling (k : LockUnit) (now : Time) (l : Limits) (m : ConfirmMode) (d : Travel) :
    (k.travelling now l m d).purpose = k.purpose := by cases m <;> rfl

theorem attempt_travelling (k : LockUnit) (now : Time) (l : Limits) (m : ConfirmMode) (d : Travel) :
    (k.travelling now l m d).attempt = k.attempt := by cases m <;> rfl

theorem held_travelling (k : LockUnit) (now : Time) (l : Limits) (m : ConfirmMode) (d : Travel) :
    (k.travelling now l m d).held = k.held := by cases m <;> rfl

theorem jam_travelling (k : LockUnit) (now : Time) (l : Limits) (m : ConfirmMode) (d : Travel) :
    (k.travelling now l m d).jam = k.jam := by cases m <;> rfl

theorem latch_travelling (k : LockUnit) (now : Time) (l : Limits) (m : ConfirmMode) (d : Travel) :
    (k.travelling now l m d).latch = k.latch := by cases m <;> rfl

/-- R157: how a lock is jammed. -/
theorem lock_jamLock {s : State} {c : Cav} (h : (s.lock c).state ≠ .jammed) (j : Jam) : (s.jamLock c j).lock c = { s.lock c with
    state := .jammed, jam := j, leave := none, finish := none, travel := none, leaveMet := false, purpose := .noPurpose,
    attempt := 0 } := by
  unfold State.jamLock
  rw [if_neg h]
  simp [LockUnit.stopTimers]

theorem mem_jamLock {s : State} {c : Cav} (h : (s.lock c).state ≠ .jammed) (j : Jam) :
    Event.lock c (.jammed j) ∈ (s.jamLock c j).events := by
  unfold State.jamLock
  rw [if_neg h]
  exact List.mem_append_right _ (List.mem_singleton.2 rfl)

/-- R148: how a lock is engaged. -/
@[simp] theorem lock_engaged : (s.engaged c).lock c = { s.lock c with
    state := .locked, attempt := 0, leave := none, finish := none, travel := none, leaveMet := false } := by
  simp [State.engaged]

theorem mem_engaged : Event.lock c .locked ∈ (s.engaged c).events := List.mem_append_right _ (List.mem_singleton.2 rfl)

end

/-! ## A release that succeeds (R152) -/

/-- A lock whose release has succeeded, before it acts by its purpose. -/
def State.unbolted (s : State) (c : Cav) : State := (s.endTravel c .unlocked).setPurpose c .noPurpose

@[simp] theorem lock_unbolted (s : State) (c : Cav) : (s.unbolted c).lock c = { s.lock c with
    state := .unlocked, purpose := .noPurpose, leave := none, finish := none, travel := none, leaveMet := false } := by
  simp [State.unbolted]

theorem released_of_nextAttempt {s : State} {c : Cav} (h : (s.lock c).purpose = .nextAttempt) :
    s.released c = ((s.unbolted c).setAttempt c 2).startTravel c .engage := by
  unfold State.released
  rw [h]
  rfl

theorem released_of_failed {s : State} {c : Cav} (h : (s.lock c).purpose = .failed) :
    s.released c = ((s.unbolted c).setAttempt c 0).lockReport c .engageFailed := by
  unfold State.released
  rw [h]
  rfl

theorem released_of_plain {s : State} {c : Cav} (h : (s.lock c).purpose = .plain ∨ (s.lock c).purpose = .noPurpose) :
    s.released c = ((s.unbolted c).modLock c (fun k => { k with attempt := 0, jam := .noJam })).lockReport c .unlocked := by
  unfold State.released
  rcases h with h | h <;> rw [h] <;> rfl

/-- What a release that succeeds leaves, by its back-off purpose. -/
theorem released_facts (s : State) (c : Cav) :
    let u := s.released c
    (u.lock c).purpose = .noPurpose ∧
      ((s.lock c).purpose = .plain → (u.lock c).state = .unlocked ∧ (u.lock c).attempt = 0 ∧ (u.lock c).jam = .noJam ∧
        Event.lock c .unlocked ∈ u.events) ∧
      ((s.lock c).purpose = .nextAttempt → (u.lock c).state = .engaging ∧ (u.lock c).attempt = 2) ∧
      ((s.lock c).purpose = .failed → (u.lock c).state = .unlocked ∧ (u.lock c).attempt = 0 ∧
        Event.lock c .engageFailed ∈ u.events) := by
  intro u
  have hmem {t : State} {r : LockReport} : Event.lock c r ∈ (t.lockReport c r).events :=
    List.mem_append_right _ (List.mem_singleton.2 rfl)
  have hplain (h : (s.lock c).purpose = .plain ∨ (s.lock c).purpose = .noPurpose) : u.lock c = { s.lock c with
      state := .unlocked, purpose := .noPurpose, leave := none, finish := none, travel := none, leaveMet := false,
      attempt := 0, jam := .noJam } ∧ Event.lock c .unlocked ∈ u.events := by
    simp only [u, released_of_plain h]
    exact ⟨by simp, hmem⟩
  have hnext (h : (s.lock c).purpose = .nextAttempt) : (u.lock c).state = .engaging ∧ (u.lock c).attempt = 2 ∧
      (u.lock c).purpose = .noPurpose := by
    simp only [u, released_of_nextAttempt h]
    simp [state_travelling, attempt_travelling, purpose_travelling, travelState]
  have hfail (h : (s.lock c).purpose = .failed) : u.lock c = { s.lock c with
      state := .unlocked, purpose := .noPurpose, leave := none, finish := none, travel := none, leaveMet := false,
      attempt := 0 } ∧ Event.lock c .engageFailed ∈ u.events := by
    simp only [u, released_of_failed h]
    exact ⟨by simp, hmem⟩
  refine ⟨?_, fun h => ?_, fun h => ⟨(hnext h).1, (hnext h).2.1⟩, fun h => ?_⟩
  · cases h : (s.lock c).purpose with
    | noPurpose => rw [(hplain (.inr h)).1]
    | plain => rw [(hplain (.inl h)).1]
    | nextAttempt => exact (hnext h).2.2
    | failed => rw [(hfail h).1]
  · obtain ⟨hl, he⟩ := hplain (.inl h)
    exact ⟨by rw [hl], by rw [hl], by rw [hl], he⟩
  · obtain ⟨hl, he⟩ := hfail h
    exact ⟨by rw [hl], by rw [hl], he⟩

/-! ## The reports of an engine off -/

/-- Of the reports of `t`, those `s` does not hold are of a load's fault. -/
def FaultsOnly (s t : State) : Prop := ∀ e ∈ t.events, e ∈ s.events ∨ (∃ i, e = .loadFault i) ∨ ∃ z o, e = .converterFault z o

theorem FaultsOnly.trans {s t u : State} (h : FaultsOnly s t) (g : FaultsOnly t u) : FaultsOnly s u :=
  fun e he => (g e he).elim (h e) .inr

theorem FaultsOnly.of_same {s t : State} (h : t.events = s.events := by rfl) : FaultsOnly s t := fun _ he => .inl (h ▸ he)

theorem faultsOnly_fault (s : State) (i : Fin 16) : FaultsOnly s (s.emit (s.faultReport i)) := by
  intro e he
  rcases List.mem_append.1 he with he | he
  · exact .inl he
  · obtain rfl := List.mem_singleton.1 he
    unfold State.faultReport
    split
    · exact .inr (.inr ⟨_, _, rfl⟩)
    · exact .inr (.inl ⟨_, rfl⟩)

theorem events_closeFail (s : State) (tag reason : Byte) : (s.closeFail tag reason).events = s.events := by
  unfold State.closeFail State.closeRelay
  (repeat' split) <;> rfl

theorem faultsOnly_considerUpTo (n : Nat) : ∀ s : State, FaultsOnly s (considerUpTo n s) := by
  induction n with
  | zero => exact fun s => .of_same
  | succ n ih =>
    intro s
    unfold considerUpTo
    split
    · exact .of_same
    · rename_i head rest hq
      split
      · refine FaultsOnly.trans (t := ({ s with grantQueue := rest } : State).refuseRequest head.load head.requester) ?_ (ih _)
        have h0 : FaultsOnly s (({ s with grantQueue := rest } : State).setGrant head.load .noGrant) := .of_same
        unfold State.refuseRequest
        split
        · refine h0.trans ?_
          have hf : ({ s with grantQueue := rest } : State).faultReport head.load =
              (({ s with grantQueue := rest } : State).setGrant head.load .noGrant).faultReport head.load := by
            simp [State.faultReport, State.setGrant]
          rw [hf]
          exact faultsOnly_fault _ _
        · exact .of_same (events_closeFail ..)
      · split
        · refine FaultsOnly.trans (t := ({ s with grantQueue := rest } : State).grantTo head.load head.requester head.level) ?_
            (ih _)
          unfold State.grantTo
          split
          · split
            · exact .of_same (events_queueDrive ..)
            · exact .of_same
          · exact .of_same
        · exact .of_same

theorem faultsOnly_withdrawRequest (s : State) (i : Fin 16) : FaultsOnly s (s.withdrawRequest i) := by
  have hc (t : State) (b : Bool) : FaultsOnly t (t.considerIf b) := by
    unfold State.considerIf
    split
    · exact faultsOnly_considerUpTo _ t
    · exact .of_same
  unfold State.withdrawRequest
  split
  · exact .of_same
  · dsimp only
    split
    · exact FaultsOnly.trans .of_same (hc (s.dropRequest i) _)
    · have hd (tag : Byte) : FaultsOnly s ((s.dropRequest i).closeFail tag failWithheld) := .of_same (events_closeFail ..)
      exact (hd _).trans (hc _ _)

theorem faultsOnly_engineOff (s : State) (i : Fin 16) : FaultsOnly s (s.engineOff i) := by
  unfold State.engineOff
  dsimp only
  split
  · exact faultsOnly_withdrawRequest s i
  · exact (faultsOnly_withdrawRequest s i).trans (.of_same (events_queueDrive ..))

theorem faultsOnly_motorOff (s : State) (c : Cav) : FaultsOnly s (s.motorOff c) := by
  unfold State.motorOff State.onLoad
  split
  · exact faultsOnly_engineOff s _
  · exact .of_same

/-- R152: a release before a second attempt reports nothing of the lock. -/
theorem no_report_before_attempt {s : State} {c : Cav} (he : s.events = []) (h : (s.lock c).purpose = .nextAttempt)
    (r : LockReport) : Event.lock c r ∉ (s.released c).events := by
  rw [released_of_nextAttempt h]
  simp only [events_startTravel, events_setAttempt, State.unbolted, events_setPurpose, State.endTravel, events_setLockState]
  intro hm
  rcases faultsOnly_motorOff _ c _ hm with hm | ⟨i, hm⟩ | ⟨z, o, hm⟩
  · simp [he] at hm
  · cases hm
  · cases hm

/-! ## The ends of a travel (R148 to R150, R153) -/

/-- A lock one of whose timers has stopped. -/
def StopsTimer (f : LockUnit → LockUnit) : Prop := ∀ k, ∃ a b d, f k = { k with leave := a, finish := b, travel := d }

theorem travelTimeout_of_engaging {s : State} {c : Cav} (h : (s.lock c).state = .engaging) : s.travelTimeout c = s.engageFails c := by
  unfold State.travelTimeout
  rw [h]

theorem travelTimeout_of_disengaging {s : State} {c : Cav} (h : (s.lock c).state = .disengaging) :
    s.travelTimeout c = s.releaseFails c := by
  unfold State.travelTimeout
  rw [h]

theorem travelTimed_of_engaging {s : State} {c : Cav} (h : (s.lock c).state = .engaging) :
    s.travelTimed c = if s.motorConfirmed c = some 1 then s.engaged c else s.engageFails c := by
  unfold State.travelTimed
  rw [h]
  rfl

theorem travelTimed_of_disengaging {s : State} {c : Cav} (h : (s.lock c).state = .disengaging) :
    s.travelTimed c = if s.motorConfirmed c = some 2 then s.released c else s.releaseFails c := by
  unfold State.travelTimed
  rw [h]
  rfl

/-- R150: a failed engagement of a lock that is not held backs the bolt off. -/
theorem engageFails_of_free {s : State} {c : Cav} (h : (s.lock c).held = false) :
    s.engageFails c = s.backOffLock c (if (s.lock c).attempt = 1 then .nextAttempt else .failed) := by
  unfold State.engageFails
  rw [if_neg (by rw [h]; decide)]
  split <;> rfl

theorem engageFails_of_held {s : State} {c : Cav} (h : (s.lock c).held = true) : s.engageFails c = s.jamLock c .engageTimeout := by
  unfold State.engageFails
  rw [if_pos h]

/-- One of the three timers of a lock's travel runs out with the travel's code not confirmed. -/
def TravelFails (s : State) (c : Cav) (e : Time) (cmd : Instr) (code : Nat) : Prop :=
  (cmd = .lockLeaveTimerExpired c ∧ (s.lock c).leave = some e) ∨ (cmd = .lockFinishTimerExpired c ∧ (s.lock c).finish = some e) ∨
    (cmd = .lockTravelTimerExpired c ∧ (s.lock c).travel = some e ∧ s.motorConfirmed c ≠ some code)

theorem TravelFails.cmd {s : State} {c : Cav} {e : Time} {cmd : Instr} {code : Nat} (h : TravelFails s c e cmd code) :
    cmd ≠ .powerOnReset ∧ cmd ≠ .resetInputHeld ∧ cmd.wellFormed = true ∧ mayWriteTables cmd = false := by
  rcases h with ⟨rfl, -⟩ | ⟨rfl, -⟩ | ⟨rfl, -⟩ <;> exact ⟨nofun, nofun, rfl, rfl⟩

/-- The moment a travel's timer runs out, that timer stopped. -/
def State.expired (s : State) (c : Cav) (e : Time) (f : LockUnit → LockUnit) : State := (s.advance e).modLock c f

theorem lock_expired (s : State) (c : Cav) (e : Time) (f : LockUnit → LockUnit) : (s.expired c e f).lock c = f (s.lock c) := by
  simp [State.expired]

theorem TravelFails.effect {s : State} {c : Cav} {e : Time} {cmd : Instr} {code : Nat} (h : TravelFails s c e cmd code) :
    ∃ f, StopsTimer f ∧ ((s.lock c).state = .engaging → code = 1 → effect cmd s = (s.expired c e f).engageFails c) ∧
      ((s.lock c).state = .disengaging → code = 2 → effect cmd s = (s.expired c e f).releaseFails c) := by
  rcases h with ⟨rfl, ht⟩ | ⟨rfl, ht⟩ | ⟨rfl, ht, hc⟩
  · refine ⟨fun k => { k with leave := none }, fun k => ⟨none, k.finish, k.travel, rfl⟩, fun hs _ => ?_, fun hs _ => ?_⟩
    all_goals refine (expire_of_running (s := s) ht (fun s => s.leaveExpires c)).trans ?_
    · exact travelTimeout_of_engaging (by simp [hs])
    · exact travelTimeout_of_disengaging (by simp [hs])
  · refine ⟨fun k => { k with finish := none }, fun k => ⟨k.leave, none, k.travel, rfl⟩, fun hs _ => ?_, fun hs _ => ?_⟩
    all_goals refine (expire_of_running (s := s) ht (fun s => s.finishExpires c)).trans ?_
    · exact travelTimeout_of_engaging (by simp [hs])
    · exact travelTimeout_of_disengaging (by simp [hs])
  · refine ⟨fun k => { k with travel := none }, fun k => ⟨k.leave, k.finish, none, rfl⟩, fun hs h1 => ?_, fun hs h2 => ?_⟩
    all_goals refine (expire_of_running (s := s) ht (fun s => s.travelExpires c)).trans ?_
    · subst h1
      exact (travelTimed_of_engaging (by simp [hs])).trans (if_neg hc)
    · subst h2
      exact (travelTimed_of_disengaging (by simp [hs])).trans (if_neg hc)

/-- Settles O51. -/
theorem lockTimersEndTheTravel : Obligations.LockTimersEndTheTravel := by
  intro s c e h
  refine ⟨fun cmd hf => ⟨fun hs hh => ?back, fun hs hh => ?held⟩, fun cmd hf hs => ?release, fun ht hs hm => ?engaged,
    fun ht hs hm => ?released⟩
  case back =>
    have hf : TravelFails s c e cmd 1 := hf
    obtain ⟨hp, hr, hw, hn⟩ := hf.cmd
    obtain ⟨f, hstop, heff, -⟩ := hf.effect
    obtain ⟨a, b, d, hk⟩ := hstop (s.lock c)
    have hl := lock_expired s c e f
    rw [hk] at hl
    have he := (heff hs rfl).trans (engageFails_of_free (by rw [hl]; exact hh))
    rw [hl] at he
    have hsame := sameTables_effect hw hn s
    rw [he] at hsame
    have kb := kept_backOffLock (Kept.refl (s.expired c e f)) c (if (s.lock c).attempt = 1 then .nextAttempt else .failed)
    obtain ⟨fs, n, bo, ht⟩ := exec_adds_notices hp hr h he (by simp [State.expired, h.2])
    refine ⟨_, ht, kb.now, ?_, ?_, ?_, hsame.trans .of_same⟩
    · exact (congrArg LockUnit.state (lock_backOffLock ..)).trans (state_travelling ..)
    · exact (congrArg LockUnit.purpose (lock_backOffLock ..)).trans (purpose_travelling ..)
    · exact cav_of_lockAct (s := s.expired c e f) (fun _ => apart_backOffLock (Apart.refl ..) _) c
  case held =>
    have hf : TravelFails s c e cmd 1 := hf
    obtain ⟨hp, hr, -, -⟩ := hf.cmd
    obtain ⟨f, hstop, heff, -⟩ := hf.effect
    obtain ⟨a, b, d, hk⟩ := hstop (s.lock c)
    have hl := lock_expired s c e f
    rw [hk] at hl
    have he := (heff hs rfl).trans (engageFails_of_held (by rw [hl]; exact hh))
    have hnj : ((s.expired c e f).lock c).state ≠ .jammed := by rw [hl]; exact fun x => nomatch hs.symm.trans x
    have hj := lock_jamLock hnj .engageTimeout
    exact ⟨_, answers_of_effect hp hr h he, by rw [hj], by rw [hj], mem_jamLock hnj _⟩
  case release =>
    have hf : TravelFails s c e cmd 2 := hf
    obtain ⟨hp, hr, -, -⟩ := hf.cmd
    obtain ⟨f, hstop, -, heff⟩ := hf.effect
    obtain ⟨a, b, d, hk⟩ := hstop (s.lock c)
    have hl := lock_expired s c e f
    rw [hk] at hl
    have he := heff hs rfl
    have hnj : ((s.expired c e f).lock c).state ≠ .jammed := by rw [hl]; exact fun x => nomatch hs.symm.trans x
    have hj := lock_jamLock hnj .releaseTimeout
    exact ⟨_, answers_of_effect hp hr h he, by rw [State.releaseFails, hj], by rw [State.releaseFails, hj],
      by rw [State.releaseFails, hj], by rw [State.releaseFails, hj], by rw [State.releaseFails, hj],
      by rw [State.releaseFails, hj], by rw [State.releaseFails, hj], by rw [State.releaseFails, hj], mem_jamLock hnj _⟩
  case engaged =>
    have he := (expire_of_running (s := s) ht (fun s => s.travelExpires c)).trans
      ((travelTimed_of_engaging (by simp [hs])).trans (if_pos hm))
    have hl := lock_engaged (s.expired c e (fun k => { k with travel := none })) c
    exact ⟨_, answers_of_effect (c := .lockTravelTimerExpired c) nofun nofun h he, congrArg LockUnit.state hl,
      congrArg LockUnit.attempt hl, congrArg LockUnit.leave hl, congrArg LockUnit.finish hl, congrArg LockUnit.travel hl,
      congrArg LockUnit.leaveMet hl, mem_engaged _ c⟩
  case released =>
    have he := (expire_of_running (s := s) ht (fun s => s.travelExpires c)).trans
      ((travelTimed_of_disengaging (by simp [hs])).trans (if_pos hm))
    have hl := lock_expired s c e (fun k => { k with travel := none })
    obtain ⟨hpur, hplain, hnext, hfail⟩ := released_facts (s.expired c e (fun k => { k with travel := none })) c
    rw [hl] at hplain hnext hfail
    refine ⟨_, answers_of_effect (c := .lockTravelTimerExpired c) nofun nofun h he, hpur, hplain, fun hp => ?_, hfail⟩
    obtain ⟨h1, h2⟩ := hnext hp
    exact ⟨h1, h2, no_report_before_attempt h.2 ((congrArg LockUnit.purpose hl).trans hp)⟩

end Sys2Proof.Machine
end

