-- ==== Sys2Proof/Proofs/Doors.lean ====
section
/-! PROOFS. A door report as a Lock Unit acts on it (R144, R149, R151 to R153, R155): O52. -/

namespace Sys2Proof.Machine

-- One proof at a time: proofs elaborated side by side ask for more threads than the check's memory limit leaves room for.
set_option Elab.async false

/-- R144: the report's latch is the latest. -/
def State.latched (s : State) (c : Cav) (latch : Latch) : State := s.modLock c (fun k => { k with latch := some latch })

theorem lock_latched (s : State) (c : Cav) (latch : Latch) : (s.latched c latch).lock c = { s.lock c with latch := some latch } := by
  simp [State.latched]

section
variable {s : State} {c : Cav} (door : Door) (latch : Latch) (confirmed : Option Latch)

theorem lockDoorReport_of_engaging (h : (s.lock c).state = .engaging) :
    s.lockDoorReport c door latch confirmed = (s.latched c latch).reportEngaging c door latch confirmed := by
  have hs : ((s.latched c latch).lock c).state = .engaging := by rw [lock_latched]; exact h
  unfold State.lockDoorReport
  dsimp only
  split
  · rfl
  all_goals (rename_i hx; exact nomatch hs.symm.trans hx)

theorem lockDoorReport_of_disengaging (h : (s.lock c).state = .disengaging) :
    s.lockDoorReport c door latch confirmed = (s.latched c latch).reportDisengaging c door latch confirmed := by
  have hs : ((s.latched c latch).lock c).state = .disengaging := by rw [lock_latched]; exact h
  unfold State.lockDoorReport
  dsimp only
  split
  case h_2 => rfl
  all_goals (rename_i hx; exact nomatch hs.symm.trans hx)

theorem lockDoorReport_of_locked (h : (s.lock c).state = .locked) :
    s.lockDoorReport c door latch confirmed = (s.latched c latch).reportLocked c door confirmed := by
  have hs : ((s.latched c latch).lock c).state = .locked := by rw [lock_latched]; exact h
  unfold State.lockDoorReport
  dsimp only
  split
  case h_3 => rfl
  all_goals (rename_i hx; exact nomatch hs.symm.trans hx)

theorem lockDoorReport_of_other (h : (s.lock c).state ∈ [LockState.unknown, .unlocked, .jammed]) :
    s.lockDoorReport c door latch confirmed = s.latched c latch := by
  have hs : ((s.latched c latch).lock c).state ∈ [LockState.unknown, .unlocked, .jammed] := by rw [lock_latched]; exact h
  unfold State.lockDoorReport
  dsimp only
  split
  case h_1 hx | h_2 hx | h_3 hx =>
    have hx : ((s.latched c latch).lock c).state = _ := hx
    rw [hx] at hs
    exact absurd hs (by decide)
  all_goals rfl

end

/-- R149, R153: what a report notes of a latch that has left. -/
theorem lock_noteLeave (s : State) (c : Cav) (d : Travel) (latch : Latch) : (s.noteLeave c d latch).lock c = { s.lock c with
    leaveMet := (s.lock c).leaveMet || hasLeft d (some latch)
    leave := if hasLeft d (some latch) = true ∧ (s.lock c).leaveMet = false then none else (s.lock c).leave } := by
  unfold State.noteLeave
  cases hl : hasLeft d (some latch) with
  | false => simp
  | true =>
    cases hm : (s.lock c).leaveMet with
    | false => simp
    | true =>
      simp
      rw [← hm]

theorem mode_eq_timed {m : ConfirmMode} (h : m ≠ .position) : m = .timed := by cases m <;> first | rfl | exact absurd rfl h

/-! ## In ENGAGING (R149, R151) -/

section
variable {s : State} {c : Cav} {latch : Latch} {confirmed : Option Latch}

theorem reportEngaging_closed_confirmed (hm : s.limits.mode.get c = .position) :
    s.reportEngaging c .closed latch (some .extended) = (s.noteLeave c .engage latch).engaged c := by
  unfold State.reportEngaging
  rw [hm]
  rfl

theorem reportEngaging_closed_unconfirmed (hm : s.limits.mode.get c = .position) (hc : confirmed ≠ some .extended) :
    s.reportEngaging c .closed latch confirmed = s.noteLeave c .engage latch := by
  unfold State.reportEngaging
  rw [hm]
  exact if_neg hc

theorem reportEngaging_closed_timed (hm : s.limits.mode.get c ≠ .position) : s.reportEngaging c .closed latch confirmed = s := by
  unfold State.reportEngaging
  rw [mode_eq_timed hm]

/-! ## In DISENGAGING (R151, R153) -/

theorem lock_cancelAttempt (door : Door) : (s.cancelAttempt c door).lock c = { s.lock c with
    purpose := if door = .opened ∧ (s.lock c).purpose = .nextAttempt then .plain else (s.lock c).purpose } := by
  unfold State.cancelAttempt
  split <;> simp

theorem mem_cancelAttempt (h : (s.lock c).purpose = .nextAttempt) :
    Event.lock c .engageAborted ∈ (s.cancelAttempt c .opened).events := by
  unfold State.cancelAttempt
  rw [if_pos ⟨rfl, h⟩]
  exact List.mem_append_right _ (List.mem_singleton.2 rfl)

theorem reportDisengaging_confirmed (hm : s.limits.mode.get c = .position) (door : Door) :
    s.reportDisengaging c door latch (some .retracted) =
      (((s.cancelAttempt c door).noteLeave c .release latch)).released c := by
  unfold State.reportDisengaging
  rw [hm]
  rfl

theorem reportDisengaging_unconfirmed (hm : s.limits.mode.get c = .position) (hc : confirmed ≠ some .retracted) (door : Door) :
    s.reportDisengaging c door latch confirmed = (s.cancelAttempt c door).noteLeave c .release latch := by
  unfold State.reportDisengaging
  rw [hm]
  exact if_neg hc

theorem reportDisengaging_timed (hm : s.limits.mode.get c ≠ .position) (door : Door) :
    s.reportDisengaging c door latch confirmed = s.cancelAttempt c door := by
  unfold State.reportDisengaging
  rw [mode_eq_timed hm]

end

theorem bolts_noteLeave (s : State) (c : Cav) (d : Travel) (latch : Latch) : Bolts s (s.noteLeave c d latch) := by
  unfold State.noteLeave
  split
  · exact (Bolts.refl s).modLock c _
  · exact Bolts.refl s

theorem bolts_released (s : State) (c : Cav) : Bolts s (s.released c) := by
  have hu : Bolts s (s.unbolted c) := ((Bolts.refl s).endTravel c .unlocked).modLock c (fun k => { k with purpose := .noPurpose })
  cases h : (s.lock c).purpose with
  | nextAttempt => rw [released_of_nextAttempt h]; exact (hu.modLock c _).startTravel c _
  | failed => rw [released_of_failed h]; exact (hu.modLock c _).lockReport c _
  | plain => rw [released_of_plain (.inl h)]; exact (hu.modLock c _).lockReport c _
  | noPurpose => rw [released_of_plain (.inr h)]; exact (hu.modLock c _).lockReport c _

/-- A release leaves the latest latch. -/
theorem latch_released (s : State) (c : Cav) : ((s.released c).lock c).latch = (s.lock c).latch := by
  cases h : (s.lock c).purpose with
  | nextAttempt => rw [released_of_nextAttempt h]; simp [latch_travelling]
  | failed => rw [released_of_failed h]; simp
  | plain => rw [released_of_plain (.inl h)]; simp
  | noPurpose => rw [released_of_plain (.inr h)]; simp

/-! ## In LOCKED (R155) -/

theorem latchLost_iff {m : ConfirmMode} {door : Door} {confirmed : Option Latch} : latchLost m door confirmed = true ↔
    door = .opened ∨ (m = .position ∧ confirmed ≠ none ∧ confirmed ≠ some .extended) := by
  cases door <;> cases m <;> simp [latchLost, Option.isSome_iff_ne_none]

/-- R77: a GOOD reading of a door is reported. -/
theorem doorReport_of_takeReading {s : State} {n : Fin 8} {c : Cav} {q hi lo : Byte} {d : Door} {l : Latch}
    (hu : (s.binding n).use = .door c) (hv : readValue (.door c) q hi lo = (.good, some (.door d l))) :
    let r := readInto s.now (seconds s.limits.stale) (s.chanRecord n) (.good, some (.door d l))
    Event.doorReport c d l (doorPair r) (latchPair r) ∈ (s.takeReading n q hi lo).events := by
  intro r
  have hq : r.quality = some .good := rfl
  have hl : r.latest = some (.door d l) := rfl
  have h : s.takeReading n q hi lo = (((s.modChan n (fun _ => r)).reportChange (.door c) (s.chanRecord n).state r.state).evalWatches
      (.door c)).reportReading (.door c) r := by
    unfold State.takeReading
    dsimp only
    rw [hu, hv]
    exact if_pos hq
  rw [h]
  unfold State.reportReading
  rw [hl]
  exact List.mem_append_right _ (List.mem_singleton.2 rfl)

/-- Settles O52: each state of the lock is a branch of the acting. -/
theorem doorReportsActOnTheLock : Obligations.DoorReportsActOnTheLock := by
  refine ⟨fun s c door latch confirmed => ?acts, fun s n c q hi lo d l hu hv => doorReport_of_takeReading hu hv,
    fun s c d l dc lc => rfl⟩
  intro k u position
  have hk : (s.latched c latch).lock c = k := lock_latched s c latch
  have hlim : (s.latched c latch).limits.mode.get c = s.limits.mode.get c := rfl
  let v := s.latched c latch
  have engagedAt (hs : k.state = .engaging) (hd : door = .closed) (hp : position) (hc : confirmed = some .extended) :
      u = (v.noteLeave c .engage latch).engaged c := by
    subst hd hc
    exact (lockDoorReport_of_engaging _ _ _ hs).trans (reportEngaging_closed_confirmed hp)
  have notedAt (hs : k.state = .engaging) (hd : door = .closed) (hp : position) (hc : confirmed ≠ some .extended) :
      u = v.noteLeave c .engage latch := by
    subst hd
    exact (lockDoorReport_of_engaging _ _ _ hs).trans (reportEngaging_closed_unconfirmed hp hc)
  have timedAt (hs : k.state = .engaging) (hd : door = .closed) (hp : ¬position) : u = v := by
    subst hd
    exact (lockDoorReport_of_engaging _ _ _ hs).trans (reportEngaging_closed_timed hp)
  have abortedAt (hs : k.state = .engaging) (hd : door = .opened) : u = v.abortEngage c := by
    subst hd
    exact lockDoorReport_of_engaging _ _ _ hs
  have backAt (hs : k.state = .engaging) (hd : door = .opened) (hh : k.held = false) :
      u = (v.backOffLock c .plain).lockReport c .engageAborted := by
    rw [abortedAt hs hd]
    unfold State.abortEngage
    rw [hk, if_neg (by rw [hh]; decide)]
  have doorJam (hs : k.state = .engaging) (hd : door = .opened) (hh : k.held = true) : u = v.jamLock c .doorOpenHeld := by
    rw [abortedAt hs hd]
    unfold State.abortEngage
    rw [hk, if_pos hh]
  have releasedAt (hs : k.state = .disengaging) (hp : position) (hc : confirmed = some .retracted) :
      u = ((v.cancelAttempt c door).noteLeave c .release latch).released c := by
    subst hc
    exact (lockDoorReport_of_disengaging _ _ _ hs).trans (reportDisengaging_confirmed (s := v) hp door)
  have leavingAt (hs : k.state = .disengaging) (hp : position) (hc : confirmed ≠ some .retracted) :
      u = (v.cancelAttempt c door).noteLeave c .release latch :=
    (lockDoorReport_of_disengaging _ _ _ hs).trans (reportDisengaging_unconfirmed (s := v) hp hc door)
  have travelAt (hs : k.state = .disengaging) (hp : ¬position) : u = v.cancelAttempt c door :=
    (lockDoorReport_of_disengaging _ _ _ hs).trans (reportDisengaging_timed (s := v) hp door)
  have lockedAt (hs : k.state = .locked) : u = if latchLost (s.limits.mode.get c) door confirmed then v.jamLock c .latchLost else v :=
    lockDoorReport_of_locked _ _ _ hs
  have otherAt (hs : k.state ∈ [LockState.unknown, .unlocked, .jammed]) : u = v := lockDoorReport_of_other _ _ _ hs
  have hlatched : (u.lock c).latch = some latch := by
    cases hs : k.state with
    | engaging =>
      cases hd : door with
      | opened =>
        cases hh : k.held with
        | false => rw [backAt hs hd hh, lock_lockReport, lock_backOffLock, hk, latch_travelling]
        | true => rw [doorJam hs hd hh, lock_jamLock (by rw [hk, hs]; decide), hk]
      | closed =>
        by_cases hp : position
        · by_cases hc : confirmed = some .extended
          · rw [engagedAt hs hd hp hc, lock_engaged, lock_noteLeave, hk]
          · rw [notedAt hs hd hp hc, lock_noteLeave, hk]
        · rw [timedAt hs hd hp, hk]
    | disengaging =>
      by_cases hp : position
      · by_cases hc : confirmed = some .retracted
        · rw [releasedAt hs hp hc, latch_released, lock_noteLeave, lock_cancelAttempt, hk]
        · rw [leavingAt hs hp hc, lock_noteLeave, lock_cancelAttempt, hk]
      · rw [travelAt hs hp, lock_cancelAttempt, hk]
    | locked =>
      rw [lockedAt hs]
      split
      · rw [lock_jamLock (by rw [hk, hs]; decide), hk]
      · rw [hk]
    | unknown | unlocked | jammed => rw [otherAt (by rw [hs]; decide), hk]
  refine ⟨hlatched, fun hs hd => ⟨fun hp hc => ?_, fun hp hc => ?_, fun hp => ?_⟩, fun hs hd => ⟨fun hh => ?_, fun hh => ?_⟩,
    fun hs => ⟨fun hd hx => ?_, fun hp hc => ?_, fun hp hc => ?_, fun hp => ?_⟩, fun hs => ⟨fun hl => ?_, fun hd hl => ?_⟩,
    fun hs => otherAt hs⟩
  case refine_1 =>
    rw [engagedAt hs hd hp hc]
    refine ⟨?_, ?_, ?_, ?_, ?_, ?_, mem_engaged ..⟩ <;> rw [lock_engaged]
    rw [lock_noteLeave, hk]
  case refine_2 =>
    rw [notedAt hs hd hp hc, lock_noteLeave, hk]
    simp only [hasLeft, bne_iff_ne]
  case refine_3 => rw [timedAt hs hd hp, hk]
  case refine_4 =>
    rw [backAt hs hd hh]
    refine ⟨?_, ?_, ?_, List.mem_append_right _ (List.mem_singleton.2 rfl)⟩ <;> rw [lock_lockReport, lock_backOffLock]
    · exact state_travelling ..
    · exact purpose_travelling ..
    · have hatt : (v.lock c).attempt = k.attempt := congrArg LockUnit.attempt hk
      exact (attempt_travelling ..).trans hatt
  case refine_5 =>
    have hj : (v.lock c).state ≠ .jammed := by rw [hk, hs]; decide
    rw [doorJam hs hd hh]
    exact ⟨by rw [lock_jamLock hj], by rw [lock_jamLock hj], mem_jamLock hj _⟩
  case refine_6 =>
    have hmem : Event.lock c .engageAborted ∈ (v.cancelAttempt c door).events := by
      rw [hd]
      exact mem_cancelAttempt ((congrArg LockUnit.purpose hk).trans hx)
    have hnote := (bolts_noteLeave (v.cancelAttempt c door) c .release latch).events.subset hmem
    by_cases hp : position
    · by_cases hc : confirmed = some .retracted
      · rw [releasedAt hs hp hc]
        exact (bolts_released _ c).events.subset hnote
      · rw [leavingAt hs hp hc]
        exact hnote
    · rw [travelAt hs hp]
      exact hmem
  case refine_7 =>
    have hpurpose : (((v.cancelAttempt c door).noteLeave c .release latch).lock c).purpose =
        if door = .opened ∧ k.purpose = .nextAttempt then .plain else k.purpose := by
      rw [lock_noteLeave, lock_cancelAttempt, hk]
    obtain ⟨hnone, hplain, hnext, hfailed⟩ := released_facts ((v.cancelAttempt c door).noteLeave c .release latch) c
    rw [releasedAt hs hp hc]
    refine ⟨fun hx => ?_, fun hx hd => hnext ?_, fun hx => hfailed ?_⟩
    · obtain ⟨hstate, hatt, hjam, hmem⟩ := hplain (by
        rw [hpurpose]
        rcases hx with hx | hx
        · rw [hx, if_neg (by simp)]
        · rw [if_pos hx.symm])
      exact ⟨hstate, hatt, hjam, hnone, hmem⟩
    · rw [hpurpose, hx, hd, if_neg (by simp)]
    · rw [hpurpose, hx, if_neg (by simp)]
  case refine_8 =>
    rw [leavingAt hs hp hc, lock_noteLeave, lock_cancelAttempt, hk]
    simp only [hasLeft, bne_iff_ne]
  case refine_9 => rw [travelAt hs hp, lock_cancelAttempt, hk]
  case refine_10 =>
    have hj : (v.lock c).state ≠ .jammed := by rw [hk, hs]; decide
    rw [lockedAt hs, if_pos (latchLost_iff.2 hl)]
    exact ⟨by rw [lock_jamLock hj], by rw [lock_jamLock hj], mem_jamLock hj _⟩
  case refine_11 =>
    rw [lockedAt hs, if_neg]
    · rfl
    · rw [latchLost_iff, hd]
      rintro (h | ⟨hp, hn, he⟩)
      · exact nomatch h
      · exact hl.elim (fun h => h hp) (Or.rec hn he)

end Sys2Proof.Machine
end

