-- ==== Sys2Proof/Proofs/Segments.lean ====
section
/-! PROOFS. The timers of a cavity that raise TIMEOUT, complete a segment or release (R109, R111, R119, R120, R123, R130, R137,
R152): O49, O50. -/

namespace Sys2Proof.Machine

-- One proof at a time: proofs elaborated side by side ask for more threads than the check's memory limit leaves room for.
set_option Elab.async false

/-! ## Raising a cause (R126, R132, R137) -/

@[simp] theorem cav_setPending (s : State) (c : Cav) (a : Cause) (b : Bool) :
    (s.setPending c a b).cav c = { s.cav c with pending := (s.cav c).pending.set a.index b } := by
  simp [State.setPending]

theorem raise_of_not_run {s : State} {c : Cav} (h : (s.cav c).state ≠ .run) (a : Cause) : s.raise c a = s := by
  unfold State.raise
  cases hs : (s.cav c).state
  case run => exact absurd hs h
  all_goals rfl

/-- R126, R137: a cause raised in RUN that is not taken. -/
theorem raise_of_not_taken {s : State} {c : Cav} {a : Cause} (h : (s.cav c).state = .run)
    (ht : ((s.setPending c a true).cav c).takeable = none) : s.raise c a =
      if a = .timeout then (s.setPending c a true).endCycle c .timeoutInRecovery else s.setPending c a true := by
  unfold State.raise
  rw [h]
  dsimp only
  rw [ht]

/-- R132: nothing is taken where no pending cause outranks the top of the stack. -/
theorem takeable_of_outranked {k : CavCtx} {e : StackEntry} {rest : List StackEntry} (hk : k.stack = e :: rest)
    (h : ∀ d : Cause, k.pending.get d.index = true → e.cause.index ≤ d.index) : k.takeable = none := by
  cases ht : k.topPending with
  | none =>
    unfold CavCtx.takeable
    rw [ht]
  | some a =>
    have ha : k.pending.get a.index = true := by
      unfold CavCtx.topPending at ht
      exact List.find?_some (p := fun d : Cause => k.pending.get d.index) ht
    exact takeable_eq_none ht ⟨e, by rw [hk]; rfl, h a ha⟩

/-- R137: TIMEOUT in a recovery chain it does not outrank ends the cycle. -/
theorem raise_timeout_in_recovery {s : State} {c : Cav} {e : StackEntry} {rest : List StackEntry} (h : (s.cav c).state = .run)
    (hk : (s.cav c).stack = e :: rest) (he : e.cause ≠ .linkLost)
    (hp : ∀ d : Cause, (s.cav c).pending.get d.index = true → e.cause.index ≤ d.index) :
    s.raise c .timeout = (s.setPending c .timeout true).endCycle c .timeoutInRecovery := by
  have hle : e.cause.index ≤ Cause.timeout.index := by
    cases hc : e.cause
    case linkLost => exact absurd hc he
    all_goals decide
  have ht : ((s.setPending c .timeout true).cav c).takeable = none := by
    refine takeable_of_outranked (by rw [cav_setPending]; exact hk) fun d hd => ?_
    rw [cav_setPending] at hd
    by_cases hx : d = .timeout
    · exact hx ▸ hle
    · have hi : (Cause.timeout.index : Nat) ≠ d.index := fun h => index_injective hx (Fin.ext h.symm)
      exact hp d (by simpa [Vector.get_eq_getElem, Vector.getElem_set_ne, hi] using hd)
  exact (raise_of_not_taken h ht).trans (if_pos rfl)

/-! ## Timers of a context (R69) -/

section
variable {s : State} {c : Cav} {e : Time}

theorem effect_shortTimerExpired (h : (s.cav c).short = some e) :
    effect (.shortTimerExpired c) s = ((s.advance e).modCav c (fun k => { k with short := none })).raise c .timeout :=
  expire_of_running (s := s) h (fun s => s.shortExpires c)

theorem effect_longTimerExpired (h : (s.cav c).long = some e) :
    effect (.longTimerExpired c) s = ((s.advance e).modCav c (fun k => { k with long := none })).raise c .timeout :=
  expire_of_running (s := s) h (fun s => s.longExpires c)

theorem effect_soakHoldComplete (h : (s.cav c).hold = .running e) :
    effect (.soakHoldComplete c) s = (s.advance e).completeSegment c :=
  expire_of_running (s := s) (by rw [h]; rfl) (fun s => s.completeSegment c)

theorem effect_dwellExpired (h : (s.cav c).dwell = some e) : effect (.dwellExpired c) s = (s.advance e).enterRelease c :=
  expire_of_running (s := s) h (fun s => s.enterRelease c)

theorem effect_blindCoolExpired (h : (s.cav c).blind = some e) :
    effect (.blindCoolExpired c) s = (s.advance e).modCav c (fun k => { k with blind := none, blindExpired := true }) :=
  expire_of_running (s := s) h (fun s => s.blindExpires c)

end

/-- Settles O49. -/
theorem segmentTimersRaiseOrComplete : Obligations.SegmentTimersRaiseOrComplete := by
  refine ⟨fun s c e hr h => ?short, fun s c e hr h => ?long, fun s c a h => raise_of_not_run h a, fun s c e rest h hk he hp => ?recovery,
    fun s c e hr h => ?hold⟩
  case short => exact answers_of_effect (c := .shortTimerExpired c) nofun nofun hr (effect_shortTimerExpired h)
  case long => exact answers_of_effect (c := .longTimerExpired c) nofun nofun hr (effect_longTimerExpired h)
  case recovery =>
    have hend := raise_timeout_in_recovery h hk he hp
    rw [hend]
    refine ⟨rfl, ?_, ?_, ?_, ?_⟩ <;> rw [cav_endCycle]
    rw [cav_setPending]
  case hold => exact answers_of_effect (c := .soakHoldComplete c) nofun nofun hr (effect_soakHoldComplete h)

/-! ## A RELEASE request (R152) -/

/-- R152: a release request ends a hold. -/
def State.unheld (s : State) (c : Cav) : State := s.modLock c (fun k => { k with held := false })

@[simp] theorem lock_unheld (s : State) (c : Cav) : (s.unheld c).lock c = { s.lock c with held := false } := by
  simp [State.unheld]

section
variable {s : State} {c : Cav}

theorem releaseLock_of_no_motor (h : (s.motor c).isSome = false) : s.releaseLock c =
    (((s.unheld c).modLock c (fun k => { k.stopTimers with jam := .noJam, attempt := 0 })).setLockState c .unlocked).lockReport c
      .unlocked := by
  have hn : ((s.unheld c).motor c).isNone = true := by
    have hm : (s.unheld c).motor c = s.motor c := rfl
    rw [hm]
    exact Option.isSome_eq_false_iff.1 h
  exact if_pos hn

section
variable (hm : (s.motor c).isSome = true)
include hm

/-- R152: with a motor the request acts by the state of the lock. -/
theorem releaseLock_of_motor : s.releaseLock c = match ((s.unheld c).lock c).state with
    | .unknown | .engaging => ((s.unheld c).setAttempt c 0).backOffLock c .plain
    | .unlocked => (s.unheld c).lockReport c .unlocked
    | .locked | .jammed => (s.unheld c).backOffLock c .plain
    | .disengaging => (s.unheld c).setPurpose c .plain := by
  have hn : ¬((s.unheld c).motor c).isNone = true := by
    have hu : (s.unheld c).motor c = s.motor c := rfl
    obtain ⟨i, hi⟩ := Option.isSome_iff_exists.1 hm
    rw [hu, hi]
    exact Bool.false_ne_true
  exact (if_neg hn).trans rfl

theorem releaseLock_of_locked (h : (s.lock c).state = .locked ∨ (s.lock c).state = .jammed) :
    s.releaseLock c = (s.unheld c).backOffLock c .plain := by
  rw [releaseLock_of_motor hm, lock_unheld]
  rcases h with h | h <;> rw [h]

theorem releaseLock_of_engaging (h : (s.lock c).state = .unknown ∨ (s.lock c).state = .engaging) :
    s.releaseLock c = ((s.unheld c).setAttempt c 0).backOffLock c .plain := by
  rw [releaseLock_of_motor hm, lock_unheld]
  rcases h with h | h <;> rw [h]

theorem releaseLock_of_unlocked (h : (s.lock c).state = .unlocked) : s.releaseLock c = (s.unheld c).lockReport c .unlocked := by
  rw [releaseLock_of_motor hm, lock_unheld, h]

theorem releaseLock_of_disengaging (h : (s.lock c).state = .disengaging) :
    s.releaseLock c = (s.unheld c).setPurpose c .plain := by
  rw [releaseLock_of_motor hm, lock_unheld, h]

end

/-- R152: what a release request makes of the lock. -/
theorem releaseLock_facts (s : State) (c : Cav) :
    let u := s.releaseLock c
    (u.lock c).held = false ∧
      ((s.motor c).isSome = true →
        ((s.lock c).state = .locked ∨ (s.lock c).state = .jammed →
          (u.lock c).state = .disengaging ∧ (u.lock c).purpose = .plain ∧ (u.lock c).attempt = (s.lock c).attempt) ∧
        ((s.lock c).state = .unknown ∨ (s.lock c).state = .engaging →
          (u.lock c).state = .disengaging ∧ (u.lock c).purpose = .plain ∧ (u.lock c).attempt = 0) ∧
        ((s.lock c).state = .unlocked → (u.lock c).state = .unlocked ∧ Event.lock c .unlocked ∈ u.events) ∧
        ((s.lock c).state = .disengaging → u.lock c = { s.lock c with held := false, purpose := .plain }) ∧
        (u.lock c).jam = (s.lock c).jam) ∧
      ((s.motor c).isSome = false →
        (u.lock c).state = .unlocked ∧ (u.lock c).jam = .noJam ∧ Event.lock c .unlocked ∈ u.events) := by
  intro u
  have hmem {t : State} : Event.lock c .unlocked ∈ (t.lockReport c .unlocked).events :=
    List.mem_append_right _ (List.mem_singleton.2 rfl)
  cases hm : (s.motor c).isSome with
  | false =>
    have hu : u = _ := releaseLock_of_no_motor hm
    rw [hu]
    refine ⟨?_, nofun, fun _ => ⟨?_, ?_, hmem⟩⟩ <;> simp [LockUnit.stopTimers]
  | true =>
    have hlocked (h : (s.lock c).state = .locked ∨ (s.lock c).state = .jammed) : u.lock c = LockUnit.travelling
        { s.lock c with held := false, purpose := .plain } s.now s.limits (s.limits.mode.get c) .release := by
      have hu : u = _ := releaseLock_of_locked hm h
      rw [hu, lock_backOffLock, lock_unheld]
      rfl
    have hengaging (h : (s.lock c).state = .unknown ∨ (s.lock c).state = .engaging) : u.lock c = LockUnit.travelling
        { s.lock c with held := false, attempt := 0, purpose := .plain } s.now s.limits (s.limits.mode.get c) .release := by
      have hu : u = _ := releaseLock_of_engaging hm h
      rw [hu, lock_backOffLock, lock_setAttempt, lock_unheld]
      rfl
    have hunlocked (h : (s.lock c).state = .unlocked) :
        u.lock c = { s.lock c with held := false } ∧ Event.lock c .unlocked ∈ u.events := by
      have hu : u = _ := releaseLock_of_unlocked hm h
      exact ⟨by rw [hu, lock_lockReport, lock_unheld], by rw [hu]; exact hmem⟩
    have hleaving (h : (s.lock c).state = .disengaging) : u.lock c = { s.lock c with held := false, purpose := .plain } := by
      have hu : u = _ := releaseLock_of_disengaging hm h
      rw [hu, lock_setPurpose, lock_unheld]
    have hrest : (u.lock c).held = false ∧ (u.lock c).jam = (s.lock c).jam := by
      cases hs : (s.lock c).state with
      | locked => rw [hlocked (.inl hs), held_travelling, jam_travelling]; exact ⟨rfl, rfl⟩
      | jammed => rw [hlocked (.inr hs), held_travelling, jam_travelling]; exact ⟨rfl, rfl⟩
      | unknown => rw [hengaging (.inl hs), held_travelling, jam_travelling]; exact ⟨rfl, rfl⟩
      | engaging => rw [hengaging (.inr hs), held_travelling, jam_travelling]; exact ⟨rfl, rfl⟩
      | unlocked => rw [(hunlocked hs).1]; exact ⟨rfl, rfl⟩
      | disengaging => rw [hleaving hs]; exact ⟨rfl, rfl⟩
    refine ⟨hrest.1, fun _ => ⟨fun h => ?_, fun h => ?_, fun h => ?_, hleaving, hrest.2⟩, nofun⟩
    · rw [hlocked h, state_travelling, purpose_travelling, attempt_travelling]
      exact ⟨rfl, rfl, rfl⟩
    · rw [hengaging h, state_travelling, purpose_travelling, attempt_travelling]
      exact ⟨rfl, rfl, rfl⟩
    · obtain ⟨hlock, hev⟩ := hunlocked h
      exact ⟨by rw [hlock]; exact h, hev⟩

end

/-! ## RELEASE (R120) -/

/-- A context in RELEASE, its lock still to be released. -/
def State.releasing (s : State) (c : Cav) : State :=
  ((s.setCavState c .release).clearWatch (.release c)).modCav c (fun k => { k with dwell := none, blind := none, blindExpired := false })

theorem locks_setCavState (s : State) (c : Cav) (st : CavState) : (s.setCavState c st).locks = s.locks := by
  unfold State.setCavState
  split <;> rfl

theorem lock_releasing (s : State) (c d : Cav) : (s.releasing c).lock d = s.lock d := by
  have h : (s.releasing c).locks = s.locks := (locks_setCavState s c .release : (s.setCavState c .release).locks = s.locks)
  unfold State.lock
  rw [h]

theorem loads_setCavState (s : State) (c : Cav) (st : CavState) : (s.setCavState c st).loads = s.loads := by
  unfold State.setCavState
  split <;> rfl

theorem motor_releasing (s : State) (c d : Cav) : (s.releasing c).motor d = s.motor d := by
  have h : (s.releasing c).loads = s.loads := loads_setCavState s c .release
  exact motor_of_entry (fun i => congrArg (fun l => (l.get i).1) h) d

/-- Settles O50. -/
theorem dwellReleasesAndBlindCoolIsNoted : Obligations.DwellReleasesAndBlindCoolIsNoted := by
  refine ⟨fun s c e hr h => ?dwell, fun s c => ?release, fun s c e hr h => ?blind⟩
  case dwell => exact answers_of_effect (c := .dwellExpired c) nofun nofun hr (effect_dwellExpired h)
  case blind => exact exec_of_quiet (c := .blindCoolExpired c) nofun nofun hr (effect_blindCoolExpired h) hr.2
  case release =>
    intro u
    have hcav : u.cav c = _ := cav_enterRelease s c
    obtain ⟨hheld, hmotor, hnone⟩ := releaseLock_facts (s.releasing c) c
    rw [lock_releasing, motor_releasing] at hmotor
    rw [motor_releasing] at hnone
    have hwatch : (u.watch (.release c)).state = .cleared := by
      have hw : u.watch (.release c) = (s.releasing c).watch (.release c) := by
        unfold State.watch
        rw [show u.watches = _ from (Bolts.releaseLock (Bolts.refl (s.releasing c)) c).watches]
      rw [hw]
      show (((s.setCavState c .release).clearWatch (.release c)).watch (.release c)).state = .cleared
      rw [watch_clearWatch, if_pos rfl]
      rfl
    exact ⟨by rw [hcav], by rw [hcav], by rw [hcav], by rw [hcav], by rw [hcav], hheld, hwatch, hmotor, hnone⟩

end Sys2Proof.Machine
end

