-- ==== Sys2Proof/Proofs/Readings.lean ====
section
/-! PROOFS. What a reading's value is, how it moves a channel, the watches on it and the stall check (R67 to R73, R76, R164, R166):
O59. -/

namespace Sys2Proof.Machine

-- One proof at a time: proofs elaborated side by side ask for more threads than the check's memory limit leaves room for.
set_option Elab.async false

/-! ## The value of a reading (R67) -/

theorem qualityOf_of_out {q : Byte} (h : 3 ≤ q.toNat) : qualityOf q = some .outOfRange ∨ qualityOf q = none := by
  unfold qualityOf
  rcases Nat.eq_or_lt_of_le h with h | h
  · rw [← h]
    exact .inl rfl
  · exact .inr (List.getElem?_eq_none h)

theorem readValue_of_good (u : Use) (hi lo : Byte) {v : ChanValue} (h : goodValue u hi lo = some v) :
    readValue u 0 hi lo = (.good, some v) := by
  unfold readValue
  rw [h]
  rfl

theorem readValue_of_no_value (u : Use) (hi lo : Byte) (h : goodValue u hi lo = none) :
    readValue u 0 hi lo = (.outOfRange, none) := by
  unfold readValue
  rw [h]
  rfl

theorem readValue_of_range {u : Use} {hi lo : Byte} {p : Prop} [Decidable p] {v : ChanValue}
    (h : goodValue u hi lo = if p then some v else none) :
    readValue u 0 hi lo = if p then (.good, some v) else (.outOfRange, none) := by
  split <;> rename_i hp
  · exact readValue_of_good u hi lo (h.trans (if_pos hp))
  · exact readValue_of_no_value u hi lo (h.trans (if_neg hp))

theorem goodValue_door_of_out {c : Cav} {hi lo : Byte} (h : 1 < hi.toNat ∨ 3 < lo.toNat) : goodValue (.door c) hi lo = none := by
  rcases h with h | h
  · have hd : doorOf hi = none := List.getElem?_eq_none h
    simp [goodValue, hd]
  · have hl : latchOf lo = none := List.getElem?_eq_none h
    cases hd : doorOf hi <;> simp [goodValue, hd, hl]

theorem readings_of_use (q hi lo : Byte) (c : Cav) (u : Use) :
    (q = 1 → readValue u q hi lo = (.openCircuit, none)) ∧ (q = 2 → readValue u q hi lo = (.shortCircuit, none)) ∧
    (3 ≤ q.toNat → readValue u q hi lo = (.outOfRange, none)) ∧
    (q = 0 →
      (∀ v : Int, u ∈ [Use.probe c, .bay, .duct] → v = (hi ++ lo : BitVec 16).toInt → readValue u q hi lo =
        if -100 ≤ v ∧ v ≤ 1400 then (.good, some (.num v)) else (.outOfRange, none)) ∧
      (∀ v : Nat, v = hi.toNat * 256 + lo.toNat →
        (u = .mains → readValue u q hi lo = if v ≤ 300 then (.good, some (.num v)) else (.outOfRange, none)) ∧
        (u = .tacho → readValue u q hi lo = if v ≤ 9000 then (.good, some (.num v)) else (.outOfRange, none))) ∧
      (u = .door c →
        (∀ d l, hi = doorCode d → lo = latchCode l → readValue u q hi lo = (.good, some (.door d l))) ∧
        (1 < hi.toNat ∨ 3 < lo.toNat → readValue u q hi lo = (.outOfRange, none)))) := by
  refine ⟨fun h => h ▸ rfl, fun h => h ▸ rfl, fun h => ?out, fun h => ?good⟩
  case out =>
    unfold readValue
    rcases qualityOf_of_out h with hq | hq <;> rw [hq]
  case good =>
    subst h
    refine ⟨fun v hu hv => ?_, fun v hv => ⟨fun hu => ?_, fun hu => ?_⟩, fun hu => ⟨fun d l hd hl => ?_, fun ho => ?_⟩⟩
    · subst hv
      simp only [List.mem_cons, List.not_mem_nil, or_false] at hu
      rcases hu with rfl | rfl | rfl <;> exact readValue_of_range rfl
    · subst hu hv
      exact readValue_of_range rfl
    · subst hu hv
      exact readValue_of_range rfl
    · subst hu hd hl
      refine readValue_of_good _ _ _ ?_
      cases d <;> cases l <;> rfl
    · subst hu
      exact readValue_of_no_value _ _ _ (goodValue_door_of_out ho)

/-! ## The record after a reading (R68, R69) -/

theorem goodReading_facts (now length : Time) (r : ChanRecord) (v : ChanValue) (h : r.state ≠ .unbound) :
    let u := goodReading now length r v
    (r.state ≠ .failed ∨ 1 ≤ r.goodRun → u.state = .live ∧ u.stale = some (now + length)) ∧
      (r.state = .failed → r.goodRun = 0 → u.state = .failed ∧ u.stale = r.stale) := by
  intro u
  cases hs : r.state with
  | unbound => exact absurd hs h
  | unknown | live | stale => exact ⟨fun _ => by simp [u, goodReading, hs], nofun⟩
  | failed =>
    refine ⟨fun hg => ?_, fun _ hg => by simp [u, goodReading, hs, hg]⟩
    have hrun : min 2 (r.goodRun + 1) = 2 := by
      have : 1 ≤ r.goodRun := hg.resolve_left (fun x => x rfl)
      omega
    simp [u, goodReading, hs, hrun]

theorem readInto_of_bad {q : Quality} (hq : q ≠ .good) (now length : Time) (r : ChanRecord) :
    readInto now length r (q, none) = badReading r q := by
  cases q
  case good => exact absurd rfl hq
  all_goals rfl

theorem badReading_eq {r : ChanRecord} (h : r.state ≠ .unbound) (q : Quality) : badReading r q = { r with
    quality := some q, goodRun := 0, badRun := min 2 (r.badRun + 1),
    state := if 1 ≤ r.badRun then .failed else r.state,
    stale := if 1 ≤ r.badRun ∨ r.state = .failed then none else r.stale } := by
  by_cases hb : 1 ≤ r.badRun <;> simp [badReading, h, hb]

theorem confirmedOn_iff (r : ChanRecord) (side : Side) (level : Int) : confirmedOn r side level = true ↔
    r.state = .live ∧ r.goodRun = 2 ∧ ∃ x y, numOf r.latest = some x ∧ numOf r.previous = some y ∧
      onSide side level x = true ∧ onSide side level y = true := by
  unfold confirmedOn valueMeets
  cases numOf r.latest <;> cases numOf r.previous <;> simp [and_assoc]

/-! ## Watches (R70, R72) -/

section
variable (s : State) (w : WatchId)

theorem watch_setWatch (side : Side) (level : Int) (v : WatchId) : (s.setWatch w side level).watch v =
    if v = w then { side := side, level := level, state := freshWatchState (s.channel (watchUse w)) side level } else s.watch v := by
  rw [setWatch_eq]
  exact watch_putWatch s w v _

theorem events_setWatch (side : Side) (level : Int) :
    (s.setWatch w side level).events = s.events ++ s.setReports w side level := by
  rw [setWatch_eq]

theorem setReports_eq (side : Side) (level : Int) : s.setReports w side level =
    if confirmedOn (s.channel (watchUse w)) side level = true ∧ (s.watch w).state ≠ .met then [Event.watch w true]
    else if confirmedOn (s.channel (watchUse w)) side level = false ∧ (s.watch w).state = .met then [Event.watch w false] else [] := by
  unfold State.setReports freshWatchState
  by_cases hm : (s.watch w).state = .met <;> cases confirmedOn (s.channel (watchUse w)) side level <;> simp [hm]

/-- R72: a reading leaves a watch whose state it does not change. -/
theorem evalWatch_of_same (h : nextWatchState (s.channel (watchUse w)) (s.watch w) = (s.watch w).state) : s.evalWatch w = s :=
  if_pos h

/-- R72: a watch whose state a reading changes, and its event. -/
theorem evalWatch_of_ne (h : nextWatchState (s.channel (watchUse w)) (s.watch w) ≠ (s.watch w).state) :
    s.evalWatch w = (s.putWatch w { s.watch w with state := nextWatchState (s.channel (watchUse w)) (s.watch w) }).emit
      (.watch w (nextWatchState (s.channel (watchUse w)) (s.watch w) == .met)) := if_neg h

theorem watch_evalWatch (v : WatchId) : (s.evalWatch w).watch v = if v = w then
    { s.watch w with state := nextWatchState (s.channel (watchUse w)) (s.watch w) } else s.watch v := by
  by_cases h : nextWatchState (s.channel (watchUse w)) (s.watch w) = (s.watch w).state
  · rw [evalWatch_of_same s w h, h]
    by_cases hv : v = w
    · rw [if_pos hv, hv]
    · rw [if_neg hv]
  · rw [evalWatch_of_ne s w h]
    exact watch_putWatch s w v _

theorem chans_evalWatch : (s.evalWatch w).chans = s.chans := by
  unfold State.evalWatch
  dsimp only
  split <;> rfl

theorem events_evalWatch : s.events <+: (s.evalWatch w).events := by
  unfold State.evalWatch
  dsimp only
  split
  · exact List.prefix_refl _
  · exact List.prefix_append ..

end

/-- How one watch moves as its channel's watches are evaluated in turn, and that its event stands. -/
structure Evaluated (w : WatchId) (s t : State) : Prop where
  watch : t.watch w = { s.watch w with state := nextWatchState (s.channel (watchUse w)) (s.watch w) }
  event : nextWatchState (s.channel (watchUse w)) (s.watch w) ≠ (s.watch w).state →
    Event.watch w (nextWatchState (s.channel (watchUse w)) (s.watch w) == .met) ∈ t.events

theorem evaluated_evalWatch (s : State) (w : WatchId) : Evaluated w s (s.evalWatch w) where
  watch := (watch_evalWatch s w w).trans (if_pos rfl)
  event h := by
    rw [evalWatch_of_ne s w h]
    exact List.mem_append_right _ (List.mem_singleton.2 rfl)

theorem foldl_evalWatch_of_not_mem {w : WatchId} (l : List WatchId) (h : w ∉ l) : ∀ s : State,
    (l.foldl State.evalWatch s).watch w = s.watch w ∧ s.events <+: (l.foldl State.evalWatch s).events := by
  induction l with
  | nil => exact fun _ => ⟨rfl, List.prefix_refl _⟩
  | cons v l ih =>
    intro s
    obtain ⟨hv, hl⟩ : w ≠ v ∧ w ∉ l := by simpa using h
    obtain ⟨hw, he⟩ := ih hl (s.evalWatch v)
    exact ⟨hw.trans ((watch_evalWatch s v w).trans (if_neg hv)), (events_evalWatch s v).trans he⟩

theorem evaluated_foldl {w : WatchId} (l : List WatchId) (hn : l.Nodup) (h : w ∈ l) :
    ∀ s : State, Evaluated w s (l.foldl State.evalWatch s) := by
  induction l with
  | nil => exact absurd h List.not_mem_nil
  | cons v l ih =>
    intro s
    obtain ⟨hv, hl⟩ := List.nodup_cons.1 hn
    by_cases hw : w = v
    · subst hw
      obtain ⟨hwatch, hevents⟩ := foldl_evalWatch_of_not_mem l hv (s.evalWatch w)
      have ho := evaluated_evalWatch s w
      exact ⟨hwatch.trans ho.watch, fun x => hevents.subset (ho.event x)⟩
    · have hk : (s.evalWatch v).watch w = s.watch w := (watch_evalWatch s v w).trans (if_neg hw)
      have hc : (s.evalWatch v).channel (watchUse w) = s.channel (watchUse w) := channel_of_chans (chans_evalWatch s v) _
      have ho := ih hl ((List.mem_cons.1 h).resolve_left hw) (s.evalWatch v)
      refine ⟨?_, ?_⟩
      · rw [List.foldl_cons, ho.watch, hk, hc]
      · have he := ho.event
        rw [hk, hc] at he
        exact he

theorem mem_watchesOn (w : WatchId) : w ∈ watchesOn (watchUse w) := by
  cases w <;> simp [watchUse, watchesOn]

theorem nodup_watchesOn (u : Use) : (watchesOn u).Nodup := by
  cases u <;> simp [watchesOn]

theorem nextWatchState_of_confirmed {r : ChanRecord} {w : Watch} (hs : w.state = .notMet)
    (h : confirmedOn r w.side w.level = true) : nextWatchState r w = .met := by
  unfold nextWatchState
  rw [hs]
  exact if_pos h

theorem nextWatchState_of_lapsed {r : ChanRecord} {w : Watch} (hs : w.state = .met) (hq : r.quality = some .good)
    (h : valueMeets w.side w.level r.latest = false) : nextWatchState r w = .notMet := by
  unfold nextWatchState
  rw [hs]
  exact if_pos (by rw [hq, h]; rfl)

theorem nextWatchState_of_kept {r : ChanRecord} {w : Watch} (h : w.state = .cleared ∨
    (w.state = .notMet ∧ confirmedOn r w.side w.level = false) ∨
    (w.state = .met ∧ (r.quality ≠ some .good ∨ valueMeets w.side w.level r.latest = true))) : nextWatchState r w = w.state := by
  unfold nextWatchState
  rcases h with h | ⟨h, hc⟩ | ⟨h, hc⟩ <;> rw [h]
  · exact if_neg (by rw [hc]; decide)
  · refine if_neg fun hx => ?_
    simp only [Bool.and_eq_true, beq_iff_eq, Bool.not_eq_true'] at hx
    rcases hc with hc | hc
    · exact hc hx.1
    · rw [hc] at hx
      exact nomatch hx.2

/-! ## A reading (R71, R72, R78) -/

theorem use_of_bindingOfUse {s : State} {u : Use} {n : Fin 8} (h : s.bindingOfUse u = some n) : (s.binding n).use = u := by
  unfold State.bindingOfUse at h
  split at h
  · exact nomatch h
  · exact of_decide_eq_true (List.find?_some (p := fun n => decide ((s.binding n).use = u)) h)

/-- R71: a use that is LIVE after the reading keeps its watches while the change is reported. -/
theorem watches_reportChange_to_live (s : State) (u : Use) (left : ChanState) : (s.reportChange u left .live).watches = s.watches := by
  by_cases h : left = .live
  · subst h
    rfl
  · exact watches_reportChange_of_not_live s u h .live

theorem chans_reportChange (s : State) (u : Use) (left entered : ChanState) : (s.reportChange u left entered).chans = s.chans := by
  have hl (l : List WatchId) : ∀ s : State, (l.foldl State.loseWatch s).chans = s.chans := by
    induction l with
    | nil => exact fun _ => rfl
    | cons w l ih =>
      intro s
      rw [List.foldl_cons, ih]
      unfold State.loseWatch
      split <;> rfl
  unfold State.reportChange State.announce
  split
  · rfl
  · show (if left = .live then (watchesOn u).foldl State.loseWatch s else s).chans = s.chans
    split
    · exact hl _ s
    · rfl

theorem reportReading_keeps (s : State) (u : Use) (r : ChanRecord) :
    (s.reportReading u r).watches = s.watches ∧ s.events <+: (s.reportReading u r).events := by
  unfold State.reportReading
  split
  · exact ⟨rfl, List.prefix_append ..⟩
  · exact ⟨rfl, List.prefix_append ..⟩
  · exact ⟨rfl, List.prefix_refl _⟩

/-- R78: a channel as its reading leaves it, its change of state reported. -/
def State.tapped (s : State) (n : Fin 8) (r : ChanRecord) : State :=
  (s.modChan n (fun _ => r)).reportChange (s.binding n).use (s.chanRecord n).state r.state

theorem channel_tapped {s : State} {u : Use} {n : Fin 8} (h : s.bindingOfUse u = some n) (r : ChanRecord) :
    (s.tapped n r).channel u = r := by
  have hb : (s.modChan n (fun _ => r)).bindingOfUse u = some n := by
    have he (m : Fin 8) : (s.modChan n (fun _ => r)).binding m = s.binding m := by simp
    unfold State.bindingOfUse at h ⊢
    simp only [he]
    exact h
  rw [State.tapped, channel_of_chans (chans_reportChange ..)]
  unfold State.channel
  rw [hb]
  simp

theorem watch_tapped {r : ChanRecord} (s : State) (n : Fin 8) (h : r.state = .live) (w : WatchId) : (s.tapped n r).watch w = s.watch w := by
  unfold State.watch State.tapped
  rw [h, watches_reportChange_to_live]
  rfl

/-- R72: a watch on the use of a reading that leaves its channel LIVE is evaluated on the record. -/
theorem takeReading_watch {s : State} {n : Fin 8} {w : WatchId} {q hi lo : Byte} (h : s.bindingOfUse (watchUse w) = some n)
    {r : ChanRecord} (hr : r = readInto s.now (seconds s.limits.stale) (s.chanRecord n) (readValue (watchUse w) q hi lo))
    (hl : r.state = .live) {st : WatchState} (hx : nextWatchState r (s.watch w) = st) (hne : st ≠ (s.watch w).state) :
    ((s.takeReading n q hi lo).watch w).state = st ∧ Event.watch w (st == .met) ∈ (s.takeReading n q hi lo).events := by
  have hu := use_of_bindingOfUse h
  have ho : Evaluated w (s.tapped n r) ((s.tapped n r).evalWatches (watchUse w)) :=
    evaluated_foldl _ (nodup_watchesOn _) (mem_watchesOn w) _
  have hwatch := ho.watch
  have hevent := ho.event
  rw [channel_tapped h, watch_tapped s n hl, hx] at hwatch hevent
  have he : s.takeReading n q hi lo = if r.quality = some .good then
      ((s.tapped n r).evalWatches (watchUse w)).reportReading (watchUse w) r else (s.tapped n r).evalWatches (watchUse w) := by
    unfold State.takeReading State.tapped
    rw [hr]
    dsimp only
    rw [hu]
  rw [he]
  split
  · obtain ⟨hkeep, hpre⟩ := reportReading_keeps ((s.tapped n r).evalWatches (watchUse w)) (watchUse w) r
    refine ⟨?_, hpre.subset (hevent hne)⟩
    unfold State.watch
    rw [hkeep]
    exact congrArg Watch.state hwatch
  · exact ⟨congrArg Watch.state hwatch, hevent hne⟩

/-! ## The stall check (R164, R166) -/

theorem speedMet_of_watching {s : State} (h : s.air.stall = .watching) :
    s.speedMet = { s with air := { s.air with stallTimer := none } } := by
  unfold State.speedMet
  rw [h]
  rfl

theorem speedLost_of_watching {s : State} (h : s.air.stall = .watching) : s.speedLost = s.startStallTimer := by
  unfold State.speedLost
  rw [h]

theorem speedMet_of_stalled {s : State} (h : s.air.stall = .stalled) : s.speedMet =
    if s.isMet .speed && s.stallAble then (s.modAir (fun a => { a with stall := .watching, stallTimer := none })).flagPart else s := by
  unfold State.speedMet
  rw [h]

theorem startStallTimer_of_stopped {s : State} (h : s.air.stallTimer = none) :
    s.startStallTimer = { s with air := { s.air with stallTimer := some (s.now + seconds s.limits.stallWindow) } } := by
  unfold State.startStallTimer
  rw [h]
  rfl

/-- R162, R163: a change of the level. -/
theorem setLevel_of_ne {s : State} {l : BlowLevel} (h : s.air.level ≠ l) :
    s.setLevel l = (((s.modAir (fun a => { a with level := l })).driveBlower).aimSpeed).stallAtLevel := if_neg h

theorem air_aimSpeed (s : State) : s.aimSpeed.air = s.air := by
  unfold State.aimSpeed
  split
  · rfl
  · rw [air_setWatch]

theorem air_driveBlower (s : State) : s.driveBlower.air = s.air := ((LoadAct.refl s).driveBlower).air

/-- R166: the stall check at OFF. -/
theorem stallAtLevel_of_off {s : State} (h : s.air.level = .off) :
    s.stallAtLevel.air = { s.air with stall := .idle, arming := none, stallTimer := none } ∧
      (s.air.stall = .stalled → s.stallAtLevel.notices.part = true) := by
  unfold State.stallAtLevel
  rw [if_pos h]
  split <;> rename_i hs
  · exact ⟨rfl, fun _ => rfl⟩
  · exact ⟨rfl, fun x => absurd x hs⟩

/-- R166: a level that becomes OFF ends the stall check. -/
theorem setLevel_off {s : State} (h : s.air.level ≠ .off) :
    (s.setLevel .off).air = { s.air with level := .off, stall := .idle, arming := none, stallTimer := none } ∧
      (s.air.stall = .stalled → (s.setLevel .off).notices.part = true) := by
  have ha : ((s.modAir (fun a => { a with level := .off })).driveBlower).aimSpeed.air = { s.air with level := .off } := by
    rw [air_aimSpeed, air_driveBlower]
    rfl
  obtain ⟨hair, hpart⟩ := stallAtLevel_of_off (s := ((s.modAir (fun a => { a with level := .off })).driveBlower).aimSpeed)
    (by rw [ha])
  rw [ha] at hair hpart
  rw [setLevel_of_ne h]
  exact ⟨hair, hpart⟩

/-- Settles O59. -/
theorem readingsMoveTheWatchesAndTheStall : Obligations.ReadingsMoveTheWatchesAndTheStall := by
  refine ⟨readings_of_use, fun now length r v h => ?good, fun now length r q h hq => ?bad, confirmedOn_iff, fun s w side level => ?set,
    fun s w => ?eval, fun s n w q hi lo h => ?tap, fun s left entered => ⟨rfl, rfl, fun hl he => ?lost⟩, fun s => ?stall⟩
  case good =>
    obtain ⟨hlive, hfailed⟩ := goodReading_facts now length r v h
    exact ⟨rfl, rfl, rfl, rfl, rfl, rfl, hlive, hfailed⟩
  case bad => exact (readInto_of_bad hq now length r).trans (badReading_eq h q)
  case set =>
    refine ⟨?_, fun v hv => (watch_setWatch s w side level v).trans (if_neg hv), ?_⟩
    · exact (watch_setWatch s w side level w).trans (if_pos rfl)
    · exact (events_setWatch s w side level).trans (congrArg _ (setReports_eq s w side level))
  case eval =>
    have ho := evaluated_evalWatch s w
    refine ⟨fun hs hc => ?_, fun hs hq hv => ?_, fun hk => evalWatch_of_same s w (nextWatchState_of_kept hk),
      fun v hv => (watch_evalWatch s w v).trans (if_neg hv)⟩
    · have hn := nextWatchState_of_confirmed hs hc
      exact ⟨hn ▸ ho.watch, by rw [evalWatch_of_ne s w (by rw [hn, hs]; decide), hn]; rfl⟩
    · have hn := nextWatchState_of_lapsed hs hq hv
      exact ⟨hn ▸ ho.watch, by rw [evalWatch_of_ne s w (by rw [hn, hs]; decide), hn]; rfl⟩
  case tap =>
    intro k r u
    refine ⟨fun hs hc => ?_, fun hs hl hq hv => ?_⟩
    · exact takeReading_watch h rfl ((confirmedOn_iff ..).1 hc).1 (nextWatchState_of_confirmed hs hc) (by rw [hs]; decide)
    · exact takeReading_watch h rfl hl (nextWatchState_of_lapsed hs hq hv) (by rw [hs]; decide)
  case lost =>
    subst hl
    exact if_pos (by cases entered <;> first | rfl | exact absurd rfl he)
  case stall =>
    refine ⟨fun hs => ⟨speedMet_of_watching hs, fun ht => (speedLost_of_watching hs).trans (startStallTimer_of_stopped ht)⟩,
      fun hs => ⟨fun hl ht hb hm => ?_, fun hx => ?_, fun hl => ?_⟩⟩
    · have hg : (s.isMet .speed && s.stallAble) = true := by
        unfold State.isMet State.stallAble
        rw [hm, ht, hb]
        simpa using hl
      rw [speedMet_of_stalled hs, if_pos hg]
      exact ⟨rfl, rfl⟩
    · refine (speedMet_of_stalled hs).trans (if_neg fun hg => ?_)
      simp only [State.isMet, State.stallAble, Bool.and_eq_true, beq_iff_eq] at hg
      obtain ⟨hm, ⟨-, ht⟩, hb⟩ := hg
      rcases hx with hx | hx | hx
      · exact hx hm
      · rw [ht] at hx
        exact nomatch hx
      · rw [hb] at hx
        exact nomatch hx
    · obtain ⟨hair, hpart⟩ := setLevel_off hl
      rw [hair]
      exact ⟨rfl, rfl, hpart hs⟩

end Sys2Proof.Machine
end

