-- ==== Sys2Proof/Proofs/Airflow.lean ====
section
/-! PROOFS. The converter and the blower as their demands move them (R25, R109, R110, R160 to R169): O55. -/

namespace Sys2Proof.Machine

-- One proof at a time: proofs elaborated side by side ask for more threads than the check's memory limit leaves room for.
set_option Elab.async false

/-! ## The converter (R167) -/

section
variable {s : State} {c : Cav} {d : ConvField}

theorem postConverter_of_wants (h : d.wants = true) : s.postConverter c d = (s.converterPosted c d).converterOn := by
  rw [postConverter_eq, if_pos h]

theorem postConverter_of_last (h : d.wants = false) (ho : (s.air.convCav.get (otherCav c)).wants = false)
    (hw : s.air.convDemand = true) : s.postConverter c d = (s.converterPosted c d).converterOff := by
  rw [postConverter_eq, if_neg (by rw [h]; decide), if_pos ⟨ho, hw⟩]

theorem postConverter_of_unchanged (h : d.wants = false)
    (ho : (s.air.convCav.get (otherCav c)).wants = true ∨ s.air.convDemand = false) :
    s.postConverter c d = s.converterPosted c d := by
  rw [postConverter_eq, if_neg (by rw [h]; decide), if_neg]
  rintro ⟨hn, hw⟩
  rcases ho with ho | ho
  · exact nomatch hn.symm.trans ho
  · exact nomatch hw.symm.trans ho

theorem postConverter_of_none (h : s.sharedLoad .converter = none) : s.postConverter c d = s.converterPosted c d := by
  have hn : (s.converterPosted c d).sharedLoad .converter = none := h
  rw [postConverter_eq]
  unfold State.converterOn State.converterOff
  rw [hn]
  split
  · rfl
  · split <;> rfl

variable {i : Fin 16} (hi : s.sharedLoad .converter = some i)
include hi

theorem converterOn_of_load : s.converterOn = s.engineDrive i 100 := by
  unfold State.converterOn
  rw [hi]
  rfl

theorem converterOff_of_load : s.converterOff = s.engineOff i := by
  unfold State.converterOff
  rw [hi]
  rfl

end

/-- R167: a request for a CONVERTER that is HELD. -/
theorem converter_driven {s : State} {i : Fin 16} (hi : s.sharedLoad .converter = some i) (hf : s.freeOf i)
    (hg : (s.record i).grant = .held) : IsDriven i 100 (s.record i) s.converterOn := by
  have hcls := cls_of_sharedLoad hi
  have h := isDriven_engineDrive (level := 100) (by rw [hcls]; rfl) (by decide) hf hg
    (heaterCheck_of_not_heater (by rw [hcls]; decide))
  rw [ite_self] at h
  rw [converterOn_of_load hi]
  exact h

theorem converter_stood {s : State} {i : Fin 16} (hi : s.sharedLoad .converter = some i)
    (hg : (s.record i).grant = .held) (hs : (s.record i).standsAt 100 = true) : s.converterOn = s.ownByEngine i := by
  have hcls := cls_of_sharedLoad hi
  have hb : budgeted (s.entry i).cls = true := by rw [hcls]; rfl
  have hk : kindLevel (s.entry i) 100 = 100 := (kindLevel_of_budgeted hb (by decide)).trans (ite_self _)
  rw [converterOn_of_load hi, engineDrive_of_pos s i (by decide),
    engineOn_of_held hb hg (heaterCheck_of_not_heater (by rw [hcls]; decide)), hk, if_pos hs]

theorem converterPosted_facts (s : State) (c : Cav) (d : ConvField) (i : Fin 16) (hi : s.sharedLoad .converter = some i)
    (hf : s.freeOf i) :
    let u := s.postConverter c d
    let other := (s.air.convCav.get (otherCav c)).wants
    (d.wants = true → (s.record i).grant = .held →
      ((s.record i).standsAt 100 = false →
        (u.record i).commanded = some 100 ∧ (u.record i).owner = .engine ∧ QItem.drive i 100 false ∈ u.normal) ∧
      ((s.record i).standsAt 100 = true →
        u.record i = { s.record i with owner := .engine } ∧ u.urgent = s.urgent ∧ u.normal = s.normal)) ∧
    (d.wants = true → (s.record i).grant = .noGrant →
      ((s.record i).fault = .noFault → (u.record i).grant = .held ∨ (u.record i).grant = .waiting) ∧
      ((s.record i).fault ≠ .noFault → u.record i = s.record i ∧
        u.events = s.events ++ [.converterFault (u.air.convCav.get .zero).wants (u.air.convCav.get .one).wants])) ∧
    (d.wants = false → other = false → s.air.convDemand = true →
      (u.record i).commanded = some 0 ∧ ((u.record i).confirmed = some 0 ∨ QItem.drive i 0 false ∈ u.urgent)) := by
  intro u other
  let p := s.converterPosted c d
  have hp : p.sharedLoad .converter = some i := hi
  have hcls : (p.entry i).cls = .converter := cls_of_sharedLoad hp
  have hb : budgeted (p.entry i).cls = true := by rw [hcls]; rfl
  have hon (hw : d.wants = true) : u = p.converterOn := postConverter_of_wants hw
  refine ⟨fun hw hg => ⟨fun hs => ?_, fun hs => ?_⟩, fun hw hg => ⟨fun hn => ?_, fun hn => ?_⟩, fun hw ho hd => ?_⟩
  · have hx : IsDriven i 100 (p.record i) u := hon hw ▸ converter_driven hp hf hg
    obtain ⟨hcom, hq⟩ := hx.driven hs
    exact ⟨hcom, hx.owner, hq⟩
  · have hu : u = p.ownByEngine i := (hon hw).trans (converter_stood hp hg hs)
    rw [hu]
    exact ⟨(record_modRecord ..).trans (if_pos rfl), rfl, rfl⟩
  · have hx : Asks i (if (p.entry i).kind = .switched then 100 else 100) u := by
      rw [hon hw, converterOn_of_load hp]
      exact asks_engineDrive hb (by decide) hg hn (heaterCheck_of_not_heater (by rw [hcls]; decide))
    exact hx.grant.imp_right And.left
  · have hu : u = p.emit (p.faultReport i) := by
      rw [hon hw, converterOn_of_load hp, engineDrive_refused hb (by decide) hg hn]
    have hr : p.faultReport i = .converterFault (p.air.convCav.get .zero).wants (p.air.convCav.get .one).wants := if_pos hcls
    rw [hu, hr]
    exact ⟨rfl, rfl⟩
  · have hx : IsOff i u := by
      have hu : u = p.converterOff := postConverter_of_last hw ho hd
      rw [hu, converterOff_of_load hp]
      exact isOff_engineOff p i
    exact ⟨hx.commanded, hx.queued.imp_right And.left⟩

/-! ## LIT (R110, R169) -/

theorem refreshLit_facts (s : State) :
    let lit := (s.sharedLoad .converter).isSome && (s.watch .light).state == .met
    s.refreshLit.air = { s.air with lit := lit } ∧
      s.refreshLit.events = (if s.air.lit = lit then s.events else s.events ++ [.lit lit]) := by
  intro lit
  have he : s.refreshLit = if s.air.lit = lit then s else (s.modAir (fun a => { a with lit := lit })).emit (.lit lit) := rfl
  rw [he]
  split <;> rename_i h
  · exact ⟨by rw [← h], rfl⟩
  · exact ⟨rfl, rfl⟩

/-- R110: a RAMP that has waited for LIT takes its entry temperature. -/
def State.litUp (s : State) (c : Cav) : State := (s.modCav c (fun k => { k with litWait := false })).takeEntryTemp c

theorem cav_litUp (s : State) (c : Cav) : (s.litUp c).cav c = { s.cav c with litWait := false, entryTemp := s.probeTemp c } := by
  have hp : (s.modCav c (fun k => { k with litWait := false })).probeTemp c = s.probeTemp c := rfl
  simp [State.litUp, State.takeEntryTemp, hp]

theorem onLit_of_waiting {s : State} {c : Cav} (h : (s.cav c).litWait = true) :
    s.onLit c = (s.litUp c).startShort c (s.presentSegment c) := if_pos h

theorem startShort_of_none {s : State} {c : Cav} {g : Segment} (h : g.short = 0 ∨ (s.cav c).entryTemp = none) :
    s.startShort c g = s := by
  unfold State.startShort
  rcases h with h | h
  · rw [h]
    split <;> rfl
  · rw [h]

theorem startShort_of_some {s : State} {c : Cav} {g : Segment} {t : Int} (h : 0 < g.short) (ht : (s.cav c).entryTemp = some t) :
    s.startShort c g = (s.setWatch (.rise c) .atOrAbove (t + s.riseMin c)).modCav c
      (fun k => { k with short := s.timer (seconds g.short) }) := by
  unfold State.startShort
  rw [ht]
  exact if_pos h

theorem riseMin_litUp (s : State) (c : Cav) : (s.litUp c).riseMin c = s.riseMin c := by
  unfold State.riseMin
  rw [limitsOfCav_of_kept (s := s) (t := s.litUp c) (kept_takeEntryTemp (kept_modCav (Kept.refl s) c _ fun x => x) c) (by rw [cav_litUp])]

/-- R110: how the report of LIT leaves a RAMP that waits for it. -/
theorem onLit_facts (s : State) (c : Cav) (h : (s.cav c).litWait = true) :
    let v := s.onLit c
    let g := s.presentSegment c
    (v.cav c).litWait = false ∧ (v.cav c).entryTemp = s.probeTemp c ∧
      (g.short = 0 → (v.cav c).short = (s.cav c).short ∧ v.watch (.rise c) = s.watch (.rise c)) ∧
      ∀ t, 0 < g.short → s.probeTemp c = some t → (v.cav c).short = some (s.now + seconds g.short) ∧
        v.watch (.rise c) = {
          side := .atOrAbove, level := t + s.riseMin c,
          state := if confirmedOn (s.channel (.probe c)) .atOrAbove (t + s.riseMin c) then .met else .notMet } := by
  intro v g
  have hv : v = (s.litUp c).startShort c g := onLit_of_waiting h
  have hk := cav_litUp s c
  have hstarted (t : Int) (hg : 0 < g.short) (ht : s.probeTemp c = some t) :
      v = ((s.litUp c).setWatch (.rise c) .atOrAbove (t + s.riseMin c)).modCav c
        (fun k => { k with short := some (s.now + seconds g.short) }) := by
    rw [hv, startShort_of_some hg (by rw [hk]; exact ht), riseMin_litUp]
    rfl
  have hplain (hg : g.short = 0 ∨ s.probeTemp c = none) : v = s.litUp c := by
    rw [hv, startShort_of_none]
    rw [hk]
    exact hg
  have hlit : (v.cav c).litWait = false ∧ (v.cav c).entryTemp = s.probeTemp c := by
    cases ht : s.probeTemp c with
    | none => rw [hplain (.inr ht), hk]; exact ⟨rfl, ht⟩
    | some t =>
      rcases Nat.eq_zero_or_pos g.short with hg | hg
      · rw [hplain (.inl hg), hk]
        exact ⟨rfl, ht⟩
      · rw [hstarted t hg ht]
        simp [hk, ht]
  refine ⟨hlit.1, hlit.2, fun hg => ?_, fun t hg ht => ?_⟩
  · rw [hplain (.inl hg), hk]
    exact ⟨rfl, rfl⟩
  · rw [hstarted t hg ht]
    refine ⟨by simp, ?_⟩
    exact (watch_setWatch ..).trans (if_pos rfl)

/-- Settles O55. -/
theorem converterFollowsItsDemandAndTheDuct : Obligations.ConverterFollowsItsDemandAndTheDuct := by
  refine ⟨fun s c d => ?posting, fun s i h => if_pos h, fun s zero one => rfl, fun s => ?lit⟩
  case posting =>
    intro u other
    have hl := loadAct_postConverter s c d
    refine ⟨?_, by rw [hl.air]; rfl, by rw [hl.air]; rfl, fun h => ?_, fun i hi hf => converterPosted_facts s c d i hi hf⟩
    · have hc : u.cav c = _ := cav_of_loadAct hl c
      rw [hc]
      simp [State.converterPosted]
    · have hu : u = s.converterPosted c d := by
        rcases h with h | ⟨hd, h⟩
        · exact postConverter_of_none h
        · exact postConverter_of_unchanged hd h
      rw [hu]
      exact ⟨rfl, rfl, rfl, rfl⟩
  case lit =>
    intro lit u
    obtain ⟨hair, hev⟩ := refreshLit_facts s
    refine ⟨hair, hev, fun met => rfl, fun left entered => rfl, rfl, rfl, fun c => ⟨fun h => ?_, onLit_facts s c⟩⟩
    exact if_neg (by rw [h]; decide)

end Sys2Proof.Machine
end

