-- ==== Sys2Proof/Proofs/Blower.lean ====
section
/-! PROOFS. The blower as its demands, its level and its timers move it (R25, R76, R160 to R166): O53. -/

namespace Sys2Proof.Machine

-- One proof at a time: proofs elaborated side by side ask for more threads than the check's memory limit leaves room for.
set_option Elab.async false

/-! ## The highest demand (R160) -/

theorem blowRank_le_blowMax (a b : BlowLevel) : blowRank a ≤ blowRank (blowMax a b) ∧ blowRank b ≤ blowRank (blowMax a b) := by
  unfold blowMax
  split
  · exact ⟨by omega, le_rfl⟩
  · exact ⟨le_rfl, by omega⟩

theorem blowMax_eq (a b : BlowLevel) : blowMax a b = a ∨ blowMax a b = b := by
  unfold blowMax
  split
  · exact .inr rfl
  · exact .inl rfl

theorem blowRank_le_highest (a : Airflow) {d : BlowLevel}
    (h : d ∈ [a.cavDemand.get .zero, a.cavDemand.get .one, a.controllerDemand, a.bayDemand]) :
    blowRank d ≤ blowRank a.highest := by
  obtain ⟨hcav, hrest⟩ := blowRank_le_blowMax (blowMax a.cavDemand.zero a.cavDemand.one) (blowMax a.controllerDemand a.bayDemand)
  obtain ⟨hz, ho⟩ := blowRank_le_blowMax a.cavDemand.zero a.cavDemand.one
  obtain ⟨hc, hb⟩ := blowRank_le_blowMax a.controllerDemand a.bayDemand
  simp only [List.mem_cons, List.not_mem_nil, or_false] at h
  rcases h with rfl | rfl | rfl | rfl
  · exact hz.trans hcav
  · exact ho.trans hcav
  · exact hc.trans hrest
  · exact hb.trans hrest

theorem highest_mem (a : Airflow) : a.highest ∈ [a.cavDemand.get .zero, a.cavDemand.get .one, a.controllerDemand, a.bayDemand] := by
  have h := blowMax_eq (blowMax a.cavDemand.zero a.cavDemand.one) (blowMax a.controllerDemand a.bayDemand)
  have hz := blowMax_eq a.cavDemand.zero a.cavDemand.one
  have hc := blowMax_eq a.controllerDemand a.bayDemand
  unfold Airflow.highest
  simp only [List.mem_cons, List.not_mem_nil, or_false]
  rcases h with h | h <;> rw [h]
  · rcases hz with hz | hz <;> rw [hz]
    · exact .inl rfl
    · exact .inr (.inl rfl)
  · rcases hc with hc | hc <;> rw [hc]
    · exact .inr (.inr (.inl rfl))
    · exact .inr (.inr (.inr rfl))

/-! ## The stall check (R164) -/

theorem find?_indexes_isSome {n : Nat} (p : Fin n → Bool) : ((indexes n).find? p).isSome = true ↔ ∃ i, p i = true := by
  rw [List.find?_isSome]
  constructor
  · rintro ⟨i, -, h⟩
    exact ⟨i, h⟩
  · rintro ⟨i, h⟩
    exact ⟨i, by simp [indexes], h⟩

/-- R164: the stall check is able to run with a level, a TACHO binding and a BLOWER entry. -/
theorem stallAble_iff (s : State) : s.stallAble = true ↔
    s.air.level ≠ .off ∧ (∃ n, (s.binding n).use = .tacho) ∧ ∃ i, (s.entry i).cls = .blower := by
  have ht : (s.bindingOfUse .tacho).isSome = true ↔ ∃ n, (s.binding n).use = .tacho := by
    have h : s.bindingOfUse .tacho = (indexes 8).find? (fun n => (s.binding n).use = .tacho) := if_neg (by decide)
    rw [h, find?_indexes_isSome]
    simp
  have hb : (s.sharedLoad .blower).isSome = true ↔ ∃ i, (s.entry i).cls = .blower := by
    have h : s.sharedLoad .blower = (indexes 16).find? (fun i => (s.entry i).cls == .blower) := rfl
    rw [h, find?_indexes_isSome]
    simp
  unfold State.stallAble
  rw [Bool.and_eq_true, Bool.and_eq_true, ht, hb, bne_iff_ne, and_assoc]

section
variable {s : State}

theorem stallAtLevel_of_able (h : s.stallAble = true) (hs : s.air.stall ≠ .stalled) : s.stallAtLevel = s.armStall := by
  have hl := ((stallAble_iff s).1 h).1
  unfold State.stallAtLevel
  rw [if_neg hl, if_pos]
  rw [h]
  simpa using hs

theorem stallAtLevel_of_unable (hl : s.air.level ≠ .off) (h : s.stallAble = false ∨ s.air.stall = .stalled) : s.stallAtLevel = s := by
  unfold State.stallAtLevel
  rw [if_neg hl, if_neg]
  rcases h with h | h <;> simp [h]

theorem refreshAble_of_able (h : s.stallAble = true) (hs : s.air.stall = .idle) : s.refreshAble = s.armStall := by
  unfold State.refreshAble
  rw [hs]
  exact if_pos h

theorem refreshAble_of_unable (h : s.stallAble = false) (hs : s.air.stall = .arming ∨ s.air.stall = .watching) :
    s.refreshAble = s.idleStall := by
  unfold State.refreshAble
  rcases hs with hs | hs <;> rw [hs] <;> exact if_neg (by rw [h]; decide)

theorem refreshAble_of_settled (h : s.air.stall = .stalled ∨ (s.air.stall = .idle ∧ s.stallAble = false) ∨
    (s.air.stall ≠ .idle ∧ s.stallAble = true)) : s.refreshAble = s := by
  unfold State.refreshAble
  cases hs : s.air.stall with
  | stalled => rfl
  | idle =>
    rw [hs] at h
    have ha : s.stallAble = false := by simpa using h
    exact if_neg (by rw [ha]; decide)
  | arming | watching =>
    rw [hs] at h
    have ha : s.stallAble = true := by simpa using h
    exact if_pos ha

end

/-! ## A change of the level (R76, R162, R163) -/

/-- The blower driven at a new level, SPEED and the stall check still to follow. -/
def State.leveled (s : State) (l : BlowLevel) : State := (s.modAir (fun a => { a with level := l })).driveBlower

theorem loadAct_leveled (s : State) (l : BlowLevel) : LoadAct (s.modAir (fun a => { a with level := l })) (s.leveled l) :=
  (LoadAct.refl _).driveBlower

theorem air_leveled (s : State) (l : BlowLevel) : (s.leveled l).air = { s.air with level := l } := (loadAct_leveled s l).air

theorem aimSpeed_keeps (s : State) : s.aimSpeed.loads = s.loads ∧ s.aimSpeed.urgent = s.urgent ∧ s.aimSpeed.chans = s.chans ∧
    s.aimSpeed.limits = s.limits ∧ s.aimSpeed.now = s.now := by
  unfold State.aimSpeed
  split
  · exact ⟨rfl, rfl, rfl, rfl, rfl⟩
  · rw [setWatch_eq]
    exact ⟨rfl, rfl, rfl, rfl, rfl⟩

theorem stallAtLevel_keeps (s : State) : s.stallAtLevel.loads = s.loads ∧ s.stallAtLevel.urgent = s.urgent ∧
    s.stallAtLevel.watches = s.watches ∧ s.stallAtLevel.air.level = s.air.level ∧ s.stallAtLevel.air.runOn = s.air.runOn := by
  unfold State.stallAtLevel
  split
  · split <;> exact ⟨rfl, rfl, rfl, rfl, rfl⟩
  · split <;> exact ⟨rfl, rfl, rfl, rfl, rfl⟩

/-- R162: the level and the run-on after a change of the level. -/
theorem air_setLevel (s : State) (l : BlowLevel) : (s.setLevel l).air.level = l ∧ (s.setLevel l).air.runOn = s.air.runOn := by
  by_cases h : s.air.level = l
  · have hs : s.setLevel l = s := if_pos h
    rw [hs]
    exact ⟨h, rfl⟩
  · obtain ⟨-, -, -, hlevel, hrun⟩ := stallAtLevel_keeps ((s.leveled l).aimSpeed)
    rw [air_aimSpeed, air_leveled] at hlevel hrun
    rw [setLevel_of_ne h]
    exact ⟨hlevel, hrun⟩

theorem level_pos {s : State} (h : s.RangesKept) {l : BlowLevel} (hl : l ≠ .off) : 0 < s.limits.map.at l := by
  obtain ⟨-, -, hlow, hmid, hhigh⟩ := h
  cases l
  case off => exact absurd rfl hl
  case low => exact hlow
  case mid => exact hmid
  case high => exact hhigh

/-- R49, R163: the blower driven at the percentage of its level. -/
theorem driveBlower_drives_of_pos {s : State} (hpos : 0 < s.limits.map.at s.air.level) {i : Fin 16}
    (hi : s.sharedLoad .blower = some i) :
    let level := if (s.entry i).kind = .switched then 100 else s.limits.map.at s.air.level
    (s.driveBlower.record i).commanded = some level ∧ (s.driveBlower.record i).owner = .engine ∧
      QItem.drive i level false ∈ s.driveBlower.urgent := by
  intro level
  have hcls := cls_of_sharedLoad hi
  have hk : kindLevel (s.entry i) (s.limits.map.at s.air.level) = level := by simp [level, kindLevel, hcls, hpos]
  have hd : s.driveBlower = s.queueDrive i level := by
    unfold State.driveBlower
    rw [hi, ← hk, ← engineOn_of_not_budgeted (by rw [hcls]; rfl), ← engineDrive_of_pos s i hpos]
    rfl
  have hr : (s.queueDrive i level).record i = _ := (record_queueDrive s i i level).trans (if_pos rfl)
  have hm := mem_queueDrive s i level
  rw [if_pos (by simp [urgentDrive, hcls])] at hm
  rw [hd, hr]
  exact ⟨rfl, rfl, hm⟩

theorem driveBlower_drives {s : State} (h : s.RangesKept) (hl : s.air.level ≠ .off) {i : Fin 16}
    (hi : s.sharedLoad .blower = some i) :
    let level := if (s.entry i).kind = .switched then 100 else s.limits.map.at s.air.level
    (s.driveBlower.record i).commanded = some level ∧ (s.driveBlower.record i).owner = .engine ∧
      QItem.drive i level false ∈ s.driveBlower.urgent := driveBlower_drives_of_pos (level_pos h hl) hi

theorem driveBlower_stops {s : State} (hl : s.air.level = .off) {i : Fin 16} (hi : s.sharedLoad .blower = some i) :
    IsOff i s.driveBlower := by
  have hd : s.driveBlower = s.engineOff i := by
    unfold State.driveBlower
    rw [hi]
    show s.engineDrive i (s.limits.map.at s.air.level) = _
    rw [hl]
    rfl
  rw [hd]
  exact isOff_engineOff s i

/-- What a change of the level leaves the load records and the urgent queue. -/
theorem setLevel_loads {s : State} {l : BlowLevel} (h : s.air.level ≠ l) :
    (∀ i, (s.setLevel l).record i = (s.leveled l).record i) ∧ (s.setLevel l).urgent = (s.leveled l).urgent := by
  obtain ⟨ha, hau, -⟩ := aimSpeed_keeps (s.leveled l)
  obtain ⟨hs, hsu, -⟩ := stallAtLevel_keeps ((s.leveled l).aimSpeed)
  rw [setLevel_of_ne h]
  refine ⟨fun i => ?_, hsu.trans hau⟩
  show (((s.leveled l).aimSpeed.stallAtLevel).loads.get i).2 = ((s.leveled l).loads.get i).2
  rw [hs, ha]

theorem watch_setLevel {s : State} {l : BlowLevel} (h : s.air.level ≠ l) (w : WatchId) :
    (s.setLevel l).watch w = ((s.leveled l).aimSpeed).watch w := by
  obtain ⟨-, -, hw, -⟩ := stallAtLevel_keeps ((s.leveled l).aimSpeed)
  rw [setLevel_of_ne h]
  unfold State.watch State.leveled at *
  rw [hw]

/-- R76: SPEED at a new level. -/
theorem speed_setLevel {s : State} {l : BlowLevel} (h : s.air.level ≠ l) :
    (l = .off → ((s.setLevel l).watch .speed).state = .cleared) ∧
      (l ≠ .off → (s.setLevel l).watch .speed = {
        side := .atOrAbove, level := s.limits.tacho.at l,
        state := if confirmedOn (s.channel .tacho) .atOrAbove (s.limits.tacho.at l) then .met else .notMet }) := by
  have ha : (s.leveled l).air.level = l := by rw [air_leveled]
  have hlim : (s.leveled l).limits = s.limits := (kept_driveBlower (kept_modAir (Kept.refl s) (fun a => { a with level := l }) rfl)).limits
  rw [watch_setLevel h]
  unfold State.aimSpeed
  refine ⟨fun hl => ?_, fun hl => ?_⟩
  · rw [if_pos (ha.trans hl), watch_clearWatch, if_pos rfl]
    rfl
  · have hc : (s.leveled l).channel .tacho = s.channel .tacho := channel_of_chans (loadAct_leveled s l).chans _
    rw [if_neg (by rw [ha]; exact hl), watch_setWatch, if_pos rfl, ha, hlim]
    show _ = ({ side := _, level := _, state := freshWatchState (s.channel .tacho) _ _ } : Watch)
    rw [← hc]
    rfl

/-- What of the stall check a new level finds. -/
theorem aimed_facts (s : State) (l : BlowLevel) :
    let v := (s.leveled l).aimSpeed
    v.air = { s.air with level := l } ∧ v.stallWindow = s.stallWindow ∧
      (v.stallAble = true ↔ l ≠ .off ∧ (∃ n, (s.binding n).use = .tacho) ∧ ∃ i, (s.entry i).cls = .blower) := by
  intro v
  have k : Kept s v := kept_aimSpeed (kept_driveBlower (kept_modAir (Kept.refl s) _ rfl))
  have hair : v.air = { s.air with level := l } := (air_aimSpeed _).trans (air_leveled s l)
  refine ⟨hair, ?_, ?_⟩
  · unfold State.stallWindow State.timer
    rw [k.now, k.limits]
  · rw [stallAble_iff, hair]
    simp only [k.binding, k.entry]

/-- R164: the stall check at a new level above OFF. -/
theorem stall_setLevel {s : State} {l : BlowLevel} (h : s.air.level ≠ l) :
    let u := s.setLevel l
    let able := l ≠ .off ∧ (∃ n, (s.binding n).use = .tacho) ∧ ∃ i, (s.entry i).cls = .blower
    (able → s.air.stall ≠ .stalled →
      u.air.stall = .arming ∧ u.air.arming = some (s.now + seconds s.limits.stallWindow) ∧ u.air.stallTimer = none) ∧
    (l ≠ .off → (¬able ∨ s.air.stall = .stalled) →
      u.air.stall = s.air.stall ∧ u.air.arming = s.air.arming ∧ u.air.stallTimer = s.air.stallTimer) := by
  intro u able
  obtain ⟨hair, hwin, hable⟩ := aimed_facts s l
  have hu : u = ((s.leveled l).aimSpeed).stallAtLevel := setLevel_of_ne h
  have hstall : ((s.leveled l).aimSpeed).air.stall = s.air.stall := by rw [hair]
  refine ⟨fun ha hs => ?_, fun hl ha => ?_⟩
  · rw [hu, stallAtLevel_of_able (hable.2 ha) (by rw [hstall]; exact hs)]
    exact ⟨rfl, hwin, rfl⟩
  · rw [hu, stallAtLevel_of_unable (by rw [hair]; exact hl), hair]
    · exact ⟨rfl, rfl, rfl⟩
    · rw [hstall]
      exact ha.imp_left fun x => Bool.eq_false_iff.2 fun y => x (hable.1 y)

/-! ## A change of the demands (R160, R162) -/

/-- R162: how the level follows the highest demand. -/
theorem followDemand_facts (s : State) (before : BlowLevel) :
    let u := s.followDemand before
    (s.air.highest = before → u = s) ∧
    (s.air.highest ≠ before → s.air.highest ≠ .off → u.air.level = s.air.highest ∧ u.air.runOn = none) ∧
    (s.air.highest ≠ before → s.air.highest = .off →
      (s.limits.runOn = 0 → u.air.level = .off ∧ u.air.runOn = s.air.runOn) ∧
      (s.limits.runOn ≠ 0 → u.air.level = .low ∧ u.air.runOn = some (s.now + seconds s.limits.runOn))) := by
  intro u
  refine ⟨fun h => if_pos h, fun h ho => ?_, fun h ho => ⟨fun hr => ?_, fun hr => ?_⟩⟩
  · have hu : u = (s.modAir (fun a => { a with runOn := none })).setLevel s.air.highest := (if_neg h).trans (if_neg ho)
    rw [hu]
    exact air_setLevel _ _
  · have hu : u = s.setLevel .off := (if_neg h).trans ((if_pos ho).trans (if_pos hr))
    rw [hu]
    exact air_setLevel _ _
  · have hu : u = (s.setLevel .low).modAir (fun a => { a with runOn := s.timer (seconds s.limits.runOn) }) :=
      (if_neg h).trans ((if_pos ho).trans (if_neg hr))
    rw [hu]
    exact ⟨(air_setLevel s .low).1, rfl⟩

/-- The demands after a change, and the level that follows them. -/
theorem demanded_facts {s t : State} (hw : t.watches = s.watches) (hl : t.loads = s.loads) (hlim : t.limits = s.limits)
    (hnow : t.now = s.now) (hrun : t.air.runOn = s.air.runOn) :
    let u := t.followDemand s.air.highest
    (u.air.cavDemand = t.air.cavDemand ∧ u.air.controllerDemand = t.air.controllerDemand ∧ u.air.bayDemand = t.air.bayDemand) ∧
    (t.air.highest = s.air.highest → u.air = t.air ∧ u.loads = s.loads ∧ u.watches = s.watches) ∧
    (t.air.highest ≠ s.air.highest → t.air.highest ≠ .off → u.air.level = t.air.highest ∧ u.air.runOn = none) ∧
    (t.air.highest ≠ s.air.highest → t.air.highest = .off →
      (s.limits.runOn = 0 → u.air.level = .off ∧ u.air.runOn = s.air.runOn) ∧
      (s.limits.runOn ≠ 0 → u.air.level = .low ∧ u.air.runOn = some (s.now + seconds s.limits.runOn))) := by
  intro u
  have hb := blows_followDemand t s.air.highest
  obtain ⟨hsame, hup, hoff⟩ := followDemand_facts t s.air.highest
  rw [hlim, hnow, hrun] at hoff
  refine ⟨⟨hb.cavDemand, hb.controllerDemand, hb.bayDemand⟩, fun h => ?_, hup, hoff⟩
  have hu : u = t := hsame h
  rw [hu]
  exact ⟨rfl, hl, hw⟩

/-! ## A DRIVE of the controller for the blower (R25) -/

theorem admitDrive_of_blower {s : State} {i : Fin 16} {f : Frame} {l : Nat} (hc : (s.entry i).cls = .blower)
    (hl : driveLevel f = some l) (h100 : l ≤ 100) : s.admitDrive i f = s.blowerDrive i f l := by
  unfold State.admitDrive
  rw [hl]
  dsimp only
  rw [if_neg h100.not_gt, hc]

/-- R25: the controller's demand as a DRIVE for the blower sets it. -/
def State.commanding (s : State) (level : Nat) : State := s.heard.postController (controllerLevel level)

/-- R25: the generated STATE. -/
def State.blowerState (s : State) (i : Fin 16) (dest tag : Byte) : Frame :=
  { dest := 121, src := dest, kind := kindState, tag := tag,
    payload := [byteOf ((s.record i).commanded.getD 0), nodeCondCode (s.record i).condition] }

theorem effect_blowerDrive {s : State} {dest tag l : Byte} {i : Fin 16} (hd : isNodeAddress dest = true)
    (hp : s.placeTest = true) (hn : s.relay.length < 8) (ht : ∀ e ∈ s.relay, e.frame.tag ≠ tag) (hi : s.loadAt dest = some i)
    (hl : l.toNat ≤ 100) (hc : (s.entry i).cls = .blower) :
    effect (.controllerNodeFrame dest 0x10 tag [l]) s =
      (s.commanding l.toNat).place ((s.commanding l.toNat).blowerState i dest tag) := by
  have hcls : (s.heard.entry i).cls = .blower := by rw [heard_eq]; exact hc
  refine (effect_drive (by simp) hd hp hn ht hi).trans ?_
  exact admitDrive_of_blower hcls (driveLevel_of_byte (f := ⟨dest, 121, 0x10, tag, [l]⟩) rfl rfl) hl

theorem commanding_facts (s : State) (level : Nat) : let v := s.commanding level
    v.tagSeq = s.tagSeq ∧ v.exchange = s.exchange ∧ v.air.controllerDemand = controllerLevel level ∧
      ∀ i, (v.record i).condition = (s.record i).condition := by
  intro v
  have k : Kept (s.heard.modAir (fun a => { a with controllerDemand := controllerLevel level })) v :=
    kept_followDemand (Kept.refl _) _
  have hh := heard_eq s
  refine ⟨k.tagSeq.trans ?_, k.exchange.trans ?_, k.controllerDemand, fun i => ((k.confirmed i).2).trans ?_⟩
  all_goals
    rw [hh]
    rfl

theorem blower_drive_answers {s : State} {dest tag l : Byte} {i : Fin 16} (h : s.Ready) (hd : isNodeAddress dest = true)
    (hp : s.placeTest = true) (hn : s.relay.length < 8) (ht : ∀ e ∈ s.relay, e.frame.tag ≠ tag) (hi : s.loadAt dest = some i)
    (hl : l.toNat ≤ 100) (hc : (s.entry i).cls = .blower) :
    ∃ u t, Answers (.controllerNodeFrame dest 0x10 tag [l]) s u ∧
      exec (.controllerNodeFrame dest 0x10 tag [l]) s = .next t ∧ t.tagSeq = s.tagSeq ∧ t.exchange = s.exchange ∧
      t.air.controllerDemand = controllerLevel l.toNat ∧
      { dest := 121, src := dest, kind := 0x11, tag := tag,
        payload := [BitVec.ofNat 8 ((u.record i).commanded.getD 0), nodeCondCode (s.record i).condition] } ∈ t.outQueue ∧
      s.SameTables t := by
  have he := effect_blowerDrive (tag := tag) hd hp hn ht hi hl hc
  have hsame := sameTables_effect (c := .controllerNodeFrame dest 0x10 tag [l]) (by simp [Instr.wellFormed, hd, payloadFits]) rfl s
  rw [he] at hsame
  obtain ⟨htag, hex, hdem, hcond⟩ := commanding_facts s l.toNat
  obtain ⟨v, fs, n, b, -, k, -, hv⟩ := exec_keeps (c := .controllerNodeFrame dest 0x10 tag [l]) nofun nofun h he
  refine ⟨_, _, answers_of_effect (c := .controllerNodeFrame dest 0x10 tag [l]) nofun nofun h he, hv, k.tagSeq.trans htag,
    k.exchange.trans hex, k.controllerDemand.trans hdem, List.mem_append_left _ (k.sent.subset ?_),
    (hsame.trans (.of_kept k)).trans .of_same⟩
  refine List.mem_append_right _ (List.mem_singleton.2 ?_)
  unfold State.blowerState
  rw [hcond]
  rfl

/-- Settles O53. -/
theorem blowerFollowsTheHighestDemand : Obligations.BlowerFollowsTheHighestDemand := by
  refine ⟨fun a => ⟨fun d h => blowRank_le_highest a h, highest_mem a⟩, fun s u c d a h => ?posts, fun s left entered => ?bay,
    fun s l hr h => ?level, fun s => ?able, fun s dest tag l i h hd hp hn ht hi hl hc => blower_drive_answers h hd hp hn ht hi hl hc⟩
  case posts =>
    rcases h with ⟨hu, ha⟩ | ⟨hu, ha⟩ | ⟨hu, ha⟩ <;> subst hu ha
    · exact demanded_facts (s := s) (t := s.blowerPosted c d) rfl rfl rfl rfl rfl
    · exact demanded_facts (s := s) (t := s.modAir (fun a => { a with controllerDemand := d })) rfl rfl rfl rfl rfl
    · exact demanded_facts (s := s) (t := s.modAir (fun a => { a with bayDemand := d })) rfl rfl rfl rfl rfl
  case bay =>
    refine ⟨rfl, rfl, rfl, rfl, rfl, fun hl he => ?_, fun hl he => ?_⟩
    · show s.bayReport left entered = _
      cases entered
      case unbound | live => exact absurd he (by decide)
      all_goals exact if_pos hl
    · show s.bayReport left entered = _
      cases entered
      case unbound => exact absurd rfl he
      case live => rfl
      all_goals exact if_neg hl
  case level =>
    intro u able
    obtain ⟨hrec, hurg⟩ := setLevel_loads h
    obtain ⟨hcleared, hset⟩ := speed_setLevel h
    obtain ⟨harm, hstay⟩ := stall_setLevel h
    refine ⟨(air_setLevel s l).1, fun i hi => ⟨fun hl => ?_, fun hl => ?_⟩, fun hl => ?_, hset, harm, hstay⟩
    · rw [hrec, hurg]
      exact driveBlower_drives (s := s.modAir (fun a => { a with level := l })) hr hl hi
    · have ho : IsOff i (s.leveled l) := driveBlower_stops (s := s.modAir (fun a => { a with level := l })) hl hi
      rw [hrec, hurg]
      exact ⟨ho.commanded, ho.queued.imp_right And.left⟩
    · subst hl
      obtain ⟨hair, hpart⟩ := setLevel_off h
      rw [hair]
      exact ⟨hcleared rfl, rfl, rfl, rfl, hpart⟩
  case able =>
    intro able
    have hable : s.stallAble = true ↔ able := stallAble_iff s
    have hnot : ¬able → s.stallAble = false := fun x => Bool.eq_false_iff.2 fun y => x (hable.1 y)
    refine ⟨fun hs ha => refreshAble_of_able (hable.2 ha) hs, fun hs ha => refreshAble_of_unable (hnot ha) hs, fun h => ?_⟩
    exact refreshAble_of_settled (h.imp_right (Or.imp (And.imp_right hnot) (And.imp_right hable.2)))

end Sys2Proof.Machine
end

