-- ==== Sys2Proof/Proofs/Inside.lean ====
section
/-! PROOFS. What the acts inside the part keep of the relay table, the output queue, the reports and the PART notice: a property that a
few basic acts keep is kept by every act of the Load Unit, the Lock Units, the Airflow Unit and a context that halts. -/

namespace Sys2Proof.Machine

-- One proof at a time: proofs elaborated side by side ask for more threads than the check's memory limit leaves room for.
set_option Elab.async false

/-- The reports of acts inside the part; the others are of a tapped frame, or of a timer that has expired. -/
def Event.inner : Event → Bool
  | .watch _ _ | .loadFault _ | .converterFault _ _ | .lock _ _ | .lit _ => true
  | .chanState _ _ _ | .doorReport _ _ _ _ _ | .probeReading _ | .stateTapped _ | .offFailed _ | .stalled | .holdDone _ => false

/-- A relayed request of that TAG waits in some state with the property. -/
def Waits (P : State → Prop) (tag : Byte) : Prop := ∃ s, P s ∧ ∃ r ∈ s.grantQueue, r.requester = .relay tag

/-- What the acts inside the part are made of, for a property of the relay table, the requesters that wait, the output queue, the
reports and the PART notice: they ask for grants as the engine alone. -/
structure Inside (P : State → Prop) : Prop where
  same : ∀ {s t : State}, P s → t.relay = s.relay → t.outQueue = s.outQueue → t.events = s.events →
    (s.notices.part = true → t.notices.part = true) →
    (∀ r ∈ t.grantQueue, r.requester = .engine ∨ ∃ q ∈ s.grantQueue, q.requester = r.requester) → P t
  emits : ∀ {s : State} {es : List Event}, P s → (∀ e ∈ es, e.inner = true) → P { s with events := s.events ++ es }
  purge : ∀ {s : State} (p : Event → Bool), P s → P (s.purge p)
  promote : ∀ {s : State} {tag : Byte}, P s → Waits P tag → P (s.modRelay tag (fun e => { e with
    stage := .queued, stageSince := s.now, hold := s.timer (millis s.limits.hold), carriesGrant := true }))
  closeFail : ∀ {s : State} {tag : Byte}, P s → Waits P tag → P (s.closeFail tag failWithheld)

section
variable {P : State → Prop} (hP : Inside P) {s : State}
include hP

theorem Inside.of_same {t : State} (h : P s) (relay : t.relay = s.relay := by rfl) (outQueue : t.outQueue = s.outQueue := by rfl)
    (events : t.events = s.events := by rfl) (part : s.notices.part = true → t.notices.part = true := by exact fun x => x)
    (waiting : ∀ r ∈ t.grantQueue, r.requester = .engine ∨ ∃ q ∈ s.grantQueue, q.requester = r.requester := by
      exact fun r hr => .inr ⟨r, hr, rfl⟩) : P t :=
  hP.same h relay outQueue events part waiting

/-- Requests that leave the Grant Queue. -/
theorem Inside.fewer (h : P s) {q : List GrantRequest} (hq : ∀ r ∈ q, r ∈ s.grantQueue) : P { s with grantQueue := q } :=
  hP.of_same h (waiting := fun r hr => .inr ⟨r, hq r hr, rfl⟩)

theorem Inside.emit (h : P s) {e : Event} (he : e.inner = true) : P (s.emit e) :=
  hP.emits h fun x hx => by rwa [List.mem_singleton.1 hx]

theorem Inside.flagPart (h : P s) : P s.flagPart := hP.of_same h (part := fun _ => rfl)

/-! ## The Load Unit -/

theorem Inside.queueDrive (h : P s) (i : Fin 16) (level : Nat) : P (s.queueDrive i level) := by
  unfold State.queueDrive State.mergeDrive
  split <;> exact hP.of_same h

omit hP in
theorem inner_faultReport (s : State) (i : Fin 16) : (s.faultReport i).inner = true := by
  unfold State.faultReport
  split <;> rfl

theorem Inside.grantTo (h : P s) (i : Fin 16) {who : Requester} (hw : ∀ tag, who = .relay tag → Waits P tag) (level : Nat) :
    P (s.grantTo i who level) := by
  have hs {g : Grant} : P (s.setGrant i g) := hP.of_same h
  unfold State.grantTo
  split
  · split
    · exact hP.queueDrive hs i level
    · exact hP.of_same h
  · rename_i g
    exact hP.of_same (hP.promote (hs (g := .held)) (hw g rfl))

theorem Inside.refuseRequest (h : P s) (i : Fin 16) {who : Requester} (hw : ∀ tag, who = .relay tag → Waits P tag) :
    P (s.refuseRequest i who) := by
  have hs : P (s.setGrant i .noGrant) := hP.of_same h
  unfold State.refuseRequest
  split
  · exact hP.emit hs (inner_faultReport s i)
  · rename_i g
    exact hP.closeFail hs (hw g rfl)

theorem Inside.considerUpTo (n : Nat) : ∀ {s : State}, P s → P (considerUpTo n s) := by
  induction n with
  | zero => exact fun h => hP.of_same h
  | succ n ih =>
    intro s h
    unfold Machine.considerUpTo
    split
    · exact hP.of_same h
    · rename_i r rest hq
      have hr : P { s with grantQueue := rest } := hP.fewer h fun x hx => by rw [hq]; exact List.mem_cons_of_mem r hx
      have hw (tag : Byte) (ht : r.requester = .relay tag) : Waits P tag := ⟨s, h, r, by rw [hq]; exact List.mem_cons_self, ht⟩
      split
      · exact ih (hP.refuseRequest hr _ hw)
      · split
        · exact ih (hP.grantTo hr _ hw _)
        · exact hP.of_same h

theorem Inside.considerIf (h : P s) (b : Bool) : P (s.considerIf b) := by
  unfold State.considerIf State.considerHead
  split
  · exact hP.considerUpTo _ h
  · exact h

theorem Inside.withdrawRequest (h : P s) (i : Fin 16) : P (s.withdrawRequest i) := by
  unfold State.withdrawRequest
  split
  · exact h
  · rename_i r hr
    have hs : P (s.dropRequest i) := hP.of_same (hP.fewer h fun x hx => List.mem_of_mem_filter hx)
    dsimp only
    split
    · exact hP.considerIf hs _
    · rename_i tag ht
      exact hP.considerIf (hP.closeFail hs ⟨s, h, r, List.mem_of_find?_eq_some hr, ht⟩) _

theorem Inside.engineOff (h : P s) (i : Fin 16) : P (s.engineOff i) := by
  unfold State.engineOff
  dsimp only
  split
  · exact hP.withdrawRequest h i
  · exact hP.queueDrive (hP.withdrawRequest h i) i 0

theorem Inside.joinRequest (h : P s) (i : Fin 16) (level : Nat) : P (s.joinRequest i .engine level) := by
  have hs (r : GrantRequest) (hr : r.requester = .engine) :
      P (({ s with grantQueue := joinQueue s.grantQueue r } : State).setGrant i .waiting) := by
    refine hP.of_same h (waiting := fun x hx => ?_)
    rcases mem_joinQueue.1 hx with rfl | hx
    · exact .inl hr
    · exact .inr ⟨x, hx, rfl⟩
  exact hP.considerIf (hs _ rfl) _

theorem Inside.engineGrant (h : P s) (i : Fin 16) (level : Nat) : P (s.engineGrant i level) := by
  unfold State.engineGrant State.requestGrant
  split
  · exact hP.emit h (inner_faultReport s i)
  · split
    · exact hP.grantTo h _ (who := .engine) (fun _ => nofun) _
    · exact hP.joinRequest h i level

theorem Inside.setPendingLevel (h : P s) (i : Fin 16) (level : Nat) : P (s.setPendingLevel i level) := by
  refine hP.of_same h (waiting := fun x hx => ?_)
  obtain ⟨r, hr, rfl⟩ := List.mem_map.1 hx
  refine .inr ⟨r, hr, ?_⟩
  split <;> rfl

theorem Inside.engineOn (h : P s) (i : Fin 16) (level : Nat) : P (s.engineOn i level) := by
  unfold State.engineOn
  dsimp only
  split
  · split
    · unfold State.driveHeld
      split
      · exact hP.queueDrive h _ _
      · exact hP.of_same h
    · split
      · exact hP.setPendingLevel h i _
      · exact hP.engineGrant (hP.withdrawRequest h i) _ _
    · exact hP.engineGrant h _ _
  · exact hP.queueDrive h _ _

theorem Inside.engineDrive (h : P s) (i : Fin 16) (level : Nat) : P (s.engineDrive i level) := by
  unfold State.engineDrive
  split
  · exact hP.engineOff h i
  · exact hP.engineOn h i level

omit hP in
theorem Inside.onLoad (h : P s) (i : Option (Fin 16)) {f : State → Fin 16 → State}
    (hf : ∀ {u : State} (i : Fin 16), P u → P (f u i)) : P (s.onLoad i f) := by
  cases i with
  | none => exact h
  | some i => exact hf i h

omit hP in
theorem Inside.foldl {α : Type} (h : P s) {f : State → α → State} (hf : ∀ {u : State} (a : α), P u → P (f u a))
    (l : List α) : P (l.foldl f s) := by
  induction l generalizing s with
  | nil => exact h
  | cons a l ih => exact ih (hf a h)

theorem Inside.engineOffs (h : P s) (l : List (Fin 16)) : P (s.engineOffs l) := Inside.foldl h (fun i hu => hP.engineOff hu i) l

theorem Inside.heatersOff (h : P s) (c : Cav) : P (s.heatersOff c) :=
  Inside.foldl h (fun _ hu => Inside.onLoad hu _ (fun i hv => hP.engineOff hv i)) _

theorem Inside.endWindow (h : P s) (c : Cav) : P (s.endWindow c) := by
  have hw : P (s.windowEnded c) := hP.of_same h
  exact hP.heatersOff hw c

theorem Inside.driveFan (h : P s) (c : Cav) (level : Nat) : P (s.driveFan c level) :=
  Inside.onLoad h _ (fun i hu => hP.engineDrive hu i level)

/-! ## The Airflow Unit -/

theorem Inside.driveBlower (h : P s) : P s.driveBlower := Inside.onLoad h _ (fun i hu => hP.engineDrive hu i _)

theorem Inside.postConverter (h : P s) (c : Cav) (d : ConvField) : P (s.postConverter c d) := by
  have hp : P (s.converterPosted c d) := hP.of_same h
  rw [postConverter_eq]
  split
  · exact Inside.onLoad hp _ (fun i hu => hP.engineOn hu i 100)
  · split
    · exact Inside.onLoad hp _ (fun i hu => hP.engineOff hu i)
    · exact hp

omit hP in
theorem inner_setReports (s : State) (w : WatchId) (side : Side) (level : Int) {e : Event} (he : e ∈ s.setReports w side level) :
    e.inner = true := by
  unfold State.setReports at he
  rcases List.mem_append.1 he with he | he <;> split at he
  · rw [List.mem_singleton.1 he]; rfl
  · exact absurd he List.not_mem_nil
  · rw [List.mem_singleton.1 he]; rfl
  · exact absurd he List.not_mem_nil

theorem Inside.setWatch (h : P s) (w : WatchId) (side : Side) (level : Int) : P (s.setWatch w side level) := by
  rw [setWatch_eq]
  have hs : P (s.putWatch w { side := side, level := level, state := freshWatchState (s.channel (watchUse w)) side level }) :=
    hP.of_same h
  exact hP.emits hs fun e he => inner_setReports s w side level he

theorem Inside.clearWatch (h : P s) (w : WatchId) : P (s.clearWatch w) := by
  have hs : P (s.putWatch w Watch.clear) := hP.of_same h
  exact hP.purge _ hs

theorem Inside.aimSpeed (h : P s) : P s.aimSpeed := by
  unfold State.aimSpeed
  split
  · exact hP.clearWatch h _
  · exact hP.setWatch h _ _ _

theorem Inside.stallAtLevel (h : P s) : P s.stallAtLevel := by
  have hi : P s.idleStall := hP.of_same h
  unfold State.stallAtLevel
  split
  · split
    · exact hP.flagPart hi
    · exact hi
  · split
    · exact hP.of_same h
    · exact h

theorem Inside.setLevel (h : P s) (l : BlowLevel) : P (s.setLevel l) := by
  have hm : P (s.modAir (fun a => { a with level := l })) := hP.of_same h
  unfold State.setLevel
  split
  · exact h
  · exact hP.stallAtLevel (hP.aimSpeed (hP.driveBlower hm))

theorem Inside.followDemand (h : P s) (before : BlowLevel) : P (s.followDemand before) := by
  have hm : P (s.modAir (fun a => { a with runOn := none })) := hP.of_same h
  unfold State.followDemand
  dsimp only
  split
  · exact h
  · split
    · split
      · exact hP.setLevel h _
      · exact hP.of_same (hP.setLevel h _)
    · exact hP.setLevel hm _

theorem Inside.postBlower (h : P s) (c : Cav) (d : BlowLevel) : P (s.postBlower c d) := by
  have hp : P (s.blowerPosted c d) := hP.of_same h
  exact hP.followDemand hp _

theorem Inside.postBay (h : P s) (d : BlowLevel) : P (s.postBay d) := by
  have hd : P (s.modAir (fun a => { a with bayDemand := d })) := hP.of_same h
  exact hP.followDemand hd _

theorem Inside.speedMet (h : P s) : P s.speedMet := by
  have hm {f : Airflow → Airflow} : P (s.modAir f) := hP.of_same h
  unfold State.speedMet
  (repeat' split)
  · exact hm
  · exact hP.flagPart hm
  · exact h
  · exact h
  · exact h

theorem Inside.speedLost (h : P s) : P s.speedLost := by
  unfold State.speedLost State.startStallTimer
  (repeat' split)
  · exact hP.of_same h
  · exact h
  · exact h
  · exact h
  · exact h

theorem Inside.refreshLit (h : P s) : P s.refreshLit := by
  have hm {f : Airflow → Airflow} : P (s.modAir f) := hP.of_same h
  unfold State.refreshLit
  dsimp only
  split
  · exact h
  · exact hP.emit hm rfl

/-! ## The Lock Units -/

theorem Inside.setLockState (h : P s) (c : Cav) (st : LockState) : P (s.setLockState c st) := by
  unfold State.setLockState
  split
  · exact h
  · exact hP.of_same h

theorem Inside.startTravel (h : P s) (c : Cav) (d : Travel) : P (s.startTravel c d) := by
  have hs : P (s.modLock c LockUnit.stopTimers) := hP.of_same h
  have hm := Inside.onLoad (hP.setLockState hs c (travelState d))
    (((s.modLock c LockUnit.stopTimers).setLockState c (travelState d)).motor c) (fun i hu => hP.engineOn hu i (motorCode d))
  unfold State.startTravel State.travelTimers
  split <;> exact hP.of_same hm

theorem Inside.holdLock (h : P s) (c : Cav) : P (s.holdLock c) := by
  have hs {f : LockUnit → LockUnit} : P (s.modLock c f) := hP.of_same h
  unfold State.holdLock
  dsimp only
  split
  · have hp {f g : LockUnit → LockUnit} : P ((s.modLock c f).modLock c g) := hP.of_same h
    exact hP.startTravel hp c _
  all_goals exact hs

theorem Inside.jamLock (h : P s) (c : Cav) (j : Jam) : P (s.jamLock c j) := by
  unfold State.jamLock
  split
  · exact h
  · have hs : P (s.modLock c (fun k => { k.stopTimers with leaveMet := false, purpose := .noPurpose, attempt := 0 })) :=
      hP.of_same h
    have hoff := Inside.onLoad hs ((s.modLock c (fun k => { k.stopTimers with
      leaveMet := false, purpose := .noPurpose, attempt := 0 })).motor c) (fun i hu => hP.engineOff hu i)
    exact hP.emit (hP.setLockState (hP.of_same hoff) c _) rfl

/-! ## A context that halts -/

theorem Inside.modCav (h : P s) (c : Cav) (f : CavCtx → CavCtx) : P (s.modCav c f) := hP.of_same h

theorem Inside.setCavState (h : P s) (c : Cav) (st : CavState) : P (s.setCavState c st) := by
  unfold State.setCavState
  split
  · exact h
  · exact hP.of_same h

theorem Inside.setReason (h : P s) (c : Cav) (r : Reason) : P (s.setReason c r) := by
  have hr : P (s.modCav c (fun k => { k with reason := r })) := hP.of_same h
  unfold State.setReason State.fillFault
  split
  · exact hP.of_same hr
  · exact hr

theorem Inside.leaveSegment (h : P s) (c : Cav) : P (s.leaveSegment c) := by
  have hs : P ((s.modCav c (fun k => { k with long := none, short := none, litWait := false })).stopHold c) :=
    hP.purge _ (hP.modCav (hP.modCav h c _) c _)
  exact hP.clearWatch (hP.clearWatch hs _) _

theorem Inside.clearCavWatches (h : P s) (c : Cav) : P (s.clearCavWatches c) :=
  hP.clearWatch (hP.clearWatch (hP.clearWatch (hP.clearWatch h _) _) _) _

theorem Inside.haltItems (h : P s) (c : Cav) : P (s.haltItems c) := by
  have he : P (s.emptyStack c) := hP.modCav h c _
  unfold State.haltItems
  exact hP.modCav (hP.clearCavWatches (hP.leaveSegment he c) c) c _

theorem Inside.halt (h : P s) (c : Cav) (r : Reason) : P (s.halt c r) := by
  have hr : P (s.setReason c r) := hP.setReason h c r
  have hh : P ((s.setReason c r).haltHeaters c) := by
    unfold State.haltHeaters
    split
    · exact hP.endWindow hr c
    · exact hP.heatersOff hr c
  have ho : P (s.haltOutputs c r) := hP.postBlower (hP.driveFan (hP.postConverter hh c .off) c _) c .high
  rw [halt_eq]
  exact hP.setCavState (hP.holdLock (hP.haltItems ho c) c) c .halted

theorem Inside.startShort (h : P s) (c : Cav) (g : Segment) : P (s.startShort c g) := by
  unfold State.startShort
  split
  · split
    · exact hP.modCav (hP.setWatch h _ _ _) c _
    · exact h
  · exact h

theorem Inside.onLit (h : P s) (c : Cav) : P (s.onLit c) := by
  have ht : P ((s.modCav c (fun k => { k with litWait := false })).takeEntryTemp c) := hP.modCav (hP.modCav h c _) c _
  unfold State.onLit
  split
  · exact hP.startShort ht c _
  · exact h

theorem Inside.onRise (h : P s) (c : Cav) : P (s.onRise c) := hP.clearWatch (hP.modCav h c _) (.rise c)

theorem Inside.haltActive (h : P s) (c : Cav) (r : Reason) : P (s.haltActive c r) := by
  unfold State.haltActive
  cases (s.cav c).state
  case survey | opened | halted => exact h
  all_goals exact hP.halt h c r

end

end Sys2Proof.Machine
end

