-- ==== Sys2Proof/Proofs/Withheld.lean ====
section
/-! PROOFS. An unsent admitted DRIVE stays in the relay table, or is closed with WITHHELD, while cavities halt (R26, R29, R48, R55),
and the withdrawal of those for heaters and the converter. -/

namespace Sys2Proof.Machine

-- One proof at a time: proofs elaborated side by side ask for more threads than the check's memory limit leaves room for.
set_option Elab.async false

/-- The TAG's entry is an unsent admitted one to that node. -/
def State.Pending (s : State) (tag dest : Byte) : Prop :=
  ∃ x, s.relayEntry tag = some x ∧ x.unsent = true ∧ x.admitted = true ∧ x.frame.dest = dest

/-- The TAG's entry has been closed with WITHHELD. -/
def State.Withheld (s : State) (tag dest : Byte) : Prop :=
  (∀ y ∈ s.relay, y.frame.tag ≠ tag) ∧ relayFail tag dest failWithheld ∈ s.outQueue

theorem State.Withheld.of_kept {s t : State} {tag dest : Byte} (h : s.Withheld tag dest) (k : Kept s t) : t.Withheld tag dest where
  left y hy ht := by
    have hm : tag ∈ tagsOf s.relay := k.relay.subset (List.mem_map.2 ⟨y, hy, ht⟩)
    obtain ⟨x, hx, hxt⟩ := List.mem_map.1 hm
    exact h.1 x hx hxt
  right := k.sent.subset h.2

/-- The TAG's entry is unsent and admitted, or has been closed with WITHHELD. -/
def State.Open (s : State) (tag dest : Byte) : Prop := s.Pending tag dest ∨ s.Withheld tag dest

section
variable {s : State} {tag dest : Byte} (h : s.Open tag dest)
include h

theorem State.Open.of_same {t : State} (hr : t.relay = s.relay := by rfl) (ho : t.outQueue = s.outQueue := by rfl) :
    t.Open tag dest := by
  unfold State.Open State.Pending State.Withheld State.relayEntry
  rw [hr, ho]
  exact h

/-- An act on one entry that changes neither its frame nor that it is unsent and admitted. -/
theorem State.Open.modRelay (g : Byte) (f : RelayEntry → RelayEntry) (hf : ∀ e, (f e).frame = e.frame)
    (hu : ∀ e, e.unsent = true → (f e).unsent = true) (ha : ∀ e, (f e).admitted = e.admitted) :
    (s.modRelay g f).Open tag dest := by
  rcases h with ⟨x, hx, hun, had, hd⟩ | ⟨hno, hfr⟩
  · refine .inl ?_
    have htag : ∀ x : RelayEntry, (if x.frame.tag = g then f x else x).frame.tag = x.frame.tag := fun x => by
      split
      · rw [hf]
      · rfl
    have he : (s.modRelay g f).relayEntry tag = some (if x.frame.tag = g then f x else x) := by
      unfold State.relayEntry State.modRelay at *
      simp only [List.find?_map, Function.comp_def, htag, hx, Option.map_some]
    refine ⟨_, he, ?_⟩
    split
    · exact ⟨hu x hun, (ha x).trans had, (congrArg Frame.dest (hf x)).trans hd⟩
    · exact ⟨hun, had, hd⟩
  · refine .inr ⟨fun y hy ht => ?_, hfr⟩
    obtain ⟨x, hx, rfl⟩ := List.mem_map.1 hy
    refine hno x hx ?_
    split at ht
    · exact (congrArg Frame.tag (hf x)).symm.trans ht
    · exact ht

theorem State.Open.closeFail (g : Byte) : (s.closeFail g failWithheld).Open tag dest := by
  cases he : s.relayEntry g with
  | none =>
    have hs : s.closeFail g failWithheld = s := by
      unfold State.closeFail
      rw [he]
    rw [hs]
    exact h
  | some e =>
    rw [closeFail_of_entry he]
    by_cases hg : g = tag
    · subst hg
      refine .inr ⟨fun y hy => by simpa using (List.mem_filter.1 hy).2, List.mem_append_right _ (List.mem_singleton.2 ?_)⟩
      rcases h with ⟨x, hx, -, -, hd⟩ | ⟨hno, -⟩
      · obtain rfl : x = e := Option.some.inj (hx.symm.trans he)
        rw [hd]
      · exact absurd (tag_of_relayEntry he) (hno e (List.mem_of_find?_eq_some he))
    · rcases h with ⟨x, hx, hrest⟩ | ⟨hno, hfr⟩
      · refine .inl ⟨x, ?_, hrest⟩
        have hp : (fun e : RelayEntry => decide ((e.frame.tag != g) = true ∧ (e.frame.tag == tag) = true)) =
            fun e => e.frame.tag == tag := by
          funext e
          by_cases ht : e.frame.tag = tag
          · simp [ht, Ne.symm hg]
          · simp [ht]
        unfold State.relayEntry at hx ⊢
        rw [List.find?_filter, hp]
        exact hx
      · exact .inr ⟨fun y hy => hno y (List.mem_of_mem_filter hy), List.mem_append_left _ hfr⟩

end

/-- The acts inside the part leave an open entry open, or close it with WITHHELD. -/
theorem inside_open (tag dest : Byte) : Inside (fun s => s.Open tag dest) where
  same h relay outQueue _ _ _ := h.of_same relay outQueue
  emits h _ := h.of_same
  purge _ h := h.of_same
  promote {_ g} h _ := h.modRelay g _ (fun _ => rfl) (fun _ _ => rfl) (fun _ => rfl)
  closeFail {_ g} h _ := h.closeFail g

/-- R29: a withdrawal closes the unsent entries it picks out with WITHHELD. -/
theorem withheld_of_picked {s : State} {x : RelayEntry} (hx : x ∈ s.relay) (hu : x.unsent = true) (p : RelayEntry → Bool)
    (hp : p x = true) : (s.withdrawEntries p).Withheld x.frame.tag x.frame.dest := by
  have hmem : x ∈ s.relay.filter (fun e => e.unsent && p e) := List.mem_filter.2 ⟨hx, by rw [hu, hp]; rfl⟩
  have hclosed (u : State) :
      ((s.relay.filter (fun e => e.unsent && p e)).foldl State.placeWithheld u).Withheld x.frame.tag x.frame.dest := by
    obtain ⟨hrel, hout⟩ := withheld_facts (s.relay.filter (fun e => e.unsent && p e)) u
    refine ⟨fun y hy ht => ?_, ?_⟩
    · rw [hrel] at hy
      have hin : x.frame.tag ∈ tagsOf (s.relay.filter (fun e => e.unsent && p e)) := List.mem_map.2 ⟨x, hmem, rfl⟩
      have hn := (List.mem_filter.1 hy).2
      rw [ht, List.contains_iff_mem.2 hin] at hn
      exact nomatch hn
    · rw [hout]
      exact List.mem_append_right _ (List.mem_map.2 ⟨x, hmem, rfl⟩)
  unfold State.withdrawEntries considerAfter
  dsimp only
  split
  · exact (hclosed _).of_kept (kept_considerHead (Kept.refl _))
  · exact hclosed _

/-- R29: a withdrawal closes the admitted entries of the nodes it picks out. -/
theorem withheld_withdrawEntries {s : State} {tag dest : Byte} (h : s.Open tag dest) (p : RelayEntry → Bool)
    (hp : ∀ x : RelayEntry, x.admitted = true → x.frame.dest = dest → p x = true) : (s.withdrawEntries p).Withheld tag dest := by
  rcases h with ⟨x, hx, hun, had, hd⟩ | hw
  · have hclosed := withheld_of_picked (List.mem_of_find?_eq_some hx) hun p (hp x had hd)
    rwa [tag_of_relayEntry hx, hd] at hclosed
  · exact hw.of_kept (kept_withdrawEntries (Kept.refl s) p)

/-- R29: a withdrawal of the DRIVEs for heaters and the converter. -/
theorem withheld_withdrawHeating {s : State} {tag dest : Byte} {i : Fin 16} (h : s.Open tag dest) (hi : s.loadAt dest = some i)
    (hh : (s.entry i).cls.heating = true) : s.withdrawHeating.Withheld tag dest := by
  refine withheld_withdrawEntries h _ fun x hx hd => ?_
  unfold State.admittedFor
  rw [hx, hd, hi]
  exact hh

theorem loadAt_of_kept {s t : State} (k : Kept s t) (dest : Byte) : t.loadAt dest = s.loadAt dest := by
  unfold State.loadAt
  exact findLoad_of_entry k.entry _

end Sys2Proof.Machine
end

