-- ==== Sys2Proof/Proofs/Stalls.lean ====
section
/-! PROOFS. The blower's run-on, arming and stall timers, and the cavities a stall halts (R29, R117, R162 to R165): O54. -/

namespace Sys2Proof.Machine

-- One proof at a time: proofs elaborated side by side ask for more threads than the check's memory limit leaves room for.
set_option Elab.async false

/-! ## Cavities that halt together (R117) -/

theorem haltActive_of_active {s : State} {c : Cav} (h : s.Active c) (r : Reason) : s.haltActive c r = s.halt c r := by
  unfold State.haltActive
  rcases h with h | h | h | h | h <;> rw [h]

theorem haltActive_of_idle {s : State} {c : Cav}
    (h : (s.cav c).state = .survey ∨ (s.cav c).state = .opened ∨ (s.cav c).state = .halted) (r : Reason) : s.haltActive c r = s := by
  unfold State.haltActive
  rcases h with h | h | h <;> rw [h]

theorem cav_haltActive_of_ne (s : State) {c x : Cav} (h : c ≠ x) (r : Reason) : (s.haltActive x r).cav c = s.cav c :=
  (apart_haltActive (Apart.refl x x s) r).cav c h

/-- Both cavities halt where they are active. -/
def State.haltBoth (s : State) (r : Reason) : State := (s.haltActive .zero r).haltActive .one r

theorem halted_haltBoth {s : State} {c : Cav} (h : s.Active c) (r : Reason) :
    ((s.haltBoth r).cav c).state = .halted ∧ ((s.haltBoth r).cav c).reason = r := by
  have hhalt {t : State} (ht : t.Active c) : ((t.haltActive c r).cav c).state = .halted ∧ ((t.haltActive c r).cav c).reason = r := by
    rw [haltActive_of_active ht, cav_halt]
    exact ⟨rfl, rfl⟩
  cases c with
  | zero =>
    unfold State.haltBoth
    rw [cav_haltActive_of_ne _ (by decide)]
    exact hhalt h
  | one =>
    have ho : (s.haltActive .zero r).Active .one := by
      unfold State.Active
      rw [cav_haltActive_of_ne _ (by decide)]
      exact h
    exact hhalt ho

theorem core_of_parked {c : Cav} {s t : State} (h : Parked c s t) (hp : s.parked c) :
    (t.cav c).state = (s.cav c).state ∧ (t.cav c).reason = (s.cav c).reason := by
  have hs := congrArg CavCtx.state (h hp)
  have hr := congrArg CavCtx.reason (h hp)
  exact ⟨hs, hr⟩

/-! ## The run-on and the arming time (R162, R164) -/

theorem effect_runOnExpired {s : State} {e : Time} (h : s.air.runOn = some e) :
    effect .runOnExpired s = ((s.advance e).modAir (fun a => { a with runOn := none })).setLevel .off :=
  expire_of_running (s := s) h State.endRunOn

theorem effect_armingExpired {s : State} {e : Time} (h : s.air.arming = some e) : effect .armingExpired s = { s with
    now := max s.now e
    air := { s.air with
      stall := .watching, arming := none,
      stallTimer := if (s.watch .speed).state = .met ∨ s.air.stallTimer ≠ none then s.air.stallTimer
                    else some (max s.now e + seconds s.limits.stallWindow) } } := by
  refine (expire_of_running (s := s) h State.endArming).trans ?_
  have hm : ((s.advance e).modAir (fun a => { a with stall := .watching, arming := none })).isMet .speed =
      ((s.watch .speed).state == .met) := rfl
  unfold State.endArming State.startStallTimer
  dsimp only
  rw [hm]
  by_cases hw : (s.watch .speed).state = .met
  · rw [if_pos (by simpa using hw), if_pos (.inl hw)]
    rfl
  · rw [if_neg (by simpa using hw)]
    have ha : ((s.advance e).modAir (fun a => { a with stall := .watching, arming := none })).air.stallTimer = s.air.stallTimer := rfl
    rw [ha]
    cases ht : s.air.stallTimer with
    | none =>
      rw [if_pos Option.isNone_none, if_neg (by simp [hw])]
      rfl
    | some t =>
      rw [if_neg (by simp), if_pos (.inr (by simp)), ← ht]
      rfl

/-! ## A stall (R165) -/

/-- The stall check STALLED, the blower still to be driven. -/
def State.stalling (s : State) : State := s.modAir (fun a => { a with stall := .stalled, stallTimer := none })

theorem effect_stallTimerExpired {s : State} {e : Time} (h : s.air.stallTimer = some e) :
    effect .stallTimerExpired s = (((s.advance e).stalling.driveBlower).flagPart).emit .stalled :=
  expire_of_running (s := s) h State.becomeStalled

theorem events_driveBlower {s : State} (h : s.RangesKept) (hl : s.air.level ≠ .off) : s.driveBlower.events = s.events := by
  unfold State.driveBlower
  cases hi : s.sharedLoad .blower with
  | none => rfl
  | some i =>
    have hcls := cls_of_sharedLoad hi
    show (s.engineDrive i (s.limits.map.at s.air.level)).events = s.events
    rw [engineDrive_of_pos s i (level_pos h hl), engineOn_of_not_budgeted (by rw [hcls]; rfl), events_queueDrive]

/-- The report of a stall acted on, alone. -/
theorem settle_of_stalled {s : State} (h : s.events = [.stalled]) :
    ∃ n, s.settle = settleUpTo n (({ s with events := [] } : State).haltBoth .blowerStall).withdrawHeating := by
  refine ⟨Config.reportsPerStep - 1, ?_⟩
  unfold State.settle
  show settleUpTo (Config.reportsPerStep - 1 + 1) s = _
  rw [settleUpTo, h]
  rfl

/-- Settles O54. -/
theorem blowerTimersSetLevelAndStallCheck : Obligations.BlowerTimersSetLevelAndStallCheck := by
  refine ⟨fun s e h ht => ?runOn, fun s e h ht => ?arming, fun s e h hr hl ht => ?stall⟩
  case runOn =>
    have he := effect_runOnExpired ht
    obtain ⟨v, fs, n, b, -, k, -, hv⟩ := exec_keeps (c := .runOnExpired) nofun nofun h he
    have ku := kept_setLevel (Kept.refl ((s.advance e).modAir (fun a => { a with runOn := none }))) .off
    have hsame := sameTables_effect (c := .runOnExpired) rfl rfl s
    rw [he] at hsame
    obtain ⟨hlevel, hrun⟩ := air_setLevel ((s.advance e).modAir (fun a => { a with runOn := none })) .off
    refine ⟨_, _, answers_of_effect (c := .runOnExpired) nofun nofun h he, hv, k.now.trans ku.now, hrun, hlevel, fun ho => ?_,
      (hsame.trans (.of_kept k)).trans .of_same⟩
    have hne : ((s.advance e).modAir (fun a => { a with runOn := none })).air.level ≠ .off := ho
    rw [(setLevel_off hne).1]
    exact ⟨rfl, (speed_setLevel hne).1 rfl⟩
  case arming => exact exec_of_quiet (c := .armingExpired) nofun nofun h (effect_armingExpired ht) h.2
  case stall =>
    have he := effect_stallTimerExpired ht
    let w := (s.advance e).stalling
    let u := (w.driveBlower.flagPart).emit .stalled
    have hw : w.RangesKept := hr
    have hev : u.events = [.stalled] := by
      have hd : w.driveBlower.events = [] := (events_driveBlower hw hl).trans h.2
      show w.driveBlower.events ++ [.stalled] = _
      rw [hd]
      rfl
    have hcav (c : Cav) : u.cav c = s.cav c := cav_of_loadAct (s := w) (t := w.driveBlower) ((LoadAct.refl w).driveBlower) c
    have kw : Kept w w.driveBlower := kept_driveBlower (Kept.refl w)
    obtain ⟨v, fs, n, b, hset, k, -, hv⟩ := exec_keeps (c := .stallTimerExpired) nofun nofun h he
    obtain ⟨m, hm⟩ := settle_of_stalled hev
    have hsame := sameTables_effect (c := .stallTimerExpired) rfl rfl s
    rw [he] at hsame
    have hair : u.air = w.air := air_driveBlower w
    refine ⟨u, _, answers_of_effect (c := .stallTimerExpired) nofun nofun h he, hv, k.now.trans kw.now, congrArg Airflow.stall hair,
      congrArg Airflow.stallTimer hair, rfl, fun i hi => driveBlower_drives hw hl hi, fun x i hx hun had hi hh => ?_, fun c hc => ?_,
      fun c hc => ?_, (hsame.trans (.of_kept k)).trans .of_same⟩
    · have ho : s.Open x.frame.tag x.frame.dest := .inl ⟨x, hx, hun, had, rfl⟩
      have how : w.Open x.frame.tag x.frame.dest := ho.of_same
      have hou : ({ u with events := [] } : State).Open x.frame.tag x.frame.dest := ((inside_open _ _).driveBlower how).of_same
      have kh : Kept w.driveBlower (({ u with events := [] } : State).haltBoth .blowerStall) :=
        kept_haltActive (kept_haltActive ((kept_flagPart (Kept.refl w.driveBlower)).with_events []) _ _) _ _
      have hwi : ((({ u with events := [] } : State).haltBoth .blowerStall).withdrawHeating).Withheld x.frame.tag x.frame.dest := by
        refine withheld_withdrawHeating ((inside_open _ _).haltActive ((inside_open _ _).haltActive hou _ _) _ _) ?_ (i := i) ?_
        · exact (loadAt_of_kept (kw.trans kh) _).trans hi
        · rw [(kw.trans kh).entry]
          exact hh
      have hvw : v.Withheld x.frame.tag x.frame.dest := by
        rw [hset]
        exact hm ▸ hwi.of_kept (kept_settleUpTo m (Kept.refl _))
      exact ⟨hvw.1, List.mem_append_left _ hvw.2⟩
    · have hact : ({ u with events := [] } : State).Active c := by
        have hx : ({ u with events := [] } : State).cav c = s.cav c := hcav c
        unfold State.Active
        rw [hx]
        exact hc
      obtain ⟨hst, hre⟩ := halted_haltBoth hact .blowerStall
      have hp : Parked c (({ u with events := [] } : State).haltBoth .blowerStall) v := by
        rw [hset]
        exact hm ▸ ((Parked.refl c _).noCavity fun a b => apart_withdrawHeating (Apart.refl a b _)).trans (parked_settleUpTo c m _)
      obtain ⟨hs', hr'⟩ := core_of_parked hp (.inr hst)
      exact ⟨hs'.trans hst, hr'.trans hre⟩
    · have hp : Parked c u v := by
        rw [hset]
        exact parked_settle u c
      obtain ⟨hs', hr'⟩ := core_of_parked hp (by unfold State.parked; rw [hcav c]; exact hc)
      exact ⟨hs'.trans (congrArg CavCtx.state (hcav c)), hr'.trans (congrArg CavCtx.reason (hcav c))⟩

end Sys2Proof.Machine
end

