-- ==== Sys2Proof/Proofs/Windows.lean ====
section
/-! PROOFS. Duty windows: their starts, their duties and their off marks (R58 to R61, R87, R113): O56. -/

namespace Sys2Proof.Machine

-- One proof at a time: proofs elaborated side by side ask for more threads than the check's memory limit leaves room for.
set_option Elab.async false

/-! ## Duties (R59, R87, R113) -/

theorem find?_toList_of_first {α : Type} {n : Nat} (v : Vector α n) (p : α → Bool) (i : Fin n) (hi : p (v.get i) = true)
    (h : ∀ j, j < i → p (v.get j) = false) : v.toList.find? p = some (v.get i) := by
  rw [List.find?_eq_some_iff_getElem]
  refine ⟨hi, i, by simp, by simp [Vector.get_eq_getElem], fun j hj => ?_⟩
  have hlt : j < n := hj.trans i.isLt
  have := h ⟨j, hlt⟩ hj
  simpa [Vector.get_eq_getElem] using this

theorem find?_toList_of_none {α : Type} {n : Nat} (v : Vector α n) (p : α → Bool) (h : ∀ i, p (v.get i) = false) :
    v.toList.find? p = none := by
  rw [List.find?_eq_none]
  intro x hx
  obtain ⟨i, hi, rfl⟩ := List.getElem_of_mem hx
  have hlt : i < n := by simpa using hi
  have := h ⟨i, hlt⟩
  simpa [Vector.get_eq_getElem] using this

theorem bandDuties_of_reached (v : Vector DutyBand 8) (error : Int) (i : Fin 8)
    (hi : ∃ x : Int, (v.get i).threshold = some x ∧ x ≤ error)
    (h : ∀ j, j < i → ¬∃ x : Int, (v.get j).threshold = some x ∧ x ≤ error) :
    bandDuties v.toList error = { top := (v.get i).top, bottom := (v.get i).bottom, rear := (v.get i).rear } := by
  obtain ⟨x, hx, hle⟩ := hi
  unfold bandDuties
  rw [find?_toList_of_first v _ i (by simp [hx, hle])]
  intro j hj
  cases hx : (v.get j).threshold with
  | none => rfl
  | some x => exact decide_eq_false fun hle => h j hj ⟨x, hx, hle⟩

theorem bandDuties_of_none (v : Vector DutyBand 8) (error : Int)
    (h : ∀ j, ¬∃ x : Int, (v.get j).threshold = some x ∧ x ≤ error) :
    bandDuties v.toList error = { top := 0, bottom := 0, rear := 0 } := by
  unfold bandDuties
  rw [find?_toList_of_none v]
  intro j
  cases hx : (v.get j).threshold with
  | none => rfl
  | some x => exact decide_eq_false fun hle => h j ⟨x, hx, hle⟩

theorem dutiesFor_eq {s : State} {c : Cav} {b : BankId} {t : Int} (hb : (s.cav c).bank = some b) (ht : s.probeTemp c = some t)
    (target : Int) : s.dutiesFor c target =
      if (s.cav c).litWait then { top := 0, bottom := 0, rear := 0 } else bandDuties (s.bank b).duty.toList (target - t) := by
  unfold State.dutiesFor
  rw [hb, ht]

theorem treatDuty_eq (period duty : Nat) : treatDuty period duty =
    if duty < 5 ∨ (duty ≤ 95 ∧ duty * period < 100) then 0 else if 95 < duty then 100 else duty := by
  unfold treatDuty
  generalize duty * period = x
  split_ifs <;> omega

/-! ## A window starts (R58, R59) -/

/-- A position in the order of R59, between those before it and those after it. -/
theorem positions_split (p : HeatPos) : ∃ pre post, positions = pre ++ p :: post ∧ p ∉ pre ∧ p ∉ post := by
  cases p
  · exact ⟨[], [.bottom, .rear], rfl, by decide, by decide⟩
  · exact ⟨[.top], [.rear], rfl, by decide, by decide⟩
  · exact ⟨[.top, .bottom], [], rfl, by decide, by decide⟩

theorem position_injective {s : State} {c : Cav} {p q : HeatPos} {i j : Fin 16} (hi : s.heater c p = some i)
    (hj : s.heater c q = some j) (h : p ≠ q) : i ≠ j := by
  rintro rfl
  have hp := (entry_of_heater hi).2.2
  have hq := (entry_of_heater hj).2.2
  exact h (LoadPos.at.inj (hp.symm.trans hq))

section
variable {s : State} {c : Cav} {d : PerPos Nat} {p : HeatPos} {i : Fin 16} (hi : s.heater c p = some i)
include hi

theorem switchHeater_of_load : State.switchHeater c d s p = s.engineDrive i (if d.get p = 0 then 0 else 100) := by
  unfold State.switchHeater
  rw [hi]
  rfl

/-- Switching the other positions leaves a heater. -/
theorem Stands.switchHeaters (l : List HeatPos) (hp : p ∉ l) : ∀ {t : State}, Stands i s t →
    Stands i s (l.foldl (State.switchHeater c d) t) := by
  induction l with
  | nil => exact fun h => h
  | cons q l ih =>
    intro t h
    obtain ⟨hq, hl⟩ : p ≠ q ∧ p ∉ l := by simpa using hp
    refine ih hl (h.onLoad fun j hj => h.engineDrive ?_ _)
    rw [heater_of_entry h.entry] at hj
    exact position_injective hi hj hq

/-- Switching the other positions leaves what a heater asks for. -/
theorem Asks.switchHeaters {level : Nat} (l : List HeatPos) (hp : p ∉ l) : ∀ {t : State}, (∀ j, t.entry j = s.entry j) →
    Asks i level t → Asks i level (l.foldl (State.switchHeater c d) t) := by
  induction l with
  | nil => exact fun _ h => h
  | cons q l ih =>
    intro t he h
    obtain ⟨hq, hl⟩ : p ≠ q ∧ p ∉ l := by simpa using hp
    refine ih hl (fun j => ((kept_switchHeater (Kept.refl t) c d q).entry j).trans (he j)) ?_
    cases hj : t.heater c q with
    | none =>
      have ht : State.switchHeater c d t q = t := by
        unfold State.switchHeater
        rw [hj]
        rfl
      rw [ht]
      exact h
    | some j =>
      rw [switchHeater_of_load hj]
      exact h.engineDrive (position_injective hi (by rw [← heater_of_entry he]; exact hj) hq) _

end

theorem kept_windowStarted (s : State) (c : Cav) (target : Int) : Kept s (s.windowStarted c target) := by
  unfold State.windowStarted
  exact kept_modWindow (Kept.refl s) c _

/-- A window's heater, switched between the positions before it and those after it. -/
theorem startWindow_split {s : State} {c : Cav} {p : HeatPos} {i : Fin 16} (hi : s.heater c p = some i) (target : Int) :
    ∃ (pre post : List HeatPos) (v : State), p ∉ pre ∧ p ∉ post ∧
      v = pre.foldl (State.switchHeater c (s.treatedFor c target)) (s.windowStarted c target) ∧
      s.startWindow c target = post.foldl (State.switchHeater c (s.treatedFor c target))
        (v.engineDrive i (if (s.treatedFor c target).get p = 0 then 0 else 100)) := by
  obtain ⟨pre, post, hsplit, hpre, hpost⟩ := positions_split p
  refine ⟨pre, post, _, hpre, hpost, rfl, ?_⟩
  have k : Kept s (pre.foldl (State.switchHeater c (s.treatedFor c target)) (s.windowStarted c target)) :=
    kept_foldl _ (fun _ _ g => kept_switchHeater g c _ _) _ (kept_windowStarted s c target)
  rw [startWindow_eq, hsplit, List.foldl_append, List.foldl_cons, switchHeater_of_load ((heater_of_entry k.entry c p).trans hi)]

/-- What a window's start makes of a heater with a duty of 0. -/
theorem startWindow_off {s : State} {c : Cav} {p : HeatPos} {i : Fin 16} (hi : s.heater c p = some i) {target : Int}
    (h : (s.treatedFor c target).get p = 0) : IsOff i (s.startWindow c target) := by
  obtain ⟨pre, post, v, -, hpost, hv, he⟩ := startWindow_split hi target
  have k : Kept s v := hv ▸ kept_foldl _ (fun _ _ g => kept_switchHeater g c _ _) _ (kept_windowStarted s c target)
  have ho : IsOff i (v.engineOff i) := isOff_engineOff v i
  rw [he, if_pos h]
  have hi' : (v.engineOff i).heater c p = some i :=
    (heater_of_entry (kept_engineOff k i).entry c p).trans hi
  exact ho.stands (Stands.switchHeaters hi' post hpost (Stands.refl ho.free))

/-- What a window's start makes of a heater with a duty above 0. -/
theorem startWindow_on {s : State} {c : Cav} {p : HeatPos} {i : Fin 16} (hi : s.heater c p = some i) {target : Int}
    (h : (s.treatedFor c target).get p ≠ 0) (hs : (s.cav c).state = .run) (hl : (s.lock c).state = .locked) (hf : s.freeOf i) :
    let u := s.startWindow c target
    ((s.record i).grant = .held → IsDriven i 100 (s.record i) u) ∧
      ((s.record i).grant = .noGrant → (s.record i).fault = .noFault → Asks i 100 u) ∧
      ((s.record i).grant = .noGrant → (s.record i).fault ≠ .noFault → u.record i = s.record i ∧ Event.loadFault i ∈ u.events) := by
  obtain ⟨pre, post, v, hpre, hpost, hv, he⟩ := startWindow_split hi target
  obtain ⟨hcls, hcav, -⟩ := entry_of_heater hi
  have hw : Stands i s (s.windowStarted c target) := (Stands.refl hf).of_same
  have hst : Stands i s v := hv ▸ Stands.switchHeaters hi pre hpre hw
  have hla : LoadAct (s.windowStarted c target) v :=
    hv ▸ LoadAct.foldl _ (fun _ _ g => g.onLoad _ _ fun _ => g.engineDrive _ _) _ (LoadAct.refl _)
  have hcheck : v.heaterCheck i = true := by
    refine heaterCheck_of_run (c := c) ((congrArg LoadEntry.cavity (hst.entry i)).trans hcav) ?_ ?_
    · exact (congrArg CavCtx.state (cav_of_loadAct hla c)).trans hs
    · exact (congrArg LockUnit.state (lock_of_loadAct hla c)).trans hl
  have hb : budgeted (v.entry i).cls = true := by rw [hst.entry, hcls]; rfl
  have hr := hst.record
  have hpos : (0 : Nat) < 100 := by decide
  rw [if_neg h] at he
  have hent {t : State} (k : Kept v t) : t.heater c p = some i := (heater_of_entry (fun j => (k.entry j).trans (hst.entry j)) c p).trans hi
  refine ⟨fun hg => ?_, fun hg hn => ?_, fun hg hn => ?_⟩
  · have hx := isDriven_engineDrive hb hpos hst.now_free (by rw [hr]; exact hg) hcheck
    rw [ite_self, hr] at hx
    rw [he]
    exact hx.stands (Stands.switchHeaters (hent (kept_engineDrive (Kept.refl v) i 100)) post hpost (Stands.refl hx.free))
  · have hx := asks_engineDrive hb hpos (by rw [hr]; exact hg) (by rw [hr]; exact hn) hcheck
    rw [ite_self] at hx
    rw [he]
    exact Asks.switchHeaters hi post hpost (fun j => ((kept_engineDrive (Kept.refl v) i 100).entry j).trans (hst.entry j)) hx
  · have hx := engineDrive_refused hb hpos (by rw [hr]; exact hg) (by rw [hr]; exact hn)
    rw [faultReport_of_not_converter (by rw [hst.entry, hcls]; decide)] at hx
    rw [he, hx]
    have hlast : Stands i s (v.emit (.loadFault i)) := hst.of_same
    refine ⟨(Stands.switchHeaters hi post hpost hlast).record, ?_⟩
    have hev : LoadAct (v.emit (.loadFault i)) (post.foldl (State.switchHeater c (s.treatedFor c target)) (v.emit (.loadFault i))) :=
      LoadAct.foldl _ (fun _ _ g => g.onLoad _ _ fun _ => g.engineDrive _ _) _ (LoadAct.refl _)
    exact hev.events.subset (List.mem_append_right _ (List.mem_singleton.2 rfl))

/-- How a window's start leaves the window. -/
theorem window_startWindow (s : State) (c : Cav) (target : Int) : (s.startWindow c target).window c = {
    running := true, start := some s.now, period := some s.limits.window, duty := some (s.treatedFor c target)
    offMark := { top := offMarkOf s.now s.limits.window (s.treatedFor c target).top,
                 bottom := offMarkOf s.now s.limits.window (s.treatedFor c target).bottom,
                 rear := offMarkOf s.now s.limits.window (s.treatedFor c target).rear } } := by
  have h : (s.startWindow c target).window c = (s.windowStarted c target).window c := by
    unfold State.window
    rw [(loadAct_startWindow s c target).windows]
  rw [h]
  simp [State.windowStarted]

/-! ## Off marks (R60) -/

/-- A reached off mark dropped. -/
def State.unmarked (s : State) (c : Cav) (p : HeatPos) : State :=
  s.modWindow c (fun w => { w with offMark := w.offMark.set p none })

theorem loadAct_reachOffMark (s : State) (c : Cav) (p : HeatPos) : LoadAct (s.unmarked c p) (s.reachOffMark c p) :=
  (LoadAct.refl _).onLoad _ _ fun _ => (LoadAct.refl _).engineOff _

theorem offMark_reachOffMark (s : State) (c : Cav) (p q : HeatPos) : ((s.reachOffMark c p).window c).offMark.get q =
    if q = p then none else (s.window c).offMark.get q := by
  have h : (s.reachOffMark c p).window c = (s.unmarked c p).window c := by
    unfold State.window
    rw [(loadAct_reachOffMark s c p).windows]
  rw [h]
  simp only [State.unmarked, window_modWindow, if_true]
  cases p <;> cases q <;> rfl

theorem isOff_reachOffMark {s : State} {c : Cav} {p : HeatPos} {i : Fin 16} (hi : s.heater c p = some i) :
    IsOff i (s.reachOffMark c p) := by
  have he : s.reachOffMark c p = (s.unmarked c p).engineOff i := by
    unfold State.reachOffMark
    rw [hi]
    rfl
  rw [he]
  exact isOff_engineOff _ i

/-- Settles O56. -/
theorem windowsStartAndHeatersGoOffAtTheirMark : Obligations.WindowsStartAndHeatersGoOffAtTheirMark := by
  refine ⟨fun s c e h ht => ?start, fun s c b target t hb ht => ?duties, treatDuty_eq, fun start period duty => ?mark,
    fun s c p e h ht => ?off⟩
  case start =>
    let v := s.advance e
    let target := (s.presentSegment c).target
    have he : effect (.windowStart c) s = v.startWindow c target := expire_of_running (s := s) ht (fun s => s.nextWindow c)
    have hl := loadAct_startWindow v c target
    have hsame := sameTables_effect (c := .windowStart c) rfl rfl s
    rw [he] at hsame
    refine ⟨_, v.dutiesFor c target, answers_of_effect (c := .windowStart c) nofun nofun h he, rfl,
      (kept_startWindow (Kept.refl v) c target).now, window_startWindow v c target, hl.cavs, hl.locks, hl.chans, hsame, fun p i hi => ?_⟩
    have htreat : (v.treatedFor c target).get p = treatDuty s.limits.window ((v.dutiesFor c target).get p) := by cases p <;> rfl
    have hi : v.heater c p = some i := (heater_of_entry (fun _ => rfl) c p).trans hi
    refine ⟨fun h0 => ?_, fun h0 hs hl hf => ?_⟩
    · have ho : IsOff i (v.startWindow c target) := startWindow_off hi (htreat.trans h0)
      exact ⟨ho.commanded, ho.queued.imp_right And.left⟩
    · obtain ⟨hheld, hasks, hfault⟩ := startWindow_on (s := v) (target := target) hi (by rw [htreat]; exact h0) hs hl hf
      exact ⟨fun hg => (hheld hg).driven, fun hg => (hheld hg).stood, fun hg hn => (hasks hg hn).grant, hfault⟩
  case duties =>
    intro none100 reached
    have hd := dutiesFor_eq hb ht target
    refine ⟨fun hw => ?_, fun hw hn => ?_, fun i hw hr hn => ?_⟩
    · rw [hd, if_pos hw]
    · rw [hd, if_neg (by rw [hw]; decide), bandDuties_of_none _ _ hn]
    · rw [hd, if_neg (by rw [hw]; decide), bandDuties_of_reached _ _ i hr hn]
  case mark => rfl
  case off =>
    have he : effect (.offMark c p) s = (s.advance e).reachOffMark c p := expire_of_running (s := s) ht (fun s => s.reachOffMark c p)
    have hl := loadAct_reachOffMark (s.advance e) c p
    have hsame := sameTables_effect (c := .offMark c p) rfl rfl s
    rw [he] at hsame
    have k : Kept (s.advance e) ((s.advance e).reachOffMark c p) := kept_reachOffMark _ c p
    refine ⟨_, answers_of_effect (c := .offMark c p) nofun nofun h he, k.now, (offMark_reachOffMark ..).trans (if_pos rfl),
      fun q hq => (offMark_reachOffMark ..).trans (if_neg hq), fun i hi => ?_, hl.cavs, hl.locks, hl.chans, hsame⟩
    have ho : IsOff i ((s.advance e).reachOffMark c p) := isOff_reachOffMark hi
    exact ⟨ho.commanded, ho.queued.imp_right And.left⟩

end Sys2Proof.Machine
end

