-- ==== Sys2Proof/Proofs/Timed.lean ====
section
/-! PROOFS. How a timed segment is entered (R93, R106 to R112, R139): O45. -/

namespace Sys2Proof.Machine

-- One proof at a time: proofs elaborated side by side ask for more threads than the check's memory limit leaves room for.
set_option Elab.async false

/-! ## The limits of a bank that a context names (R89) -/

theorem limits_of_kept {s t : State} (k : Kept s t) (b : BankId) : (t.bank b).limits = (s.bank b).limits :=
  congrArg (fun x => x.2.2.2.1) (k.content b)

section
variable {s : State} {c : Cav} {b : BankId} (hb : (s.cav c).bank = some b)
include hb

theorem riseMin_of_bank : s.riseMin c = (s.bank b).limits.riseMin := by
  unfold State.riseMin State.limitsOfCav
  rw [hb]
  rfl

theorem absCeiling_of_bank : s.absCeiling c = (s.bank b).limits.ceiling := by
  unfold State.absCeiling State.limitsOfCav
  rw [hb]
  rfl

theorem ceilingFor_of_bank (g : Segment) :
    s.ceilingFor c g = min (g.target + (s.bank b).limits.overshoot) (s.bank b).limits.ceiling := by
  unfold State.ceilingFor
  rw [absCeiling_of_bank hb]
  unfold State.overshoot State.limitsOfCav
  rw [hb]
  rfl

end

/-! ## The outputs of a segment (R107) -/

section
variable (s : State) (c : Cav) (g : Segment)

theorem cav_applyOutputs : (s.applyOutputs c g).cav c = { s.cav c with blower := g.blower, converter := g.converter } := by
  simp [State.applyOutputs]

theorem loadAct_driveFan (level : Nat) : LoadAct s (s.driveFan c level) := (LoadAct.refl s).driveFan c level

theorem postBlower_facts (d : BlowLevel) : (s.postBlower c d).windows = s.windows ∧
    (s.postBlower c d).air.cavDemand.get c = d ∧ (s.postBlower c d).air.convCav = s.air.convCav ∧
    (s.postBlower c d).air.convDemand = s.air.convDemand ∧ (s.postBlower c d).air.lit = s.air.lit := by
  have hb := blows_postBlower s c d
  refine ⟨hb.windows, ?_, hb.convCav, hb.convDemand, hb.lit⟩
  rw [hb.cavDemand]
  exact Two.get_set_self ..

theorem postConverter_facts (d : ConvField) : (s.postConverter c d).windows = s.windows ∧
    (s.postConverter c d).air.convCav.get c = d ∧
    (s.postConverter c d).air.convDemand = (d.wants || (s.air.convCav.get (otherCav c)).wants) ∧
    (s.postConverter c d).air.cavDemand = s.air.cavDemand ∧ (s.postConverter c d).air.lit = s.air.lit := by
  have hc := loadAct_postConverter s c d
  refine ⟨hc.windows, ?_, by rw [hc.air]; rfl, by rw [hc.air]; rfl, by rw [hc.air]; rfl⟩
  rw [hc.air]
  exact Two.get_set_self ..

theorem air_applyOutputs : (s.applyOutputs c g).air.cavDemand.get c = g.blower ∧
    (s.applyOutputs c g).air.convCav.get c = g.converter ∧ (s.applyOutputs c g).air.lit = s.air.lit := by
  obtain ⟨-, hdem, -, -, hlit⟩ := postBlower_facts s c g.blower
  have hf := loadAct_driveFan (s.postBlower c g.blower) c g.fan
  obtain ⟨-, hconv, -, hcd, hcl⟩ := postConverter_facts ((s.postBlower c g.blower).driveFan c g.fan) c g.converter
  unfold State.applyOutputs
  exact ⟨by rw [hcd, hf.air, hdem], hconv, by rw [hcl, hf.air, hlit]⟩

theorem postConverter_keeps (d : ConvField) : (s.postConverter c d).locks = s.locks ∧ (s.postConverter c d).chans = s.chans :=
  ⟨(loadAct_postConverter s c d).locks, (loadAct_postConverter s c d).chans⟩

theorem postBlower_keeps (d : BlowLevel) : (s.postBlower c d).locks = s.locks ∧ (s.postBlower c d).chans = s.chans :=
  ⟨(blows_postBlower s c d).locks, (blows_postBlower s c d).chans⟩

theorem applyOutputs_keeps : (s.applyOutputs c g).locks = s.locks ∧ (s.applyOutputs c g).chans = s.chans ∧
    (∀ w, w ≠ .speed → (s.applyOutputs c g).watch w = s.watch w) := by
  obtain ⟨hlb, hcb⟩ := postBlower_keeps s c g.blower
  obtain ⟨hlc, hcc⟩ := postConverter_keeps ((s.postBlower c g.blower).driveFan c g.fan) c g.converter
  have hf := loadAct_driveFan (s.postBlower c g.blower) c g.fan
  refine ⟨hlc.trans (hf.locks.trans hlb), hcc.trans (hf.chans.trans hcb), fun w hw => ?_⟩
  unfold State.applyOutputs
  rw [watch_postConverter, watch_driveFan, watch_postBlower s c g.blower hw]

end

/-- R93: what a segment's outputs make of the cavity's fan. -/
theorem applyOutputs_fan {s : State} {c : Cav} {i : Fin 16} (hi : s.cavLoad c .fan = some i) (hf : s.freeOf i) (g : Segment) :
    let u := s.applyOutputs c g
    (g.fan = 0 → IsOff i u) ∧
      (0 < g.fan → (s.record i).grant = .held →
        IsDriven i (if (s.entry i).kind = .switched then 100 else g.fan) (s.record i) u) ∧
      (0 < g.fan → (s.record i).grant = .noGrant → (s.record i).fault ≠ .noFault → Event.loadFault i ∈ u.events) := by
  have hcls := (entry_of_cavLoad hi).1
  let v := s.postBlower c g.blower
  have hst : Stands i s v := (Stands.refl hf).postBlower (by rw [hcls]; decide) c _
  have hv : v.cavLoad c .fan = some i := (cavLoad_of_entry hst.entry c .fan).trans hi
  have hd : v.driveFan c g.fan = v.engineDrive i g.fan := driveFan_of_load hv _
  have hb : budgeted (v.entry i).cls = true := by rw [hst.entry, hcls]; rfl
  have hcheck : v.heaterCheck i = true := heaterCheck_of_not_heater (by rw [hst.entry, hcls]; decide)
  have hu : s.applyOutputs c g = (v.driveFan c g.fan).postConverter c g.converter := rfl
  have hposted {t : State} (hx : t.freeOf i) (he : ∀ j, t.entry j = s.entry j) : Stands i t (t.postConverter c g.converter) :=
    (Stands.refl hx).postConverter (by rw [he, hcls]; decide) c _
  have he (level : Nat) (j : Fin 16) : (v.engineDrive i level).entry j = s.entry j :=
    ((kept_engineDrive (Kept.refl v) i level).entry j).trans (hst.entry j)
  rw [hu, hd]
  refine ⟨fun h0 => ?_, fun h0 hg => ?_, fun h0 hg hn => ?_⟩
  · have ho : IsOff i (v.engineDrive i g.fan) := by
      rw [h0]
      exact isOff_engineOff v i
    exact ho.stands (hposted ho.free (he _))
  · have hx := isDriven_engineDrive hb h0 hst.now_free (by rw [hst.record]; exact hg) hcheck
    rw [hst.record, hst.entry] at hx
    exact hx.stands (hposted hx.free (he _))
  · have hx := engineDrive_refused hb h0 (by rw [hst.record]; exact hg) (by rw [hst.record]; exact hn)
    rw [faultReport_of_not_converter (by rw [hst.entry, hcls]; decide)] at hx
    rw [hx]
    exact (loadAct_postConverter _ c g.converter).events.subset (List.mem_append_right _ (List.mem_singleton.2 rfl))

/-! ## What the start of a kind leaves of the outputs -/

/-- What the timers, watches and window of a kind leave as the outputs left it. -/
structure Starts (c : Cav) (s t : State) : Prop where
  locks : t.locks = s.locks
  chans : t.chans = s.chans
  air : t.air = s.air
  cav : (t.cav c).zeroRun = (s.cav c).zeroRun ∧ (t.cav c).segment = (s.cav c).segment ∧ (t.cav c).state = (s.cav c).state ∧
    (t.cav c).bank = (s.cav c).bank ∧ (t.cav c).blower = (s.cav c).blower ∧ (t.cav c).converter = (s.cav c).converter
  fan : ∀ {i : Fin 16} {r : State}, (r.entry i).cls = .fan → Stands i r s → Stands i r t
  fault : ∀ {i : Fin 16}, Event.loadFault i ∈ s.events → Event.loadFault i ∈ t.events

theorem Starts.refl (c : Cav) (s : State) : Starts c s s :=
  ⟨rfl, rfl, rfl, ⟨rfl, rfl, rfl, rfl, rfl, rfl⟩, fun _ h => h, fun h => h⟩

theorem Starts.trans {c : Cav} {s t u : State} (h : Starts c s t) (g : Starts c t u) : Starts c s u := by
  obtain ⟨h1, h2, h3, h4, h5, h6⟩ := h.cav
  obtain ⟨g1, g2, g3, g4, g5, g6⟩ := g.cav
  exact ⟨g.locks.trans h.locks, g.chans.trans h.chans, g.air.trans h.air,
    ⟨g1.trans h1, g2.trans h2, g3.trans h3, g4.trans h4, g5.trans h5, g6.trans h6⟩, fun hc hs => g.fan hc (h.fan hc hs),
    fun he => g.fault (h.fault he)⟩

section
variable {c : Cav} {s t : State} (h : Starts c s t)
include h

theorem Starts.setWatch (w : WatchId) (side : Side) (level : Int) : Starts c s (t.setWatch w side level) := by
  rw [setWatch_eq]
  exact ⟨h.locks, h.chans, h.air, h.cav, fun hc hs => (h.fan hc hs).of_same, fun he => List.mem_append_left _ (h.fault he)⟩

theorem Starts.modCav (f : CavCtx → CavCtx) (hf : ∀ k, (f k).zeroRun = k.zeroRun ∧ (f k).segment = k.segment ∧
    (f k).state = k.state ∧ (f k).bank = k.bank ∧ (f k).blower = k.blower ∧ (f k).converter = k.converter) :
    Starts c s (t.modCav c f) := by
  refine ⟨h.locks, h.chans, h.air, ?_, fun hc hs => (h.fan hc hs).of_same, h.fault⟩
  obtain ⟨h1, h2, h3, h4, h5, h6⟩ := hf (t.cav c)
  obtain ⟨g1, g2, g3, g4, g5, g6⟩ := h.cav
  have hk : (t.modCav c f).cav c = f (t.cav c) := by simp
  rw [hk]
  exact ⟨h1.trans g1, h2.trans g2, h3.trans g3, h4.trans g4, h5.trans g5, h6.trans g6⟩

theorem Starts.stopHold : Starts c s (t.stopHold c) := by
  have hm : Starts c s (t.modCav c (fun k => { k with hold := .stopped })) := h.modCav _ fun _ => ⟨rfl, rfl, rfl, rfl, rfl, rfl⟩
  exact ⟨hm.locks, hm.chans, hm.air, hm.cav, fun hc hs => (hm.fan hc hs).of_same,
    fun he => List.mem_filter.2 ⟨hm.fault he, rfl⟩⟩

theorem Starts.emit (e : Event) : Starts c s (t.emit e) :=
  ⟨h.locks, h.chans, h.air, h.cav, fun hc hs => (h.fan hc hs).of_same, fun he => List.mem_append_left _ (h.fault he)⟩

theorem Starts.loadAct {u : State} (hl : LoadAct t u) (hf : ∀ {i : Fin 16} {r : State}, (r.entry i).cls = .fan →
    Stands i r t → Stands i r u) : Starts c s u := by
  have hk : u.cav c = t.cav c := cav_of_loadAct hl c
  refine ⟨hl.locks.trans h.locks, hl.chans.trans h.chans, hl.air.trans h.air, ?_, fun hc hs => hf hc (h.fan hc hs),
    fun he => hl.events.subset (h.fault he)⟩
  rw [hk]
  exact h.cav

theorem Starts.startWindow (target : Int) : Starts c s (t.startWindow c target) := by
  have hw : Starts c s (t.windowStarted c target) :=
    ⟨h.locks, h.chans, h.air, h.cav, fun hc hs => (h.fan hc hs).of_same, h.fault⟩
  refine hw.loadAct (loadAct_startWindow t c target) fun {i r} hc hs => ?_
  have hfold (l : List HeatPos) : ∀ {v : State}, Stands i r v →
      Stands i r (l.foldl (State.switchHeater c (t.treatedFor c target)) v) := by
    induction l with
    | nil => exact fun h => h
    | cons p l ih =>
      intro v hv
      refine ih (hv.onLoad fun j hj => hv.engineDrive (ne_of_cls (s := v) ?_) _)
      rw [hv.entry, hc, (entry_of_heater hj).1]
      decide
  rw [startWindow_eq]
  exact hfold positions hs

theorem Starts.endWindow : Starts c s (t.endWindow c) := by
  have hw : Starts c s (t.windowEnded c) := ⟨h.locks, h.chans, h.air, h.cav, fun hc hs => (h.fan hc hs).of_same, h.fault⟩
  refine hw.loadAct (loadAct_endWindow t c) fun {i r} hc hs => ?_
  show Stands i r ((t.windowEnded c).heatersOff c)
  exact hs.heatersOff (by rw [hc]; decide) c

end

/-! ## A window's duties are those of the state it leaves -/

theorem dutiesFor_of_loadAct {s t : State} (h : LoadAct s t) (c : Cav) (target : Int) : t.dutiesFor c target = s.dutiesFor c target := by
  have hb (b : BankId) : t.bank b = s.bank b := by
    unfold State.bank
    rw [h.banks]
  unfold State.dutiesFor
  rw [cav_of_loadAct h c, probeTemp_of_chans h.chans c]
  simp only [hb]

/-- A window that has started with the duties its state gives. -/
def State.WindowStarts (u : State) (c : Cav) (now : Time) (period : Nat) (target : Int) : Prop :=
  u.window c = {
    running := true, start := some now, period := some period, duty := (u.window c).duty, offMark := (u.window c).offMark } ∧
  ∀ d, d = u.dutiesFor c target → (u.window c).duty = some {
    top := treatDuty period d.top, bottom := treatDuty period d.bottom, rear := treatDuty period d.rear }

theorem windowStarts_startWindow (s : State) (c : Cav) (target : Int) :
    (s.startWindow c target).WindowStarts c s.now s.limits.window target := by
  have hw := window_startWindow s c target
  refine ⟨by rw [hw], fun d hd => ?_⟩
  have hx : (s.startWindow c target).dutiesFor c target = s.dutiesFor c target := dutiesFor_of_loadAct (loadAct_startWindow s c target) c target
  rw [hw, hd, hx]
  rfl

theorem State.WindowStarts.emit {s : State} {c : Cav} {now : Time} {period : Nat} {target : Int}
    (h : s.WindowStarts c now period target) (e : Event) : (s.emit e).WindowStarts c now period target := h

/-! ## RAMP (R109, R110) -/

/-- A RAMP before it waits for LIT or starts its short timer. -/
def State.ramped (s : State) (c : Cav) (g : Segment) (long : Time) : State :=
  ((s.takeEntryTemp c).setWatch (.goal c) .atOrAbove (g.target - g.band)).modCav c (fun k => { k with long := s.timer long })

section
variable (s : State) (c : Cav) (g : Segment) (long : Time)

theorem cav_ramped : (s.ramped c g long).cav c = { s.cav c with entryTemp := s.probeTemp c, long := some (s.now + long) } := by
  simp [State.ramped, State.takeEntryTemp, State.timer]

theorem watch_ramped (w : WatchId) : (s.ramped c g long).watch w = if w = .goal c then
    { side := .atOrAbove, level := g.target - g.band, state := freshWatchState (s.channel (.probe c)) .atOrAbove (g.target - g.band) }
    else s.watch w := watch_setWatch (s.takeEntryTemp c) (.goal c) .atOrAbove (g.target - g.band) w

theorem starts_ramped : Starts c s (s.ramped c g long) := by
  have h : Starts c s (s.takeEntryTemp c) := (Starts.refl c s).modCav _ fun _ => ⟨rfl, rfl, rfl, rfl, rfl, rfl⟩
  exact (h.setWatch _ _ _).modCav _ fun _ => ⟨rfl, rfl, rfl, rfl, rfl, rfl⟩

theorem kept_ramped : Kept s (s.ramped c g long) :=
  kept_modCav (kept_setWatch (kept_takeEntryTemp (Kept.refl s) c) _ _ _) c _ fun x => x

theorem startRamp_eq : s.startRamp c g long =
    if g.converter = .onNeedsLit ∧ s.air.lit = false then (s.ramped c g long).modCav c (fun k => { k with litWait := true })
    else (s.ramped c g long).startShort c g := by
  have hair : (s.ramped c g long).air = s.air := (starts_ramped s c g long).air
  show (if g.converter = .onNeedsLit ∧ (s.ramped c g long).air.lit = false then _ else _) = _
  rw [hair]
  rfl

end

/-- What a RAMP starts. -/
structure Ramps (s t : State) (c : Cav) (g : Segment) (long : Time) (riseMin : Nat) : Prop where
  starts : Starts c s t
  kept : Kept s t
  ceiling : t.watch (.ceiling c) = s.watch (.ceiling c)
  goal : t.watch (.goal c) = { side := .atOrAbove, level := g.target - g.band, state := freshWatchState (s.channel (.probe c)) .atOrAbove (g.target - g.band) }
  entry : (t.cav c).entryTemp = s.probeTemp c
  long : (t.cav c).long = some (s.now + long)
  waits : g.converter = .onNeedsLit → s.air.lit = false →
    (t.cav c).litWait = true ∧ (t.cav c).short = (s.cav c).short ∧ t.watch (.rise c) = s.watch (.rise c)
  goes : g.converter ≠ .onNeedsLit ∨ s.air.lit = true → (t.cav c).litWait = (s.cav c).litWait ∧
    (g.short = 0 → (t.cav c).short = (s.cav c).short ∧ t.watch (.rise c) = s.watch (.rise c)) ∧
    ∀ x, 0 < g.short → s.probeTemp c = some x → (t.cav c).short = some (s.now + seconds g.short) ∧
      t.watch (.rise c) = { side := .atOrAbove, level := x + riseMin, state := freshWatchState (s.channel (.probe c)) .atOrAbove (x + riseMin) }

theorem ramps_startRamp {s : State} {c : Cav} {b : BankId} (hb : (s.cav c).bank = some b) (g : Segment) (long : Time) :
    Ramps s (s.startRamp c g long) c g long (s.bank b).limits.riseMin := by
  have hk := cav_ramped s c g long
  have hw := watch_ramped s c g long
  have hst := starts_ramped s c g long
  have hkept := kept_ramped s c g long
  have hch : (s.ramped c g long).channel (.probe c) = s.channel (.probe c) := channel_of_chans hst.chans _
  have hgoal := (hw (.goal c)).trans (if_pos rfl)
  have hrise := (hw (.rise c)).trans (if_neg nofun)
  have hceil := (hw (.ceiling c)).trans (if_neg nofun)
  rw [startRamp_eq]
  by_cases hn : g.converter = .onNeedsLit ∧ s.air.lit = false
  · rw [if_pos hn]
    have hc : ((s.ramped c g long).modCav c (fun k => { k with litWait := true })).cav c = _ := (cav_modCav ..).trans (if_pos rfl)
    have hno : ¬(g.converter ≠ .onNeedsLit ∨ s.air.lit = true) := by
      rintro (h | h)
      · exact h hn.1
      · exact nomatch hn.2.symm.trans h
    refine ⟨hst.modCav _ fun _ => ⟨rfl, rfl, rfl, rfl, rfl, rfl⟩, kept_modCav hkept c _ fun x => x, hceil, hgoal, ?_, ?_,
      fun _ _ => ⟨?_, ?_, hrise⟩, fun h => absurd h hno⟩ <;> rw [hc, hk]
  · rw [if_neg hn]
    have hentry : ((s.ramped c g long).cav c).entryTemp = s.probeTemp c := by rw [hk]
    have hno : ¬(g.converter = .onNeedsLit ∧ s.air.lit = false) := hn
    by_cases hs : g.short = 0 ∨ s.probeTemp c = none
    · rw [startShort_of_none (hs.imp_right hentry.trans)]
      refine ⟨hst, hkept, hceil, hgoal, hentry, by rw [hk], fun h1 h2 => absurd ⟨h1, h2⟩ hno, fun _ => ⟨by rw [hk], fun _ => ⟨by rw [hk], hrise⟩, fun x hx hp => ?_⟩⟩
      rcases hs with hs | hs
      · omega
      · exact nomatch hs.symm.trans hp
    · obtain ⟨h0, hp⟩ := not_or.1 hs
      obtain ⟨x, hx⟩ := Option.ne_none_iff_exists'.1 hp
      have hrm : (s.ramped c g long).riseMin c = (s.bank b).limits.riseMin := by
        rw [riseMin_of_bank (b := b) (by rw [hk]; exact hb), limits_of_kept hkept]
      have hnow : (s.ramped c g long).now = s.now := hkept.now
      rw [startShort_of_some (Nat.pos_of_ne_zero h0) (hentry.trans hx), hrm]
      have hc : (((s.ramped c g long).setWatch (.rise c) .atOrAbove (x + (s.bank b).limits.riseMin)).modCav c
          (fun k => { k with short := (s.ramped c g long).timer (seconds g.short) })).cav c =
          { (s.ramped c g long).cav c with short := some (s.now + seconds g.short) } := by
        simp [State.timer, hnow]
      have hwatch (w : WatchId) := watch_setWatch (s.ramped c g long) (.rise c) .atOrAbove (x + (s.bank b).limits.riseMin) w
      have hset : ((s.ramped c g long).setWatch (.rise c) .atOrAbove (x + (s.bank b).limits.riseMin)).watch (.rise c) =
          { side := .atOrAbove, level := x + (s.bank b).limits.riseMin,
            state := freshWatchState (s.channel (.probe c)) .atOrAbove (x + (s.bank b).limits.riseMin) } := by
        rw [hwatch, if_pos rfl, ← hch]
        rfl
      refine ⟨(hst.setWatch _ _ _).modCav _ fun _ => ⟨rfl, rfl, rfl, rfl, rfl, rfl⟩, kept_modCav (kept_setWatch hkept _ _ _) c _ fun x => x,
        ?_, ?_,
        ?_, ?_, fun h1 h2 => absurd ⟨h1, h2⟩ hno, fun _ => ⟨?_, fun h => absurd h h0, fun y _ hy => ⟨?_, ?_⟩⟩⟩
      · rw [watch_modCav, hwatch, if_neg nofun]
        exact hceil
      · rw [watch_modCav, hwatch, if_neg nofun]
        exact hgoal
      · rw [hc]
        exact hentry
      · rw [hc, hk]
      · rw [hc, hk]
      · rw [hc]
      · obtain rfl : x = y := Option.some.inj (hx.symm.trans hy)
        rw [watch_modCav]
        exact hset

/-! ## SOAK and COOL (R111, R112) -/

/-- R111: where a SOAK's hold is placed. -/
theorem placeHold_eq (s : State) (c : Cav) (g : Segment) (left : Time) : ∃ h : Hold,
    s.placeHold c g left = s.modCav c (fun k => { k with hold := h }) ∧
      ((∃ t, s.probeTemp c = some t ∧ g.target - g.band ≤ t) → h = .running (s.now + left)) ∧
      ((∀ t, s.probeTemp c = some t → t < g.target - g.band) → h = .standing left) := by
  unfold State.placeHold
  cases hp : s.probeTemp c with
  | none => exact ⟨.standing left, rfl, fun ⟨t, ht, _⟩ => (nomatch ht), fun _ => rfl⟩
  | some x =>
    by_cases hx : g.target - g.band ≤ x
    · refine ⟨.running (s.now + left), if_pos hx, fun _ => rfl, fun h => ?_⟩
      have := h x rfl
      omega
    · refine ⟨.standing left, if_neg hx, fun ⟨t, ht, hle⟩ => ?_, fun _ => rfl⟩
      exact absurd (Option.some.inj ht ▸ hle) hx

/-- What a SOAK starts. -/
structure Soaks (s t : State) (c : Cav) (g : Segment) (left : Time) : Prop where
  starts : Starts c s t
  kept : Kept s t
  ceiling : t.watch (.ceiling c) = s.watch (.ceiling c)
  window : t.WindowStarts c s.now s.limits.window g.target
  elapses : left = 0 → (t.cav c).hold = .stopped ∧ Event.holdDone c ∈ t.events
  runs : 0 < left → (∃ x, s.probeTemp c = some x ∧ g.target - g.band ≤ x) → (t.cav c).hold = .running (s.now + left)
  stands : 0 < left → (∀ x, s.probeTemp c = some x → x < g.target - g.band) → (t.cav c).hold = .standing left

theorem soaks_startSoak (s : State) (c : Cav) (g : Segment) (left : Time) : Soaks s (s.startSoak c g left) c g left := by
  by_cases h0 : left = 0
  · have he : s.startSoak c g left = ((s.stopHold c).startWindow c g.target).emit (.holdDone c) := if_pos h0
    have hst : Starts c s ((s.stopHold c).startWindow c g.target) := (Starts.refl c s).stopHold.startWindow _
    have hcav : ((s.stopHold c).startWindow c g.target).cav c = (s.stopHold c).cav c := cav_startWindow ..
    rw [he]
    refine ⟨hst.emit _, kept_emit (kept_startWindow (kept_stopHold (Kept.refl s) c) c _) _, ?_, ?_, fun _ => ⟨?_, ?_⟩,
      fun h => absurd h0 h.ne', fun h => absurd h0 h.ne'⟩
    · rw [watch_emit, watch_startWindow, watch_stopHold]
    · exact (windowStarts_startWindow (s.stopHold c) c g.target).emit _
    · rw [cav_emit, hcav]
      simp
    · exact List.mem_append_right _ (List.mem_singleton.2 rfl)
  · obtain ⟨x, hx, hrun, hstand⟩ := placeHold_eq s c g left
    have he : s.startSoak c g left = (s.modCav c (fun k => { k with hold := x })).startWindow c g.target := (if_neg h0).trans (by rw [hx])
    have hst : Starts c s (s.modCav c (fun k => { k with hold := x })) := (Starts.refl c s).modCav _ fun _ => ⟨rfl, rfl, rfl, rfl, rfl, rfl⟩
    have hhold : (((s.modCav c (fun k => { k with hold := x })).startWindow c g.target).cav c).hold = x := by simp
    rw [he]
    refine ⟨hst.startWindow _, kept_startWindow (kept_modCav (Kept.refl s) c _ fun x => x) c _, ?_, ?_, fun h => absurd h h0,
      fun _ h => hhold.trans (hrun h), fun _ h => hhold.trans (hstand h)⟩
    · rw [watch_startWindow, watch_modCav]
    · exact windowStarts_startWindow (s.modCav c (fun k => { k with hold := x })) c g.target

/-- What a COOL starts. -/
structure Cools (s t : State) (c : Cav) (g : Segment) (long : Option Time) : Prop where
  starts : Starts c s t
  kept : Kept s t
  ceiling : t.watch (.ceiling c) = s.watch (.ceiling c)
  goal : t.watch (.goal c) = { side := .atOrBelow, level := g.target, state := freshWatchState (s.channel (.probe c)) .atOrBelow g.target }
  long : (t.cav c).long = long.map (fun x => s.now + x)
  ended : (t.window c).running = false ∧ ∀ p, (t.window c).offMark.get p = none
  heaters : ∀ p i, s.heater c p = some i → IsOff i t

theorem window_endWindow (s : State) (c : Cav) : (s.endWindow c).window c = { s.window c with
    running := false, offMark := { top := none, bottom := none, rear := none } } := by
  unfold State.window
  rw [(loadAct_endWindow s c).windows]
  exact Two.get_set_self ..

theorem cools_startCool (s : State) (c : Cav) (g : Segment) (long : Option Time) :
    Cools s ((s.startCool c g long).endWindow c) c g long := by
  have hst : Starts c s (s.startCool c g long) :=
    ((Starts.refl c s).setWatch _ _ _).modCav _ fun _ => ⟨rfl, rfl, rfl, rfl, rfl, rfl⟩
  have hk : Kept s (s.startCool c g long) := kept_startCool (Kept.refl s) c g long
  have hwatch (w : WatchId) : ((s.startCool c g long).endWindow c).watch w = (s.setWatch (.goal c) .atOrBelow g.target).watch w := by
    rw [watch_endWindow]
    rfl
  refine ⟨hst.endWindow, kept_endWindow hk c, ?_, ?_, ?_, ?_, fun p i hi => ?_⟩
  · rw [hwatch, watch_setWatch, if_neg nofun]
  · rw [hwatch, watch_setWatch, if_pos rfl]
    rfl
  · have hl : ((s.startCool c g long).cav c).long = long.bind s.timer := by simp [State.startCool]
    rw [cav_endWindow, hl]
    cases long <;> rfl
  · rw [window_endWindow]
    exact ⟨rfl, fun p => by cases p <;> rfl⟩
  · exact isOff_endWindow ((heater_of_entry hk.entry c p).trans hi)

/-! ## Entering a timed segment (R106, R107) -/

/-- A timed segment entered, its outputs applied, its timers still to start. -/
def State.outfitted (s : State) (c : Cav) (n : Nat) : State :=
  (s.modCav c (fun k => { k with zeroRun := 0, segment := some n })).applyOutputs c (s.segmentAt c n)

section
variable {s : State} {c : Cav} {n : Nat}

theorem enterTimed_of_ramp (h : (s.segmentAt c n).kind = .ramp) (resume : Option Resume) : s.enterTimed c n resume =
    ((((s.outfitted c n).setCeiling c (s.ceilingFor c (s.segmentAt c n))).startRamp c (s.segmentAt c n)
      (((resume.map (fun r => r.1)).join).getD (seconds (s.segmentAt c n).duration)))).startWindow c (s.segmentAt c n).target := by
  unfold State.enterTimed
  dsimp only
  rw [h]
  rfl

theorem enterTimed_of_soak (h : (s.segmentAt c n).kind = .soak) (resume : Option Resume) : s.enterTimed c n resume =
    ((s.outfitted c n).setCeiling c (s.ceilingFor c (s.segmentAt c n))).startSoak c (s.segmentAt c n)
      (((resume.map (fun r => r.2)).join).getD (seconds (s.segmentAt c n).duration)) := by
  unfold State.enterTimed
  dsimp only
  rw [h]
  rfl

/-- R112, R134: the long time of a COOL, at its entry or as it is resumed. -/
def coolLong (g : Segment) : Option Resume → Option Time
  | none => coolTime g
  | some r => r.1

theorem enterTimed_of_cool (h : (s.segmentAt c n).kind = .cool) (resume : Option Resume) : s.enterTimed c n resume =
    (((s.outfitted c n).setCeiling c (s.absCeiling c)).startCool c (s.segmentAt c n) (coolLong (s.segmentAt c n) resume)).endWindow c := by
  unfold State.enterTimed
  dsimp only
  rw [h]
  cases resume <;> rfl

theorem enterSegment_of_timed (h : (s.segmentAt c n).kind.timed = true) : s.enterSegment c n = s.enterTimed c n none := by
  unfold State.enterSegment
  cases 8 - (s.cav c).zeroRun <;> exact if_pos h

end

theorem kept_outfitted (s : State) (c : Cav) (n : Nat) : Kept s (s.outfitted c n) :=
  kept_applyOutputs (kept_modCav (Kept.refl s) c _ fun x => x) c _

theorem cav_outfitted (s : State) (c : Cav) (n : Nat) : (s.outfitted c n).cav c = { s.cav c with
    zeroRun := 0, segment := some n, blower := (s.segmentAt c n).blower, converter := (s.segmentAt c n).converter } := by
  unfold State.outfitted
  rw [cav_applyOutputs]
  simp

theorem outfitted_keeps (s : State) (c : Cav) (n : Nat) : (s.outfitted c n).locks = s.locks ∧ (s.outfitted c n).chans = s.chans ∧
    (∀ w, w ≠ .speed → (s.outfitted c n).watch w = s.watch w) := by
  obtain ⟨hl, hc, hw⟩ := applyOutputs_keeps (s.modCav c (fun k => { k with zeroRun := 0, segment := some n })) c (s.segmentAt c n)
  exact ⟨hl, hc, hw⟩

theorem outfitted_fan {s : State} {c : Cav} {n : Nat} {i : Fin 16} (hi : s.cavLoad c .fan = some i) (hf : s.freeOf i) :
    let g := s.segmentAt c n
    let u := s.outfitted c n
    (g.fan = 0 → IsOff i u) ∧
      (0 < g.fan → (s.record i).grant = .held →
        IsDriven i (if (s.entry i).kind = .switched then 100 else g.fan) (s.record i) u) ∧
      (0 < g.fan → (s.record i).grant = .noGrant → (s.record i).fault ≠ .noFault → Event.loadFault i ∈ u.events) :=
  applyOutputs_fan (s := s.modCav c (fun k => { k with zeroRun := 0, segment := some n })) hi hf (s.segmentAt c n)

/-- What every timed segment leaves of its outputs. -/
theorem outfitted_starts {s u : State} {c : Cav} {n : Nat} {b : BankId} (hb : (s.cav c).bank = some b)
    (hst : Starts c (s.outfitted c n) u) (hk : Kept s u) :
    let g := s.segmentAt c n
    ((u.cav c).zeroRun = 0 ∧ (u.cav c).segment = some n ∧ (u.cav c).state = (s.cav c).state ∧ (u.cav c).bank = some b ∧
      (u.cav c).blower = g.blower ∧ (u.cav c).converter = g.converter ∧ u.air.cavDemand.get c = g.blower ∧
      u.air.convCav.get c = g.converter ∧ u.locks = s.locks ∧ u.chans = s.chans ∧ s.SameTables u) ∧
    (∀ i, s.cavLoad c .fan = some i → (∀ r ∈ s.grantQueue, r.load ≠ i) →
      (g.fan = 0 → (u.record i).commanded = some 0 ∧ ((u.record i).confirmed = some 0 ∨ QItem.drive i 0 false ∈ u.urgent)) ∧
      (0 < g.fan → (s.record i).grant = .held →
        let level := if (s.entry i).kind = .switched then 100 else g.fan
        (u.record i).owner = .engine ∧ ((s.record i).standsAt level = false →
          (u.record i).commanded = some level ∧ QItem.drive i level false ∈ u.normal)) ∧
      (0 < g.fan → (s.record i).grant = .noGrant → (s.record i).fault ≠ .noFault → Event.loadFault i ∈ u.events)) := by
  intro g
  have hcav := cav_outfitted s c n
  obtain ⟨hrun, hseg, hstate, hbank, hblow, hconv⟩ := hst.cav
  rw [hcav] at hrun hseg hstate hbank hblow hconv
  obtain ⟨hdem, hcd, -⟩ := air_applyOutputs (s.modCav c (fun k => { k with zeroRun := 0, segment := some n })) c g
  obtain ⟨hlocks, hchans, -⟩ := outfitted_keeps s c n
  refine ⟨⟨hrun, hseg, hstate, hbank.trans hb, hblow, hconv, ?_, ?_, hst.locks.trans hlocks, hst.chans.trans hchans, .of_kept hk⟩,
    fun i hi hf => ?_⟩
  · rw [hst.air]
    exact hdem
  · rw [hst.air]
    exact hcd
  · obtain ⟨hzero, hheld, hfault⟩ := outfitted_fan (n := n) hi hf
    have hcls : ((s.outfitted c n).entry i).cls = .fan := by rw [(kept_outfitted s c n).entry, (entry_of_cavLoad hi).1]
    refine ⟨fun h0 => ?_, fun h0 hg => ?_, fun h0 hg hn => hst.fault (hfault h0 hg hn)⟩
    · have ho := (hzero h0).stands (hst.fan hcls (Stands.refl (hzero h0).free))
      exact ⟨ho.commanded, ho.queued.imp_right And.left⟩
    · have hd := (hheld h0 hg).stands (hst.fan hcls (Stands.refl (hheld h0 hg).free))
      exact ⟨hd.owner, hd.driven⟩

/-- R108: CEILING as a timed segment sets it. -/
theorem outfitted_ceiling (s : State) (c : Cav) (n : Nat) (level : Int) :
    let w := (s.outfitted c n).setCeiling c level
    Starts c (s.outfitted c n) w ∧ Kept s w ∧ w.watch (.ceiling c) = {
        side := .above, level := level, state := freshWatchState (s.channel (.probe c)) .above level } ∧
      w.channel (.probe c) = s.channel (.probe c) ∧ w.watch (.rise c) = s.watch (.rise c) ∧ w.air.lit = s.air.lit ∧
      w.cav c = (s.outfitted c n).cav c := by
  intro w
  have hst : Starts c (s.outfitted c n) w := (Starts.refl c _).setWatch _ _ _
  obtain ⟨-, hchans, hwatch⟩ := outfitted_keeps s c n
  have hch : (s.outfitted c n).channel (.probe c) = s.channel (.probe c) := channel_of_chans hchans _
  have hw (v : WatchId) := watch_setWatch (s.outfitted c n) (.ceiling c) .above level v
  refine ⟨hst, kept_setCeiling (kept_outfitted s c n) c level, ?_, ?_, ?_, ?_, cav_setWatch ..⟩
  · refine (hw (.ceiling c)).trans ((if_pos rfl).trans ?_)
    rw [← hch]
    rfl
  · exact (channel_of_chans hst.chans _).trans hch
  · exact (hw (.rise c)).trans ((if_neg nofun).trans (hwatch _ nofun))
  · rw [hst.air]
    exact (air_applyOutputs (s.modCav c (fun k => { k with zeroRun := 0, segment := some n })) c (s.segmentAt c n)).2.2

/-- Settles O45: each kind's start acts on the outputs as the segment left them. -/
theorem timedSegmentsStartByTheirKind : Obligations.TimedSegmentsStartByTheirKind := by
  intro s c n resume b hb g u probe limits fresh windowStarts
  have kept : Kept s u := kept_enterTimed (Kept.refl s) c n resume
  have hnow {t : State} (k : Kept s t) : t.now = s.now ∧ t.limits.window = s.limits.window := ⟨k.now, congrArg Limits.window k.limits⟩
  refine ⟨fun hk => ?common, fun hk => ?ramp, fun hk => ?soak, fun hk => ?cool⟩
  case common =>
    have hst : Starts c (s.outfitted c n) u := by
      have hkind : g.kind = .ramp ∨ g.kind = .soak ∨ g.kind = .cool := by simpa using hk
      rcases hkind with hx | hx | hx
      · have hu : u = _ := enterTimed_of_ramp hx resume
        rw [hu]
        obtain ⟨hw, -, -, -, -, -, hcav⟩ := outfitted_ceiling s c n (s.ceilingFor c g)
        have hbw : (((s.outfitted c n).setCeiling c (s.ceilingFor c g)).cav c).bank = some b := by rw [hcav, cav_outfitted]; exact hb
        exact (hw.trans (ramps_startRamp hbw g _).starts).startWindow _
      · have hu : u = _ := enterTimed_of_soak hx resume
        rw [hu]
        exact (outfitted_ceiling s c n (s.ceilingFor c g)).1.trans (soaks_startSoak _ c g _).starts
      · have hu : u = _ := enterTimed_of_cool hx resume
        rw [hu]
        exact (outfitted_ceiling s c n (s.absCeiling c)).1.trans (cools_startCool _ c g _).starts
    refine ⟨fun hr => ?_, outfitted_starts hb hst kept⟩
    subst hr
    exact enterSegment_of_timed (timed_of_mem hk)
  case ramp =>
    let long := ((resume.map (fun r => r.1)).join).getD (seconds g.duration)
    let w := (s.outfitted c n).setCeiling c (s.ceilingFor c g)
    obtain ⟨-, kw, hceil, hch, hrise, hlit, hcav⟩ := outfitted_ceiling s c n (s.ceilingFor c g)
    have hcav : w.cav c = _ := hcav.trans (cav_outfitted s c n)
    have hprobe : w.probeTemp c = s.probeTemp c := by
      unfold State.probeTemp
      rw [hch]
    have hr := ramps_startRamp (s := w) (b := b) (by rw [hcav]; exact hb) g long
    rw [limits_of_kept kw] at hr
    have hu : u = (w.startRamp c g long).startWindow c g.target := enterTimed_of_ramp hk resume
    have hcavu : u.cav c = (w.startRamp c g long).cav c := by rw [hu, cav_startWindow]
    have hwatch (x : WatchId) : u.watch x = (w.startRamp c g long).watch x := by rw [hu, watch_startWindow]
    have hwin := windowStarts_startWindow (w.startRamp c g long) c g.target
    obtain ⟨hn, hp⟩ := hnow (kw.trans hr.kept)
    rw [hn, hp, ← hu] at hwin
    have hlong : (u.cav c).long = some (s.now + long) := by rw [hcavu, hr.long, kw.now]
    have hgoal := hr.goal
    rw [hch] at hgoal
    refine ⟨⟨?_, (hwatch _).trans hgoal, ?_, hwin⟩, fun hx => ?_, fun left hold hx => ?_, fun hn hl => ?_, fun hn => ?_⟩
    · rw [hwatch, hr.ceiling, hceil, ceilingFor_of_bank hb]
      rfl
    · rw [hcavu, hr.entry, hprobe]
    · subst hx
      exact hlong
    · subst hx
      exact hlong
    · obtain ⟨hwait, hshort, hx⟩ := hr.waits hn (hlit.trans hl)
      refine ⟨by rw [hcavu, hwait], ?_, (hwatch _).trans (hx.trans hrise)⟩
      rw [hcavu, hshort, hcav]
    · obtain ⟨hwait, hzero, hpos⟩ := hr.goes (hn.imp_right hlit.trans)
      refine ⟨by rw [hcavu, hwait, hcav], fun h0 => ?_, fun t h0 ht => ?_⟩
      · obtain ⟨hshort, hx⟩ := hzero h0
        refine ⟨?_, (hwatch _).trans (hx.trans hrise)⟩
        rw [hcavu, hshort, hcav]
      · obtain ⟨hshort, hx⟩ := hpos t h0 (hprobe.trans ht)
        rw [hch] at hx
        exact ⟨by rw [hcavu, hshort, kw.now], (hwatch _).trans hx⟩
  case soak =>
    let w := (s.outfitted c n).setCeiling c (s.ceilingFor c g)
    obtain ⟨-, kw, hceil, hch, -, -, -⟩ := outfitted_ceiling s c n (s.ceilingFor c g)
    have hprobe : w.probeTemp c = s.probeTemp c := by
      unfold State.probeTemp
      rw [hch]
    obtain ⟨hn, hp⟩ := hnow kw
    have hu : u = w.startSoak c g (((resume.map (fun r => r.2)).join).getD (seconds g.duration)) := enterTimed_of_soak hk resume
    have hs := soaks_startSoak w c g (((resume.map (fun r => r.2)).join).getD (seconds g.duration))
    rw [← hu] at hs
    refine ⟨⟨?_, ?_⟩, fun left hl => ?_⟩
    · rw [hs.ceiling, hceil, ceilingFor_of_bank hb]
      rfl
    · have hwin := hs.window
      rw [hn, hp] at hwin
      exact hwin
    · have hleft : ((resume.map (fun r => r.2)).join).getD (seconds g.duration) = left := by
        rcases hl with ⟨hx, hl⟩ | ⟨long, hx⟩
        · rw [hx, hl]
          rfl
        · rw [hx]
          rfl
      rw [hleft] at hs
      have hruns := hs.runs
      have hstands := hs.stands
      rw [hprobe, hn] at hruns
      rw [hprobe] at hstands
      exact ⟨hs.elapses, hruns, hstands⟩
  case cool =>
    let w := (s.outfitted c n).setCeiling c (s.absCeiling c)
    obtain ⟨-, kw, hceil, hch, -, -, -⟩ := outfitted_ceiling s c n (s.absCeiling c)
    have hu : u = (w.startCool c g (coolLong g resume)).endWindow c := enterTimed_of_cool hk resume
    have hs := cools_startCool w c g (coolLong g resume)
    rw [← hu] at hs
    have hgoal := hs.goal
    rw [hch] at hgoal
    have hlong := hs.long
    rw [kw.now] at hlong
    refine ⟨⟨?_, hgoal, hs.ended⟩, fun hx => ?_, fun left hold hx => ?_, fun _ p i hi => ?_⟩
    · rw [hs.ceiling, hceil, absCeiling_of_bank hb]
      rfl
    · rw [hlong, hx]
      show (coolTime g).map _ = _
      unfold coolTime
      split <;> rfl
    · rw [hlong, hx]
      rfl
    · have ho := hs.heaters p i ((heater_of_entry kw.entry c p).trans hi)
      exact ⟨ho.commanded, ho.queued.imp_right And.left⟩

end Sys2Proof.Machine
end

