-- ==== Sys2Proof/Proofs/Reports.lean ====
section
/-! PROOFS. What a context does with each report, and how a halt leaves its cavity (R102 to R104, R109, R117 to R134, R148, R154):
O48. -/

namespace Sys2Proof.Machine

-- One proof at a time: proofs elaborated side by side ask for more threads than the check's memory limit leaves room for.
set_option Elab.async false

/-! ## Watches and loads of a cavity (R75, R102, R109, R129) -/

section
variable {s : State} {c : Cav}

theorem onGoal_of_run (h : (s.cav c).state = .run) :
    s.onGoal c = (s.leaveSegment c).enterSegment c (s.presentSegment c).next.toNat := if_pos h

theorem onGoal_of_not_run (h : (s.cav c).state ≠ .run) : s.onGoal c = s := if_neg h

theorem onCavityLoad_of_mem {i : Fin 16} (h : (s.entry i).cls ∈ [LoadClass.heater, .fan, .lamp]) (hc : (s.entry i).cavity = .of c)
    (f : State → Cav → State) : s.onCavityLoad i f = f s c := by
  have hcls : (s.entry i).cls.cavityClass = true := by
    simp only [List.mem_cons, List.not_mem_nil, or_false] at h
    rcases h with h | h | h <;> rw [h] <;> rfl
  unfold State.onCavityLoad
  rw [hcls, hc]

theorem onFault_of_mem {i : Fin 16} (h : (s.entry i).cls ∈ [LoadClass.heater, .fan, .lamp]) (hc : (s.entry i).cavity = .of c) :
    s.onFault i = s.onLoadFault c := by
  simp only [List.mem_cons, List.not_mem_nil, or_false] at h
  unfold State.onFault
  rcases h with h | h | h <;> rw [h, hc]

theorem onLoadFault_of_run (h : (s.cav c).state = .run) : s.onLoadFault c = s.raise c .loadFault := by
  unfold State.onLoadFault
  rw [h]

theorem onLoadFault_of_prepare (h : (s.cav c).state = .prepare) : s.onLoadFault c = s.backToOpen c .startLoad := by
  unfold State.onLoadFault
  rw [h]

theorem onLoadFault_of_idle (h : (s.cav c).state ≠ .run) (hp : (s.cav c).state ≠ .prepare) : s.onLoadFault c = s := by
  unfold State.onLoadFault
  cases hs : (s.cav c).state
  case run => exact absurd hs h
  case prepare => exact absurd hs hp
  all_goals rfl

theorem opened_backToOpen (s : State) (c : Cav) (r : Reason) :
    ((s.backToOpen c r).cav c).state = .opened ∧ ((s.backToOpen c r).cav c).reason = r := by
  rw [cav_backToOpen]
  exact ⟨rfl, rfl⟩

theorem halted_halt (s : State) (c : Cav) (r : Reason) : ((s.halt c r).cav c).state = .halted ∧ ((s.halt c r).cav c).reason = r := by
  rw [cav_halt]
  exact ⟨rfl, rfl⟩

end

/-! ## A cause raised in RUN (R126, R132, R134) -/

/-- The pending causes change nothing of the resume point. -/
theorem resumePoint_pending (s : State) (c : Cav) (p : Vector Bool 6) :
    (s.modCav c (fun k => { k with pending := p })).resumePoint c = s.resumePoint c := by
  have hseg : (s.modCav c (fun k => { k with pending := p })).presentSegment c = s.presentSegment c := by
    unfold State.presentSegment State.segmentAt
    rw [show (s.modCav c (fun k => { k with pending := p })).cav c = _ from (cav_modCav ..).trans (if_pos rfl)]
    rfl
  unfold State.resumePoint State.resumeTimes
  rw [hseg, show (s.modCav c (fun k => { k with pending := p })).cav c = _ from (cav_modCav ..).trans (if_pos rfl)]
  rfl

theorem setPending_eq (s : State) (c : Cav) (a : Cause) (b : Bool) :
    s.setPending c a b = s.modCav c (fun k => { k with pending := (s.cav c).pending.set a.index b }) := rfl

/-- R132, R133: a raised cause whose set has a takeable one. -/
theorem raise_of_taken {s : State} {c : Cav} {a b : Cause} (h : (s.cav c).state = .run)
    (ht : ((s.setPending c a true).cav c).takeable = some b) :
    (∀ u v, (s.setPending c a true).takeCause c b (s.resumePoint c) = (u, some v) → s.raise c a = u.enterSegment c v) ∧
      ∀ u, (s.setPending c a true).takeCause c b (s.resumePoint c) = (u, none) → s.raise c a = u := by
  have hp : (s.setPending c a true).resumePoint c = s.resumePoint c := by
    rw [setPending_eq]
    exact resumePoint_pending s c _
  refine ⟨fun u v hu => ?_, fun u hu => ?_⟩
  all_goals
    unfold State.raise
    rw [h]
    dsimp only
    rw [ht]
    dsimp only
    rw [hp, hu]

/-- R134: the resume point by the kind of the segment. -/
theorem resumePoint_facts {s : State} {c : Cav} {n : Nat} (h : (s.cav c).segment = some n) :
    let g := s.presentSegment c
    (g.kind = .ramp → s.resumePoint c = (n, (some (leftOf s.now (s.cav c).long), none))) ∧
      (g.kind = .cool → s.resumePoint c = (n, (if g.duration = 0 then none else some (leftOf s.now (s.cav c).long), none))) ∧
      (g.kind = .soak → s.resumePoint c = (n, (none, some (holdLeft s.now (s.cav c).hold)))) := by
  intro g
  unfold State.resumePoint State.resumeTimes
  rw [h]
  refine ⟨fun hk => ?_, fun hk => ?_, fun hk => ?_⟩ <;> rw [show (s.presentSegment c).kind = _ from hk] <;> rfl

/-! ## The other reports (R102 to R104, R117, R119, R120) -/

section
variable {s : State} {c : Cav}

/-- R158: the lock's reports by the state of the cavity. -/
theorem onLockReport_of_locking (h : (s.cav c).state = .locking) (r : LockReport) : s.onLockReport c r = s.lockInLocking c r := by
  unfold State.onLockReport
  rw [h]

theorem onLockReport_of_run (h : (s.cav c).state ∈ [CavState.run, .cooldown]) (r : LockReport) :
    s.onLockReport c r = s.lockInRun c r := by
  unfold State.onLockReport
  simp only [List.mem_cons, List.not_mem_nil, or_false] at h
  rcases h with h | h <;> rw [h]

theorem onLockReport_of_release (h : (s.cav c).state = .release) (r : LockReport) : s.onLockReport c r = s.lockInRelease c r := by
  unfold State.onLockReport
  rw [h]

theorem onLockReport_of_idle (h : (s.cav c).state ∈ [CavState.survey, .opened, .prepare, .halted]) (r : LockReport) :
    s.onLockReport c r = s := by
  unfold State.onLockReport
  simp only [List.mem_cons, List.not_mem_nil, or_false] at h
  rcases h with h | h | h | h <;> rw [h]

/-- R103, R104: the lock's reports in LOCKING. -/
theorem lockInLocking_facts (s : State) (c : Cav) (r : LockReport) :
    let u := s.lockInLocking c r
    let k := s.cav c
    (∀ j, r = .jammed j → u = s.halt c .lockJam) ∧
      (r = .locked → k.backOff = .noBackOff → u = s.enterRun c) ∧
      (r = .engageFailed → k.backOff = .noBackOff → u = s.backToOpen c .lockEngage) ∧
      (r = .engageAborted → k.backOff = .noBackOff → u = s.modCav c (fun k => { k with backOff := .door })) ∧
      (r = .unlocked → k.backOff ≠ .noBackOff → u = s.backToOpen c (backOffReason k.backOff)) ∧
      (r ∈ [LockReport.locked, .engageFailed, .engageAborted] → k.backOff ≠ .noBackOff → u = s) ∧
      (r = .unlocked → k.backOff = .noBackOff → u = s) := by
  intro u k
  refine ⟨fun j hr => by subst hr; rfl, fun hr hb => ?_, fun hr hb => ?_, fun hr hb => ?_, fun hr hb => ?_, fun hr hb => ?_, fun hr hb => ?_⟩
  case refine_4 =>
    subst hr
    exact if_neg hb
  case refine_5 =>
    simp only [List.mem_cons, List.not_mem_nil, or_false] at hr
    rcases hr with rfl | rfl | rfl <;> exact if_neg hb
  all_goals
    subst hr
    exact if_pos hb

theorem lockInRun_of_other {r : LockReport} (h : ∀ j, r ≠ .jammed j) : s.lockInRun c r = s := by
  cases r
  case jammed j => exact absurd rfl (h j)
  all_goals rfl

theorem jamReason_eq (j : Jam) : jamReason j = if j = .latchLost then .latchLost else .lockJam := by
  cases j <;> rfl

theorem startBackOff_facts (s : State) (c : Cav) (why : BackOff) :
    ((s.cav c).backOff = .noBackOff → s.startBackOff c why = (s.modCav c (fun k => { k with backOff := why })).releaseLock c) ∧
      ((s.cav c).backOff ≠ .noBackOff → s.startBackOff c why = s) :=
  ⟨fun h => if_pos h, fun h => if_neg h⟩

/-- R97, R102, R103, R117: the loss of PROBEc and DOORc by the state of the cavity. -/
theorem sensorLost_facts (s : State) (c : Cav) :
    ((s.cav c).state = .survey → s.onProbeLost c = s.modCav c (fun k => { k with probeSeen := false }) ∧
      s.onDoorLost c = s.modCav c (fun k => { k with doorSeen := false, doorReport := none })) ∧
    ((s.cav c).state = .prepare → s.onProbeLost c = s.backToOpen c .probeLost ∧ s.onDoorLost c = s.backToOpen c .door) ∧
    ((s.cav c).state = .locking → s.onProbeLost c = s.startBackOff c .probeLost ∧ s.onDoorLost c = s.startBackOff c .door) ∧
    ((s.cav c).state ∈ [CavState.run, .cooldown] → s.onProbeLost c = s.halt c .probeLost ∧ s.onDoorLost c = s.halt c .doorSensor) ∧
    ((s.cav c).state ∈ [CavState.opened, .release, .halted] → s.onProbeLost c = s ∧ s.onDoorLost c = s) := by
  unfold State.onProbeLost State.onDoorLost
  simp only [List.mem_cons, List.not_mem_nil, or_false]
  refine ⟨fun h => ?_, fun h => ?_, fun h => ?_, fun h => ?_, fun h => ?_⟩
  case refine_4 => rcases h with h | h <;> rw [h] <;> exact ⟨rfl, rfl⟩
  case refine_5 => rcases h with h | h | h <;> rw [h] <;> exact ⟨rfl, rfl⟩
  all_goals
    rw [h]
    exact ⟨rfl, rfl⟩

theorem isLoss_of_live {entered : ChanState} (h : entered ≠ .live) : isLoss .live entered = true := by
  cases entered
  case live => exact absurd rfl h
  all_goals rfl

theorem onDoorReport_of_prepare (h : (s.cav c).state = .prepare) (door : Door) (latch : Latch) :
    s.onDoorReport c door latch = if door = .opened then s.backToOpen c .door else s := by
  unfold State.onDoorReport
  rw [h]

theorem dwellLimit_eq (s : State) (c : Cav) :
    s.dwellLimit c = match (s.cav c).bank with | some b => (s.bank b).limits.dwell | none => 120 := by
  unfold State.dwellLimit State.limitsOfCav
  cases (s.cav c).bank <;> rfl

/-- R119: RELEASE MET and LAPSED. -/
theorem onRelease_facts (s : State) (c : Cav) :
    ((s.cav c).state = .cooldown →
      (s.dwellLimit c = 0 → s.onRelease c true = s.enterRelease c) ∧
      (s.dwellLimit c ≠ 0 → s.onRelease c true = s.modCav c (fun k => { k with dwell := some (s.now + seconds (s.dwellLimit c)) })) ∧
      s.onRelease c false = s.modCav c (fun k => { k with dwell := none })) ∧
    ((s.cav c).state ≠ .cooldown → ∀ met, s.onRelease c met = s) := by
  refine ⟨fun h => ⟨fun h0 => ?_, fun h0 => ?_, ?_⟩, fun h met => if_neg h⟩
  · exact (if_pos h).trans ((if_pos rfl).trans (if_pos h0))
  · exact (if_pos h).trans ((if_pos rfl).trans (if_neg h0))
  · exact (if_pos h).trans (if_neg Bool.false_ne_true)

theorem prepared_iff (s : State) (c : Cav) : s.prepared c = true ↔
    ∀ j ∈ s.cavityLoads c, (s.record j).commanded = some 0 ∧ (s.record j).confirmed = some 0 := by
  simp [State.prepared, LoadRecord.alreadyOff]

end

/-! ## The lock (R148, R154) -/

/-- R148: what an engage request makes of the lock. -/
theorem engageLock_facts (s : State) (c : Cav) :
    let u := s.engageLock c
    u.cavs = s.cavs ∧
    ((s.lock c).state ∈ [LockState.unknown, .unlocked] →
      ((s.motor c).isSome = true → (u.lock c).state = .engaging ∧ (u.lock c).attempt = 1) ∧
      ((s.motor c).isSome = false → (u.lock c).state = .unlocked ∧ u.events = s.events ++ [.lock c .engageFailed])) ∧
    ((s.lock c).state = .engaging → u = s) ∧
    ((s.lock c).state = .locked → u.locks = s.locks ∧ u.events = s.events ++ [.lock c .locked]) ∧
    ((s.lock c).state = .disengaging → (u.lock c).state = .engaging ∧ (u.lock c).attempt = 1 ∧ (u.lock c).purpose = .noPurpose) ∧
    ((s.lock c).state = .jammed → u.locks = s.locks ∧ u.events = s.events ++ [.lock c (.jammed (s.lock c).jam)]) := by
  intro u
  have hfree (h : (s.lock c).state ∈ [LockState.unknown, .unlocked]) : u =
      if (s.motor c).isNone then (s.setLockState c .unlocked).lockReport c .engageFailed
      else (s.setAttempt c 1).startTravel c .engage := by
    simp only [List.mem_cons, List.not_mem_nil, or_false] at h
    show s.engageLock c = _
    unfold State.engageLock
    rcases h with h | h <;> rw [h]
  refine ⟨(Bolts.engageLock (Bolts.refl s) c).cavs, fun h => ⟨fun hm => ?_, fun hm => ?_⟩, fun h => ?_, fun h => ?_, fun h => ?_,
    fun h => ?_⟩
  · have hn : ¬(s.motor c).isNone = true := by
      obtain ⟨i, hi⟩ := Option.isSome_iff_exists.1 hm
      rw [hi]
      exact Bool.false_ne_true
    rw [hfree h, if_neg hn, lock_startTravel, state_travelling, attempt_travelling, lock_setAttempt]
    exact ⟨rfl, rfl⟩
  · rw [hfree h, if_pos (Option.isSome_eq_false_iff.1 hm), lock_lockReport, lock_setLockState]
    exact ⟨rfl, by simp⟩
  · show s.engageLock c = _
    unfold State.engageLock
    rw [h]
  · have hu : u = s.lockReport c .locked := by
      show s.engageLock c = _
      unfold State.engageLock
      rw [h]
    rw [hu]
    exact ⟨rfl, rfl⟩
  · have hu : u = ((s.setAttempt c 1).setPurpose c .noPurpose).startTravel c .engage := by
      show s.engageLock c = _
      unfold State.engageLock
      rw [h]
    rw [hu, lock_startTravel, state_travelling, attempt_travelling, purpose_travelling, lock_setPurpose, lock_setAttempt]
    exact ⟨rfl, rfl, rfl⟩
  · have hu : u = s.lockReport c (.jammed (s.lock c).jam) := by
      show s.engageLock c = _
      unfold State.engageLock
      rw [h]
    rw [hu]
    exact ⟨rfl, rfl⟩

/-- R154: what HOLD makes of the lock. -/
theorem holdLock_facts (s : State) (c : Cav) :
    let u := s.holdLock c
    (u.lock c).held = true ∧
    ((s.lock c).state = .disengaging → (u.lock c).state = .engaging ∧ (u.lock c).purpose = .noPurpose ∧
      (u.lock c).attempt = (s.lock c).attempt) ∧
    ((s.lock c).state ≠ .disengaging → u.lock c = { s.lock c with held := true }) := by
  intro u
  have hk : (s.modLock c (fun k => { k with held := true })).lock c = { s.lock c with held := true } := by simp
  by_cases h : (s.lock c).state = .disengaging
  · have hu : u = ((s.modLock c (fun k => { k with held := true })).setPurpose c .noPurpose).startTravel c .engage := by
      show s.holdLock c = _
      unfold State.holdLock
      dsimp only
      rw [hk, h]
    rw [hu, lock_startTravel, state_travelling, attempt_travelling, purpose_travelling, held_travelling, lock_setPurpose, hk]
    exact ⟨rfl, fun _ => ⟨rfl, rfl, rfl⟩, fun hn => absurd h hn⟩
  · have hu : u = s.modLock c (fun k => { k with held := true }) := by
      show s.holdLock c = _
      unfold State.holdLock
      dsimp only
      rw [hk]
      cases hs : (s.lock c).state
      case disengaging => exact absurd hs h
      all_goals rfl
    rw [hu, hk]
    exact ⟨rfl, fun x => absurd x h, fun _ => rfl⟩

/-! ## A cavity back in OPEN (R105) -/

theorem Stands.clearCavWatches {s t : State} {i : Fin 16} (h : Stands i s t) (x : Cav) : Stands i s (t.clearCavWatches x) :=
  (((h.clearWatch (.ceiling x)).clearWatch (.goal x)).clearWatch (.rise x)).clearWatch (.release x)

theorem Stands.unbind {s t : State} {i : Fin 16} (h : Stands i s t) (x : Cav) : Stands i s (t.unbind x) := by
  unfold State.unbind
  split
  · exact h.of_same
  · exact h

theorem Stands.stopHold {s t : State} {i : Fin 16} (h : Stands i s t) (x : Cav) : Stands i s (t.stopHold x) := h.of_same

theorem Stands.openCavity {s t : State} {i : Fin 16} (h : Stands i s t) (hb : (s.entry i).cls ≠ .blower)
    (hv : (s.entry i).cls ≠ .converter) (x : Cav) : Stands i s (t.openCavity x) := by
  unfold State.openCavity
  exact ((((((h.unbind x).modCav x _).stopHold x).clearCavWatches x).postBlower hb x .off).postConverter hv x .off).setCavState x .opened

/-! ## A halt (R122) -/

section
variable {s : State} {c : Cav} {i : Fin 16}

/-- The heaters off and the outputs at rest. -/
def State.haltedHeaters (s : State) (c : Cav) (r : Reason) : State := (s.setReason c r).haltHeaters c

theorem haltOutputs_eq (s : State) (c : Cav) (r : Reason) : s.haltOutputs c r =
    (((s.haltedHeaters c r).postConverter c .off).driveFan c (s.coolFan c)).postBlower c .high := rfl

theorem isOff_haltHeaters {p : HeatPos} (hi : s.heater c p = some i) : IsOff i (s.haltHeaters c) := by
  unfold State.haltHeaters
  split
  · exact isOff_endWindow hi
  · exact isOff_heatersOff hi

theorem Stands.haltHeaters {t : State} (h : Stands i s t) (hc : (s.entry i).cls ≠ .heater) (x : Cav) : Stands i s (t.haltHeaters x) := by
  unfold State.haltHeaters
  split
  · exact h.endWindow hc x
  · exact h.heatersOff hc x

theorem Stands.haltItems {t : State} (h : Stands i s t) (x : Cav) : Stands i s (t.haltItems x) := by
  have hleft : Stands i s ((t.emptyStack x).leaveSegment x) := by
    have hs : Stands i s (((t.emptyStack x).modCav x (fun k => { k with long := none, short := none, litWait := false })).stopHold x) :=
      h.of_same
    exact (hs.clearWatch (.goal x)).clearWatch (.rise x)
  unfold State.haltItems
  exact (hleft.clearCavWatches x).modCav x _

/-- What follows the outputs of a halt. -/
theorem Stands.halted {t : State} (h : Stands i s t) (hl : (s.entry i).cls ≠ .lock) (x : Cav) :
    Stands i s (((t.haltItems x).holdLock x).setCavState x .halted) :=
  ((h.haltItems x).holdLock hl x).setCavState x .halted

end

/-- R49, R122: every heater of a cavity that halts is off. -/
theorem isOff_halt_heater {s : State} {c : Cav} {p : HeatPos} {i : Fin 16} (hi : s.heater c p = some i) (r : Reason) :
    IsOff i (s.halt c r) := by
  have hk : Kept s (s.setReason c r) := kept_setReason (Kept.refl s) c r
  have ho : IsOff i (s.haltedHeaters c r) := isOff_haltHeaters ((heater_of_entry hk.entry c p).trans hi)
  have hcls : ((s.haltedHeaters c r).entry i).cls = .heater := by
    rw [show (s.haltedHeaters c r).entry i = s.entry i from (kept_haltHeaters hk c).entry i, (entry_of_heater hi).1]
  have hst := (((Stands.refl ho.free).postConverter (by rw [hcls]; decide) c .off).driveFan (by rw [hcls]; decide) c
    (s.coolFan c)).postBlower (by rw [hcls]; decide) c .high
  rw [halt_eq, haltOutputs_eq]
  exact ho.stands (hst.halted (by rw [hcls]; decide) c)

theorem kept_haltedHeaters (s : State) (c : Cav) (r : Reason) : Kept s (s.haltedHeaters c r) :=
  kept_haltHeaters (kept_setReason (Kept.refl s) c r) c

theorem setReason_keeps (s : State) (c : Cav) (r : Reason) :
    (s.setReason c r).air = s.air ∧ (s.setReason c r).locks = s.locks ∧ (s.setReason c r).windows = s.windows := by
  unfold State.setReason State.fillFault
  split <;> exact ⟨rfl, rfl, rfl⟩

theorem haltHeaters_keeps (s : State) (c : Cav) : (s.haltHeaters c).air = s.air ∧ (s.haltHeaters c).locks = s.locks := by
  unfold State.haltHeaters
  split
  · exact ⟨(loadAct_endWindow s c).air, (loadAct_endWindow s c).locks⟩
  · have h : LoadAct s (s.heatersOff c) := (LoadAct.refl s).heatersOff c
    exact ⟨h.air, h.locks⟩

theorem haltedHeaters_keeps (s : State) (c : Cav) (r : Reason) :
    (s.haltedHeaters c r).air = s.air ∧ (s.haltedHeaters c r).locks = s.locks :=
  ⟨(haltHeaters_keeps _ c).1.trans (setReason_keeps s c r).1, (haltHeaters_keeps _ c).2.trans (setReason_keeps s c r).2.1⟩

/-- R122, R167: the converter, where the cavity that halts was the last to demand it. -/
theorem isOff_halt_converter {s : State} {c : Cav} {i : Fin 16} (hi : s.sharedLoad .converter = some i) (hd : s.air.convDemand = true)
    (ho : (s.air.convCav.get (otherCav c)).wants = false) (r : Reason) : IsOff i (s.halt c r) := by
  let h := s.haltedHeaters c r
  have kh : Kept s h := kept_haltedHeaters s c r
  have hair : h.air = s.air := (haltedHeaters_keeps s c r).1
  have hconv : h.postConverter c .off = (h.converterPosted c .off).engineOff i := by
    rw [postConverter_of_last rfl (by rw [hair]; exact ho) (by rw [hair]; exact hd)]
    exact converterOff_of_load ((sharedLoad_of_entry kh.entry .converter).trans hi)
  have hoff : IsOff i (h.postConverter c .off) := hconv ▸ isOff_engineOff _ i
  have hcls : ((h.postConverter c .off).entry i).cls = .converter := by
    rw [(kept_postConverter kh c .off).entry, cls_of_sharedLoad hi]
  have hst := ((Stands.refl hoff.free).driveFan (by rw [hcls]; decide) c (s.coolFan c)).postBlower (by rw [hcls]; decide) c .high
  rw [halt_eq, haltOutputs_eq]
  exact hoff.stands (hst.halted (by rw [hcls]; decide) c)

/-- R93, R122: the fan of a cavity that halts. -/
theorem fan_halt {s : State} {c : Cav} {i : Fin 16} (hi : s.cavLoad c .fan = some i) (r : Reason) :
    let u := s.halt c r
    (s.coolFan c = 0 → IsOff i u) ∧
      (0 < s.coolFan c → (s.record i).grant = .held → s.freeOf i →
        IsDriven i (if (s.entry i).kind = .switched then 100 else s.coolFan c) (s.record i) u) := by
  have hcls := (entry_of_cavLoad hi).1
  let v := (s.haltedHeaters c r).postConverter c .off
  have kv : Kept s v := kept_postConverter (kept_haltedHeaters s c r) c .off
  have hv : v.cavLoad c .fan = some i := (cavLoad_of_entry kv.entry c .fan).trans hi
  have hd : v.driveFan c (s.coolFan c) = v.engineDrive i (s.coolFan c) := driveFan_of_load hv _
  have hu : s.halt c r = ((((v.engineDrive i (s.coolFan c)).postBlower c .high).haltItems c).holdLock c).setCavState c .halted := by
    rw [halt_eq, haltOutputs_eq, ← hd]
  have hent : ((v.engineDrive i (s.coolFan c)).entry i).cls = .fan := by
    rw [(kept_engineDrive kv i _).entry, hcls]
  have hrest (hf : (v.engineDrive i (s.coolFan c)).freeOf i) := ((Stands.refl hf).postBlower (by rw [hent]; decide) c .high).halted
    (by rw [hent]; decide) c
  intro u
  refine ⟨fun h0 => ?_, fun h0 hg hf => ?_⟩
  · have ho : IsOff i (v.engineDrive i (s.coolFan c)) := by
      rw [h0]
      exact isOff_engineOff v i
    show IsOff i (s.halt c r)
    rw [hu]
    exact ho.stands (hrest ho.free)
  · have hst : Stands i s v := (((Stands.refl hf).setReason c r).haltHeaters (by rw [hcls]; decide) c).postConverter
      (by rw [hcls]; decide) c .off
    have hx := isDriven_engineDrive (s := v) (i := i) (by rw [hst.entry, hcls]; rfl) h0 hst.now_free (by rw [hst.record]; exact hg)
      (heaterCheck_of_not_heater (by rw [hst.entry, hcls]; decide))
    rw [hst.record, hst.entry] at hx
    show IsDriven i _ _ (s.halt c r)
    rw [hu]
    exact hx.stands (hrest hx.free)

/-! ## The rest of a halt -/

theorem leaveSegment_keeps (s : State) (c : Cav) : (s.leaveSegment c).windows = s.windows ∧ (s.leaveSegment c).air = s.air ∧
    (s.leaveSegment c).locks = s.locks := ⟨rfl, rfl, rfl⟩

theorem clearCavWatches_keeps (s : State) (c : Cav) : (s.clearCavWatches c).windows = s.windows ∧
    (s.clearCavWatches c).air = s.air ∧ (s.clearCavWatches c).locks = s.locks := ⟨rfl, rfl, rfl⟩

theorem haltItems_keeps (s : State) (c : Cav) : (s.haltItems c).windows = s.windows ∧ (s.haltItems c).air = s.air ∧
    (s.haltItems c).locks = s.locks := by
  obtain ⟨hw, ha, hl⟩ := clearCavWatches_keeps ((s.emptyStack c).leaveSegment c) c
  obtain ⟨hw', ha', hl'⟩ := leaveSegment_keeps (s.emptyStack c) c
  exact ⟨hw.trans hw', ha.trans ha', hl.trans hl'⟩

/-- What a halt's last acts leave of the windows and the airflow. -/
theorem halt_keeps (s : State) (c : Cav) (r : Reason) : (s.halt c r).windows = (s.haltOutputs c r).windows ∧
    (s.halt c r).air = (s.haltOutputs c r).air ∧
    (s.halt c r).lock c = (((s.haltOutputs c r).haltItems c).holdLock c).lock c ∧
    (s.halt c r).watches = ((s.haltOutputs c r).haltItems c).watches := by
  obtain ⟨hw, ha, -⟩ := haltItems_keeps (s.haltOutputs c r) c
  have hb := Bolts.holdLock (Bolts.refl ((s.haltOutputs c r).haltItems c)) c
  rw [halt_eq]
  refine ⟨?_, ?_, ?_, ?_⟩
  · rw [windows_setCavState, hb.windows, hw]
  · rw [air_setCavState, hb.air, ha]
  · unfold State.lock
    rw [locks_setCavState]
  · have hset (t : State) : (t.setCavState c .halted).watches = t.watches := by
      unfold State.setCavState
      split <;> rfl
    rw [hset, hb.watches]

theorem haltOutputs_keeps (s : State) (c : Cav) (r : Reason) : (s.haltOutputs c r).windows = (s.haltedHeaters c r).windows ∧
    (s.haltOutputs c r).locks = s.locks ∧ (s.haltOutputs c r).air.cavDemand.get c = .high ∧
    (s.haltOutputs c r).air.convCav.get c = .off ∧
    (s.haltOutputs c r).air.convDemand = (s.air.convCav.get (otherCav c)).wants := by
  obtain ⟨hair, hlocks⟩ := haltedHeaters_keeps s c r
  obtain ⟨hwc, hcc, hcd, -⟩ := postConverter_facts (s.haltedHeaters c r) c .off
  have hlc := (postConverter_keeps (s.haltedHeaters c r) c .off).1
  have hf := loadAct_driveFan ((s.haltedHeaters c r).postConverter c .off) c (s.coolFan c)
  obtain ⟨hwb, hdem, hbc, hbd, -⟩ := postBlower_facts (((s.haltedHeaters c r).postConverter c .off).driveFan c (s.coolFan c)) c .high
  have hlb := (postBlower_keeps (((s.haltedHeaters c r).postConverter c .off).driveFan c (s.coolFan c)) c .high).1
  rw [haltOutputs_eq]
  refine ⟨hwb.trans (hf.windows.trans hwc), hlb.trans (hf.locks.trans (hlc.trans hlocks)), hdem, ?_, ?_⟩
  · rw [hbc, hf.air, hcc]
  · rw [hbd, hf.air, hcd, hair]
    rfl

theorem windows_halt_run {s : State} {c : Cav} (h : (s.cav c).state = .run) (r : Reason) :
    ((s.halt c r).window c).running = false ∧ ∀ p, ((s.halt c r).window c).offMark.get p = none := by
  have hs : ((s.setReason c r).cav c).state = .run := by simp [h]
  have hw : (s.halt c r).windows = ((s.setReason c r).endWindow c).windows := by
    rw [(halt_keeps s c r).1, (haltOutputs_keeps s c r).1]
    unfold State.haltedHeaters State.haltHeaters
    rw [if_pos hs]
  unfold State.window
  rw [hw]
  have he := window_endWindow (s.setReason c r) c
  unfold State.window at he
  rw [he]
  exact ⟨rfl, fun p => by cases p <;> rfl⟩

theorem watches_halt {s : State} {c : Cav} (r : Reason) {w : WatchId} (h : w ∈ [WatchId.ceiling c, .goal c, .rise c, .release c]) :
    ((s.halt c r).watch w).state = .cleared := by
  have hw : (s.halt c r).watch w = ((((s.haltOutputs c r).emptyStack c).leaveSegment c).clearCavWatches c).watch w := by
    unfold State.watch
    rw [(halt_keeps s c r).2.2.2]
    rfl
  rw [hw]
  unfold State.clearCavWatches
  simp only [List.mem_cons, List.not_mem_nil, or_false] at h
  rcases h with rfl | rfl | rfl | rfl <;> simp [Watch.clear]

theorem lock_halt (s : State) (c : Cav) (r : Reason) :
    let u := s.halt c r
    (u.lock c).held = true ∧
    ((s.lock c).state = .disengaging → (u.lock c).state = .engaging ∧ (u.lock c).purpose = .noPurpose ∧
      (u.lock c).attempt = (s.lock c).attempt) ∧
    ((s.lock c).state ≠ .disengaging → u.lock c = { s.lock c with held := true }) := by
  intro u
  have hl : ((s.haltOutputs c r).haltItems c).lock c = s.lock c := by
    unfold State.lock
    rw [(haltItems_keeps _ c).2.2, (haltOutputs_keeps s c r).2.1]
  have h := holdLock_facts ((s.haltOutputs c r).haltItems c) c
  rw [hl] at h
  have hu : u.lock c = _ := (halt_keeps s c r).2.2.1
  rw [hu]
  exact h

/-- Settles O48: each report is a branch of its handling. -/
theorem contextsActOnTheirReports : Obligations.ContextsActOnTheirReports := by
  refine ⟨fun s c met => ?watches, fun s i c hc hx => ?faults, fun s c a h => raise_of_not_run h a, fun s c a top h => ?raise,
    fun s c n h => ?resume, fun s c r => ?lock, fun s c entered h => ?lost, fun s c latch i h => ?prepare,
    fun s c => ?release, fun s i c hc hx => ?tapped, engageLock_facts, fun s c r => ?halt⟩
  case watches =>
    have hr : (s.onRise c).cav c = { s.cav c with short := none } := by simp [State.onRise]
    refine ⟨rfl, rfl, rfl, rfl, rfl, rfl, onGoal_of_run, fun h => ?_, rfl, ⟨hr, ?_⟩, rfl⟩
    · cases met
      · rfl
      · exact onGoal_of_not_run h
    · show (((s.modCav c (fun k => { k with short := none })).clearWatch (.rise c)).watch (.rise c)).state = _
      rw [watch_clearWatch, if_pos rfl]
      rfl
  case faults =>
    have he : s.handle (.loadFault i) = s.onLoadFault c := onFault_of_mem hc hx
    rw [he]
    refine ⟨onLoadFault_of_run, fun h => ?_, onLoadFault_of_idle⟩
    rw [onLoadFault_of_prepare h]
    exact opened_backToOpen s c _
  case raise =>
    intro set htop hbelow
    have hset : ((s.setPending c a true).cav c).pending = set := by rw [cav_setPending]
    have hstack : ((s.setPending c a true).cav c).stack = (s.cav c).stack := by rw [cav_setPending]
    have ht : ((s.setPending c a true).cav c).topPending = some top :=
      topPending_of (by rw [hset]; exact htop) fun d hd => by rw [hset]; exact hbelow d hd
    refine ⟨fun hs => ?_, fun hs => ?_⟩
    · obtain ⟨hsome, hnone⟩ := raise_of_taken h (takeable_of ht (by rw [hstack]; exact hs))
      rw [← setPending_eq]
      cases hx : (s.setPending c a true).takeCause c top (s.resumePoint c) with
      | mk u v =>
        cases v with
        | none => exact hnone u hx
        | some v => exact hsome u v hx
    · exact raise_of_not_taken h (takeable_eq_none ht (by rw [hstack]; exact hs))
  case resume =>
    intro g long
    have hlong : leftOf s.now (s.cav c).long = long := by cases hx : (s.cav c).long <;> simp only [long, hx] <;> rfl
    obtain ⟨hramp, hcool, hsoak⟩ := resumePoint_facts h
    rw [hlong] at hramp hcool
    refine ⟨hramp, hcool, fun hk => (hsoak hk).trans ?_⟩
    cases (s.cav c).hold <;> rfl
  case lock =>
    intro u k goes
    have hgoes {t : State} {why : Reason} (hu : u = t.backToOpen c why) : goes .opened why := by
      show (u.cav c).state = _ ∧ (u.cav c).reason = _
      rw [hu]
      exact opened_backToOpen t c why
    have hhalts {why : Reason} (hu : u = s.halt c why) : goes .halted why := by
      show (u.cav c).state = _ ∧ (u.cav c).reason = _
      rw [hu]
      exact halted_halt s c why
    refine ⟨fun hs => ?_, fun hs => ⟨fun j hr => ?_, fun hr => ?_⟩, fun hs => ⟨fun j hr => ?_, fun hr => ?_, fun hr => ?_⟩,
      fun hs => onLockReport_of_idle hs r⟩
    · have hu : u = s.lockInLocking c r := onLockReport_of_locking hs r
      obtain ⟨hjam, hlocked, hfailed, haborted, hunlocked, hother, hstay⟩ := lockInLocking_facts s c r
      rw [← hu] at hjam hlocked hfailed haborted hunlocked hother hstay
      refine ⟨fun j hr => hhalts (hjam j hr), hlocked, fun hr hb => ⟨hgoes (hfailed hr hb), ?_⟩, haborted, fun hr hb => ⟨?_, ?_, ?_⟩,
        hother, hstay⟩
      · rw [hfailed hr hb, cav_backToOpen]
      · have hg := hgoes (hunlocked hr hb)
        cases hk : k.backOff
        case noBackOff => exact absurd hk hb
        all_goals
          rw [hk] at hg
          exact hg
      · rw [hunlocked hr hb, cav_backToOpen]
      · rw [hunlocked hr hb, cav_backToOpen]
    · have hu : u = s.lockInRun c r := onLockReport_of_run hs r
      subst hr
      rw [← jamReason_eq]
      exact hhalts hu
    · exact (onLockReport_of_run hs r).trans (lockInRun_of_other hr)
    · have hu : u = s.lockInRelease c r := onLockReport_of_release hs r
      subst hr
      exact hhalts hu
    · have hu : u = (s.driveFan c 0).openCavity c := by
        subst hr
        exact onLockReport_of_release hs _
      have hcav : u.cav c = _ := hu ▸ cav_openCavity (s.driveFan c 0) c
      rw [cav_driveFan] at hcav
      refine ⟨⟨by rw [hcav], by rw [hcav]⟩, by rw [hcav], fun i hi => ?_⟩
      have ho : IsOff i (s.driveFan c 0) := by
        rw [driveFan_of_load hi]
        exact isOff_engineOff s i
      have hcls : ((s.driveFan c 0).entry i).cls = .fan := by
        rw [(kept_driveFan (Kept.refl s) c 0).entry, (entry_of_cavLoad hi).1]
      have hoff : IsOff i u := hu ▸ ho.stands ((Stands.refl ho.free).openCavity (by rw [hcls]; decide) (by rw [hcls]; decide) c)
      exact ⟨hoff.commanded, hoff.queued.imp_right And.left⟩
    · have hu : u = s.lockInRelease c r := onLockReport_of_release hs r
      rw [hu]
      simp only [List.mem_cons, List.not_mem_nil, or_false] at hr
      rcases hr with rfl | rfl | rfl <;> rfl
  case lost =>
    intro probe door goes backsOff
    have hp : probe = s.onProbeLost c := if_pos (isLoss_of_live h)
    have hd : door = s.onDoorLost c := if_pos (isLoss_of_live h)
    rw [hp, hd]
    obtain ⟨hsurvey, hprepare, hlocking, hrun, hidle⟩ := sensorLost_facts s c
    refine ⟨hsurvey, fun hs => ?_, fun hs => ?_, fun hs => ?_, hidle⟩
    · obtain ⟨h1, h2⟩ := hprepare hs
      rw [h1, h2]
      exact ⟨opened_backToOpen s c _, opened_backToOpen s c _⟩
    · obtain ⟨h1, h2⟩ := hlocking hs
      rw [h1, h2]
      exact ⟨startBackOff_facts s c _, startBackOff_facts s c _⟩
    · obtain ⟨h1, h2⟩ := hrun hs
      rw [h1, h2]
      exact ⟨halted_halt s c _, halted_halt s c _⟩
  case prepare =>
    refine ⟨?_, ?_, fun hc hx => ?_⟩
    · rw [onDoorReport_of_prepare h, if_pos rfl]
      exact opened_backToOpen s c _
    · rw [onDoorReport_of_prepare h, if_neg (by decide)]
    · have he : s.handle (.offFailed i) = s.backToOpen c .startLoad :=
        (onCavityLoad_of_mem hc hx State.onOffFailed).trans (if_pos h)
      rw [he]
      exact opened_backToOpen s c _
  case release =>
    intro limit
    have hl : s.dwellLimit c = limit := dwellLimit_eq s c
    rw [← hl]
    exact onRelease_facts s c
  case tapped =>
    intro allOff
    have he : s.handle (.stateTapped i) = s.prepareTest c := onCavityLoad_of_mem hc hx State.prepareTest
    rw [he]
    refine ⟨fun hs ha => if_pos ⟨hs, (prepared_iff s c).2 ha⟩, fun hn => if_neg fun ⟨hs, hp⟩ => ?_⟩
    exact hn.elim (fun x => x hs) fun x => x ((prepared_iff s c).1 hp)
  case halt =>
    intro u
    have hcav : u.cav c = _ := cav_halt s c r
    obtain ⟨-, hdem, hconv, hcd⟩ := haltOutputs_keeps s c r |>.2
    have hair : u.air = (s.haltOutputs c r).air := (halt_keeps s c r).2.1
    refine ⟨⟨?_, ?_, ?_, ?_, ?_, ?_, ?_, ?_, ?_, ?_, ?_, ?_, ?_, ?_, ?_, ?_, ?_⟩, fun w hw => watches_halt r hw, fun p i hi => ?_,
      fun hs => windows_halt_run hs r, ⟨?_, ?_, ?_⟩, fun hd ho i hi => ?_, ?_, lock_halt s c r⟩
    case refine_18 =>
      have ho := isOff_halt_heater hi r
      exact ⟨ho.commanded, ho.queued.imp_right And.left, ho.free⟩
    case refine_19 => rw [hair, hdem]
    case refine_20 => rw [hair, hconv]
    case refine_21 => rw [hair, hcd]
    case refine_22 =>
      have hx := isOff_halt_converter hi hd ho r
      exact ⟨hx.commanded, hx.queued.imp_right And.left, hx.free⟩
    case refine_23 =>
      intro fan i hi
      have hfan : s.coolFan c = fan := coolFan_eq s c
      obtain ⟨hzero, hpos⟩ := fan_halt hi r
      rw [hfan] at hzero hpos
      refine ⟨fun h0 => ?_, fun h0 hg hf => ?_⟩
      · have ho := hzero h0
        exact ⟨ho.commanded, ho.queued.imp_right And.left⟩
      · have hx := hpos h0 hg hf
        exact ⟨hx.owner, hx.driven⟩
    all_goals
      rw [hcav]
    rfl

end Sys2Proof.Machine
end

