-- ==== Sys2Proof/Proofs/Codec.lean ====
section
/-! PROOFS. The codes of R186 and the records of R188, read as they are written: for O31 to O34. -/

namespace Sys2Proof.Machine

-- One proof at a time: proofs elaborated side by side ask for more threads than the check's memory limit leaves room for.
set_option Elab.async false

/-! ## Bytes and words -/

theorem byteOf_toNat (b : Byte) : byteOf b.toNat = b := by simp [byteOf]

theorem toNat_byteOf {n : Nat} (h : n ≤ 255) : (byteOf n).toNat = n := by
  unfold byteOf
  rw [BitVec.toNat_ofNat]
  omega

theorem highByte_append (hi lo : Byte) : highByte (hi ++ lo : BitVec 16) = hi := by
  apply BitVec.eq_of_toNat_eq
  have hl := lo.isLt
  simp only [highByte, BitVec.extractLsb'_toNat, BitVec.toNat_append]
  rw [← Nat.shiftLeft_add_eq_or_of_lt hl, Nat.shiftLeft_eq, Nat.shiftRight_eq_div_pow]
  have := hi.isLt
  omega

theorem lowByte_append (hi lo : Byte) : lowByte (hi ++ lo : BitVec 16) = lo := by
  apply BitVec.eq_of_toNat_eq
  have hl := lo.isLt
  simp only [lowByte, BitVec.extractLsb'_toNat, BitVec.toNat_append]
  rw [← Nat.shiftLeft_add_eq_or_of_lt hl, Nat.shiftLeft_eq, Nat.shiftRight_eq_div_pow]
  have := hi.isLt
  omega

theorem append_bytes (w : Word16) : (highByte w ++ lowByte w : BitVec 16) = w := by
  apply BitVec.eq_of_toNat_eq
  have hw := w.isLt
  have hl := (lowByte w).isLt
  rw [BitVec.toNat_append, ← Nat.shiftLeft_add_eq_or_of_lt hl, Nat.shiftLeft_eq]
  simp only [highByte, lowByte, BitVec.extractLsb'_toNat, Nat.shiftRight_eq_div_pow]
  omega

theorem append_ofNat (hi lo : Byte) : (hi ++ lo : BitVec 16) = BitVec.ofNat 16 (natOf hi lo) := by
  apply BitVec.eq_of_toNat_eq
  have hl := lo.isLt
  have hh := hi.isLt
  rw [BitVec.toNat_append, ← Nat.shiftLeft_add_eq_or_of_lt hl, Nat.shiftLeft_eq, BitVec.toNat_ofNat]
  unfold natOf
  omega

theorem natOf_le (hi lo : Byte) : natOf hi lo ≤ 65535 := by
  have hl := lo.isLt
  have hh := hi.isLt
  unfold natOf
  omega

/-- R186: two bytes read as an unsigned value are the bytes it is written with. -/
theorem natOf_eq_iff {hi lo : Byte} {n : Nat} (h : n ≤ 65535) : natOf hi lo = n ↔ [hi, lo] = natBytes n := by
  unfold natBytes wordBytes
  constructor
  · rintro rfl
    rw [← append_ofNat, highByte_append, lowByte_append]
  · intro e
    obtain ⟨rfl, rfl⟩ : hi = _ ∧ lo = _ := by simpa using e
    have := congrArg BitVec.toNat ((append_ofNat _ _).symm.trans (append_bytes (BitVec.ofNat 16 n)))
    rw [BitVec.toNat_ofNat, BitVec.toNat_ofNat] at this
    have := natOf_le (highByte (BitVec.ofNat 16 n)) (lowByte (BitVec.ofNat 16 n))
    omega

theorem natBytes_natOf (hi lo : Byte) : natBytes (natOf hi lo) = [hi, lo] := ((natOf_eq_iff (natOf_le hi lo)).1 rfl).symm

/-- R186: two bytes read as a temperature are the bytes it is written with. -/
theorem intBytes_tempOf (hi lo : Byte) : intBytes (tempOf hi lo) = [hi, lo] := by
  unfold intBytes tempOf wordBytes
  rw [BitVec.ofInt_toInt, highByte_append, lowByte_append]

theorem tempOf_eq_iff {hi lo : Byte} {t : Int} (h0 : -32768 ≤ t) (h1 : t ≤ 32767) :
    tempOf hi lo = t ↔ [hi, lo] = intBytes t := by
  constructor
  · rintro rfl
    exact (intBytes_tempOf hi lo).symm
  · intro e
    obtain ⟨rfl, rfl⟩ : hi = _ ∧ lo = _ := by simpa [intBytes, wordBytes] using e
    unfold tempOf
    rw [append_bytes, BitVec.toInt_ofInt, Int.bmod_eq_of_le] <;> omega

/-! ## Codes (R186) -/

/-- A list of a type's values in the order of their codes reads a byte as the value it is the code of. -/
theorem code_iff {α : Type} {l : List α} {code : α → Byte} (mem : ∀ x, l[(code x).toNat]? = some x)
    (codes : l.map code = (List.range l.length).map (BitVec.ofNat 8)) {b : Byte} {x : α} :
    l[b.toNat]? = some x ↔ b = code x := by
  constructor
  · intro h
    have := congrArg (fun k => k[b.toNat]?) codes
    simp only [List.getElem?_map, h, Option.map_some] at this
    obtain ⟨hb, -⟩ := List.getElem?_eq_some_iff.1 h
    rw [List.getElem?_range hb] at this
    simpa using this.symm
  · rintro rfl
    exact mem x

theorem loadClassOf_iff {b : Byte} {x : LoadClass} : loadClassOf b = some x ↔ b = loadClassCode x :=
  code_iff (by intro x; cases x <;> rfl) rfl

theorem loadCavOf_iff {b : Byte} {x : LoadCav} : loadCavOf b = some x ↔ b = loadCavCode x :=
  code_iff (by rintro ((_ | _) | _) <;> rfl) rfl

theorem loadPosOf_iff {b : Byte} {x : LoadPos} : loadPosOf b = some x ↔ b = loadPosCode x :=
  code_iff (by rintro (_ | (_ | _ | _)) <;> rfl) rfl

theorem levelKindOf_iff {b : Byte} {x : LevelKind} : levelKindOf b = some x ↔ b = levelKindCode x :=
  code_iff (by intro x; cases x <;> rfl) rfl

theorem useOf_iff {b : Byte} {x : Use} : useOf b = some x ↔ b = useCode x :=
  code_iff (by rintro (_ | (_ | _) | (_ | _) | _ | _ | _ | _) <;> rfl) rfl

theorem flagOf_iff {b : Byte} {x : Bool} : flagOf b = some x ↔ b = flagByte x :=
  code_iff (by intro x; cases x <;> rfl) rfl

theorem actionOf_iff {b : Byte} {x : AdmissionAction} : actionOf b = some x ↔ b = actionCode x :=
  code_iff (by intro x; cases x <;> rfl) rfl

theorem segKindOf_iff {b : Byte} {x : SegKind} : segKindOf b = some x ↔ b = segKindCode x :=
  code_iff (by intro x; cases x <;> rfl) rfl

theorem checkCondOf_iff {b : Byte} {x : CheckCond} : checkCondOf b = some x ↔ b = checkCondCode x :=
  code_iff (by intro x; cases x <;> rfl) rfl

theorem blowLevelOf_iff {b : Byte} {x : BlowLevel} : blowLevelOf b = some x ↔ b = blowLevelCode x :=
  code_iff (by intro x; cases x <;> rfl) rfl

theorem convFieldOf_iff {b : Byte} {x : ConvField} : convFieldOf b = some x ↔ b = convFieldCode x :=
  code_iff (by intro x; cases x <;> rfl) rfl

theorem confirmModeOf_iff {b : Byte} {x : ConfirmMode} : confirmModeOf b = some x ↔ b = confirmModeCode x :=
  code_iff (by intro x; cases x <;> rfl) rfl

/-! ## Records (R188) -/

theorem isNodeAddress_iff (b : Byte) : isNodeAddress b = true ↔ 1 ≤ b.toNat ∧ b.toNat ≤ 119 := by
  simp [isNodeAddress]

theorem loadEntryOf_iff (r : List Byte) (e : LoadEntry) : loadEntryOf r = some e ↔
    r = loadEntryBytes e ∧ 1 ≤ e.node.toNat ∧ e.node.toNat ≤ 119 ∧ e.rated ≤ 160 ∧ e.minOff ≤ 255 := by
  unfold loadEntryBytes
  constructor
  · intro h
    unfold loadEntryOf at h
    split at h
    · simp only [Option.bind_eq_bind, Option.bind_eq_some_iff, inRange_eq_some, isNodeAddress_iff, loadClassOf_iff,
        loadCavOf_iff, loadPosOf_iff, levelKindOf_iff, decide_eq_true_eq, Option.pure_def, Option.some.injEq] at h
      obtain ⟨-, ⟨hn, hn'⟩, c, rfl, v, rfl, p, rfl, -, hr, k, rfl, rfl⟩ := h
      refine ⟨?_, hn, hn', hr, Nat.lt_succ_iff.1 (BitVec.isLt _)⟩
      simp only [byteOf_toNat]
    · cases h
  · rintro ⟨rfl, hn, hn', hr, hm⟩
    simp only [loadEntryOf, Option.bind_eq_bind, Option.bind_eq_some_iff, inRange_eq_some, isNodeAddress_iff, loadClassOf_iff,
      loadCavOf_iff, loadPosOf_iff, levelKindOf_iff, decide_eq_true_eq, Option.pure_def, Option.some.injEq]
    refine ⟨(), ⟨hn, hn'⟩, e.cls, rfl, e.cavity, rfl, e.position, rfl, (), ?_, e.kind, rfl, ?_⟩
    · rwa [toNat_byteOf (by omega)]
    · rw [toNat_byteOf (by omega), toNat_byteOf hm]

theorem bindingOf_iff (r : List Byte) (k : Binding) : bindingOf r = some k ↔
    r = bindingBytes k ∧ 1 ≤ k.node.toNat ∧ k.node.toNat ≤ 119 ∧ k.channel ≤ 15 := by
  unfold bindingBytes
  constructor
  · intro h
    unfold bindingOf at h
    split at h
    · simp only [Option.bind_eq_bind, Option.bind_eq_some_iff, inRange_eq_some, isNodeAddress_iff, useOf_iff, flagOf_iff,
        decide_eq_true_eq, Option.pure_def, Option.some.injEq] at h
      obtain ⟨u, rfl, -, ⟨hn, hn'⟩, -, hc, p, rfl, rfl⟩ := h
      refine ⟨?_, hn, hn', hc⟩
      simp only [byteOf_toNat]
    · cases h
  · rintro ⟨rfl, hn, hn', hc⟩
    simp only [bindingOf, Option.bind_eq_bind, Option.bind_eq_some_iff, inRange_eq_some, isNodeAddress_iff, useOf_iff,
      flagOf_iff, decide_eq_true_eq, Option.pure_def, Option.some.injEq]
    refine ⟨k.use, rfl, (), ⟨hn, hn'⟩, (), ?_, k.poll, rfl, ?_⟩
    · rwa [toNat_byteOf (by omega)]
    · rw [toNat_byteOf (by omega)]

theorem admissionOf_iff (r : List Byte) (a : AdmissionRecord) :
    admissionOf r = some a ↔ r = admissionBytes a ∧ a.limit ≤ 100 := by
  unfold admissionBytes
  constructor
  · intro h
    unfold admissionOf at h
    split at h
    · simp only [Option.bind_eq_bind, Option.bind_eq_some_iff, inRange_eq_some, actionOf_iff, decide_eq_true_eq,
        Option.pure_def, Option.some.injEq] at h
      obtain ⟨x, rfl, -, hl, rfl⟩ := h
      refine ⟨?_, hl⟩
      simp only [byteOf_toNat]
    · cases h
  · rintro ⟨rfl, hl⟩
    simp only [admissionOf, Option.bind_eq_bind, Option.bind_eq_some_iff, inRange_eq_some, actionOf_iff, decide_eq_true_eq,
      Option.pure_def, Option.some.injEq]
    refine ⟨a.action, rfl, (), ?_, ?_⟩ <;> rw [toNat_byteOf (by omega)]
    exact hl

/-- A two-byte value read back from the bytes it is written with. -/
theorem natOf_natBytes {n : Nat} (h : n ≤ 65535) :
    natOf (highByte (BitVec.ofNat 16 n)) (lowByte (BitVec.ofNat 16 n)) = n := (natOf_eq_iff h).2 rfl

theorem tempOf_intBytes {t : Int} (h0 : -32768 ≤ t) (h1 : t ≤ 32767) :
    tempOf (highByte (BitVec.ofInt 16 t)) (lowByte (BitVec.ofInt 16 t)) = t := (tempOf_eq_iff h0 h1).2 rfl

theorem limitsInRange_iff (l : Limits) : limitsInRange l = true ↔
    l.budget ≤ 400 ∧ (10 ≤ l.window ∧ l.window ≤ 120) ∧ (100 ≤ l.hold ∧ l.hold ≤ 10000) ∧ (10 ≤ l.reply ∧ l.reply ≤ 200) ∧
    (250 ≤ l.silence ∧ l.silence ≤ 60000) ∧ (250 ≤ l.poll ∧ l.poll ≤ 5000) ∧ (2 ≤ l.stale ∧ l.stale ≤ 30) ∧
    (100 ≤ l.dip ∧ l.dip ≤ 250) ∧ (400 ≤ l.duct ∧ l.duct ≤ 1100) ∧ (200 ≤ l.light ∧ l.light ≤ 800) ∧ (80 ≤ l.bay ∧ l.bay ≤ 200) ∧
    (l.tacho.low ≤ 9000 ∧ l.tacho.mid ≤ 9000 ∧ l.tacho.high ≤ 9000) ∧ (1 ≤ l.engageLeave ∧ l.engageLeave ≤ 10) ∧
    (2 ≤ l.engageFinish ∧ l.engageFinish ≤ 30) ∧ (1 ≤ l.releaseLeave ∧ l.releaseLeave ≤ 10) ∧
    (2 ≤ l.releaseFinish ∧ l.releaseFinish ≤ 30) ∧ (1 ≤ l.timedTravel ∧ l.timedTravel ≤ 30) ∧ l.runOn ≤ 1800 ∧
    (1 ≤ l.map.low ∧ l.map.low ≤ 100) ∧ (1 ≤ l.map.mid ∧ l.map.mid ≤ 100) ∧ (1 ≤ l.map.high ∧ l.map.high ≤ 100) ∧
    2 ≤ l.stallWindow ∧ l.stallWindow ≤ 60 := by
  simp only [limitsInRange, Bool.and_eq_true, decide_eq_true_eq, and_assoc]

theorem limitsOf_limitsBytes {l : Limits} (h : limitsInRange l = true) : limitsOf (limitsBytes l) = some l := by
  have hr := h
  obtain ⟨hbu, ⟨-, hwi⟩, ⟨-, hho⟩, ⟨-, hre⟩, ⟨-, hsi⟩, ⟨-, hpo⟩, ⟨-, hst⟩, ⟨-, hdi⟩, ⟨hd, hdu⟩, ⟨hl, hli⟩, ⟨hb, hba⟩,
    ⟨htl, htm, hth⟩, ⟨-, hel⟩, ⟨-, hef⟩, ⟨-, hrl⟩, ⟨-, hrf⟩, ⟨-, htt⟩, hro, ⟨-, hml⟩, ⟨-, hmm⟩, ⟨-, hmh⟩, -, hsw⟩ :=
    (limitsInRange_iff l).1 h
  simp only [limitsBytes, natBytes, intBytes, wordBytes, List.cons_append, List.nil_append, limitsOf,
    Option.bind_eq_bind, Option.bind_eq_some_iff, inRange_eq_some, confirmModeOf_iff, Option.pure_def, Option.some.injEq]
  simp (disch := omega) only [natOf_natBytes, tempOf_intBytes, toNat_byteOf]
  exact ⟨l.mode.zero, rfl, l.mode.one, rfl, (), h, rfl⟩

/-- The bytes a LIMITS record reads from are those it is written with. -/
theorem limitsBytes_of_limitsOf {r : List Byte} {l : Limits} (h : limitsOf r = some l) : r = limitsBytes l := by
  unfold limitsOf at h
  split at h
  · simp only [Option.bind_eq_bind, Option.bind_eq_some_iff, inRange_eq_some, confirmModeOf_iff, Option.pure_def,
      Option.some.injEq] at h
    obtain ⟨m, rfl, n, rfl, -, -, rfl⟩ := h
    simp only [limitsBytes, natBytes_natOf, intBytes_tempOf, byteOf_toNat, List.cons_append, List.nil_append]
  · cases h

theorem limitsOf_iff (r : List Byte) (l : Limits) : limitsOf r = some l ↔ r = limitsBytes l ∧ limitsInRange l = true :=
  ⟨fun h => ⟨limitsBytes_of_limitsOf h, limitsInRange_of_limitsOf h⟩, fun ⟨hr, hl⟩ => hr ▸ limitsOf_limitsBytes hl⟩

/-! ### Banks -/

theorem dutyBandOf_iff (r : List Byte) (d : DutyBand) : dutyBandOf r = some d ↔
    (∃ x y z, r = [0x80, 0, x, y, z] ∧ d = { threshold := none, top := 0, bottom := 0, rear := 0 }) ∨
    ∃ t : Int, d.threshold = some t ∧ r = dutyBandBytes d ∧ 0 ≤ t ∧ t ≤ 600 ∧ d.top ≤ 100 ∧ d.bottom ≤ 100 ∧ d.rear ≤ 100 := by
  have unset (hi lo : Byte) : natOf hi lo = 0x8000 ↔ hi = 0x80 ∧ lo = 0 := by
    rw [natOf_eq_iff (by omega), show natBytes 0x8000 = [0x80, 0] from rfl]
    simp
  constructor
  · intro h
    unfold dutyBandOf at h
    split at h
    · split at h
      next hu =>
        obtain ⟨rfl, rfl⟩ := (unset _ _).1 hu
        exact .inl ⟨_, _, _, rfl, (Option.some.inj h).symm⟩
      next =>
        simp only [Option.bind_eq_bind, Option.bind_eq_some_iff, inRange_eq_some, decide_eq_true_eq, Option.pure_def,
          Option.some.injEq] at h
        obtain ⟨-, ⟨h0, h1⟩, -, ⟨ht, hb, hr⟩, rfl⟩ := h
        refine .inr ⟨_, rfl, ?_, h0, h1, ht, hb, hr⟩
        simp only [dutyBandBytes, tempBytes, intBytes_tempOf, byteOf_toNat, List.cons_append, List.nil_append]
    · cases h
  · rintro (⟨x, y, z, rfl, rfl⟩ | ⟨t, ht, rfl, h0, h1, hb, hc, hd⟩)
    · have hu := (unset 0x80 0).2 ⟨rfl, rfl⟩
      unfold dutyBandOf
      simp only [hu, if_true, DutyBand.zero]
    · obtain ⟨_, top, bottom, rear⟩ := d
      obtain rfl : _ = some t := ht
      have set : natOf (highByte (BitVec.ofInt 16 t)) (lowByte (BitVec.ofInt 16 t)) ≠ 0x8000 := by
        intro hu
        obtain ⟨e, g⟩ := (unset _ _).1 hu
        have := tempOf_intBytes (t := t) (by omega) (by omega)
        rw [e, g] at this
        have k : tempOf 0x80 0 = -32768 := by decide
        omega
      dsimp only at hb hc hd
      simp only [dutyBandBytes, tempBytes, intBytes, wordBytes, List.cons_append, List.nil_append, dutyBandOf, if_neg set,
        Option.bind_eq_bind, Option.bind_eq_some_iff, inRange_eq_some, decide_eq_true_eq, Option.pure_def,
        Option.some.injEq]
      simp (disch := omega) only [tempOf_intBytes, toNat_byteOf]
      exact ⟨(), ⟨h0, h1⟩, (), ⟨hb, hc, hd⟩, trivial⟩

theorem bankLimitsInRange_iff (l : BankLimits) : bankLimitsInRange l = true ↔
    (40 ≤ l.startLimit ∧ l.startLimit ≤ 300) ∧ (100 ≤ l.release ∧ l.release ≤ 600) ∧ l.dwell ≤ 600 ∧
    (600 ≤ l.blind ∧ l.blind ≤ 14400) ∧ (600 ≤ l.maxCycle ∧ l.maxCycle ≤ 21600) ∧ (10 ≤ l.overshoot ∧ l.overshoot ≤ 120) ∧
    (2 ≤ l.riseMin ∧ l.riseMin ≤ 100) ∧ (600 ≤ l.ceiling ∧ l.ceiling ≤ 1100) ∧
    (∀ a : Fin 6, 1 ≤ l.causeLimit.get a ∧ l.causeLimit.get a ≤ 15) ∧ l.coolFan ≤ 100 := by
  have all : l.causeLimit.toList.all (fun n => decide (1 ≤ n ∧ n ≤ 15)) = true ↔
      ∀ a : Fin 6, 1 ≤ l.causeLimit.get a ∧ l.causeLimit.get a ≤ 15 := by
    simp only [List.all_eq_true, decide_eq_true_eq, Vector.mem_toList_iff, Vector.mem_iff_getElem, Vector.get_eq_getElem]
    exact ⟨fun h a => h _ ⟨a.val, a.isLt, rfl⟩, fun h _ ⟨i, hi, e⟩ => e ▸ h ⟨i, hi⟩⟩
  simp only [bankLimitsInRange, Bool.and_eq_true, all, decide_eq_true_eq, and_assoc]

theorem bankLimitsOf_iff (r : List Byte) (l : BankLimits) :
    bankLimitsOf r = some l ↔ r = bankLimitsBytes l ∧ bankLimitsInRange l = true := by
  constructor
  · intro h
    unfold bankLimitsOf at h
    split at h
    · simp only [Option.bind_eq_bind, Option.bind_eq_some_iff, inRange_eq_some, Option.pure_def, Option.some.injEq] at h
      obtain ⟨-, hr, rfl⟩ := h
      refine ⟨?_, hr⟩
      simp only [bankLimitsBytes, natBytes_natOf, intBytes_tempOf, byteOf_toNat, List.cons_append, List.nil_append]
      simp [byteOf_toNat]
    · cases h
  · rintro ⟨rfl, h⟩
    obtain ⟨⟨ha, ha'⟩, ⟨hb, hb'⟩, hd, ⟨-, hl⟩, ⟨-, hm⟩, ⟨-, ho⟩, ⟨-, hr⟩, ⟨hc, hc'⟩, hk, hf⟩ := (bankLimitsInRange_iff l).1 h
    obtain ⟨k, hv⟩ : ∃ k : Fin 6 → Nat, l.causeLimit = #v[k 0, k 1, k 2, k 3, k 4, k 5] :=
      ⟨l.causeLimit.get, by ext i hi; interval_cases i <;> rfl⟩
    have hk' (a : Fin 6) : k a ≤ 255 := by
      have := (hk a).2
      rw [hv] at this
      fin_cases a <;> exact le_trans this (by decide)
    have hlist : l.causeLimit.toList.map byteOf =
        [byteOf (k 0), byteOf (k 1), byteOf (k 2), byteOf (k 3), byteOf (k 4), byteOf (k 5)] := by rw [hv]; rfl
    have h0 := hk' 0
    have h1 := hk' 1
    have h2 := hk' 2
    have h3 := hk' 3
    have h4 := hk' 4
    have h5 := hk' 5
    simp only [bankLimitsBytes, hlist, natBytes, intBytes, wordBytes, List.cons_append, List.nil_append, bankLimitsOf,
      Option.bind_eq_bind, Option.bind_eq_some_iff, inRange_eq_some, Option.pure_def, Option.some.injEq]
    simp (disch := omega) only [natOf_natBytes, tempOf_intBytes, toNat_byteOf]
    rw [← hv]
    exact ⟨(), h, rfl⟩

/-- R83: a timed segment reads exactly where the fields every timed segment uses fit. -/
theorem timedSegmentOf_iff (kind : SegKind) (target : Int) (band duration short : Nat) (next blower fan converter : Byte)
    (g : Segment) : timedSegmentOf kind target band duration short next blower fan converter = some g ↔
      (0 ≤ target ∧ target ≤ 1100) ∧ fan.toNat ≤ 100 ∧ ∃ (b : BlowLevel) (v : ConvField),
        blower = blowLevelCode b ∧ converter = convFieldCode v ∧
        g = { Segment.zero with
          kind := kind, target := target, band := band, duration := duration, short := short, next := next, blower := b,
          fan := fan.toNat, converter := v } := by
  simp only [timedSegmentOf, targetInRange, Option.bind_eq_bind, Option.bind_eq_some_iff, inRange_eq_some, decide_eq_true_eq,
    blowLevelOf_iff, convFieldOf_iff, Option.pure_def, Option.some.injEq]
  constructor
  · rintro ⟨-, ht, b, rfl, -, hf, v, rfl, rfl⟩
    exact ⟨ht, hf, b, v, rfl, rfl, rfl⟩
  · rintro ⟨ht, hf, b, v, rfl, rfl, rfl⟩
    exact ⟨(), ht, b, rfl, (), hf, v, rfl, rfl⟩

/-- R83: a CHECK reads exactly where its condition does and the field that condition uses fits. -/
theorem checkSegmentOf_iff (target : Int) (duration : Nat) (cond next alternate : Byte) (g : Segment) :
    checkSegmentOf target duration cond next alternate = some g ↔ ∃ k : CheckCond, cond = checkCondCode k ∧
      let check := { Segment.zero with kind := .check, cond := k, next := next, alternate := alternate }
      ((k = .tempAtOrBelow ∨ k = .tempAtOrAbove) → (0 ≤ target ∧ target ≤ 1100) ∧ g = { check with target := target }) ∧
      (k = .cycleTimeAtLeast → g = { check with duration := duration }) ∧
      ((k = .otherCavityActive ∨ k = .mainsNormal ∨ k = .converterLit) → g = check) := by
  simp only [checkSegmentOf, Option.bind_eq_bind, Option.bind_eq_some_iff, checkCondOf_iff]
  refine exists_congr fun k => and_congr_right fun _ => ?_
  cases k <;> simp [targetInRange, inRange, eq_comm (a := g), Option.bind_eq_some_iff]

/-- R83, R90: a record of a bank's segments reads as the kind it names, with the fields that kind uses in their ranges. -/
theorem segmentOf_iff (r : List Byte) (g : Segment) : segmentOf r = some g ↔
    ∃ kind t1 t0 band d1 d0 s1 s0 cond next alternate marker blower fan converter : Byte,
      r = [kind, t1, t0, band, d1, d0, s1, s0, cond, next, alternate, marker, blower, fan, converter] ∧
      ∃ k : SegKind, kind = segKindCode k ∧
        (k = .ramp → (1 ≤ band.toNat ∧ band.toNat ≤ 40) ∧ timedSegmentOf .ramp (tempOf t1 t0) band.toNat (natOf d1 d0)
          (natOf s1 s0) next blower fan converter = some g) ∧
        (k = .soak → (1 ≤ band.toNat ∧ band.toNat ≤ 40) ∧ timedSegmentOf .soak (tempOf t1 t0) band.toNat (natOf d1 d0)
          0 next blower fan converter = some g) ∧
        (k = .cool → timedSegmentOf .cool (tempOf t1 t0) 0 (natOf d1 d0) 0 next blower fan converter = some g) ∧
        (k = .check → checkSegmentOf (tempOf t1 t0) (natOf d1 d0) cond next alternate = some g) ∧
        (k = .mark → marker.toNat ≤ 15 ∧ g = { Segment.zero with kind := .mark, marker := marker.toNat, next := next }) ∧
        (k = .ret → g = { Segment.zero with kind := .ret }) ∧
        (k = .fin → g = Segment.zero) := by
  constructor
  · intro h
    unfold segmentOf at h
    split at h
    · rw [Option.bind_eq_bind, Option.bind_eq_some_iff] at h
      obtain ⟨k, hk, h⟩ := h
      refine ⟨_, _, _, _, _, _, _, _, _, _, _, _, _, _, _, rfl, k, segKindOf_iff.1 hk, ?_⟩
      cases k <;> simpa [Option.bind_eq_some_iff, eq_comm (b := g)] using h
    · cases h
  · rintro ⟨kind, t1, t0, band, d1, d0, s1, s0, cond, next, alternate, marker, blower, fan, converter, rfl, k, hk, h⟩
    simp only [segmentOf, Option.bind_eq_bind, Option.bind_eq_some_iff]
    refine ⟨k, segKindOf_iff.2 hk, ?_⟩
    cases k <;> simpa [Option.bind_eq_some_iff, eq_comm (b := g)] using h

/-- A segment's record, written from two-byte fields that were read from bytes. -/
theorem segmentBytes_of_read {g : Segment} {t1 t0 d1 d0 s1 s0 : Byte} (ht : g.target = tempOf t1 t0)
    (hd : g.duration = natOf d1 d0) (hs : g.short = natOf s1 s0) : segmentBytes g =
      [segKindCode g.kind, t1, t0, byteOf g.band, d1, d0, s1, s0, checkCondCode g.cond, g.next, g.alternate, byteOf g.marker,
        blowLevelCode g.blower, byteOf g.fan, convFieldCode g.converter] := by
  unfold segmentBytes
  rw [ht, hd, hs, intBytes_tempOf, natBytes_natOf, natBytes_natOf]
  rfl

theorem segmentOf_check {g : Segment} {t1 t0 d1 d0 : Byte} (ht : g.target = tempOf t1 t0) (hd : g.duration = natOf d1 d0)
    (hs : g.short = natOf 0 0) (hk : g.kind = .check)
    (hr : checkSegmentOf (tempOf t1 t0) (natOf d1 d0) (checkCondCode g.cond) g.next g.alternate = some g) :
    segmentOf (segmentBytes g) = some g :=
  (segmentOf_iff ..).2 ⟨_, _, _, _, _, _, _, _, _, _, _, _, _, _, _, segmentBytes_of_read ht hd hs, .check,
    congrArg segKindCode hk, nofun, nofun, nofun, fun _ => hr, nofun, nofun, nofun⟩

/-- R90: the stored form of a segment reads as itself. -/
theorem segmentOf_segmentBytes {r : List Byte} {g : Segment} (h : segmentOf r = some g) :
    segmentOf (segmentBytes g) = some g := by
  obtain ⟨kind, t1, t0, band, d1, d0, s1, s0, cond, next, alternate, marker, blower, fan, converter, -, k, rfl, hramp, hsoak,
    hcool, hcheck, hmark, hret, hfin⟩ := (segmentOf_iff r g).1 h
  cases k with
  | ramp =>
    obtain ⟨hb, hg⟩ := hramp rfl
    obtain ⟨ht, hf, b, v, rfl, rfl, rfl⟩ := (timedSegmentOf_iff ..).1 hg
    refine (segmentOf_iff ..).2 ⟨_, _, _, _, _, _, _, _, _, _, _, _, _, _, _, segmentBytes_of_read rfl rfl rfl, .ramp, rfl, fun _ => ?_, nofun, nofun,
      nofun, nofun, nofun, nofun⟩
    dsimp only
    rw [byteOf_toNat, byteOf_toNat]
    exact ⟨hb, hg⟩
  | soak =>
    obtain ⟨hb, hg⟩ := hsoak rfl
    obtain ⟨ht, hf, b, v, rfl, rfl, rfl⟩ := (timedSegmentOf_iff ..).1 hg
    refine (segmentOf_iff ..).2 ⟨_, _, _, _, _, _, _, _, _, _, _, _, _, _, _, segmentBytes_of_read (s1 := 0) (s0 := 0) rfl rfl rfl, .soak, rfl, nofun,
      fun _ => ?_, nofun, nofun, nofun, nofun, nofun⟩
    dsimp only
    rw [byteOf_toNat, byteOf_toNat]
    exact ⟨hb, hg⟩
  | cool =>
    have hg := hcool rfl
    obtain ⟨ht, hf, b, v, rfl, rfl, rfl⟩ := (timedSegmentOf_iff ..).1 hg
    refine (segmentOf_iff ..).2 ⟨_, _, _, _, _, _, _, _, _, _, _, _, _, _, _, segmentBytes_of_read (s1 := 0) (s0 := 0) rfl rfl rfl, .cool, rfl, nofun,
      nofun, fun _ => ?_, nofun, nofun, nofun, nofun⟩
    dsimp only
    rw [byteOf_toNat]
    exact hg
  | check =>
    obtain ⟨c, rfl, htemp, htime, hbare⟩ := (checkSegmentOf_iff ..).1 (hcheck rfl)
    match c with
    | .tempAtOrBelow =>
      obtain ⟨ht, rfl⟩ := htemp (.inl rfl)
      exact segmentOf_check (d1 := 0) (d0 := 0) rfl rfl rfl rfl
        ((checkSegmentOf_iff ..).2 ⟨.tempAtOrBelow, rfl, fun _ => ⟨ht, rfl⟩, nofun, nofun⟩)
    | .tempAtOrAbove =>
      obtain ⟨ht, rfl⟩ := htemp (.inr rfl)
      exact segmentOf_check (d1 := 0) (d0 := 0) rfl rfl rfl rfl
        ((checkSegmentOf_iff ..).2 ⟨.tempAtOrAbove, rfl, fun _ => ⟨ht, rfl⟩, nofun, nofun⟩)
    | .cycleTimeAtLeast =>
      obtain rfl := htime rfl
      exact segmentOf_check (t1 := 0) (t0 := 0) rfl rfl rfl rfl
        ((checkSegmentOf_iff ..).2 ⟨.cycleTimeAtLeast, rfl, nofun, fun _ => rfl, nofun⟩)
    | .otherCavityActive =>
      obtain rfl := hbare (.inl rfl)
      exact segmentOf_check (t1 := 0) (t0 := 0) (d1 := 0) (d0 := 0) rfl rfl rfl rfl
        ((checkSegmentOf_iff ..).2 ⟨.otherCavityActive, rfl, nofun, nofun, fun _ => rfl⟩)
    | .mainsNormal =>
      obtain rfl := hbare (.inr (.inl rfl))
      exact segmentOf_check (t1 := 0) (t0 := 0) (d1 := 0) (d0 := 0) rfl rfl rfl rfl
        ((checkSegmentOf_iff ..).2 ⟨.mainsNormal, rfl, nofun, nofun, fun _ => rfl⟩)
    | .converterLit =>
      obtain rfl := hbare (.inr (.inr rfl))
      exact segmentOf_check (t1 := 0) (t0 := 0) (d1 := 0) (d0 := 0) rfl rfl rfl rfl
        ((checkSegmentOf_iff ..).2 ⟨.converterLit, rfl, nofun, nofun, fun _ => rfl⟩)
  | mark =>
    obtain ⟨hm, rfl⟩ := hmark rfl
    refine (segmentOf_iff ..).2 ⟨_, _, _, _, _, _, _, _, _, _, _, _, _, _, _,
      segmentBytes_of_read (t1 := 0) (t0 := 0) (d1 := 0) (d0 := 0) (s1 := 0) (s0 := 0) rfl rfl rfl, .mark, rfl, nofun, nofun,
      nofun, nofun, fun _ => ?_, nofun, nofun⟩
    dsimp only
    rw [byteOf_toNat]
    exact ⟨hm, rfl⟩
  | ret =>
    obtain rfl := hret rfl
    exact (segmentOf_iff ..).2 ⟨_, _, _, _, _, _, _, _, _, _, _, _, _, _, _, rfl, .ret, rfl, nofun, nofun, nofun, nofun, nofun, fun _ => rfl, nofun⟩
  | fin =>
    obtain rfl := hfin rfl
    exact (segmentOf_iff ..).2 ⟨_, _, _, _, _, _, _, _, _, _, _, _, _, _, _, rfl, .fin, rfl, nofun, nofun, nofun, nofun, nofun, nofun, fun _ => rfl⟩

end Sys2Proof.Machine
end

