-- ==== Sys2Proof/Proofs/Writes.lean ====
section
/-! PROOFS. What a WRITE of ADMIT, of LIMITS and to a bank does (R17, R54, R75, R76, R81 to R90, R163, R173 to R175): O33, O34. -/

namespace Sys2Proof.Machine

-- One proof at a time: proofs elaborated side by side ask for more threads than the check's memory limit leaves room for.
set_option Elab.async false

/-! ## ADMIT (R173, R174) -/

theorem writeAdmission_of_bad (s : State) (b : BankId) {index n : Nat} {records : List (List Byte)}
    (h : FirstBad admissionOf records n) :
    s.writeOwner .admission b index records = .error (codeRange, [BitVec.ofNat 8 (index + n)]) := by
  show s.writeAdmission index records = _
  unfold State.writeAdmission
  rw [Laws.parseFrom_firstBad _ _ index n h]
  rfl

theorem writeAdmission_of_read (s : State) (b : BankId) {index : Nat} {records : List (List Byte)} {new : List AdmissionRecord}
    (h : records.map admissionOf = new.map some) :
    s.writeOwner .admission b index records = .ok { s with admission := storeFrom s.admission index new } := by
  show s.writeAdmission index records = _
  unfold State.writeAdmission
  rw [(Laws.parseFrom_ok admissionOf records new index).2 h]

/-! ## LIMITS (R175) -/

/-- R175: the new record stored and the silence timer restarted. -/
def State.limitsStored (s : State) (l : Limits) : State := { s with limits := l, silence := s.timer (millis l.silence) }

/-- R75, R175: the part-wide watches set again where their levels changed. -/
def State.rewatched (s : State) (o l : Limits) : State :=
  ((((s.resetWatch .dip .below o.dip l.dip).resetWatch .ductHot .above o.duct l.duct).resetWatch .light .atOrAbove
    o.light l.light).resetWatch .bayHot .above o.bay l.bay).resetWatch .bayCool .atOrBelow (o.bay - 10) (l.bay - 10)

/-- R76, R175: SPEED set again where the minimum of the present level changed. -/
def State.reaimed (s : State) (o l : Limits) (lv : BlowLevel) : State := if o.tacho.at lv = l.tacho.at lv then s else s.aimSpeed

/-- R175: what follows a WRITE of LIMITS up to the blower's DRIVE. -/
def State.relimited (s : State) (l : Limits) : State :=
  ((if s.limits.budget = l.budget then s.limitsStored l else (s.limitsStored l).considerHead).rewatched s.limits l).reaimed
    s.limits l s.air.level

theorem afterLimits_eq (s : State) (l : Limits) : ({ s with limits := l } : State).afterLimits s.limits =
    if s.limits.map.at s.air.level = l.map.at s.air.level then s.relimited l else (s.relimited l).driveBlower := rfl

/-- What setting watches leaves. -/
structure Rewatch (s t : State) : Prop where
  limits : t.limits = s.limits
  silence : t.silence = s.silence
  cavs : t.cavs = s.cavs
  locks : t.locks = s.locks
  air : t.air = s.air
  chans : t.chans = s.chans
  loads : t.loads = s.loads

theorem Rewatch.refl (s : State) : Rewatch s s := ⟨rfl, rfl, rfl, rfl, rfl, rfl, rfl⟩

theorem Rewatch.trans {s t u : State} (h : Rewatch s t) (g : Rewatch t u) : Rewatch s u :=
  ⟨g.limits.trans h.limits, g.silence.trans h.silence, g.cavs.trans h.cavs, g.locks.trans h.locks, g.air.trans h.air,
    g.chans.trans h.chans, g.loads.trans h.loads⟩

theorem rewatch_setWatch (s : State) (w : WatchId) (side : Side) (level : Int) : Rewatch s (s.setWatch w side level) := by
  rw [setWatch_eq]
  exact ⟨rfl, rfl, rfl, rfl, rfl, rfl, rfl⟩

theorem rewatch_resetWatch (s : State) (w : WatchId) (side : Side) (was level : Int) :
    Rewatch s (s.resetWatch w side was level) := by
  unfold State.resetWatch
  split
  · exact .refl s
  · exact rewatch_setWatch ..

theorem rewatch_rewatched (s : State) (o l : Limits) : Rewatch s (s.rewatched o l) :=
  ((((rewatch_resetWatch ..).trans (rewatch_resetWatch ..)).trans (rewatch_resetWatch ..)).trans
    (rewatch_resetWatch ..)).trans (rewatch_resetWatch ..)

/-- A watch set again, MET exactly where its condition is confirmed now (R72). -/
def State.freshWatch (s : State) (w : WatchId) (side : Side) (level : Int) : Watch :=
  { side := side, level := level, state := if confirmedOn (s.channel (watchUse w)) side level then .met else .notMet }

theorem watch_resetWatch (s : State) (w : WatchId) (side : Side) (was level : Int) (v : WatchId) :
    (s.resetWatch w side was level).watch v = if v = w ∧ was ≠ level then s.freshWatch w side level else s.watch v := by
  unfold State.resetWatch
  by_cases h : was = level
  · rw [if_pos h, if_neg (fun x => x.2 h)]
  · rw [if_neg h, Laws.setWatch_watch]
    by_cases hv : v = w
    · simp only [hv, h, ne_eq, not_false_eq_true, and_self, if_true, State.freshWatch]
    · simp only [hv, false_and, if_false]

theorem freshWatch_of_chans {s t : State} (h : t.chans = s.chans) : t.freshWatch = s.freshWatch := by
  unfold State.freshWatch
  simp only [channel_of_chans h]

theorem watch_rewatched (s : State) (o l : Limits) (v : WatchId) : (s.rewatched o l).watch v =
    if v = .bayCool ∧ (o.bay - 10 : Int) ≠ l.bay - 10 then s.freshWatch .bayCool .atOrBelow (l.bay - 10)
    else if v = .bayHot ∧ o.bay ≠ l.bay then s.freshWatch .bayHot .above l.bay
    else if v = .light ∧ o.light ≠ l.light then s.freshWatch .light .atOrAbove l.light
    else if v = .ductHot ∧ o.duct ≠ l.duct then s.freshWatch .ductHot .above l.duct
    else if v = .dip ∧ (o.dip : Int) ≠ l.dip then s.freshWatch .dip .below l.dip
    else s.watch v := by
  unfold State.rewatched
  have h1 := (rewatch_resetWatch s .dip .below o.dip l.dip)
  have h2 := h1.trans (rewatch_resetWatch _ .ductHot .above o.duct l.duct)
  have h3 := h2.trans (rewatch_resetWatch _ .light .atOrAbove o.light l.light)
  have h4 := h3.trans (rewatch_resetWatch _ .bayHot .above o.bay l.bay)
  rw [watch_resetWatch, freshWatch_of_chans h4.chans, watch_resetWatch, freshWatch_of_chans h3.chans, watch_resetWatch,
    freshWatch_of_chans h2.chans, watch_resetWatch, freshWatch_of_chans h1.chans, watch_resetWatch]

theorem aimSpeed_of_on {s : State} (h : s.air.level ≠ .off) :
    s.aimSpeed = s.setWatch .speed .atOrAbove (s.limits.tacho.at s.air.level) := if_neg h

/-- A level whose per-level items differ is not OFF. -/
theorem level_ne_off_of_at {p q : PerLevel} {lv : BlowLevel} (h : p.at lv ≠ q.at lv) : lv ≠ .off := by
  rintro rfl
  exact h rfl

theorem rewatch_reaimed {s : State} {o l : Limits} {lv : BlowLevel} (hlv : s.air.level = lv) :
    Rewatch s (s.reaimed o l lv) := by
  unfold State.reaimed
  split
  next => exact .refl s
  next h =>
    rw [aimSpeed_of_on (hlv ▸ level_ne_off_of_at h)]
    exact rewatch_setWatch ..

theorem watch_reaimed {s : State} {o l : Limits} {lv : BlowLevel} (hlv : s.air.level = lv) (hl : s.limits = l) (v : WatchId) :
    (s.reaimed o l lv).watch v =
      if v = .speed ∧ o.tacho.at lv ≠ l.tacho.at lv then s.freshWatch .speed .atOrAbove (l.tacho.at lv) else s.watch v := by
  unfold State.reaimed
  by_cases h : o.tacho.at lv = l.tacho.at lv
  · simp only [h, ne_eq, not_true_eq_false, and_false, if_false, if_true]
  · rw [if_neg h, aimSpeed_of_on (hlv ▸ level_ne_off_of_at h), Laws.setWatch_watch, hlv, hl]
    by_cases hv : v = .speed
    · simp only [hv, h, ne_eq, not_false_eq_true, and_self, if_true, State.freshWatch]
    · simp only [hv, false_and, if_false]

/-- The part after a WRITE of LIMITS has had the head considered. -/
def State.reconsidered (s : State) (l : Limits) : State :=
  if s.limits.budget = l.budget then s.limitsStored l else (s.limitsStored l).considerHead

theorem reconsidered_act (s : State) (l : Limits) : LoadAct (s.limitsStored l) (s.reconsidered l) :=
  .ite _ (.refl _) (LoadAct.refl _).considerHead

theorem reconsidered_kept (s : State) (l : Limits) : Kept (s.limitsStored l) (s.reconsidered l) :=
  kept_ite _ (Kept.refl _) (kept_considerHead (Kept.refl _))

theorem rewatch_relimited (s : State) (l : Limits) : Rewatch (s.reconsidered l) (s.relimited l) :=
  have h := rewatch_rewatched (s.reconsidered l) s.limits l
  h.trans (rewatch_reaimed (congrArg (·.level) (h.air.trans (reconsidered_act s l).air)))

theorem watch_relimited (s : State) (l : Limits) (v : WatchId) : (s.relimited l).watch v =
    if v = .speed ∧ s.limits.tacho.at s.air.level ≠ l.tacho.at s.air.level then
      s.freshWatch .speed .atOrAbove (l.tacho.at s.air.level)
    else if v = .bayCool ∧ (s.limits.bay - 10 : Int) ≠ l.bay - 10 then s.freshWatch .bayCool .atOrBelow (l.bay - 10)
    else if v = .bayHot ∧ s.limits.bay ≠ l.bay then s.freshWatch .bayHot .above l.bay
    else if v = .light ∧ s.limits.light ≠ l.light then s.freshWatch .light .atOrAbove l.light
    else if v = .ductHot ∧ s.limits.duct ≠ l.duct then s.freshWatch .ductHot .above l.duct
    else if v = .dip ∧ (s.limits.dip : Int) ≠ l.dip then s.freshWatch .dip .below l.dip
    else s.watch v := by
  have hc := reconsidered_act s l
  have hr := rewatch_rewatched (s.reconsidered l) s.limits l
  have hw : (s.reconsidered l).watch v = s.watch v := watch_of_loadAct hc v
  have hlv : ((s.reconsidered l).rewatched s.limits l).air.level = s.air.level := congrArg (·.level) (hr.air.trans hc.air)
  show (((s.reconsidered l).rewatched s.limits l).reaimed s.limits l s.air.level).watch v = _
  rw [watch_reaimed hlv (l := l) (hr.limits.trans (reconsidered_kept s l).limits), watch_rewatched,
    freshWatch_of_chans (hr.chans.trans hc.chans), freshWatch_of_chans hc.chans, hw]
  rfl

/-! ### The record taken -/

theorem writeLimits_of_bad (s : State) (b : BankId) {r : List Byte} (h : limitsOf r = none) :
    s.writeOwner .limits b 0 [r] = .error (codeRange, [0]) := by
  show s.writeLimits [r] = _
  unfold State.writeLimits
  rw [Laws.parseFrom_firstBad limitsOf [r] 0 0 ⟨[], r, [], rfl, rfl, nofun, h⟩]
  rfl

theorem writeLimits_of_read (s : State) (b : BankId) {r : List Byte} {l : Limits} (h : limitsOf r = some l) :
    s.writeOwner .limits b 0 [r] = if l.budget < s.heldSum then .error (codeLimitBelowHeld, natBytes s.heldSum)
      else .ok (({ s with limits := l } : State).afterLimits s.limits) := by
  show s.writeLimits [r] = _
  unfold State.writeLimits
  rw [(Laws.parseFrom_ok limitsOf [r] [l] 0).2 (by rw [List.map_cons, h]; rfl)]

/-- R175: what a WRITE of LIMITS leaves alone, the held sum aside. -/
structure Relimits (s : State) (l : Limits) (u : State) : Prop where
  limits : u.limits = l
  silence : u.silence = s.timer (millis l.silence)
  cavs : u.cavs = s.cavs
  locks : u.locks = s.locks
  air : u.air = s.air
  watch : ∀ w, u.watch w = (s.relimited l).watch w

theorem relimits_relimited (s : State) (l : Limits) : Relimits s l (s.relimited l) :=
  have hr := rewatch_relimited s l
  have hc := reconsidered_act s l
  have hk := reconsidered_kept s l
  ⟨hr.limits.trans hk.limits, hr.silence.trans hk.silence, hr.cavs.trans hc.cavs, hr.locks.trans hc.locks, hr.air.trans hc.air,
    fun _ => rfl⟩

theorem relimits_afterLimits (s : State) (l : Limits) :
    Relimits s l (({ s with limits := l } : State).afterLimits s.limits) := by
  have h := relimits_relimited s l
  rw [afterLimits_eq]
  split
  · exact h
  · have hk := kept_driveBlower (Kept.refl (s.relimited l))
    have ha := (LoadAct.refl (s.relimited l)).driveBlower
    exact ⟨hk.limits.trans h.limits, hk.silence.trans h.silence, ha.cavs.trans h.cavs, ha.locks.trans h.locks, ha.air.trans h.air,
      fun w => watch_of_loadAct ha w⟩

theorem resetWatch_of_same {s : State} {w : WatchId} {side : Side} {was level : Int} (h : level = was) :
    s.resetWatch w side was level = s := if_pos h.symm

/-- R175: fields that no watch, no level and no percentage goes by have the head considered at most. -/
theorem afterLimits_of_same {s : State} {l : Limits} (hdip : l.dip = s.limits.dip) (hduct : l.duct = s.limits.duct)
    (hlight : l.light = s.limits.light) (hbay : l.bay = s.limits.bay)
    (htacho : l.tacho.at s.air.level = s.limits.tacho.at s.air.level) (hmap : l.map.at s.air.level = s.limits.map.at s.air.level) :
    ({ s with limits := l } : State).afterLimits s.limits = s.reconsidered l := by
  rw [afterLimits_eq, if_pos hmap.symm]
  unfold State.relimited State.reaimed State.rewatched
  rw [if_pos htacho.symm, hdip, hduct, hlight, hbay]
  simp only [resetWatch_of_same]
  rfl

theorem map_pos {l : Limits} (h : limitsInRange l = true) {lv : BlowLevel} (hl : lv ≠ .off) : 0 < l.map.at lv := by
  obtain ⟨hlow, hmid, hhigh⟩ := levelMap_of_limitsInRange h
  cases lv
  case off => exact absurd rfl hl
  case low => exact hlow
  case mid => exact hmid
  case high => exact hhigh

theorem entry_relimited (s : State) (l : Limits) (i : Fin 16) : (s.relimited l).entry i = s.entry i :=
  (congrArg (fun v => (Vector.get v i).entry) (rewatch_relimited s l).loads).trans ((reconsidered_kept s l).entry i)

/-- R163, R175: a percentage of the present level that changed drives the blower. -/
theorem afterLimits_drives {s : State} {l : Limits} (hl : limitsInRange l = true)
    (hm : l.map.at s.air.level ≠ s.limits.map.at s.air.level) {i : Fin 16} (hi : s.sharedLoad .blower = some i) :
    let u := ({ s with limits := l } : State).afterLimits s.limits
    let level := if (s.entry i).kind = .switched then 100 else l.map.at s.air.level
    (u.record i).commanded = some level ∧ (u.record i).owner = .engine ∧ QItem.drive i level false ∈ u.urgent := by
  have h := relimits_relimited s l
  rw [afterLimits_eq, if_neg (Ne.symm hm), ← entry_relimited s l i, ← h.air]
  have hd := driveBlower_drives_of_pos (s := s.relimited l) (i := i)
    (by rw [h.limits, h.air]; exact map_pos hl (level_ne_off_of_at hm))
    (by rw [← hi]; unfold State.sharedLoad State.findLoad; simp only [entry_relimited])
  rw [h.limits] at hd
  exact hd

/-- Settles O33. -/
theorem admissionAndLimitsWritesTakeEffect : Obligations.AdmissionAndLimitsWritesTakeEffect := by
  refine ⟨⟨admissionOf_iff, fun s b index records => ⟨fun n hn => writeAdmission_of_bad s b hn, fun new hnew =>
    ⟨_, writeAdmission_of_read s b hnew, fun i => Laws.storeFrom_get ..⟩⟩⟩,
    fun r l => (limitsOf_iff r l).trans (and_congr_right fun _ => limitsInRange_iff l), ?_⟩
  intro s b r write
  refine ⟨writeLimits_of_bad s b, fun l hl => ⟨fun hb => ?_, fun hb => ?_⟩⟩
  · rw [← natBytes_eq]
    exact (writeLimits_of_read s b hl).trans (if_pos hb)
  · have h := relimits_afterLimits s l
    have hw (w : WatchId) := (h.watch w).trans (watch_relimited s l w)
    refine ⟨_, (writeLimits_of_read s b hl).trans (if_neg (not_lt.2 hb)), h.limits, h.silence, h.cavs, h.locks, h.air,
      fun hdip hduct hlight hbay htacho hmap => ?_, ?_, ?_, ?_, ?_, ?_, ?_,
      fun hm i hi => afterLimits_drives (limitsInRange_of_limitsOf hl) hm hi⟩
    · rw [afterLimits_of_same hdip hduct hlight hbay htacho hmap]
      unfold State.reconsidered
      simp only [eq_comm (a := s.limits.budget)]
      rfl
    all_goals
      rw [hw]
      simp only [reduceCtorEq, false_and, if_false, true_and, ne_eq, ite_not, Nat.cast_inj, sub_left_inj]
      simp only [eq_comm (a := s.limits.dip), eq_comm (a := s.limits.duct), eq_comm (a := s.limits.light),
        eq_comm (a := s.limits.bay), eq_comm (a := s.limits.tacho.at _)]
      rfl

/-! ## Banks (R81 to R90) -/

theorem writeOwner_of_bank (s : State) {t : TableId} (ht : isBankTable t = true) (b : BankId) (index : Nat)
    (records : List (List Byte)) : s.writeOwner t b index records = s.writeBank t b index records := by
  cases t
  case loads | channels | admission | limits => cases ht
  case segments | causes | duty | bankLimits => rfl

theorem bankWrite (s : State) {t : TableId} (ht : isBankTable t = true) (b : BankId) (index : Nat) (records : List (List Byte)) :
    (0 < (s.bank b).binds → s.writeOwner t b index records = .error (codeBankBound, [])) ∧
    ((s.bank b).binds = 0 →
      (∀ n, (s.bank b).store t index records = .error n →
        s.writeOwner t b index records = .error (codeRange, [BitVec.ofNat 8 n])) ∧
      ∀ k, (s.bank b).store t index records = .ok k →
        s.writeOwner t b index records = .ok (s.modBank b (fun _ => { k with state := .written, finding := none }))) := by
  rw [writeOwner_of_bank s ht]
  unfold State.writeBank
  refine ⟨fun h => if_pos h, fun h => ?_⟩
  rw [if_neg (by omega)]
  refine ⟨fun n hn => ?_, fun k hk => ?_⟩
  · rw [hn]
    rfl
  · rw [hk]
    rfl

/-- What storing records of a bank table does, by what they read as. -/
theorem store_segments (k : Bank) (index : Nat) (records : List (List Byte)) :
    (∀ n, FirstBad segmentOf records n → k.store .segments index records = .error (index + n)) ∧
    ∀ new : List Segment, records.map segmentOf = new.map some →
      k.store .segments index records = .ok { k with segments := storeFrom k.segments index new } := by
  unfold Bank.store
  refine ⟨fun n hn => ?_, fun new hnew => ?_⟩
  · rw [Laws.parseFrom_firstBad segmentOf records index n hn]
    rfl
  · rw [(Laws.parseFrom_ok segmentOf records new index).2 hnew]
    rfl

theorem store_duty (k : Bank) (index : Nat) (records : List (List Byte)) :
    (∀ n, FirstBad dutyBandOf records n → k.store .duty index records = .error (index + n)) ∧
    ∀ new : List DutyBand, records.map dutyBandOf = new.map some →
      k.store .duty index records = .ok { k with duty := storeFrom k.duty index new } := by
  unfold Bank.store
  refine ⟨fun n hn => ?_, fun new hnew => ?_⟩
  · rw [Laws.parseFrom_firstBad dutyBandOf records index n hn]
    rfl
  · rw [(Laws.parseFrom_ok dutyBandOf records new index).2 hnew]
    rfl

theorem store_causes (k : Bank) (index : Nat) (new : List Byte) :
    k.store .causes index (new.map (fun v => [v])) = .ok { k with causes := storeFrom k.causes index new } := by
  unfold Bank.store
  rw [(Laws.parseFrom_ok vectorEntryOf _ new index).2 (by rw [List.map_map]; rfl)]
  rfl

theorem store_bankLimits (k : Bank) (index : Nat) (r : List Byte) :
    (bankLimitsOf r = none → k.store .bankLimits index [r] = .error index) ∧
      ∀ l, bankLimitsOf r = some l → k.store .bankLimits index [r] = .ok { k with limits := l } := by
  unfold Bank.store
  refine ⟨fun h => ?_, fun l h => ?_⟩
  · rw [Laws.parseFrom_firstBad bankLimitsOf [r] index 0 ⟨[], r, [], rfl, rfl, nofun, h⟩]
    rfl
  · rw [(Laws.parseFrom_ok bankLimitsOf [r] [l] index).2 (by rw [List.map_cons, h]; rfl)]
    rfl

/-- R83: the fields of a segment's record that its kind uses. -/
def SegmentReads (g : Segment) (kind t1 t0 band d1 d0 s1 s0 cond next alternate marker blower fan converter : Byte) : Prop :=
  let target : Int := (t1 ++ t0 : BitVec 16).toInt
  let duration : Nat := d1.toNat * 256 + d0.toNat
  let tempFits : Prop := 0 ≤ target ∧ target ≤ 1100
  let banded : Prop := 1 ≤ band.toNat ∧ band.toNat ≤ 40
  let timed (k : Segment) : Prop := tempFits ∧ fan.toNat ≤ 100 ∧ ∃ (b : BlowLevel) (v : ConvField),
    blower = blowLevelCode b ∧ converter = convFieldCode v ∧
    g = { k with target := target, duration := duration, next := next, blower := b, fan := fan.toNat, converter := v }
  let zero := Segment.zero
  (kind = 1 ∧ banded ∧ timed { zero with kind := .ramp, band := band.toNat, short := s1.toNat * 256 + s0.toNat }) ∨
  (kind = 2 ∧ banded ∧ timed { zero with kind := .soak, band := band.toNat }) ∨
  (kind = 3 ∧ timed { zero with kind := .cool }) ∨
  (kind = 4 ∧ ∃ k : CheckCond, cond = checkCondCode k ∧
    let check := { zero with kind := .check, cond := k, next := next, alternate := alternate }
    ((k = .tempAtOrBelow ∨ k = .tempAtOrAbove) → tempFits ∧ g = { check with target := target }) ∧
    (k = .cycleTimeAtLeast → g = { check with duration := duration }) ∧
    ((k = .otherCavityActive ∨ k = .mainsNormal ∨ k = .converterLit) → g = check)) ∨
  (kind = 5 ∧ marker.toNat ≤ 15 ∧ g = { zero with kind := .mark, marker := marker.toNat, next := next }) ∨
  (kind = 6 ∧ g = { zero with kind := .ret }) ∨ (kind = 0 ∧ g = zero)

theorem segmentReads_iff (g : Segment) (kind t1 t0 band d1 d0 s1 s0 cond next alternate marker blower fan converter : Byte) :
    SegmentReads g kind t1 t0 band d1 d0 s1 s0 cond next alternate marker blower fan converter ↔
      ∃ k : SegKind, kind = segKindCode k ∧
        (k = .ramp → (1 ≤ band.toNat ∧ band.toNat ≤ 40) ∧ timedSegmentOf .ramp (tempOf t1 t0) band.toNat (natOf d1 d0)
          (natOf s1 s0) next blower fan converter = some g) ∧
        (k = .soak → (1 ≤ band.toNat ∧ band.toNat ≤ 40) ∧ timedSegmentOf .soak (tempOf t1 t0) band.toNat (natOf d1 d0)
          0 next blower fan converter = some g) ∧
        (k = .cool → timedSegmentOf .cool (tempOf t1 t0) 0 (natOf d1 d0) 0 next blower fan converter = some g) ∧
        (k = .check → checkSegmentOf (tempOf t1 t0) (natOf d1 d0) cond next alternate = some g) ∧
        (k = .mark → marker.toNat ≤ 15 ∧ g = { Segment.zero with kind := .mark, marker := marker.toNat, next := next }) ∧
        (k = .ret → g = { Segment.zero with kind := .ret }) ∧
        (k = .fin → g = Segment.zero) := by
  simp only [timedSegmentOf_iff, checkSegmentOf_iff]
  constructor
  · rintro (⟨rfl, hb, h⟩ | ⟨rfl, hb, h⟩ | ⟨rfl, h⟩ | ⟨rfl, h⟩ | ⟨rfl, h⟩ | ⟨rfl, h⟩ | ⟨rfl, h⟩)
    · exact ⟨.ramp, rfl, fun _ => ⟨hb, h⟩, nofun, nofun, nofun, nofun, nofun, nofun⟩
    · exact ⟨.soak, rfl, nofun, fun _ => ⟨hb, h⟩, nofun, nofun, nofun, nofun, nofun⟩
    · exact ⟨.cool, rfl, nofun, nofun, fun _ => h, nofun, nofun, nofun, nofun⟩
    · exact ⟨.check, rfl, nofun, nofun, nofun, fun _ => h, nofun, nofun, nofun⟩
    · exact ⟨.mark, rfl, nofun, nofun, nofun, nofun, fun _ => h, nofun, nofun⟩
    · exact ⟨.ret, rfl, nofun, nofun, nofun, nofun, nofun, fun _ => h, nofun⟩
    · exact ⟨.fin, rfl, nofun, nofun, nofun, nofun, nofun, nofun, fun _ => h⟩
  · rintro ⟨k, rfl, hramp, hsoak, hcool, hcheck, hmark, hret, hfin⟩
    cases k with
    | ramp => exact .inl ⟨rfl, hramp rfl⟩
    | soak => exact .inr (.inl ⟨rfl, hsoak rfl⟩)
    | cool => exact .inr (.inr (.inl ⟨rfl, hcool rfl⟩))
    | check => exact .inr (.inr (.inr (.inl ⟨rfl, hcheck rfl⟩)))
    | mark => exact .inr (.inr (.inr (.inr (.inl ⟨rfl, hmark rfl⟩))))
    | ret => exact .inr (.inr (.inr (.inr (.inr (.inl ⟨rfl, hret rfl⟩)))))
    | fin => exact .inr (.inr (.inr (.inr (.inr (.inr ⟨rfl, hfin rfl⟩)))))

/-- Settles O34. -/
theorem bankWriteMakesTheBankWritten : Obligations.BankWriteMakesTheBankWritten := by
  refine ⟨fun s t b index records ht => bankWrite s ht b index records, fun k index records => ?_, dutyBandOf_iff,
    fun r l => (bankLimitsOf_iff r l).trans (and_congr_right fun _ => bankLimitsInRange_iff l), fun r g => ?_,
    fun _ _ => segmentOf_segmentBytes⟩
  · obtain ⟨hsb, hs⟩ := store_segments k index records
    obtain ⟨hdb, hd⟩ := store_duty k index records
    refine ⟨hsb, fun new hnew => ⟨_, hs new hnew, fun i => Laws.storeFrom_get ..⟩, hdb,
      fun new hnew => ⟨_, hd new hnew, fun i => Laws.storeFrom_get ..⟩, ?_, store_bankLimits k index⟩
    rintro new rfl
    exact ⟨_, store_causes k index new, fun i => Laws.storeFrom_get ..⟩
  · rw [segmentOf_iff]
    simp only [← segmentReads_iff]
    rfl

end Sys2Proof.Machine
end

