-- ==== Sys2Proof/Proofs/TableWrites.lean ====
section
/-! PROOFS. A WRITE of LOADS and of CHANNELS: its tests and what it stores (R42, R43, R64, R97, R99, R163, R169, R174): O31, O32. -/

namespace Sys2Proof.Machine

-- One proof at a time: proofs elaborated side by side ask for more threads than the check's memory limit leaves room for.
set_option Elab.async false

/-! ## The lowest index (log 11) -/

theorem find?_indexes_eq_some {n : Nat} {p : Fin n → Bool} {i : Fin n} :
    (indexes n).find? p = some i ↔ p i = true ∧ ∀ j, j < i → ¬p j = true := by
  unfold indexes
  rw [List.find?_eq_some_iff_getElem]
  simp only [List.getElem_finRange, List.length_finRange, Bool.not_eq_true']
  refine and_congr_right fun _ => ⟨?_, fun h => ⟨i.val, i.isLt, rfl, fun j hj => ?_⟩⟩
  · rintro ⟨k, hk, rfl, h⟩ j hj
    simpa using h j.val hj
  · simpa using h ⟨j, by omega⟩ hj

theorem find?_indexes_eq_none {n : Nat} {p : Fin n → Bool} : (indexes n).find? p = none ↔ ∀ j, ¬p j = true := by
  simp [indexes, List.find?_eq_none]

theorem any_indexes {n : Nat} {p : Fin n → Bool} : (indexes n).any p = true ↔ ∃ i, p i = true := by
  simp [indexes]

/-! ## LOADS (R42, R43) -/

theorem any_isDriveFor (l : List QItem) (i : Fin 16) :
    l.any (isDriveFor i) = true ↔ ∃ v a, QItem.drive i v a ∈ l := by
  rw [List.any_eq_true]
  constructor
  · rintro ⟨q, hq, h⟩
    cases q with
    | drive j v a =>
      obtain rfl : i = j := by simpa [isDriveFor] using h
      exact ⟨v, a, hq⟩
    | ask n => cases h
    | relayed t => cases h
  · rintro ⟨v, a, h⟩
    exact ⟨_, h, by simp [isDriveFor]⟩

/-- R43: a load is busy that is granted or waits, has a DRIVE queued, or is asked on the bus. -/
theorem loadBusy_iff (s : State) (i : Fin 16) : s.loadBusy i = true ↔
    (s.record i).grant ≠ .noGrant ∨ (∃ l a, QItem.drive i l a ∈ s.urgent ∨ QItem.drive i l a ∈ s.normal) ∨
      ∃ x l u, s.exchange = some x ∧ x.party = .drive i l u := by
  have hd : s.urgent.any (isDriveFor i) = true ∨ s.normal.any (isDriveFor i) = true ↔
      ∃ l a, QItem.drive i l a ∈ s.urgent ∨ QItem.drive i l a ∈ s.normal := by
    rw [any_isDriveFor, any_isDriveFor]
    simp only [exists_or]
  unfold State.loadBusy
  simp only [Bool.or_eq_true, bne_iff_ne, or_assoc]
  rw [← or_assoc (a := s.urgent.any (isDriveFor i) = true), hd]
  refine or_congr_right (or_congr_right ?_)
  rcases s.exchange with _ | ⟨f, ph, wl, ex, party⟩
  · simp
  · cases party with
    | drive j l u =>
      rw [show ((i == j) = true ↔ i = j) from beq_iff_eq]
      exact ⟨fun h => ⟨_, l, u, rfl, h ▸ rfl⟩, by rintro ⟨_, _, _, ⟨⟩, ⟨⟩⟩; rfl⟩
    | relay | closedRelay | poller => simp

/-- R42: the entry's own fields do not fit its class. -/
theorem entryMisfit_iff (e : LoadEntry) : entryMisfit e = true ↔
    (e.cls ∈ [LoadClass.blower, .converter] ∧ e.cavity ≠ .shared) ∨
    (e.cls ∈ [LoadClass.lock, .fan, .lamp, .heater] ∧ e.cavity = .shared) ∨
    (e.cls = .heater ∧ e.position = .nowhere) ∨
    (e.cls ≠ .heater ∧ e.cls ≠ .unused ∧ e.position ≠ .nowhere) := by
  unfold entryMisfit
  cases e.cls <;> simp

theorem loadsClash_iff (a b : LoadEntry) : loadsClash a b = true ↔ a.cls ≠ .unused ∧ b.cls ≠ .unused ∧
    (a.node = b.node ∨ (a.cls = b.cls ∧ (a.cls ∈ [LoadClass.blower, .converter] ∨
      (a.cavity = b.cavity ∧ (a.cls = .heater → a.position = b.position))))) := by
  simp [loadsClash, LoadEntry.used, and_assoc, or_assoc, imp_iff_not_or]

/-- R42, log 11: an entry of the table that breaks a constraint. -/
theorem loadBreaks_iff (t : Fin 16 → LoadEntry) (i : Fin 16) : loadBreaks t i = true ↔
    ((t i).cls ∈ [LoadClass.blower, .converter] ∧ (t i).cavity ≠ .shared) ∨
    ((t i).cls ∈ [LoadClass.lock, .fan, .lamp, .heater] ∧ (t i).cavity = .shared) ∨
    ((t i).cls = .heater ∧ (t i).position = .nowhere) ∨
    ((t i).cls ≠ .heater ∧ (t i).cls ≠ .unused ∧ (t i).position ≠ .nowhere) ∨
    ∃ j, j ≠ i ∧ (t i).cls ≠ .unused ∧ (t j).cls ≠ .unused ∧
      ((t i).node = (t j).node ∨ ((t i).cls = (t j).cls ∧ ((t i).cls ∈ [LoadClass.blower, .converter] ∨
        ((t i).cavity = (t j).cavity ∧ ((t i).cls = .heater → (t i).position = (t j).position))))) := by
  unfold loadBreaks
  rw [Bool.or_eq_true, entryMisfit_iff, any_indexes]
  simp only [Bool.and_eq_true, bne_iff_ne, loadsClash_iff, ne_comm (a := i), or_assoc]

theorem writeLoads_of_bad (s : State) (b : BankId) {index n : Nat} {records : List (List Byte)}
    (h : FirstBad loadEntryOf records n) :
    s.writeOwner .loads b index records = .error (codeRange, [BitVec.ofNat 8 (index + n)]) := by
  show s.writeLoads index records = _
  unfold State.writeLoads
  rw [Laws.parseFrom_firstBad _ _ index n h]
  rfl

section
variable {s : State} (b : BankId) {index : Nat} {records : List (List Byte)} {new : List LoadEntry}

theorem writeLoads_of_active (h : records.map loadEntryOf = new.map some) {i : Fin 16}
    (hi : s.loadActive (s.loadsAfter index new) = some i) :
    s.writeOwner .loads b index records = .error (codeLoadActive, [BitVec.ofNat 8 i.val]) := by
  show s.writeLoads index records = _
  unfold State.writeLoads
  rw [(Laws.parseFrom_ok loadEntryOf records new index).2 h]
  simp only [hi]
  rfl

theorem writeLoads_of_conflict (h : records.map loadEntryOf = new.map some) (ha : s.loadActive (s.loadsAfter index new) = none)
    {i : Fin 16} (hi : (indexes 16).find? (loadBreaks (s.loadsAfter index new)) = some i) :
    s.writeOwner .loads b index records = .error (codeConflict, [BitVec.ofNat 8 i.val]) := by
  show s.writeLoads index records = _
  unfold State.writeLoads
  rw [(Laws.parseFrom_ok loadEntryOf records new index).2 h]
  simp only [ha, hi]
  rfl

/-- R43: the table a WRITE of LOADS leaves. -/
def State.loadsWritten (s : State) (after : Fin 16 → LoadEntry) : Vector LoadSlot 16 :=
  Vector.ofFn (fun i => (s.loads.get i).write (after i))

theorem writeLoads_of_taken (h : records.map loadEntryOf = new.map some) (ha : s.loadActive (s.loadsAfter index new) = none)
    (hc : (indexes 16).find? (loadBreaks (s.loadsAfter index new)) = none) :
    s.writeOwner .loads b index records = .ok (({ s with loads := s.loadsWritten (s.loadsAfter index new) } : State).afterLoads
      (s.freshBlower (s.loadsAfter index new)) (s.touchesLoads (s.loadsAfter index new))) := by
  show s.writeLoads index records = _
  unfold State.writeLoads
  rw [(Laws.parseFrom_ok loadEntryOf records new index).2 h]
  simp only [ha, hc]
  rfl

end

theorem loadsWritten_get (s : State) (after : Fin 16 → LoadEntry) (i : Fin 16) : (s.loadsWritten after).get i = {
    entry := after i,
    record := if (after i).cls ≠ .unused ∧ (s.entry i).cls ≠ .unused ∧ (after i).node = (s.entry i).node ∧
      (after i).cls = (s.entry i).cls then s.record i else LoadRecord.fresh } := by
  have hg : (s.loadsWritten after).get i = (s.loads.get i).write (after i) := by
    simp [State.loadsWritten, Vector.get_eq_getElem]
  rw [hg]
  unfold LoadSlot.write
  simp only [LoadEntry.used, Bool.and_eq_true, bne_iff_ne, beq_iff_eq, and_assoc]
  show (if (after i).cls ≠ .unused ∧ (s.entry i).cls ≠ .unused ∧ (after i).node = (s.entry i).node ∧
      (after i).cls = (s.entry i).cls then _ else _) = _
  split
  · rfl
  · rfl

theorem freshBlower_iff (s : State) (after : Fin 16 → LoadEntry) : s.freshBlower after = true ↔
    ∃ i, (after i).cls = .blower ∧ ((s.entry i).cls ≠ .blower ∨ (s.entry i).node ≠ (after i).node) := by
  unfold State.freshBlower
  simp only [any_indexes, Bool.and_eq_true, Bool.or_eq_true, beq_iff_eq, bne_iff_ne]

theorem surveyLoad_iff (c : Cav) (e : LoadEntry) :
    surveyLoad c e = true ↔ e.cavity = .of c ∧ e.cls ∈ [LoadClass.lock, .heater, .fan, .lamp] := by
  unfold surveyLoad LoadClass.cavityClass
  cases e.cls <;> simp

theorem touchesLoads_iff (s : State) (after : Fin 16 → LoadEntry) (c : Cav) : s.touchesLoads after c = true ↔
    ∃ i, after i ≠ s.entry i ∧ ∃ e ∈ [s.entry i, after i], e.cavity = .of c ∧
      e.cls ∈ [LoadClass.lock, .heater, .fan, .lamp] := by
  unfold State.touchesLoads
  simp only [any_indexes, Bool.and_eq_true, Bool.or_eq_true, bne_iff_ne, surveyLoad_iff]
  simp

/-- Settles O31. -/
theorem loadsWriteIsTestedThenStored : Obligations.LoadsWriteIsTestedThenStored := by
  refine ⟨loadEntryOf_iff, ?_⟩
  intro s b index records write
  refine ⟨fun n hn => writeLoads_of_bad s b hn, ?_⟩
  intro new hnew after active breaks
  have hactive (i : Fin 16) : ((s.entry i).used && s.loadBusy i && after i != s.entry i) = true ↔ active i := by
    rw [Bool.and_eq_true, Bool.and_eq_true, loadBusy_iff, bne_iff_ne]
    simp only [LoadEntry.used, bne_iff_ne]
    exact ⟨fun ⟨⟨hu, hb⟩, hd⟩ => ⟨hu, hd, hb⟩, fun ⟨hu, hd, hb⟩ => ⟨⟨hu, hb⟩, hd⟩⟩
  have hnone : s.loadActive (s.loadsAfter index new) = none ↔ ∀ j, ¬active j :=
    find?_indexes_eq_none.trans (forall_congr' fun j => not_congr (hactive j))
  have hbreaks (i : Fin 16) : loadBreaks (s.loadsAfter index new) i = true ↔ breaks i := loadBreaks_iff after i
  refine ⟨fun i hi hlow => ?_, fun i hno hi hlow => ?_, fun hno hsound => ?_⟩
  · exact writeLoads_of_active b hnew
      (find?_indexes_eq_some.2 ⟨(hactive i).2 hi, fun j hj => (not_congr (hactive j)).2 (hlow j hj)⟩)
  · exact writeLoads_of_conflict b hnew (hnone.2 hno)
      (find?_indexes_eq_some.2 ⟨(hbreaks i).2 hi, fun j hj => (not_congr (hbreaks j)).2 (hlow j hj)⟩)
  · refine ⟨s.loadsWritten after, s.freshBlower after, s.touchesLoads after, loadsWritten_get s after, freshBlower_iff s after,
      touchesLoads_iff s after, ?_⟩
    exact writeLoads_of_taken b hnew (hnone.2 hno) (find?_indexes_eq_none.2 fun j => (not_congr (hbreaks j)).2 (hsound j))

/-! ## CHANNELS (R63, R64) -/

theorem bindingsClash_iff (a b : Binding) : bindingsClash a b = true ↔
    a.use ≠ .unused ∧ b.use ≠ .unused ∧ (a.use = b.use ∨ (a.node = b.node ∧ a.channel = b.channel)) := by
  simp [bindingsClash, and_assoc]

theorem bindingBreaks_iff (t : Fin 8 → Binding) (n : Fin 8) : bindingBreaks t n = true ↔
    ∃ m, m ≠ n ∧ (t n).use ≠ .unused ∧ (t m).use ≠ .unused ∧
      ((t n).use = (t m).use ∨ ((t n).node = (t m).node ∧ (t n).channel = (t m).channel)) := by
  unfold bindingBreaks
  rw [any_indexes]
  simp only [Bool.and_eq_true, bne_iff_ne, bindingsClash_iff, ne_comm (a := n)]

theorem sameBinding_iff (a b : Binding) :
    sameBinding a b = true ↔ a.use = b.use ∧ a.node = b.node ∧ a.channel = b.channel := by
  simp [sameBinding, and_assoc]

theorem writeChannels_of_bad (s : State) (b : BankId) {index n : Nat} {records : List (List Byte)}
    (h : FirstBad bindingOf records n) :
    s.writeOwner .channels b index records = .error (codeRange, [BitVec.ofNat 8 (index + n)]) := by
  show s.writeChannels index records = _
  unfold State.writeChannels
  rw [Laws.parseFrom_firstBad _ _ index n h]
  rfl

/-- R64: the table and the queued ASKs a WRITE of CHANNELS leaves. -/
def State.bindingsWritten (s : State) (after : Fin 8 → Binding) : State := { s with
  chans := Vector.ofFn (fun n => ChanSlot.write (s.timer (seconds s.limits.stale)) (s.chans.get n) (after n))
  normal := s.normal.filter (fun q => !s.dropsAsk after q) }

section
variable {s : State} (b : BankId) {index : Nat} {records : List (List Byte)} {new : List Binding}

theorem writeChannels_of_conflict (h : records.map bindingOf = new.map some) {n : Fin 8}
    (hn : (indexes 8).find? (bindingBreaks (s.bindingsAfter index new)) = some n) :
    s.writeOwner .channels b index records = .error (codeConflict, [BitVec.ofNat 8 n.val]) := by
  show s.writeChannels index records = _
  unfold State.writeChannels
  rw [(Laws.parseFrom_ok bindingOf records new index).2 h]
  simp only [hn]
  rfl

theorem writeChannels_of_taken (h : records.map bindingOf = new.map some)
    (hn : (indexes 8).find? (bindingBreaks (s.bindingsAfter index new)) = none) :
    s.writeOwner .channels b index records =
      .ok (((((s.bindingsWritten (s.bindingsAfter index new)).bindingReports s).refreshAble).surveyAfterWrite .zero
        (s.touchesChannels (s.bindingsAfter index new) .zero)).surveyAfterWrite .one
        (s.touchesChannels (s.bindingsAfter index new) .one)) := by
  show s.writeChannels index records = _
  unfold State.writeChannels
  rw [(Laws.parseFrom_ok bindingOf records new index).2 h]
  simp only [hn]
  rfl

end

section
variable (s : State) (after : Fin 8 → Binding)

theorem bindingsWritten_get (n : Fin 8) : (s.bindingsWritten after).chans.get n =
    ChanSlot.write (s.timer (seconds s.limits.stale)) (s.chans.get n) (after n) := by
  simp [State.bindingsWritten, Vector.get_eq_getElem]

theorem binding_slotWrite (stale : Timer) (old : ChanSlot) (k : Binding) : (ChanSlot.write stale old k).binding = k := by
  unfold ChanSlot.write
  split
  · rfl
  · split <;> rfl

/-- R64, R66, R69: a binding kept keeps its record, a used one that moved begins in UNKNOWN, an unused one has none. -/
theorem bindingsWritten_slot (n : Fin 8) : let slot := (s.bindingsWritten after).chans.get n
    let same : Prop := (after n).use = (s.binding n).use ∧ (after n).node = (s.binding n).node ∧
      (after n).channel = (s.binding n).channel
    slot.binding = after n ∧ ((after n).use = .unused → slot.record = ChanRecord.unbound) ∧
      ((after n).use ≠ .unused → same → slot.record = s.chanRecord n) ∧
      ((after n).use ≠ .unused → ¬same → slot.record =
        { state := .unknown, latest := none, previous := none, quality := none, goodRun := 0, badRun := 0, lastGood := none,
          stale := some (s.now + seconds s.limits.stale) }) := by
  intro slot same
  have hslot : slot = ChanSlot.write (s.timer (seconds s.limits.stale)) (s.chans.get n) (after n) := bindingsWritten_get s after n
  have hsame : sameBinding (after n) (s.chans.get n).binding = true ↔ same := sameBinding_iff ..
  rw [hslot]
  refine ⟨binding_slotWrite .., fun hu => ?_, fun hu hs => ?_, fun hu hs => ?_⟩
  · unfold ChanSlot.write
    rw [if_pos hu]
  · unfold ChanSlot.write
    rw [if_neg hu, if_pos (hsame.2 hs)]
    rfl
  · unfold ChanSlot.write
    rw [if_neg hu, if_neg (mt hsame.1 hs)]
    rfl

theorem binding_bindingsWritten (n : Fin 8) : (s.bindingsWritten after).binding n = after n := (bindingsWritten_slot s after n).1

theorem surveyBinding_iff (c : Cav) (k : Binding) : surveyBinding c k = true ↔ k.use ∈ [Use.probe c, .door c] := by
  simp [surveyBinding]

theorem touchesChannels_iff (c : Cav) : s.touchesChannels after c = true ↔ ∃ n, after n ≠ s.binding n ∧
    ((s.binding n).use ∈ [Use.probe c, .door c] ∨ (after n).use ∈ [Use.probe c, .door c]) := by
  unfold State.touchesChannels
  simp only [any_indexes, Bool.and_eq_true, Bool.or_eq_true, bne_iff_ne, surveyBinding_iff]

theorem rebound_iff (u : Use) : (s.bindingsWritten after).rebound s u = true ↔ ∃ n, ((s.binding n).use = u ∨ (after n).use = u) ∧
    ¬((after n).use = (s.binding n).use ∧ (after n).node = (s.binding n).node ∧ (after n).channel = (s.binding n).channel) := by
  unfold State.rebound
  simp only [any_indexes, Bool.and_eq_true, Bool.or_eq_true, beq_iff_eq, Bool.not_eq_true', ← Bool.not_eq_true, sameBinding_iff,
    binding_bindingsWritten]

theorem mem_uses (u : Use) : u ∈ uses ↔ u ≠ .unused := by
  rcases u with _ | (_ | _) | (_ | _) | _ | _ | _ | _ <;> simp [uses]

theorem dropsAsk_ask (n : Fin 8) : (!s.dropsAsk after (.ask n)) = decide ((after n).use ≠ .unused ∧
    (after n).node = (s.binding n).node ∧ (after n).channel = (s.binding n).channel) := by
  rw [Bool.eq_iff_iff]
  simp [State.dropsAsk, and_assoc]

end

/-! ### The binding reports (R64, R73) -/

theorem watchUse_of_mem {u : Use} {w : WatchId} (h : w ∈ watchesOn u) : watchUse w = u := by
  cases u <;> simp only [watchesOn, List.mem_cons, List.not_mem_nil, or_false] at h
  case probe => rcases h with rfl | rfl | rfl | rfl <;> rfl
  case duct | bay => rcases h with rfl | rfl <;> rfl
  case mains | tacho => exact h ▸ rfl

theorem mem_watchesOn_iff {u : Use} {w : WatchId} : w ∈ watchesOn u ↔ watchUse w = u :=
  ⟨watchUse_of_mem, fun h => h ▸ mem_watchesOn w⟩

theorem foldl_loseWatch_eq (l : List WatchId) : ∀ s : State,
    l.foldl State.loseWatch s = { s with watches := (l.foldl State.loseWatch s).watches } := by
  induction l with
  | nil => exact fun _ => rfl
  | cons w l ih =>
    intro s
    have h : s.loseWatch w = { s with watches := (s.loseWatch w).watches } := by
      unfold State.loseWatch
      split <;> rfl
    rw [List.foldl_cons, ih, h]

/-- R64, R73: a binding report moves the watches alone, and the reports. -/
theorem announce_eq (s : State) (u : Use) (left entered : ChanState) : s.announce u left entered =
    { s with watches := (s.announce u left entered).watches, events := s.events ++ [.chanState u left entered] } := by
  unfold State.announce
  split
  · rw [foldl_loseWatch_eq]
    rfl
  · rfl

theorem watch_announce (s : State) (u : Use) (left entered : ChanState) (w : WatchId) : (s.announce u left entered).watch w =
    if (s.watch w).state = .met ∧ watchUse w = u ∧ left = .live then { s.watch w with state := .notMet } else s.watch w := by
  unfold State.announce
  split
  next h =>
    refine (watch_foldl_loseWatch (watchesOn u) w s).trans (if_congr ?_ rfl rfl)
    rw [mem_watchesOn_iff]
    exact ⟨fun ⟨hu, hm⟩ => ⟨hm, hu, h⟩, fun ⟨hm, hu, _⟩ => ⟨hu, hm⟩⟩
  next h =>
    simp only [h, and_false, if_false]
    rfl

/-- R64: the binding reports of the uses `us`, `left` and `entered` their states before and after. -/
theorem foldl_announce_eq (left entered : Use → ChanState) (us : List Use) : ∀ s : State,
    us.foldl (fun t u => t.announce u (left u) (entered u)) s =
      { s with watches := (us.foldl (fun t u => t.announce u (left u) (entered u)) s).watches
               events := s.events ++ us.map (fun u => .chanState u (left u) (entered u)) } := by
  induction us with
  | nil =>
    intro s
    simp
  | cons u us ih =>
    intro s
    rw [List.foldl_cons, ih, announce_eq]
    simp

theorem watch_foldl_announce (left entered : Use → ChanState) (us : List Use) (w : WatchId) : ∀ s : State,
    (us.foldl (fun t u => t.announce u (left u) (entered u)) s).watch w =
      if (s.watch w).state = .met ∧ watchUse w ∈ us ∧ left (watchUse w) = .live then { s.watch w with state := .notMet }
      else s.watch w := by
  induction us with
  | nil => simp
  | cons u us ih =>
    intro s
    rw [List.foldl_cons, ih, watch_announce]
    by_cases hm : (s.watch w).state = .met ∧ watchUse w = u ∧ left u = .live
    · obtain ⟨hmet, rfl, hl⟩ := hm
      simp [hmet, hl]
    · rw [if_neg hm]
      refine if_congr (and_congr_right fun hmet => ?_) rfl rfl
      rw [List.mem_cons]
      exact ⟨fun ⟨h, hl⟩ => ⟨.inr h, hl⟩, fun ⟨h, hl⟩ => ⟨h.resolve_left fun e => hm ⟨hmet, e, e ▸ hl⟩, hl⟩⟩

/-- Settles O32. -/
theorem channelsWriteIsTestedThenStored : Obligations.ChannelsWriteIsTestedThenStored := by
  refine ⟨bindingOf_iff, ?_⟩
  intro s b index records write
  refine ⟨fun n hn => writeChannels_of_bad s b hn, ?_⟩
  intro new hnew after same breaks
  have hbreaks (n : Fin 8) : bindingBreaks (s.bindingsAfter index new) n = true ↔ breaks n := bindingBreaks_iff after n
  refine ⟨fun n hn hlow => ?_, fun hsound => ?_⟩
  · exact writeChannels_of_conflict b hnew
      (find?_indexes_eq_some.2 ⟨(hbreaks n).2 hn, fun m hm => (not_congr (hbreaks m)).2 (hlow m hm)⟩)
  · let t := s.bindingsWritten after
    let us := uses.filter (fun u => t.rebound s u)
    have hus (u : Use) : u ∈ us ↔ u ≠ .unused ∧ ∃ n, ((s.binding n).use = u ∨ (after n).use = u) ∧ ¬same n := by
      rw [List.mem_filter, mem_uses, rebound_iff]
    refine ⟨t.chans, t.normal, us, t.bindingReports s, s.touchesChannels after, bindingsWritten_slot s after, ?_,
      List.filter_sublist, hus, touchesChannels_iff s after, ?_, fun i => ?_, ?_⟩
    · refine List.filter_congr fun q _ => ?_
      cases q with
      | ask n => exact dropsAsk_ask s after n
      | drive | relayed => rfl
    · exact foldl_announce_eq (fun u => (s.channel u).state) (fun u => (t.channel u).state) us t
    · exact watch_foldl_announce (fun u => (s.channel u).state) (fun u => (t.channel u).state) us i t
    · exact writeChannels_of_taken b hnew (find?_indexes_eq_none.2 fun n => (not_congr (hbreaks n)).2 (hsound n))

end Sys2Proof.Machine
end

