-- ==== Sys2Proof/Proofs/Surveys.lean ====
section
/-! PROOFS. A survey: how it starts after a table write, what it decides and how it expires (R97 to R99, R122): O43. -/

namespace Sys2Proof.Machine

-- One proof at a time: proofs elaborated side by side ask for more threads than the check's memory limit leaves room for.
set_option Elab.async false

/-! ## The start (R97, R99) -/

/-- The loads that a list of engine offs names are off after it. -/
theorem isOff_engineOffs {i : Fin 16} {is : List (Fin 16)} (hi : i ∈ is) (s : State) : IsOff i (s.engineOffs is) := by
  have hoff (l : List (Fin 16)) : ∀ t : State, i ∈ l ∨ IsOff i t → IsOff i (t.engineOffs l) := by
    induction l with
    | nil => exact fun t h => h.resolve_left (List.not_mem_nil)
    | cons j l ih =>
      intro t h
      refine ih _ ?_
      rcases h with h | h
      · rcases List.mem_cons.1 h with rfl | h
        · exact .inr (isOff_engineOff t i)
        · exact .inl h
      · exact .inr (h.engineOff j)
  exact hoff is s (.inl hi)

theorem surveyBound_iff (s : State) (c : Cav) : s.surveyBound c = true ↔ (∃ n, (s.binding n).use = .probe c) ∧
    (∃ n, (s.binding n).use = .door c) ∧ ∃ i, (s.entry i).cls = .lock ∧ (s.entry i).cavity = .of c := by
  have hbind (u : Use) (hu : u ≠ .unused) : (s.bindingOfUse u).isSome = true ↔ ∃ n, (s.binding n).use = u := by
    unfold State.bindingOfUse
    rw [if_neg hu, find?_indexes_isSome]
    simp only [decide_eq_true_eq]
  unfold State.surveyBound State.cavLoad State.findLoad
  rw [Bool.and_eq_true, Bool.and_eq_true, hbind (.probe c) nofun, hbind (.door c) nofun, find?_indexes_isSome]
  simp only [Bool.and_eq_true, beq_iff_eq, and_assoc]

theorem cavityLoads_of_entry {s t : State} (h : ∀ i, t.entry i = s.entry i) (c : Cav) : t.cavityLoads c = s.cavityLoads c := by
  unfold State.cavityLoads
  simp only [h]

section
variable {s : State} {c : Cav}

theorem surveyTest_of_not (h : ¬((s.cav c).state = .survey ∧ (s.cav c).stage = .waiting ∧ s.surveyBound c = true)) :
    s.surveyTest c = s := if_neg h

/-- R97: how a survey starts. -/
theorem startSurvey_facts (s : State) (c : Cav) :
    let u := s.startSurvey c
    u.cav c = { s.cav c with
      stage := .reading, doorSeen := false, probeSeen := false, doorReport := none, survey := some (s.now + seconds 10) } ∧
    ∀ i ∈ s.cavityLoads c, (u.record i).commanded = some 0 ∧
      ((u.record i).confirmed = some 0 ∨ QItem.drive i 0 false ∈ u.urgent) ∧ ∀ r ∈ u.grantQueue, r.load ≠ i := by
  intro u
  refine ⟨by simp [u, State.startSurvey, State.timer], fun i hi => ?_⟩
  have ho := isOff_engineOffs hi
    (s.modCav c (fun k => { k with stage := .reading, doorSeen := false, probeSeen := false, doorReport := none }))
  exact ⟨ho.commanded, ho.queued.imp_right And.left, ho.free⟩

/-- The part with a cavity's survey stopped, to begin anew. -/
def State.unsurveyed (s : State) (c : Cav) : State := s.modCav c (fun k => { k with survey := none, stage := .waiting })

theorem cav_unsurveyed (s : State) (c : Cav) :
    (s.unsurveyed c).cav c = { s.cav c with survey := none, stage := .waiting } := by simp [State.unsurveyed]

theorem surveyAfterWrite_of_touched (h : (s.cav c).state = .survey) :
    s.surveyAfterWrite c true = (s.unsurveyed c).surveyTest c := if_pos ⟨h, rfl⟩

theorem surveyAfterWrite_of_untouched (s : State) (c : Cav) : s.surveyAfterWrite c false = s.surveyTest c :=
  if_neg (fun h => Bool.false_ne_true h.2)

theorem surveyAfterWrite_of_other (h : (s.cav c).state ≠ .survey) (touched : Bool) : s.surveyAfterWrite c touched = s := by
  unfold State.surveyAfterWrite
  rw [if_neg (fun x => h x.1), surveyTest_of_not (fun x => h x.1)]

end

/-! ## The decision (R98) -/

/-- R164, R166: the demand for air of a cavity that cools neither makes nor clears a stall. -/
theorem stalled_postBlower_high (s : State) (c : Cav) : (s.postBlower c .high).air.stall = .stalled ↔ s.air.stall = .stalled := by
  have hhigh : (s.blowerPosted c .high).air.highest ≠ .off := by
    intro h
    have := blowRank_le_highest (s.blowerPosted c .high).air (d := .high) (by
      have hg : (s.blowerPosted c .high).air.cavDemand.get c = .high := Two.get_set_self _ c _
      cases c <;> simp [hg])
    rw [h] at this
    exact absurd this (by decide)
  show ((s.blowerPosted c .high).followDemand s.air.highest).air.stall = .stalled ↔ _
  unfold State.followDemand
  dsimp only
  split
  · rfl
  · let v := (s.blowerPosted c .high).modAir (fun a => { a with runOn := none })
    show (v.setLevel (s.blowerPosted c .high).air.highest).air.stall = .stalled ↔ v.air.stall = .stalled
    generalize (s.blowerPosted c .high).air.highest = l at hhigh
    by_cases hl : v.air.level = l
    · rw [show v.setLevel l = v from if_pos hl]
    · obtain ⟨harm, hkeep⟩ := stall_setLevel hl
      by_cases hs : v.air.stall = .stalled
      · rw [(hkeep hhigh (.inr hs)).1]
      · by_cases hable : l ≠ .off ∧ (∃ n, (v.binding n).use = .tacho) ∧ ∃ i, (v.entry i).cls = .blower
        · rw [(harm hable hs).1]
          exact iff_of_false nofun hs
        · rw [(hkeep hhigh (.inl hable)).1]

theorem locks_enterCooldown (s : State) (c : Cav) : (s.enterCooldown c).locks = s.locks := by
  unfold State.enterCooldown
  rw [(rewatch_setWatch _ _ _ _).locks, locks_modCav, locks_setCavState, (postBlower_keeps _ c .high).1, (loadAct_driveFan _ c _).locks,
    (postConverter_keeps s c .off).1]

theorem stalled_enterCooldown (s : State) (c : Cav) : (s.enterCooldown c).air.stall = .stalled ↔ s.air.stall = .stalled := by
  have h : (s.cooled c).air.stall = s.air.stall := by
    rw [air_cooled]
    rfl
  rw [enterCooldown_eq]
  unfold State.cooling
  rw [air_setWatch, air_modCav, air_setCavState, stalled_postBlower_high, h]

/-- What the survey found, and the survey over. -/
def State.surveyed (s : State) (c : Cav) : State := s.modCav c (fun k => { k with survey := none, stage := .noStage })

/-- A cavity that the survey sends to COOLDOWN, before STOP and the stall are looked at. -/
def State.surveyCooling (s : State) (c : Cav) : State := (s.modCav c (fun k => { k with reason := .noReason })).enterCooldown c

theorem surveyCooldown_eq (s : State) (c : Cav) : s.surveyCooldown c =
    if (s.surveyCooling c).stopAsserted then (s.surveyCooling c).halt c .stop
    else if (s.surveyCooling c).air.stall = .stalled then (s.surveyCooling c).halt c .blowerStall
    else s.surveyCooling c := rfl

/-- R98, R122: what becomes of a cavity that the survey sends to COOLDOWN. -/
theorem surveyCooldown_facts (s : State) (c : Cav) :
    let u := s.surveyCooldown c
    (s.stopAsserted = false → s.air.stall ≠ .stalled → (u.cav c).state = .cooldown ∧ (u.cav c).reason = .noReason) ∧
    (s.stopAsserted = false → s.air.stall = .stalled → (u.cav c).state = .halted ∧ (u.cav c).reason = .blowerStall) ∧
    (s.stopAsserted = true → (u.cav c).state = .halted ∧ (u.cav c).reason = .stop) := by
  have hstop : (s.surveyCooling c).stopAsserted = s.stopAsserted :=
    (kept_enterCooldown (kept_modCav (Kept.refl s) c _ fun x => x) c).stopAsserted
  have hstall : (s.surveyCooling c).air.stall = .stalled ↔ s.air.stall = .stalled :=
    stalled_enterCooldown (s.modCav c (fun k => { k with reason := .noReason })) c
  intro u
  have hu : u = _ := surveyCooldown_eq s c
  rw [hu]
  refine ⟨fun h hs => ?_, fun h hs => ?_, fun h => ?_⟩
  · rw [if_neg (by rw [hstop, h]; decide), if_neg (mt hstall.1 hs)]
    simp [State.surveyCooling]
  · rw [if_neg (by rw [hstop, h]; decide), if_pos (hstall.2 hs)]
    exact halted_halt ..
  · rw [if_pos (hstop.trans h)]
    exact halted_halt ..

/-- R98, R154: the lock of a cavity that the survey sends to COOLDOWN. -/
theorem lock_surveyCooldown {s : State} {c : Cav} (h : (s.lock c).state ≠ .disengaging) :
    ((s.surveyCooldown c).lock c).state = (s.lock c).state ∧
      ((s.lock c).held = true → ((s.surveyCooldown c).lock c).held = true) := by
  have hl : (s.surveyCooling c).lock c = s.lock c := by
    unfold State.lock State.surveyCooling
    rw [locks_enterCooldown, locks_modCav]
  have hhalt (r : Reason) : ((s.surveyCooling c).halt c r).lock c = { s.lock c with held := true } := by
    obtain ⟨-, -, hk⟩ := lock_halt (s.surveyCooling c) c r
    rw [hk (by rw [hl]; exact h), hl]
  rw [surveyCooldown_eq]
  split
  · rw [hhalt]
    exact ⟨rfl, fun _ => rfl⟩
  · split
    · rw [hhalt]
      exact ⟨rfl, fun _ => rfl⟩
    · rw [hl]
      exact ⟨rfl, fun x => x⟩

section
variable {s : State} {c : Cav}

theorem decideSurvey_unlocked {door : Door} {latch : Latch} (h : surveyFinding (s.limits.mode.get c) door latch = .unlocked) :
    s.decideSurvey c door latch =
      (((s.surveyed c).setLockState c .unlocked).modCav c (fun k => { k with reason := .noReason })).openCavity c := by
  unfold State.decideSurvey
  rw [h]
  rfl

theorem decideSurvey_locked {door : Door} {latch : Latch} (h : surveyFinding (s.limits.mode.get c) door latch = .locked) :
    s.decideSurvey c door latch = ((s.surveyed c).setLockState c .locked).surveyCooldown c := by
  unfold State.decideSurvey
  rw [h]
  rfl

theorem decideSurvey_engageHold {door : Door} {latch : Latch}
    (h : surveyFinding (s.limits.mode.get c) door latch = .engageHold) :
    s.decideSurvey c door latch = (((s.surveyed c).engageLock c).holdLock c).surveyCooldown c := by
  unfold State.decideSurvey
  rw [h]
  rfl

theorem decideSurvey_halt {door : Door} {latch : Latch} (h : surveyFinding (s.limits.mode.get c) door latch = .halt) :
    s.decideSurvey c door latch = (s.surveyed c).halt c .survey := by
  unfold State.decideSurvey
  rw [h]
  rfl

end

/-- R98: the table of findings. -/
theorem surveyFinding_iff (mode : ConfirmMode) (door : Door) (latch : Latch) :
    let opens := latch = .retracted ∨ (latch = .absent ∧ door = .opened ∧ mode = .timed)
    let cools := (latch = .extended ∧ door = .closed) ∨ (latch = .absent ∧ door = .closed ∧ mode = .timed)
    (opens → surveyFinding mode door latch = .unlocked) ∧ (cools → surveyFinding mode door latch = .locked) ∧
    (latch = .travel ∧ door = .closed → surveyFinding mode door latch = .engageHold) ∧
    (¬opens → ¬cools → ¬(latch = .travel ∧ door = .closed) → surveyFinding mode door latch = .halt) := by
  cases latch <;> cases door <;> cases mode <;> decide

/-- R98, R148, R154: the lock that a survey finds between its ends, engaged and held. -/
theorem engagedAndHeld_facts {s : State} {c : Cav} (h : (s.lock c).state = .unknown) :
    let u := (s.engageLock c).holdLock c
    (u.lock c).state ≠ .disengaging ∧ (u.lock c).held = true ∧
      ((s.motor c).isSome = true → (u.lock c).state = .engaging) ∧ u.air = s.air ∧ u.stopAsserted = s.stopAsserted := by
  intro u
  obtain ⟨-, hfree, -⟩ := engageLock_facts s c
  obtain ⟨hsome, hnone⟩ := hfree (by simp [h])
  have hne : ((s.engageLock c).lock c).state ≠ .disengaging := by
    cases hm : (s.motor c).isSome with
    | true => rw [(hsome hm).1]; decide
    | false => rw [(hnone hm).1]; decide
  obtain ⟨hheld, -, hkeep⟩ := holdLock_facts (s.engageLock c) c
  have hu : u.lock c = { (s.engageLock c).lock c with held := true } := hkeep hne
  have hb : Bolts s u := ((Bolts.refl s).engageLock c).holdLock c
  have hk : Kept s u := kept_holdLock (kept_engageLock (Kept.refl s) c) c
  refine ⟨by rw [hu]; exact hne, hheld, fun hm => ?_, hb.air, hk.stopAsserted⟩
  rw [hu]
  exact (hsome hm).1

theorem locks_unbind (s : State) (c : Cav) : (s.unbind c).locks = s.locks := by
  unfold State.unbind
  split <;> rfl

theorem locks_openCavity (s : State) (c : Cav) : (s.openCavity c).locks = s.locks := by
  unfold State.openCavity
  rw [locks_setCavState, (postConverter_keeps _ c .off).1, (postBlower_keeps _ c .off).1, (clearCavWatches_keeps _ c).2.2]
  exact locks_unbind s c

/-- R98, R105: a survey that finds the door free opens the cavity. -/
theorem decideSurvey_opens {s : State} {c : Cav} {door : Door} {latch : Latch}
    (h : surveyFinding (s.limits.mode.get c) door latch = .unlocked) :
    let u := s.decideSurvey c door latch
    (u.cav c).state = .opened ∧ (u.cav c).reason = .noReason ∧ (u.lock c).state = .unlocked := by
  intro u
  have hu : u = _ := decideSurvey_unlocked h
  rw [hu]
  refine ⟨by rw [cav_openCavity], by rw [cav_openCavity]; simp, ?_⟩
  unfold State.lock
  rw [locks_openCavity, locks_modCav]
  exact congrArg LockUnit.state (lock_setLockState (s.surveyed c) c .unlocked)

/-- R98, R122: a survey that finds no state for the lock halts the cavity. -/
theorem decideSurvey_halts {s : State} {c : Cav} {door : Door} {latch : Latch} (hl : (s.lock c).state = .unknown)
    (h : surveyFinding (s.limits.mode.get c) door latch = .halt) :
    let u := s.decideSurvey c door latch
    (u.cav c).state = .halted ∧ (u.cav c).reason = .survey ∧ (u.lock c).state = .unknown := by
  intro u
  have hu : u = _ := decideSurvey_halt h
  obtain ⟨hst, hre⟩ := halted_halt (s.surveyed c) c .survey
  obtain ⟨-, -, hk⟩ := lock_halt (s.surveyed c) c .survey
  rw [hu]
  refine ⟨hst, hre, ?_⟩
  rw [hk (by rw [show (s.surveyed c).lock c = s.lock c from rfl, hl]; decide)]
  exact hl

/-- Settles O43. -/
theorem surveyStartsThenDecidesOrExpires : Obligations.SurveyStartsThenDecidesOrExpires := by
  refine ⟨?start, ?decision, fun s c e h hs => ?expiry⟩
  case start =>
    intro s c touched u there waits
    have hbound : s.surveyBound c = true ↔ there := surveyBound_iff s c
    have hbound' : (s.unsurveyed c).surveyBound c = true ↔ there := surveyBound_iff (s.unsurveyed c) c
    have hcav := cav_unsurveyed s c
    refine ⟨fun h => ?_, fun hst ht hno => ?_, fun hst ht hno => ?_, fun hst hw hyes => ?_⟩
    · rcases h with h | h
      · exact surveyAfterWrite_of_other h touched
      · obtain ⟨ht, hw⟩ := not_or.1 h
        have ht' : touched = false := Bool.eq_false_iff.2 ht
        subst ht'
        exact (surveyAfterWrite_of_untouched s c).trans (surveyTest_of_not fun x => hw x.2.1)
    · subst ht
      exact (surveyAfterWrite_of_touched hst).trans (surveyTest_of_not fun x => hno (hbound'.1 x.2.2))
    · subst ht
      exact (surveyAfterWrite_of_untouched s c).trans (surveyTest_of_not fun x => hno (hbound.1 x.2.2))
    · cases ht : touched with
      | true =>
        subst ht
        have hu : u = (s.unsurveyed c).startSurvey c :=
          (surveyAfterWrite_of_touched hst).trans (if_pos ⟨by rw [hcav]; exact hst, by rw [hcav], hbound'.2 hyes⟩)
        obtain ⟨hsur, hoff⟩ := startSurvey_facts (s.unsurveyed c) c
        rw [hu]
        refine ⟨hsur.trans ?_, hoff⟩
        rw [hcav]
        rfl
      | false =>
        subst ht
        have hu : u = s.startSurvey c := (surveyAfterWrite_of_untouched s c).trans
          (if_pos ⟨hst, hw.resolve_left (by decide), hbound.2 hyes⟩)
        rw [hu]
        exact startSurvey_facts s c
  case decision =>
    intro s c door latch hst hlock u timed opens cools
    obtain ⟨hopen, hcool, htravel, hhalt⟩ := surveyFinding_iff (s.limits.mode.get c) door latch
    have hlocked (h : cools) : u = ((s.surveyed c).setLockState c .locked).surveyCooldown c := decideSurvey_locked (hcool h)
    have hbetween (h : latch = .travel ∧ door = .closed) :
        u = (((s.surveyed c).engageLock c).holdLock c).surveyCooldown c := decideSurvey_engageHold (htravel h)
    have hlk : ((s.surveyed c).setLockState c .locked).lock c = _ := lock_setLockState (s.surveyed c) c .locked
    obtain ⟨hne, hheld, hmotor, hair, hstop⟩ := engagedAndHeld_facts (s := s.surveyed c) (c := c) hlock
    refine ⟨fun h => decideSurvey_opens (hopen h), fun h => ?_, fun hl hd hm => ?_, fun h => ?_,
      fun h h' h'' => decideSurvey_halts hlock (hhalt h h' h'')⟩
    · rw [hlocked h, (lock_surveyCooldown (by rw [hlk]; exact nofun)).1, hlk]
    · obtain ⟨hstate, hkeep⟩ := lock_surveyCooldown hne
      rw [hbetween ⟨hl, hd⟩, hstate]
      exact ⟨hmotor hm, hkeep hheld⟩
    · rcases h with h | h
      · rw [hlocked h]
        have hf := surveyCooldown_facts ((s.surveyed c).setLockState c .locked) c
        have hb := (Bolts.refl (s.surveyed c)).setLockState c .locked
        have hk := kept_setLockState (Kept.refl (s.surveyed c)) c .locked
        rwa [hb.air, hk.stopAsserted] at hf
      · rw [hbetween h]
        have hf := surveyCooldown_facts (((s.surveyed c).engageLock c).holdLock c) c
        rwa [hair, hstop] at hf
  case expiry =>
    let u := (s.advance e).halt c .survey
    have he : effect (.surveyExpired c) s = u := expire_of_running (s := s) hs (fun s => s.halt c .survey)
    obtain ⟨t, fs, n, b, hset, k, -, hv⟩ := exec_keeps (c := .surveyExpired c) nofun nofun h he
    have ku : Kept (s.advance e) u := kept_halt (Kept.refl _) c .survey
    have hsame := sameTables_effect (c := .surveyExpired c) rfl rfl s
    rw [he] at hsame
    have hcav : u.cav c = _ := cav_halt (s.advance e) c .survey
    have hp : (t.cav c).core = (u.cav c).core := hset ▸ parked_settle u c (.inr (by rw [hcav]))
    have hfield {α : Type} (f : CavCtx → α) (hf : ∀ k, f k.core = f k) : f (t.cav c) = f (u.cav c) := by
      rw [← hf, hp, hf]
    refine ⟨_, hv, k.now.trans ku.now, (hfield (·.state) fun _ => rfl).trans ?_, (hfield (·.reason) fun _ => rfl).trans ?_,
      (hfield (·.survey) fun _ => rfl).trans ?_, (hfield (·.stage) fun _ => rfl).trans ?_,
      (hfield (·.stack) fun _ => rfl).trans ?_, (hfield (·.pending) fun _ => rfl).trans ?_,
      (hfield (·.bank) fun _ => rfl).trans ?_, (hfield (·.blind) fun _ => rfl).trans ?_,
      (hfield (·.blindExpired) fun _ => rfl).trans ?_, (hsame.trans (.of_kept k)).trans .of_same⟩ <;> rw [hcav]
    · rfl
    · rfl

end Sys2Proof.Machine
end

