-- ==== Sys2Proof/Proofs/Cancels.lean ====
section
/-! PROOFS. CANCEL and CLEAR by the state of the cavity (R70, R121, R123, R152): O41. -/

namespace Sys2Proof.Machine

-- One proof at a time: proofs elaborated side by side ask for more threads than the check's memory limit leaves room for.
set_option Elab.async false

/-! ## A RELEASE request in a back-off (R103, R152) -/

section
variable {s : State} {c : Cav}

/-- R146, R152: a release that starts a travel drives the motor. -/
theorem mem_backOffLock {i : Fin 16} (h : s.motor c = some i) (p : Purpose) :
    QItem.drive i 2 false ∈ (s.backOffLock c p).urgent := by
  let v := (((s.setPurpose c p).modLock c LockUnit.stopTimers).setLockState c (travelState .release))
  have hv : v.motor c = some i := by
    have k : Kept s v := kept_setLockState (kept_modLock (kept_modLock (Kept.refl s) c _) c _) c _
    rw [← h]
    exact cavLoad_of_entry k.entry c .lock
  have hm := mem_motorRun hv .release
  show QItem.drive i 2 false ∈ ((v.motorRun c .release).travelTimers c .release).urgent
  unfold State.travelTimers
  split <;> exact hm

theorem mem_releaseLock {i : Fin 16} (h : s.motor c = some i)
    (hl : (s.lock c).state ∈ [LockState.unknown, .engaging, .locked, .jammed]) :
    QItem.drive i 2 false ∈ (s.releaseLock c).urgent := by
  have hm : (s.motor c).isSome = true := by rw [h]; rfl
  simp only [List.mem_cons, List.not_mem_nil, or_false] at hl
  rcases hl with hl | hl | hl | hl
  · rw [releaseLock_of_engaging hm (.inl hl)]
    exact mem_backOffLock (s := (s.unheld c).setAttempt c 0) h .plain
  · rw [releaseLock_of_engaging hm (.inr hl)]
    exact mem_backOffLock (s := (s.unheld c).setAttempt c 0) h .plain
  · rw [releaseLock_of_locked hm (.inl hl)]
    exact mem_backOffLock (s := s.unheld c) h .plain
  · rw [releaseLock_of_locked hm (.inr hl)]
    exact mem_backOffLock (s := s.unheld c) h .plain

end

/-- R103, R121, R152: the part in a back-off that a CANCEL began. -/
def State.cancelling (s : State) (c : Cav) : State := (s.modCav c (fun k => { k with backOff := .cancelled })).releaseLock c

theorem cancelling_facts (s : State) (c : Cav) :
    let u := s.cancelling c
    u.cav c = { s.cav c with backOff := .cancelled } ∧ (u.lock c).held = false ∧
    (∀ i, s.motor c = some i →
      ((s.lock c).state ≠ .unlocked → (u.lock c).state = .disengaging ∧ (u.lock c).purpose = .plain ∧
        (u.lock c).jam = (s.lock c).jam) ∧
      ((s.lock c).state ∈ [LockState.unknown, .engaging] → (u.lock c).attempt = 0) ∧
      ((s.lock c).state ∈ [LockState.unknown, .engaging, .locked, .jammed] → QItem.drive i 2 false ∈ u.urgent) ∧
      ((s.lock c).state = .disengaging → u.lock c = { s.lock c with held := false, purpose := .plain }) ∧
      ((s.lock c).state = .unlocked → u.lock c = { s.lock c with held := false } ∧ Event.lock c .unlocked ∈ u.events)) ∧
    (s.motor c = none → (u.lock c).state = .unlocked ∧ (u.lock c).jam = .noJam ∧ (u.lock c).attempt = 0 ∧
      Event.lock c .unlocked ∈ u.events) := by
  intro u
  let v := s.modCav c (fun k => { k with backOff := .cancelled })
  have hcav : u.cav c = v.cav c := congrArg (·.get c) ((Bolts.refl v).releaseLock c).cavs
  obtain ⟨hheld, hsome, hnone⟩ := releaseLock_facts v c
  refine ⟨hcav.trans (by simp [v]), hheld, fun i hi => ?_, fun hi => ?_⟩
  · have hm : (v.motor c).isSome = true := by rw [show v.motor c = some i from hi]; rfl
    obtain ⟨hlocked, hengaging, hunlocked, hdis, hjam⟩ := hsome hm
    refine ⟨fun h => ?_, fun h => ?_, fun h => mem_releaseLock (s := v) hi h, hdis, fun h => ⟨?_, (hunlocked h).2⟩⟩
    · cases hs : (s.lock c).state with
      | locked => exact ⟨(hlocked (.inl hs)).1, (hlocked (.inl hs)).2.1, hjam⟩
      | jammed => exact ⟨(hlocked (.inr hs)).1, (hlocked (.inr hs)).2.1, hjam⟩
      | unknown => exact ⟨(hengaging (.inl hs)).1, (hengaging (.inl hs)).2.1, hjam⟩
      | engaging => exact ⟨(hengaging (.inr hs)).1, (hengaging (.inr hs)).2.1, hjam⟩
      | unlocked => exact absurd hs h
      | disengaging =>
        have hu : u.lock c = _ := hdis hs
        rw [hu]
        exact ⟨hs, rfl, rfl⟩
    · simp only [List.mem_cons, List.not_mem_nil, or_false] at h
      exact (hengaging h).2.2
    · have hu : u = (v.unheld c).lockReport c .unlocked := releaseLock_of_unlocked (s := v) hm h
      rw [hu, lock_lockReport, lock_unheld]
      rfl
  · have hm : (v.motor c).isSome = false := by rw [show v.motor c = none from hi]; rfl
    obtain ⟨hst, hjam, hev⟩ := hnone hm
    have hu : u = _ := releaseLock_of_no_motor (s := v) hm
    refine ⟨hst, hjam, ?_, hev⟩
    rw [hu]
    simp

/-! ## CANCEL (R121) -/

section
variable {s : State} {c : Cav} {tag cavity : Byte} (hc : whichOf cavity = some c)
include hc

theorem doCancel_of_done {t : State} (h : s.cancelCavity c = (t, true)) : s.doCancel [cavity] = answerDone t := by
  unfold State.doCancel
  simp only [hc, h]

theorem doCancel_of_not_running {t : State} (h : s.cancelCavity c = (t, false)) :
    s.doCancel [cavity] = answerCode s codeNotRunning := by
  unfold State.doCancel
  simp only [hc, h]

end

/-! ## CLEAR (R123) -/

theorem clearSafe_heard (s : State) (c : Cav) : s.heard.clearSafe c = s.clearSafe c := by
  rw [heard_eq]
  rfl

theorem numOf_eq_some {v : Option ChanValue} {x : Int} : numOf v = some x ↔ v = some (.num x) := by
  rcases v with _ | _ | _ <;> simp [numOf]

/-! ## A command that is answered once its reports have been acted on (R13, R172) -/

/-- What stands of a command's effect `u` in the part that has answered it. -/
structure Answered.Leaves (u : State) (f : Frame) (t : State) : Prop where
  tables : u.SameTables t
  out : ∃ rest, t.outQueue = u.settle.outQueue ++ f :: rest
  tags : (tagsOf t.relay).Sublist (tagsOf u.settle.relay)
  parked : ∀ c, Parked c u t

theorem exec_of_answered {i : Instr} {s u : State} {f : Frame} (h : Answers i s (u.settle.place f)) :
    ∃ t, exec i s = .next t ∧ Answered.Leaves u f t := by
  let w := u.settle.place f
  have k : Kept w w.settle := kept_of_settle w
  obtain ⟨fs, n, hc, -⟩ := conclude_adds_notices w.settle
  refine ⟨_, h.trans (congrArg _ hc), ?_, ?_, k.relay, fun c => ?_⟩
  · exact (((State.SameTables.of_kept (kept_of_settle u)).trans (sameTables_place u.settle f)).trans (.of_kept k)).trans .of_same
  · obtain ⟨more, hm⟩ := k.sent
    refine ⟨more ++ fs, ?_⟩
    show w.settle.outQueue ++ fs = _
    rw [← hm]
    simp [w, State.place]
  · have hp : Parked c u.settle w.settle := parked_settle w c
    exact (parked_settle u c).trans hp

theorem cancelCavity_facts (s : State) (c : Cav) :
    ((s.cav c).state = .prepare → s.cancelCavity c = (s.backToOpen c .cancelled, true)) ∧
    ((s.cav c).state = .locking → s.cancelCavity c = (s.startBackOff c .cancelled, true)) ∧
    ((s.cav c).state = .run → s.cancelCavity c = (s.endCycle c .cancelled, true)) ∧
    ((s.cav c).state ∈ [CavState.survey, .opened, .cooldown, .release, .halted] → s.cancelCavity c = (s, false)) := by
  unfold State.cancelCavity
  cases (s.cav c).state <;> simp

/-- R123: when CLEAR finds a cavity safe. -/
theorem clearSafe_facts (s : State) (c : Cav) :
    let r := s.channel (.probe c)
    (s.stopAsserted = true ∨ s.air.stall = .stalled → s.clearSafe c = false) ∧
    (s.stopAsserted = false → s.air.stall ≠ .stalled → r.state = .live →
      (s.clearSafe c = true ↔ r.goodRun = 2 ∧ ∃ x y, r.latest = some (.num x) ∧ r.previous = some (.num y) ∧
        x ≤ s.releaseTemp c ∧ y ≤ s.releaseTemp c)) ∧
    (s.stopAsserted = false → s.air.stall ≠ .stalled → r.state ≠ .live → s.clearSafe c = (s.cav c).blindExpired) := by
  intro r
  unfold State.clearSafe State.isLive
  refine ⟨fun h => ?_, fun h hs hl => ?_, fun h hs hl => ?_⟩
  · rcases h with h | h <;> simp [h]
  · have hr : (r.state == ChanState.live) = true := beq_iff_eq.2 hl
    simp only [h, Bool.not_false, Bool.true_and, bne_iff_ne.2 hs, show ((s.channel (.probe c)).state == ChanState.live) = true from hr,
      if_true, confirmedOn_iff, numOf_eq_some, onSide, decide_eq_true_eq]
    exact ⟨fun ⟨_, hg, hv⟩ => ⟨hg, hv⟩, fun ⟨hg, hv⟩ => ⟨hl, hg, hv⟩⟩
  · have hr : (r.state == ChanState.live) = false := beq_eq_false_iff_ne.2 hl
    simp [h, bne_iff_ne.2 hs, show ((s.channel (.probe c)).state == ChanState.live) = false from hr]

theorem doClear_facts {s : State} {c : Cav} {cavity : Byte} (hc : whichOf cavity = some c) :
    ((s.cav c).state = .halted → s.clearSafe c = true → s.doClear [cavity] = answerDone (s.enterRelease c)) ∧
    ((s.cav c).state = .halted → s.clearSafe c = false → s.doClear [cavity] = answerCode s codeNotSafe) ∧
    ((s.cav c).state ≠ .halted → s.doClear [cavity] = answerCode s codeNotRunning) := by
  unfold State.doClear
  simp only [hc]
  refine ⟨fun h hs => ?_, fun h hs => ?_, fun h => if_pos h⟩ <;> rw [if_neg (not_not.2 h), hs] <;> rfl

/-- Settles O41. -/
theorem cancelAndClearActByTheState : Obligations.CancelAndClearActByTheState := by
  refine ⟨fun s tag cavity c h hp hc => ?cancel, fun s tag cavity c h hp hc => ?clear, fun s c => ?safe⟩
  case cancel =>
    have hm := managedBy_cancel tag (payload := [cavity]) (by simp)
    have hcav : s.heard.cav c = s.cav c := by rw [heard_eq]; rfl
    have hlock : s.heard.lock c = s.lock c := by rw [heard_eq]; rfl
    have hmotor : s.heard.motor c = s.motor c := by rw [heard_eq]; rfl
    obtain ⟨hprep, hlocking, hrun, hother⟩ := cancelCavity_facts s.heard c
    rw [hcav] at hprep hlocking hrun hother
    have done {t : State} (ht : s.heard.cancelCavity c = (t, true)) :
        Answers (.cancel tag [cavity]) s (t.settle.place (answerFrame tag codeDone [])) := by
      have ha := answers_managed hm h hp
      rwa [doCancel_of_done hc ht] at ha
    obtain ⟨hbegins, hgoes⟩ := startBackOff_facts s.heard c .cancelled
    refine ⟨fun hst => ?_, fun hst hb => ?_, fun hst hb => ?_, fun hst => done (hrun hst), fun hst => ?_⟩
    · obtain ⟨t, ht, hleaves⟩ := exec_of_answered (done (hprep hst))
      have hopen := cav_backToOpen s.heard c .cancelled
      have hcore : (t.cav c).core = _ := hleaves.parked c (.inl (by rw [hopen]))
      have hfield {α : Type} (f : CavCtx → α) (hf : ∀ k, f k.core = f k) :
          f (t.cav c) = f ((s.heard.backToOpen c .cancelled).cav c) := by
        rw [← hf, hcore, hf]
      obtain ⟨rest, hout⟩ := hleaves.out
      refine ⟨t, ht, (hfield (·.state) fun _ => rfl).trans (by rw [hopen]), (hfield (·.reason) fun _ => rfl).trans (by rw [hopen]),
        (hfield (·.bank) fun _ => rfl).trans (by rw [hopen]), by rw [hout]; simp, ?_⟩
      exact ((sameTables_heard s).trans (.of_kept (kept_backToOpen (Kept.refl _) c _))).trans hleaves.tables
    · have hu : s.heard.startBackOff c .cancelled = s.heard.cancelling c := hbegins (by rw [hcav]; exact hb)
      obtain ⟨hctx, hheld, hwith, hwithout⟩ := cancelling_facts s.heard c
      rw [hlock, hmotor] at hwith
      rw [hmotor] at hwithout
      refine ⟨s.heard.cancelling c, hu ▸ done (hlocking hst), ⟨by rw [hctx], ?_, hheld⟩, hwith, hwithout⟩
      rw [hctx, hcav]
      exact hst
    · have hu : s.heard.startBackOff c .cancelled = s.heard := hgoes (by rw [hcav]; exact hb)
      exact exec_managed_of_code hm h hp (doCancel_of_done hc ((hlocking hst).trans (by rw [hu])))
    · exact exec_managed_of_code hm h hp (doCancel_of_not_running hc (hother hst))
  case clear =>
    have hm := managedBy_clear tag (payload := [cavity]) (by simp)
    have hcav : s.heard.cav c = s.cav c := by rw [heard_eq]; rfl
    obtain ⟨hsafe, hunsafe, hnot⟩ := doClear_facts (s := s.heard) hc
    rw [hcav] at hsafe hunsafe hnot
    refine ⟨fun hst hs => ?_, fun hst hs => exec_managed_of_code hm h hp (hunsafe hst hs),
      fun hst => exec_managed_of_code hm h hp (hnot hst)⟩
    have ha := answers_managed hm h hp
    rwa [hsafe hst hs] at ha
  case safe =>
    intro probe level
    have hlevel : s.releaseTemp c = level := by
      simp only [level]
      unfold State.releaseTemp State.limitsOfCav
      cases (s.cav c).bank <;> rfl
    have hfacts := clearSafe_facts s c
    rw [hlevel] at hfacts
    exact ⟨clearSafe_heard s c, hfacts⟩

end Sys2Proof.Machine
end

