-- ==== Sys2Proof/Proofs/Grants.lean ====
section
/-! PROOFS. How an admitted DRIVE goes by its load's grant (R22 to R24, R48, R53 to R55): O22. -/

namespace Sys2Proof.Machine

-- One proof at a time: proofs elaborated side by side ask for more threads than the check's memory limit leaves room for.
set_option Elab.async false

/-! ## The entry that opens (R19, R22) -/

/-- The frame of an admitted DRIVE, at the level it is left at. -/
def admittedFrame (dest tag : Byte) (v : Nat) : Frame :=
  { dest := dest, src := 121, kind := 0x10, tag := tag, payload := [BitVec.ofNat 8 v] }

/-- The relay entry of an admitted DRIVE that opens now. -/
def State.openedEntry (s : State) (f : Frame) (stage : RelayStage) (carries : Bool) : RelayEntry :=
  { frame := f, stage := stage, openedAt := s.now, stageSince := s.now, hold := some (s.now + millis s.limits.hold),
    carriesGrant := carries, admitted := true }

/-- What an act on load `i`'s relay entries leaves alone. -/
def State.Elsewhere (i : Fin 16) (s t : State) : Prop :=
  (∀ j, j ≠ i → t.record j = s.record j) ∧ t.urgent = s.urgent ∧ t.cavs = s.cavs ∧ t.locks = s.locks ∧ t.air = s.air ∧
    t.chans = s.chans ∧ t.exchange = s.exchange ∧ s.SameTables t

theorem State.Elsewhere.trans {i : Fin 16} {s t u : State} (h : s.Elsewhere i t) (g : t.Elsewhere i u) : s.Elsewhere i u := by
  obtain ⟨hr, hu, hc, hl, ha, hch, hx, ht⟩ := h
  obtain ⟨gr, gu, gc, gl, ga, gch, gx, gt⟩ := g
  exact ⟨fun j hj => (gr j hj).trans (hr j hj), gu.trans hu, gc.trans hc, gl.trans hl, ga.trans ha, gch.trans hch, gx.trans hx,
    ht.trans gt⟩

/-- A change of the Relay Unit's own state and the Grant Queue. -/
theorem State.Elsewhere.of_same (i : Fin 16) {s t : State} (hl : t.loads = s.loads := by rfl) (hu : t.urgent = s.urgent := by rfl)
    (hc : t.cavs = s.cavs := by rfl) (hk : t.locks = s.locks := by rfl) (ha : t.air = s.air := by rfl)
    (hch : t.chans = s.chans := by rfl) (hx : t.exchange = s.exchange := by rfl) (hlim : t.limits = s.limits := by rfl)
    (had : t.admission = s.admission := by rfl) (hb : t.banks = s.banks := by rfl) : s.Elsewhere i t :=
  ⟨fun j _ => record_of_loads hl j, hu, hc, hk, ha, hch, hx, .of_same hlim hl hch had hb⟩

theorem elsewhere_modRecord (s : State) (i : Fin 16) (f : LoadRecord → LoadRecord) : s.Elsewhere i (s.modRecord i f) :=
  ⟨fun _ hj => record_modRecord_of_ne s hj f, rfl, rfl, rfl, rfl, rfl, rfl, sameTables_modRecord s i f⟩

theorem elsewhere_heard (s : State) (i : Fin 16) : s.Elsewhere i s.heard := by
  rw [heard_eq]
  exact .of_same i

/-! ## The acts on a grant -/

section
variable (s : State) (i : Fin 16) (f : Frame) (v : Nat)

theorem openDrive_facts : (s.openDrive i f v).relay = s.relay ++ [s.openedEntry f .queued false] ∧
    (s.openDrive i f v).normal = s.normal ++ [QItem.relayed f.tag] ∧
    (s.openDrive i f v).record i = { s.record i with commanded := some v, owner := .controller } ∧
    (s.openDrive i f v).grantQueue = s.grantQueue ∧ (s.openDrive i f v).outQueue = s.outQueue ∧
    (s.openDrive i f v).events = s.events ∧ s.Elsewhere i (s.openDrive i f v) := by
  have ho : s.Elsewhere i (s.openQueued f true) := .of_same i
  exact ⟨rfl, rfl, record_modRecord_self (s.openQueued f true) i _, rfl, rfl, rfl, ho.trans (elsewhere_modRecord ..)⟩

/-- R22, R24, R55: a DRIVE whose grant is given at once. -/
theorem grantTo_opened (ht : ∀ e ∈ s.relay, e.frame.tag ≠ f.tag) :
    let u := (s.openEntry f .grantWait true).grantTo i (.relay f.tag) v
    u.relay = s.relay ++ [s.openedEntry f .queued true] ∧ u.normal = s.normal ++ [QItem.relayed f.tag] ∧
      u.record i = { s.record i with grant := .held, commanded := some v, owner := .controller } ∧ u.grantQueue = s.grantQueue ∧
      u.events = s.events ∧ s.Elsewhere i u := by
  intro u
  have ho : s.Elsewhere i (s.openEntry f .grantWait true) := .of_same i
  let w := ((s.openEntry f .grantWait true).setGrant i .held)
  have hw : (s.openEntry f .grantWait true).Elsewhere i w := elsewhere_modRecord ..
  have hm : w.Elsewhere i ({ w with relay := u.relay, normal := u.normal }) := .of_same i
  refine ⟨?_, rfl, ?_, rfl, rfl, (ho.trans hw).trans (hm.trans (elsewhere_modRecord _ i _))⟩
  · have hmap (g : RelayEntry → RelayEntry) : s.relay.map (fun e => if e.frame.tag = f.tag then g e else e) = s.relay :=
      (List.map_congr_left fun e he => if_neg (ht e he)).trans (List.map_id' _)
    show (s.relay ++ [_]).map _ = _
    rw [List.map_append, hmap]
    simp [State.openedEntry, State.timer]
    exact ⟨rfl, rfl⟩
  · show (({ w with relay := u.relay, normal := u.normal } : State).modRecord i _).record i = _
    rw [record_modRecord_self]
    show ({ w.record i with commanded := _, owner := _ } : LoadRecord) = _
    rw [show w.record i = { s.record i with grant := .held } from record_modRecord_self (s.openEntry f .grantWait true) i _]

/-- R52: a request that waits holds no current. -/
theorem heldSum_setGrant_waiting (h : (s.record i).grant = .noGrant) : (s.setGrant i .waiting).heldSum = s.heldSum := by
  have hc : (s.setGrant i .waiting).heldCurrent = s.heldCurrent := by
    funext j
    unfold State.heldCurrent State.setGrant
    rw [record_modRecord, entry_modRecord]
    by_cases hj : j = i
    · subst hj
      simp [h]
    · rw [if_neg hj]
  unfold State.heldSum
  rw [hc]

/-- R53, R54: a relayed DRIVE that is not granted at once waits at the queue's tail, and no head is granted for it. -/
theorem joinRequest_relay {tag : Byte} (hg : (s.record i).grant = .noGrant) (hf : (s.record i).fault = .noFault)
    (hq : ∀ r ∈ s.grantQueue, r.load ≠ i) (hw : s.grantQueue ≠ [] ∨ s.fits i = false ∨ s.offCondition i = false) :
    ∃ m : Timer, s.joinRequest i (.relay tag) v = { s.setGrant i .waiting with
      grantQueue := s.grantQueue ++ [{ load := i, requester := .relay tag, level := v, joined := s.now }], minOff := m } := by
  let r : GrantRequest := { load := i, requester := .relay tag, level := v, joined := s.now }
  let w : State := ({ s with grantQueue := s.grantQueue ++ [r] } : State).setGrant i .waiting
  have hj : s.joinRequest i (.relay tag) v = w.considerIf (w.isHead i) := rfl
  rw [hj]
  cases hs : s.grantQueue with
  | cons a rest =>
    have hhead : w.isHead i = false := by
      show (match s.grantQueue ++ [r] with | [] => false | h :: _ => h.load == i) = false
      rw [hs]
      exact beq_eq_false_iff_ne.2 (hq a (by rw [hs]; exact List.mem_cons_self))
    refine ⟨s.minOff, ?_⟩
    rw [hhead]
    show w = _
    simp only [w, hs]
    rfl
  | nil =>
    have hhead : w.isHead i = true := by
      show (match s.grantQueue ++ [r] with | [] => false | h :: _ => h.load == i) = true
      rw [hs]
      exact beq_self_eq_true i
    have hrec : w.record i = { s.record i with grant := .waiting } := record_modRecord_self _ i _
    have hfits : w.fits i = s.fits i := by
      have hsum : w.heldSum = s.heldSum := heldSum_setGrant_waiting ({ s with grantQueue := s.grantQueue ++ [r] }) i hg
      have he : w.entry i = s.entry i := entry_modRecord ..
      unfold State.fits
      rw [hsum, he]
      rfl
    have hoff : w.offCondition i = s.offCondition i := by
      have he : w.entry i = s.entry i := entry_modRecord ..
      unfold State.offCondition State.offTimePassed
      rw [hrec, he]
      rfl
    have hno : ¬(w.fits i && w.offCondition i) = true := by
      rw [hfits, hoff]
      rcases hw with hw | hw | hw
      · exact absurd hs hw
      · simp [hw]
      · simp [hw]
    have hqueue : w.grantQueue = [r] := by
      show s.grantQueue ++ [r] = [r]
      rw [hs]
      rfl
    have hfault : ¬(w.record i).fault ≠ .noFault := by
      rw [hrec]
      exact not_not.2 hf
    refine ⟨w.minOffOf i, ?_⟩
    have hc : w.considerHead = { w with minOff := w.minOffOf i } := by
      unfold State.considerHead
      rw [hqueue]
      show Machine.considerUpTo 1 w = _
      unfold Machine.considerUpTo
      rw [hqueue]
      dsimp only [r]
      rw [if_neg hfault, if_neg hno]
    rw [hhead]
    show w.considerHead = _
    rw [hc]
    simp only [w, hs]
    rfl

end

/-! ## A DRIVE that supersedes a waiting one (R23) -/

section
variable {s : State} {i : Fin 16} {f : Frame} {v : Nat} {old : Byte} {e : RelayEntry} (he : s.relayEntry old = some e)
include he

theorem supersede_on (hv : 0 < v) : s.supersede i old f v = { s with
    relay := s.relay.filter (fun x => x.frame.tag != old) ++ [s.openedEntry f .grantWait false]
    outQueue := s.outQueue ++ [relayFail old e.frame.dest failSuperseded]
    grantQueue := s.grantQueue.map (fun q => if q.load = i then { q with requester := .relay f.tag, level := v } else q) } := by
  unfold State.supersede
  rw [if_pos hv, closeFail_of_entry he]
  rfl

/-- The part once the DRIVE it had waiting has closed, its request withdrawn. -/
def State.superseded (s : State) (i : Fin 16) (old dest : Byte) : State := { s.dropRequest i with
  relay := s.relay.filter (fun x => x.frame.tag != old), outQueue := s.outQueue ++ [relayFail old dest failSuperseded] }

theorem supersede_off : s.supersede i old f 0 =
    ((s.superseded i old e.frame.dest).openDrive i f 0).considerIf (s.isHead i) := by
  have hd : (s.dropRequest i).relayEntry old = some e := he
  unfold State.supersede
  rw [if_neg (lt_irrefl 0), closeFail_of_entry hd]
  rfl

end

theorem elsewhere_superseded (s : State) (i : Fin 16) (old dest : Byte) : s.Elsewhere i (s.superseded i old dest) := by
  let w : State := { s with grantQueue := s.grantQueue.filter (fun r => r.load != i) }
  have hw : s.Elsewhere i w := .of_same i
  exact (hw.trans (elsewhere_modRecord w i (fun r => { r with grant := .noGrant }))).trans (.of_same i)

theorem record_superseded (s : State) (i : Fin 16) (old dest : Byte) :
    (s.superseded i old dest).record i = { s.record i with grant := .noGrant } :=
  record_modRecord_self ({ s with grantQueue := s.grantQueue.filter (fun r => r.load != i) } : State) i
    (fun r => { r with grant := .noGrant })

/-! ## The command -/

/-- R21, R22: an admitted DRIVE goes by the grant of its load, at the level it is left at. -/
theorem effect_admits {s : State} {dest tag l : Byte} {i : Fin 16} {v : Nat} (h : s.Admits dest tag l i v) :
    effect (.controllerNodeFrame dest 0x10 tag [l]) s = s.heard.openByGrant i (admittedFrame dest tag v) v := by
  obtain ⟨hd, hp, hn, ht, hl, hle, hb, href, x, hx, hv⟩ := h
  have hentry : s.heard.entry i = s.entry i := entry_heard s i
  have hadm : s.heard.admission = s.admission := by rw [heard_eq]
  have href' : s.heard.admissionRefuses i = false := by rw [heard_eq]; exact href
  have hk : kindLevel (s.entry i) x = v := by
    have hlock : (s.entry i).cls ≠ .lock := by
      intro e
      rw [e] at hb
      cases hb
    rw [hv]
    unfold kindLevel
    simp only [hlock, ne_eq, not_false_eq_true, true_and]
  rw [effect_drive (by simp) hd hp hn ht hl,
    admitDrive_of_budgeted (l := l.toNat) (by rw [hentry]; exact hb) (driveLevel_of_byte rfl rfl) hle, href', hadm, hentry, hx]
  show s.heard.openByGrant i _ (kindLevel (s.entry i) x) = _
  rw [hk]
  rfl

section
variable {s : State} {i : Fin 16} {f : Frame} {v : Nat}

theorem openByGrant_of_drive (h : (s.record i).grant = .held ∨ ((s.record i).grant = .noGrant ∧ v = 0)) :
    s.openByGrant i f v = s.openDrive i f v := by
  unfold State.openByGrant
  rcases h with h | ⟨h, hv⟩ <;> rw [h]
  exact if_pos hv

theorem openByGrant_of_fault (h : (s.record i).grant = .noGrant) (hv : 0 < v) (hf : (s.record i).fault ≠ .noFault) :
    s.openByGrant i f v = s.refuseFrame f failWithheld := by
  unfold State.openByGrant
  rw [h]
  exact (if_neg hv.ne').trans (if_pos hf)

theorem openByGrant_of_request (h : (s.record i).grant = .noGrant) (hv : 0 < v) (hf : (s.record i).fault = .noFault) :
    s.openByGrant i f v = (s.openEntry f .grantWait true).requestGrant i (.relay f.tag) v := by
  unfold State.openByGrant
  rw [h]
  exact (if_neg hv.ne').trans (if_neg (not_not.2 hf))

theorem openByGrant_of_waiting {r : GrantRequest} {old : Byte} (h : (s.record i).grant = .waiting) (hr : s.requestOf i = some r)
    (ho : r.requester = .relay old) : s.openByGrant i f v = s.supersede i old f v := by
  obtain ⟨load, requester, level, joined⟩ := r
  obtain rfl : requester = _ := ho
  unfold State.openByGrant
  rw [h, hr]

end

/-- What the part keeps of a command's effect without reports, once its notices have been served. -/
theorem exec_opened {c : Instr} (hp : c ≠ .powerOnReset) (hh : c ≠ .resetInputHeld) {s u : State} (h : s.Ready)
    (he : effect c s = u) (hq : u.events = []) : ∃ t, exec c s = .next t ∧ t.relay = u.relay ∧ t.normal = u.normal ∧
      t.grantQueue = u.grantQueue ∧ (∀ j, t.record j = u.record j) ∧ u.outQueue <+: t.outQueue ∧ ∀ i, u.Elsewhere i t := by
  obtain ⟨fs, n, b, ht⟩ := exec_adds_notices hp hh h he hq
  exact ⟨_, ht, rfl, rfl, rfl, fun _ => rfl, List.prefix_append .., fun i => .of_same i⟩

/-- The part with the entry of an admitted DRIVE open, before its request is made. -/
def State.waitingDrive (s : State) (dest tag : Byte) (v : Nat) : State :=
  s.heard.openEntry (admittedFrame dest tag v) .grantWait true

/-- Settles O22. -/
theorem admittedDriveGoesByItsGrant : Obligations.AdmittedDriveGoesByItsGrant := by
  intro s dest tag l i v h hadm cmd opened same
  have he := effect_admits hadm
  have htags : ∀ e ∈ s.heard.relay, e.frame.tag ≠ (admittedFrame dest tag v).tag := by
    rw [relay_heard]
    exact hadm.2.2.2.1
  have hrec : s.heard.record i = s.record i := by rw [heard_eq]; rfl
  have hrelay : s.heard.relay = s.relay := relay_heard s
  have hnormal : s.heard.normal = s.normal := by rw [heard_eq]
  have hgq : s.heard.grantQueue = s.grantQueue := by rw [heard_eq]
  have hout : s.heard.outQueue = s.outQueue := by rw [heard_eq]
  have hev : s.heard.events = [] := (events_heard s).trans h.2
  have hopened (stage : RelayStage) (carries : Bool) :
      s.heard.openedEntry (admittedFrame dest tag v) stage carries = opened stage carries := by rw [heard_eq]; rfl
  have hsame := elsewhere_heard s i
  have hwfits : (s.waitingDrive dest tag v).fits i = s.fits i := by unfold State.waitingDrive; rw [heard_eq]; rfl
  have hwoff : (s.waitingDrive dest tag v).offCondition i = s.offCondition i := by unfold State.waitingDrive; rw [heard_eq]; rfl
  have hwqueue : (s.waitingDrive dest tag v).grantQueue = s.grantQueue := by unfold State.waitingDrive; rw [heard_eq]; rfl
  refine ⟨fun hg => ?drive, fun hg hv hf => ?faulted, fun hg hv hf hq hfit hoff => ?granted, fun hg hv hf hfree hw => ?waits,
    fun r old e hg hr ho hold => ⟨fun hv => ?takes, fun hv => ?off⟩⟩
  case drive =>
    rw [openByGrant_of_drive (by rw [hrec]; exact hg)] at he
    obtain ⟨orelay, onormal, orecord, oqueue, -, oevents, oelse⟩ := openDrive_facts s.heard i (admittedFrame dest tag v) v
    obtain ⟨t, ht, trelay, tnormal, tqueue, trecord, -, telse⟩ := exec_opened (c := cmd) nofun nofun h he (oevents.trans hev)
    refine ⟨t, ht, ?_, ?_, ?_, tqueue.trans (oqueue.trans hgq), (hsame.trans oelse).trans (telse i)⟩
    · rw [trelay, orelay, hrelay, hopened]
    · rw [tnormal, onormal, hnormal]
      rfl
    · rw [trecord, orecord, hrec]
  case faulted =>
    rw [openByGrant_of_fault (by rw [hrec]; exact hg) hv (by rw [hrec]; exact hf)] at he
    exact exec_of_quiet (c := cmd) nofun nofun h he hev
  case granted =>
    have hnow : (s.waitingDrive dest tag v).grantQueue.isEmpty && (s.waitingDrive dest tag v).fits i &&
        (s.waitingDrive dest tag v).offCondition i := by
      rw [hwfits, hwoff, hwqueue, hq, hfit, hoff]
      rfl
    rw [openByGrant_of_request (by rw [hrec]; exact hg) hv (by rw [hrec]; exact hf)] at he
    have hgrant : (s.waitingDrive dest tag v).requestGrant i (.relay tag) v =
        (s.waitingDrive dest tag v).grantTo i (.relay tag) v := if_pos hnow
    replace he := he.trans hgrant
    obtain ⟨orelay, onormal, orecord, oqueue, oevents, oelse⟩ := grantTo_opened s.heard i (admittedFrame dest tag v) v htags
    obtain ⟨t, ht, trelay, tnormal, tqueue, trecord, -, telse⟩ := exec_opened (c := cmd) nofun nofun h he (oevents.trans hev)
    refine ⟨t, ht, (trelay.trans orelay).trans ?_, (tnormal.trans onormal).trans ?_, ((trecord i).trans orecord).trans ?_,
      tqueue.trans (oqueue.trans (hgq.trans hq)), (hsame.trans oelse).trans (telse i)⟩
    · rw [hrelay, hopened]
    · rw [hnormal]
      rfl
    · rw [hrec]
  case waits =>
    rw [openByGrant_of_request (by rw [hrec]; exact hg) hv (by rw [hrec]; exact hf)] at he
    have hwrec : (s.waitingDrive dest tag v).record i = s.record i := hrec
    have hlater : ¬((s.waitingDrive dest tag v).grantQueue.isEmpty && (s.waitingDrive dest tag v).fits i &&
        (s.waitingDrive dest tag v).offCondition i) = true := by
      rw [hwfits, hwoff, hwqueue]
      rcases hw with hw | hw | hw <;> simp [hw]
    have hjoin : (s.waitingDrive dest tag v).requestGrant i (.relay tag) v =
        (s.waitingDrive dest tag v).joinRequest i (.relay tag) v := if_neg hlater
    obtain ⟨m, hm⟩ := joinRequest_relay (s.waitingDrive dest tag v) i v (tag := tag) (by rw [hwrec]; exact hg)
      (by rw [hwrec]; exact hf) (by rw [hwqueue]; exact hfree) (by rw [hwfits, hwoff, hwqueue]; exact hw)
    replace he := (he.trans hjoin).trans hm
    obtain ⟨t, ht, trelay, tnormal, tqueue, trecord, -, telse⟩ := exec_opened (c := cmd) nofun nofun h he hev
    have hset : s.heard.Elsewhere i ((s.waitingDrive dest tag v).setGrant i .waiting) :=
      State.Elsewhere.trans (t := s.waitingDrive dest tag v) (.of_same i) (elsewhere_modRecord _ i _)
    refine ⟨t, ht, ?_, tnormal.trans hnormal, ?_, ?_, ((hsame.trans hset).trans (.of_same i)).trans (telse i)⟩
    · rw [trelay, ← hopened .grantWait false, ← hrelay]
      rfl
    · rw [trecord]
      refine (record_modRecord_self (s.waitingDrive dest tag v) i (fun r => { r with grant := .waiting })).trans ?_
      rw [hwrec]
    · rw [tqueue, hwqueue]
      have hnow : (s.waitingDrive dest tag v).now = s.now := by unfold State.waitingDrive; rw [heard_eq]; rfl
      rw [hnow]
  case takes =>
    have hold' : s.heard.relayEntry old = some e := by rw [heard_eq]; exact hold
    rw [openByGrant_of_waiting (r := r) (by rw [hrec]; exact hg) (by rw [heard_eq]; exact hr) ho, supersede_on hold' hv] at he
    obtain ⟨t, ht, trelay, tnormal, tqueue, trecord, tout, telse⟩ := exec_opened (c := cmd) nofun nofun h he hev
    refine ⟨t, ht, ?_, ?_, ?_, (trecord i).trans hrec, tnormal.trans hnormal, (hsame.trans (.of_same i)).trans (telse i)⟩
    · rw [← hout]
      exact tout
    · rw [trelay, hrelay, hopened]
    · rw [tqueue, hgq]
      rfl
  case off =>
    subst hv
    have hold' : s.heard.relayEntry old = some e := by rw [heard_eq]; exact hold
    rw [openByGrant_of_waiting (r := r) (by rw [hrec]; exact hg) (by rw [heard_eq]; exact hr) ho, supersede_off hold'] at he
    let w := s.heard.superseded i old e.frame.dest
    obtain ⟨orelay, onormal, orecord, oqueue, oout, -, oelse⟩ := openDrive_facts w i (admittedFrame dest tag 0) 0
    have hhead : s.heard.isHead i = s.isHead i := by rw [heard_eq]; rfl
    refine ⟨w.openDrive i (admittedFrame dest tag 0) 0, ?_, ?_, ?_, ?_, ?_, ?_,
      (hsame.trans (elsewhere_superseded s.heard i old e.frame.dest)).trans oelse⟩
    · rw [← hhead]
      exact answers_of_effect (c := cmd) nofun nofun h he
    · rw [oout, ← hout]
      rfl
    · rw [orelay, ← hopened .queued false, ← hrelay]
      rfl
    · rw [oqueue, ← hgq]
      rfl
    · rw [onormal, ← hnormal]
      rfl
    · rw [orecord, record_superseded, hrec]

end Sys2Proof.Machine
end

