-- ==== Sys2Proof/Proofs/HoldExpiry.lean ====
section
/-! PROOFS. The hold timer of a relay entry that was not sent (R27, R28): O23. -/

namespace Sys2Proof.Machine

-- One proof at a time: proofs elaborated side by side ask for more threads than the check's memory limit leaves room for.
set_option Elab.async false

/-! ## When the head is considered after removals (R54) -/

theorem grantsReleased_iff (before after : State) : grantsReleased before after = true ↔
    ∃ i, (before.record i).grant = .held ∧ (after.record i).grant ≠ .held := by
  unfold grantsReleased
  simp only [any_indexes, Bool.and_eq_true, beq_iff_eq, bne_iff_ne]

theorem considerAfter_of_still {before after : State} (hg : ∀ i, (before.record i).grant = .held → (after.record i).grant = .held)
    (hq : before.headLoad = after.headLoad) : considerAfter before after = after := by
  refine if_neg fun h => ?_
  rcases Bool.or_eq_true_iff.1 h with h | h
  · obtain ⟨i, hb, ha⟩ := (grantsReleased_iff before after).1 h
    exact ha (hg i hb)
  · exact bne_iff_ne.1 h hq

theorem considerAfter_of_moved {before after : State} (hq : before.headLoad ≠ after.headLoad) :
    considerAfter before after = after.considerHead :=
  if_pos (by rw [bne_iff_ne.2 hq, Bool.or_true])

theorem considerAfter_of_released {before after : State} {i : Fin 16} (hb : (before.record i).grant = .held)
    (ha : (after.record i).grant ≠ .held) : considerAfter before after = after.considerHead :=
  if_pos (by rw [(grantsReleased_iff before after).2 ⟨i, hb, ha⟩, Bool.true_or])

/-- R54: a request taken from the queue moves its head exactly where it stood there. -/
theorem headLoad_filter {s t : State} {i : Fin 16} (ht : t.grantQueue = s.grantQueue.filter (fun r => r.load != i)) :
    (s.isHead i = true → s.headLoad ≠ t.headLoad) ∧ (s.isHead i = false → s.headLoad = t.headLoad) := by
  unfold State.isHead State.headLoad
  rw [ht]
  cases hq : s.grantQueue with
  | nil => exact ⟨nofun, fun _ => rfl⟩
  | cons a rest =>
    refine ⟨fun h => ?_, fun h => ?_⟩
    · have ha : a.load = i := beq_iff_eq.1 h
      intro he
      have hm : ((a :: rest).filter (fun r => r.load != i)).head?.map (fun r => r.load) = some i := by rw [← he, ← ha]; rfl
      obtain ⟨b, hb, hbi⟩ := Option.map_eq_some_iff.1 hm
      have := (List.mem_filter.1 (List.mem_of_mem_head? hb)).2
      exact bne_iff_ne.1 this hbi
    · have ha : a.load ≠ i := beq_eq_false_iff_ne.1 h
      rw [List.filter_cons, if_pos (bne_iff_ne.2 ha)]
      rfl

/-! ## The entry's end (R27, R28) -/

/-- The part once an expired entry has left the queues and the table, and its frame is placed. -/
def State.holdEnded (s : State) (e : RelayEntry) : State :=
  (((s.dropWait e).dropQueued e).dropRelay e.frame.tag).place (relayFail e.frame.tag e.frame.dest failExpired)

theorem expireRelay_eq (s : State) (e : RelayEntry) : s.expireRelay e = considerAfter s (s.holdEnded e) := rfl

theorem holdEnded_facts (s : State) (e : RelayEntry) :
    (s.holdEnded e).outQueue = s.outQueue ++ [relayFail e.frame.tag e.frame.dest failExpired] ∧
      (tagsOf (s.holdEnded e).relay).Sublist (tagsOf (s.relay.filter (fun x => x.frame.tag != e.frame.tag))) := by
  obtain ⟨hout, htags⟩ := drops_facts [e] s
  refine ⟨congrArg (· ++ [_]) hout, ?_⟩
  have hf (l : List RelayEntry) : tagsOf (l.filter (fun x => x.frame.tag != e.frame.tag)) =
      (tagsOf l).filter (fun t => t != e.frame.tag) := by
    unfold tagsOf
    rw [List.filter_map]
    rfl
  show (tagsOf (((s.dropWait e).dropQueued e).relay.filter (fun x => x.frame.tag != e.frame.tag))).Sublist _
  rw [hf, hf]
  exact htags.filter _

theorem kept_considerAfter (before after : State) : Kept after (considerAfter before after) :=
  kept_ite _ (kept_considerHead (Kept.refl after)) (Kept.refl after)

section
variable {s : State} {e : RelayEntry} (he : s.relayEntry e.frame.tag = some e)
include he

theorem holdEnded_of_waiting {i : Fin 16} (hst : e.stage = .grantWait) (hi : s.waitingLoad e.frame.tag = some i) :
    s.holdEnded e = { s.setGrant i .noGrant with
      grantQueue := s.grantQueue.filter (fun r => r.load != i), relay := s.relay.filter (fun x => x.frame.tag != e.frame.tag)
      outQueue := s.outQueue ++ [relayFail e.frame.tag e.frame.dest failExpired] } := by
  have hd : s.dropWait e = s.dropRequest i := by
    unfold State.dropWait
    rw [hst]
    dsimp only
    rw [hi]
    rfl
  have hq : (s.dropRequest i).dropQueued e = s.dropRequest i := by
    have hr : (s.dropRequest i).relayEntry e.frame.tag = some e := he
    unfold State.dropQueued
    rw [hr]
    exact if_neg (by rw [hst]; decide)
  unfold State.holdEnded
  rw [hd, hq]
  rfl

/-- The part without a queued entry: its frame out of the normal queue, and it out of the table. -/
def State.unqueued (s : State) (tag : Byte) : State := { s with
  normal := s.normal.filter (fun q => q != QItem.relayed tag), relay := s.relay.filter (fun x => x.frame.tag != tag) }

theorem dropQueued_of_queued (hst : e.stage = .queued) : (s.dropWait e).dropQueued e =
    if e.carriesGrant then (s.unqueued e.frame.tag).onLoad ((s.unqueued e.frame.tag).loadAt e.frame.dest) State.returnGrant
    else s.unqueued e.frame.tag := by
  have hd : s.dropWait e = s := by
    unfold State.dropWait
    rw [hst]
  rw [hd]
  unfold State.dropQueued
  rw [he]
  exact if_pos hst

theorem holdEnded_of_bare (hst : e.stage = .queued) (hc : e.carriesGrant = false) : s.holdEnded e = { s.unqueued e.frame.tag with
    outQueue := s.outQueue ++ [relayFail e.frame.tag e.frame.dest failExpired] } := by
  unfold State.holdEnded
  rw [dropQueued_of_queued he hst, hc]
  unfold State.dropRelay State.unqueued
  simp [List.filter_filter, State.place]

/-- R28: the entry that a carried grant may pass to. -/
def State.nextOn (s : State) (tag : Byte) (i : Fin 16) : Option RelayEntry :=
  (s.relay.filter (fun x => x.frame.tag != tag)).find? (fun x => x.stage == .queued && x.frame.dest == (s.entry i).node && isDriveOn x.frame)

theorem holdEnded_of_passed {i : Fin 16} {x : RelayEntry} (hst : e.stage = .queued) (hc : e.carriesGrant = true)
    (hi : s.loadAt e.frame.dest = some i) (hx : s.nextOn e.frame.tag i = some x) : s.holdEnded e = { s.unqueued e.frame.tag with
      outQueue := s.outQueue ++ [relayFail e.frame.tag e.frame.dest failExpired]
      relay := (s.relay.filter (fun x => x.frame.tag != e.frame.tag)).map
        (fun y => if y.frame.tag = x.frame.tag then { y with carriesGrant := true } else y) } := by
  have hl : (s.unqueued e.frame.tag).loadAt e.frame.dest = some i := hi
  have hret : (s.unqueued e.frame.tag).returnGrant i =
      (s.unqueued e.frame.tag).modRelay x.frame.tag (fun y => { y with carriesGrant := true }) := by
    have hq : (s.unqueued e.frame.tag).queuedOn i = some x := hx
    unfold State.returnGrant
    rw [hq]
  unfold State.holdEnded
  rw [dropQueued_of_queued he hst, hc, if_pos rfl, hl]
  show (((s.unqueued e.frame.tag).returnGrant i).dropRelay e.frame.tag).place _ = _
  rw [hret]
  have hkeep : ((s.relay.filter (fun x => x.frame.tag != e.frame.tag)).map
      (fun y => if y.frame.tag = x.frame.tag then ({ y with carriesGrant := true } : RelayEntry) else y)).filter
        (fun y => y.frame.tag != e.frame.tag) = (s.relay.filter (fun x => x.frame.tag != e.frame.tag)).map
      (fun y => if y.frame.tag = x.frame.tag then { y with carriesGrant := true } else y) := by
    refine List.filter_eq_self.2 fun y hy => ?_
    obtain ⟨z, hz, rfl⟩ := List.mem_map.1 hy
    have hzt := (List.mem_filter.1 hz).2
    split <;> exact hzt
  unfold State.modRelay State.dropRelay State.place
  dsimp only [State.unqueued]
  rw [hkeep]

theorem holdEnded_of_returned {i : Fin 16} (hst : e.stage = .queued) (hc : e.carriesGrant = true)
    (hi : s.loadAt e.frame.dest = some i) (hx : s.nextOn e.frame.tag i = none) : s.holdEnded e =
      { s.modRecord i (fun r => { r with grant := .noGrant, commanded := r.confirmed }) with
        normal := s.normal.filter (fun q => q != QItem.relayed e.frame.tag)
        relay := s.relay.filter (fun x => x.frame.tag != e.frame.tag)
        outQueue := s.outQueue ++ [relayFail e.frame.tag e.frame.dest failExpired] } := by
  have hl : (s.unqueued e.frame.tag).loadAt e.frame.dest = some i := hi
  have hret : (s.unqueued e.frame.tag).returnGrant i =
      (s.unqueued e.frame.tag).modRecord i (fun r => { r with grant := .noGrant, commanded := r.confirmed }) := by
    have hq : (s.unqueued e.frame.tag).queuedOn i = none := hx
    unfold State.returnGrant
    rw [hq]
  unfold State.holdEnded
  rw [dropQueued_of_queued he hst, hc, if_pos rfl, hl]
  show (((s.unqueued e.frame.tag).returnGrant i).dropRelay e.frame.tag).place _ = _
  rw [hret]
  unfold State.modRecord State.dropRelay State.place State.unqueued
  simp [List.filter_filter]
  rfl

end

theorem effect_relayEntryExpired {s : State} {tag : Byte} {e : RelayEntry} {h : Time} (he : s.relayEntry tag = some e)
    (hh : e.hold = some h) : effect (.relayEntryExpired tag) s = (s.advance h).expireRelay e := by
  show s.holdExpires tag = _
  unfold State.holdExpires
  rw [he]
  exact expire_of_running (s := s) hh (fun s => s.expireRelay e)

/-- Settles O23. -/
theorem holdExpiryClosesTheEntry : Obligations.HoldExpiryClosesTheEntry := by
  intro s tag e h hr he hh cmd w rest out unqueued other
  have ht : e.frame.tag = tag := tag_of_relayEntry he
  subst ht
  have hex := effect_relayEntryExpired he hh
  have hw : s.advance h = w := rfl
  have hwe : w.relayEntry e.frame.tag = some e := he
  rw [hw, expireRelay_eq] at hex
  refine ⟨?_, fun i hst hi hg => ?_, fun hst hc => ?_, fun i hst hc hi => ⟨fun x hx => ?_, fun hx hg => ?_⟩⟩
  · obtain ⟨t, fs, n, b, -, k, -, ht⟩ := exec_keeps (c := cmd) nofun nofun hr hex
    have hk := (kept_considerAfter w (w.holdEnded e)).trans k
    obtain ⟨hout, htags⟩ := holdEnded_facts w e
    have hsub : (tagsOf t.relay).Sublist (tagsOf rest) := hk.relay.trans htags
    have hsame := sameTables_effect (c := cmd) rfl rfl s
    rw [hex] at hsame
    have hnone : t.relayEntry e.frame.tag = none := relayEntry_eq_none fun x hx hxt => by
      have hm : e.frame.tag ∈ tagsOf rest := hsub.subset (List.mem_map.2 ⟨x, hx, hxt⟩)
      obtain ⟨y, hy, hyt⟩ := List.mem_map.1 hm
      exact bne_iff_ne.1 (List.mem_filter.1 hy).2 hyt
    refine ⟨_, ht, k.now.trans (kept_expireRelay (Kept.refl w) hwe).now, hnone, hsub, ?_, (hsame.trans (.of_kept k)).trans .of_same⟩
    refine (List.IsPrefix.trans ?_ hk.sent).trans (List.prefix_append ..)
    rw [hout]
  · rw [holdEnded_of_waiting hwe hst hi] at hex
    obtain ⟨hmoves, hstays⟩ := headLoad_filter (s := w) (t := { w.setGrant i .noGrant with
      grantQueue := w.grantQueue.filter (fun r => r.load != i), relay := rest, outQueue := out }) (i := i) rfl
    cases hhead : s.isHead i with
    | true => exact answers_of_effect (c := cmd) nofun nofun hr (hex.trans (considerAfter_of_moved (hmoves hhead)))
    | false =>
      refine answers_of_effect (c := cmd) nofun nofun hr (hex.trans (considerAfter_of_still (fun j hj => ?_) (hstays hhead)))
      show ((w.setGrant i .noGrant).record j).grant = .held
      by_cases hji : j = i
      · subst hji
        exact absurd (hg.symm.trans hj) nofun
      · exact (congrArg LoadRecord.grant (record_modRecord_of_ne w hji _)).trans hj
  · rw [holdEnded_of_bare hwe hst hc] at hex
    exact exec_of_quiet (c := cmd) nofun nofun hr (hex.trans (considerAfter_of_still (fun _ hj => hj) rfl)) hr.2
  · rw [holdEnded_of_passed hwe hst hc hi hx] at hex
    exact exec_of_quiet (c := cmd) nofun nofun hr (hex.trans (considerAfter_of_still (fun _ hj => hj) rfl)) hr.2
  · rw [holdEnded_of_returned hwe hst hc hi hx] at hex
    refine answers_of_effect (c := cmd) nofun nofun hr (hex.trans (considerAfter_of_released (i := i) hg ?_))
    have hrec := record_modRecord_self w i (fun r => { r with grant := .noGrant, commanded := r.confirmed })
    intro h
    exact absurd ((congrArg LoadRecord.grant hrec).symm.trans h) nofun

end Sys2Proof.Machine
end

