-- ==== Sys2Proof/Proofs/Silence.lean ====
section
/-! PROOFS. The link falls silent: the takeover, the loads the controller left on, and LINK-LOST in RUN (R17, R39, R130, R133): O24. -/

namespace Sys2Proof.Machine

-- One proof at a time: proofs elaborated side by side ask for more threads than the check's memory limit leaves room for.
set_option Elab.async false

/-! ## The counts of a context while segments are entered (R106 to R115) -/

section
variable (s : State) (c : Cav) (g : Segment)

@[simp] theorem counts_startShort : ((s.startShort c g).cav c).counts = (s.cav c).counts := by
  unfold State.startShort
  split
  · split <;> simp
  · rfl

@[simp] theorem counts_startRamp (long : Time) : ((s.startRamp c g long).cav c).counts = (s.cav c).counts := by
  unfold State.startRamp State.takeEntryTemp
  dsimp only
  split <;> simp

@[simp] theorem counts_placeHold (left : Time) : ((s.placeHold c g left).cav c).counts = (s.cav c).counts := by
  unfold State.placeHold
  split
  · split <;> simp
  · simp

@[simp] theorem counts_startSoak (left : Time) : ((s.startSoak c g left).cav c).counts = (s.cav c).counts := by
  unfold State.startSoak
  split <;> simp

theorem counts_outfitted (n : Nat) : ((s.outfitted c n).cav c).counts = (s.cav c).counts := by rw [cav_outfitted]

theorem counts_enterTimed (n : Nat) (resume : Option Resume) : ((s.enterTimed c n resume).cav c).counts = (s.cav c).counts := by
  have ho := counts_outfitted s c n
  cases hk : (s.segmentAt c n).kind
  case ramp => simpa [enterTimed_of_ramp hk, State.setCeiling] using ho
  case soak => simpa [enterTimed_of_soak hk, State.setCeiling] using ho
  case cool => simpa [enterTimed_of_cool hk, State.setCeiling, State.startCool] using ho
  all_goals
    unfold State.enterTimed
    dsimp only
    rw [hk]
    exact ho

/-- With nothing pending a zero-time segment takes no cause, and leaves nothing pending. -/
theorem counts_actZero (hp : (s.cav c).pending = Vector.replicate 6 false) :
    ((s.actZero c g).1.cav c).counts = (s.cav c).counts ∧ ((s.actZero c g).1.cav c).pending = Vector.replicate 6 false := by
  have hend (r : Reason) : ((s.endCycle c r).cav c).counts = (s.cav c).counts ∧
      ((s.endCycle c r).cav c).pending = Vector.replicate 6 false := by rw [cav_endCycle]; exact ⟨rfl, rfl⟩
  cases hg : g.kind
  case ret =>
    cases hs : (s.cav c).stack with
    | nil =>
      unfold State.actZero State.doReturn
      rw [hg, hs]
      exact hend _
    | cons e rest =>
      rw [actZero_return hg hs hp]
      simpa using hp
  all_goals
    unfold State.actZero
    rw [hg]
  case check => exact ⟨rfl, hp⟩
  case mark => simpa using hp
  case fin => exact hend _
  all_goals exact ⟨rfl, hp⟩

end

/-- R106, R138: a walk that starts with nothing pending takes no cause. -/
theorem counts_walk (c : Cav) (n : Nat) : ∀ (s : State) (g : Nat), (s.cav c).pending = Vector.replicate 6 false →
    ((walk n s c g).cav c).counts = (s.cav c).counts := by
  induction n with
  | zero =>
    intro s g _
    rw [walk_zero]
    split
    · exact counts_enterTimed ..
    · rw [cav_endCycle]
      simp
  | succ n ih =>
    intro s g hp
    have hpass : ((s.passZero c g).cav c).counts = (s.cav c).counts ∧
        ((s.passZero c g).cav c).pending = Vector.replicate 6 false := by simpa [State.passZero, State.setCeiling] using hp
    obtain ⟨hcounts, hpend⟩ := counts_actZero (s.passZero c g) c (s.segmentAt c g) hpass.2
    rw [hpass.1] at hcounts
    rw [walk_succ]
    split
    · exact counts_enterTimed ..
    · cases h : (s.passZero c g).actZero c (s.segmentAt c g) with
      | mk u x =>
        rw [h] at hcounts hpend
        cases x with
        | goto v => exact (ih u v hpend).trans hcounts
        | resume v r => exact (counts_enterTimed u c v (some r)).trans hcounts
        | done => exact hcounts

/-- R126, R133: a cause raised outside a chain, with nothing pending, is taken and counted once. -/
theorem counts_raise {s : State} {c : Cav} (a : Cause) (h : (s.cav c).state = .run) (hb : (s.cav c).bank ≠ none)
    (hs : (s.cav c).stack = []) (hp : (s.cav c).pending = Vector.replicate 6 false) :
    ((s.raise c a).cav c).counts.get a.index = (s.cav c).counts.get a.index + 1 := by
  obtain ⟨b, hb⟩ := Option.ne_none_iff_exists'.1 hb
  let w := s.setPending c a true
  have hw : w.cav c = { s.cav c with pending := (s.cav c).pending.set a.index true } := cav_setPending s c a true
  have hpend (d : Cause) : (w.cav c).pending.get d.index = decide (d = a) := by
    rw [hw, hp]
    cases a <;> cases d <;> rfl
  have htop : (w.cav c).topPending = some a := topPending_of (by simp [hpend]) fun d hd => by
    have hne : d ≠ a := fun he => absurd hd (by rw [he]; exact lt_irrefl _)
    simp [hpend, hne]
  have htake : (w.cav c).takeable = some a := takeable_of htop (by rw [hw, hs]; exact nofun)
  have hone : ((w.counted c a).cav c).counts.get a.index = (s.cav c).counts.get a.index + 1 := by
    rw [counts_counted, if_pos rfl, hw]
  have hclear : ((w.counted c a).cav c).pending = Vector.replicate 6 false := by
    have : ((w.counted c a).cav c).pending = (w.cav c).pending.set a.index false := by simp [State.counted]
    rw [this, hw, hp]
    cases a <;> rfl
  obtain ⟨hgo, hend⟩ := raise_of_taken h htake
  have htaken := takeCause_eq (s := w) (b := b) (by rw [hw]; exact hb) a (s.resumePoint c)
  have hended (r : Reason) : (((w.counted c a).endCycle c r).cav c).counts.get a.index = (s.cav c).counts.get a.index + 1 := by
    rw [cav_endCycle]
    exact hone
  split at htaken
  · rw [hend _ htaken]
    exact hended _
  · split at htaken
    · rw [hend _ htaken]
      exact hended _
    · split at htaken
      · rw [hend _ htaken]
        exact hended _
      · rw [hgo _ _ htaken]
        have hpush := cav_pushCause (w.counted c a) c a (s.resumePoint c)
        have hwalk := counts_walk c (8 - (((w.counted c a).pushCause c a (s.resumePoint c)).cav c).zeroRun)
          ((w.counted c a).pushCause c a (s.resumePoint c)) ((s.bank b).causes.get a.index).toNat (by rw [hpush]; exact hclear)
        have h1 : ((((w.counted c a).pushCause c a (s.resumePoint c)).enterSegment c
            ((s.bank b).causes.get a.index).toNat).cav c).counts = _ := hwalk
        show ((((w.counted c a).pushCause c a (s.resumePoint c)).enterSegment c
            ((s.bank b).causes.get a.index).toNat).cav c).counts.get a.index = _
        rw [h1, hpush]
        exact hone

/-! ## The takeover (R39) -/

/-- The link has fallen silent at the moment `e`, the takeover still to be made. -/
def State.silent (s : State) (e : Time) : State := { s with now := max s.now e, live := false, silence := none }

/-- The effect of the silence timer's expiry. -/
def State.silenced (s : State) (e : Time) : State :=
  (((s.silent e).takeOver.raise .zero .linkLost).raise .one .linkLost).flagPart

theorem effect_linkSilent {s : State} {e : Time} (hl : s.live = true) (h : s.silence = some e) :
    effect .linkSilent s = s.silenced e := by
  have he : effect .linkSilent s = if s.live then s.expire s.silence State.goSilent else s := rfl
  rw [he, if_pos hl]
  exact expire_of_running (s := s) h State.goSilent

theorem takeOver_eq (s : State) :
    s.takeOver = (s.withdrawOns.engineOffs ((indexes 16).filter s.withdrawOns.leftOn)).postController .off := rfl

theorem kept_silenced (s : State) (e : Time) : Kept (s.silent e).takeOver (s.silenced e) :=
  kept_flagPart (kept_raise (kept_raise (Kept.refl _) .zero .linkLost) .one .linkLost)

theorem sameTables_takeOver (s : State) : s.SameTables s.takeOver := by
  rw [takeOver_eq]
  exact (State.SameTables.of_kept (kept_engineOffs (kept_withdrawOns (Kept.refl s)) _)).trans (sameTables_postController _ .off)

/-- What a takeover keeps: all but the controller's own demand. -/
theorem takeOver_keeps (s : State) : s.takeOver.live = s.live ∧ s.takeOver.silence = s.silence ∧ s.takeOver.now = s.now ∧
    s.takeOver.air.controllerDemand = .off := by
  let v := s.withdrawOns.engineOffs ((indexes 16).filter s.withdrawOns.leftOn)
  have hv : Kept s v := kept_engineOffs (kept_withdrawOns (Kept.refl s)) _
  have hp : Kept (v.modAir (fun a => { a with controllerDemand := .off })) s.takeOver := kept_followDemand (Kept.refl _) _
  exact ⟨hp.live.trans hv.live, hp.silence.trans hv.silence, hp.now.trans hv.now, hp.controllerDemand⟩

theorem cav_takeOver (s : State) (c : Cav) : s.takeOver.cav c = s.cav c := cav_of_apart (fun _ _ => apart_takeOver (Apart.refl ..)) c

/-- R130: each context takes LINK-LOST as it stood before the takeover. -/
theorem counts_silenced {s : State} (e : Time) {c : Cav} (h : (s.cav c).state = .run) (hb : (s.cav c).bank ≠ none)
    (hs : (s.cav c).stack = []) (hp : (s.cav c).pending = Vector.replicate 6 false) :
    ((s.silenced e).cav c).counts.get Cause.linkLost.index = (s.cav c).counts.get Cause.linkLost.index + 1 := by
  have htaken : (s.silent e).takeOver.cav c = s.cav c := cav_takeOver (s.silent e) c
  have hraise {v : State} (hv : v.cav c = s.cav c) :
      ((v.raise c .linkLost).cav c).counts.get Cause.linkLost.index = (s.cav c).counts.get Cause.linkLost.index + 1 := by
    rw [← hv] at h hb hs hp ⊢
    exact counts_raise .linkLost h hb hs hp
  have hother (v : State) {x y : Cav} (hxy : y ≠ x) : (v.raise x .linkLost).cav y = v.cav y :=
    (apart_raise (Apart.refl x x v) .linkLost).cav y hxy
  show ((((s.silent e).takeOver.raise .zero .linkLost).raise .one .linkLost).cav c).counts.get _ = _
  cases c
  · rw [hother _ (by decide)]
    exact hraise htaken
  · exact hraise ((hother _ (by decide)).trans htaken)

/-- R39 step 1: an unsent DRIVE above 0 for a budgeted load is withdrawn. -/
theorem withheld_silenced {s : State} {x : RelayEntry} {i : Fin 16} (e : Time) (hx : x ∈ s.relay) (hu : x.unsent = true)
    (hd : isDriveOn x.frame = true) (hi : s.loadAt x.frame.dest = some i) (hb : budgeted (s.entry i).cls = true) :
    (s.silenced e).Withheld x.frame.tag x.frame.dest := by
  have hpick : (isDriveOn x.frame && match (s.silent e).loadAt x.frame.dest with
      | some i => budgeted ((s.silent e).entry i).cls
      | none => false) = true := by
    have hj : (s.silent e).loadAt x.frame.dest = some i := hi
    rw [hd, hj]
    exact hb
  have hw : (s.silent e).withdrawOns.Withheld x.frame.tag x.frame.dest := withheld_of_picked (s := s.silent e) hx hu _ hpick
  let v := (s.silent e).withdrawOns.engineOffs ((indexes 16).filter (s.silent e).withdrawOns.leftOn)
  have hv : v.Withheld x.frame.tag x.frame.dest := hw.of_kept (kept_engineOffs (Kept.refl _) _)
  have hd : (v.modAir (fun a => { a with controllerDemand := .off })).Withheld x.frame.tag x.frame.dest := hv
  have ht : (s.silent e).takeOver.Withheld x.frame.tag x.frame.dest := hd.of_kept (kept_followDemand (Kept.refl _) _)
  exact ht.of_kept (kept_silenced s e)

/-- A withdrawal with nothing unsent does nothing. -/
theorem withdrawEntries_of_all_sent {s : State} (h : ∀ x ∈ s.relay, x.unsent = false) (p : RelayEntry → Bool) :
    s.withdrawEntries p = s := by
  have hnone : s.relay.filter (fun e => e.unsent && p e) = [] := by
    refine List.filter_eq_nil_iff.2 fun x hx => ?_
    rw [h x hx]
    exact Bool.false_ne_true
  have hstill : (grantsReleased s s || s.headLoad != s.headLoad) = false := by
    unfold grantsReleased
    simp
  unfold State.withdrawEntries considerAfter
  rw [hnone]
  exact if_neg (by rw [List.foldl_nil, List.foldl_nil, List.foldl_nil, hstill]; decide)

/-! ## The loads the controller left on (R39 step 2, R49) -/

/-- An engine off stands queued for the load, which is the engine's. -/
structure Recalled (i : Fin 16) (s : State) : Prop where
  free : s.freeOf i
  owner : (s.record i).owner = .engine
  commanded : (s.record i).commanded = some 0
  queued : QItem.drive i 0 false ∈ s.urgent

theorem Recalled.stands {i : Fin 16} {s t : State} (h : Recalled i s) (g : Stands i s t) : Recalled i t where
  free := g.now_free
  owner := by rw [g.record]; exact h.owner
  commanded := by rw [g.record]; exact h.commanded
  queued := g.spares.urgent _ h.queued (by simp [isDriveFor])

theorem Recalled.flagPart {i : Fin 16} {s : State} (h : Recalled i s) : Recalled i s.flagPart :=
  h.stands ((Stands.refl h.free).of_same)

theorem recalled_queueDrive {s : State} {i : Fin 16} (h : s.freeOf i) : Recalled i (s.queueDrive i 0) where
  free r m := h r (by rwa [grantQueue_queueDrive] at m)
  owner := by rw [record_queueDrive, if_pos rfl]
  commanded := by rw [record_queueDrive, if_pos rfl]
  queued := by simpa [urgentDrive] using mem_queueDrive s i 0

theorem recalled_engineOff {s : State} {i : Fin 16} {n : Nat} (h : s.freeOf i) (hc : (s.record i).commanded = some (n + 1)) :
    Recalled i (s.engineOff i) := by
  have hn : (s.record i).alreadyOff = false := by simp [LoadRecord.alreadyOff, hc]
  rw [engineOff_of_free h, hn]
  exact recalled_queueDrive h

theorem Recalled.engineOff {i : Fin 16} {s : State} (h : Recalled i s) (j : Fin 16) : Recalled i (s.engineOff j) := by
  by_cases hj : i = j
  · subst hj
    rw [engineOff_of_free h.free]
    split
    · exact h
    · exact recalled_queueDrive h.free
  · exact h.stands ((Stands.refl h.free).engineOff hj)

theorem recalled_engineOffs {i : Fin 16} {n : Nat} {is : List (Fin 16)} (hi : i ∈ is) : ∀ {s : State}, s.freeOf i →
    (s.record i).commanded = some (n + 1) → Recalled i (s.engineOffs is) := by
  have hkeep (is : List (Fin 16)) : ∀ {s : State}, Recalled i s → Recalled i (s.engineOffs is) := by
    induction is with
    | nil => exact fun h => h
    | cons j is ih => exact fun h => ih (h.engineOff j)
  induction is with
  | nil => exact fun _ _ => absurd hi List.not_mem_nil
  | cons j is ih =>
    intro s hf hc
    show Recalled i ((s.engineOff j).engineOffs is)
    by_cases hj : i = j
    · subst hj
      exact hkeep is (recalled_engineOff hf hc)
    · have hs := (Stands.refl hf).engineOff hj
      exact ih ((List.mem_cons.1 hi).resolve_left hj) hs.now_free (by rw [hs.record]; exact hc)

theorem recalled_takeOver {s : State} {i : Fin 16} {n : Nat} (h : ∀ x ∈ s.relay, x.unsent = false) (hq : s.grantQueue = [])
    (hb : budgeted (s.entry i).cls = true) (ho : (s.record i).owner = .controller)
    (hc : (s.record i).commanded = some (n + 1)) : Recalled i s.takeOver := by
  have hleft : s.leftOn i = true := by
    unfold State.leftOn
    rw [hb, ho, hc]
    rfl
  have hoff : Recalled i (s.engineOffs ((indexes 16).filter s.leftOn)) :=
    recalled_engineOffs (List.mem_filter.2 ⟨by simp [indexes], hleft⟩) (by simp [State.freeOf, hq]) hc
  have hblow : (s.entry i).cls ≠ .blower := fun he => by rw [he] at hb; exact nomatch hb
  have hw : s.withdrawOns = s := withdrawEntries_of_all_sent h _
  rw [takeOver_eq, hw]
  let v := s.engineOffs ((indexes 16).filter s.leftOn)
  have hv : (v.entry i).cls ≠ .blower := by rw [(kept_engineOffs (Kept.refl s) _).entry]; exact hblow
  have hd : Stands i v (v.modAir (fun a => { a with controllerDemand := .off })) := (Stands.refl hoff.free).of_same
  exact hoff.stands (hd.followDemand hv _)

theorem silenced_of_no_run {s : State} (e : Time) (h : ∀ c, (s.cav c).state ≠ .run) :
    s.silenced e = (s.silent e).takeOver.flagPart := by
  have hn (c : Cav) : ((s.silent e).takeOver.cav c).state ≠ .run := by
    rw [cav_takeOver]
    exact h c
  unfold State.silenced
  rw [raise_of_not_run (hn .zero), raise_of_not_run (hn .one)]

/-- Settles O24. -/
theorem silenceTakesOver : Obligations.SilenceTakesOver := by
  intro s e hr hl he
  have hans : Answers .linkSilent s (s.silenced e) := answers_of_effect (c := .linkSilent) nofun nofun hr (effect_linkSilent hl he)
  have ks : Kept (s.silent e).takeOver (s.silenced e).settle := kept_settle (kept_silenced s e)
  obtain ⟨fs, n, hc, -⟩ := conclude_adds_notices (s.silenced e).settle
  refine ⟨⟨s.silenced e, _, hans, hans, ?_⟩, fun x i hx hu hd hi hb => ?_, fun hsent hq hrun => ⟨_, hans, fun i n hb ho hcm => ?_⟩⟩
  · obtain ⟨hlive, hsil, hnow, hdem⟩ := takeOver_keeps (s.silent e)
    rw [hc]
    have hsame : s.SameTables (s.silent e) := .of_same
    exact ⟨ks.live.trans hlive, ks.silence.trans hsil, ks.now.trans hnow, ks.controllerDemand.trans hdem, rfl,
      ((hsame.trans (sameTables_takeOver _)).trans (.of_kept ks)).trans .of_same, rfl,
      fun c h hb hs hp => counts_silenced e h hb hs hp⟩
  · have hw := (withheld_silenced e hx hu hd hi hb).of_kept (kept_of_settle (s.silenced e))
    refine ⟨_, hans.trans (congrArg _ hc), hw.1, List.mem_append_left _ hw.2⟩
  · have hrec : Recalled i (s.silent e).takeOver := recalled_takeOver (s := s.silent e) hsent hq hb ho hcm
    have hu : Recalled i (s.silenced e) := (silenced_of_no_run e hrun) ▸ hrec.flagPart
    exact ⟨hu.owner, hu.commanded, hu.queued⟩

end Sys2Proof.Machine
end

