-- ==== Sys2Proof/Proofs/Replies.lean ====
section
/-! PROOFS. A reply that ends its exchange: the tapping, the party that takes it, and what a tapped STATE does to a grant (R11, R33,
R36, R37, R46, R47, R50, R57): O26. -/

namespace Sys2Proof.Machine

-- One proof at a time: proofs elaborated side by side ask for more threads than the check's memory limit leaves room for.
set_option Elab.async false

/-! ## The frame that ends the exchange (R11, R33) -/

/-- The exchange over and its reply counted, the frame still to be tapped. -/
def State.replied (s : State) : State := State.count { s.modRx .bus Receiver.hunt with exchange := none } .bus Counters.addAccepted

/-- The reports of the tapping acted on, the reply still to be taken by its party. -/
def State.replyTapped (s : State) (f : Frame) : State := (s.replied.tap f).settle

theorem isReply_of_window {x : Exchange} {now w : Time} {f : Frame} (hp : x.phase = .window w) (hw : now ≤ w)
    (hsrc : f.src = x.frame.dest) (hdest : f.dest = x.frame.src) (htag : f.tag = x.frame.tag)
    (hk : x.expects.admits f.kind = true) (hl : replyLenGood f = true) : x.isReply now f = true := by
  unfold Exchange.isReply
  rw [hp]
  simp [hw, hsrc, hdest, htag, hk, hl]

theorem effect_exchangeReply {s : State} {x : Exchange} {f : Frame} (hlen : f.payload.length ≤ 40) (hx : s.exchange = some x)
    (hr : x.isReply s.now f = true) : effect (.exchangeReply f) s = (s.replyTapped f).handReply x.party f := by
  have hfits : payloadFits f.payload = true := decide_eq_true hlen
  have he : effect (.exchangeReply f) s = s.frameArrives .bus f := rfl
  have hb : (s.modRx .bus Receiver.hunt).busFrame f = (s.modRx .bus Receiver.hunt).endByReply x f := by
    have hx' : (s.modRx .bus Receiver.hunt).exchange = some x := hx
    unfold State.busFrame
    rw [hx']
    exact if_pos hr
  rw [he]
  unfold State.frameArrives
  rw [if_pos hfits]
  exact hb

/-! ## What a tapping leaves (R37, R38, R46) -/

/-- What a tapping touches neither of the link nor of the line. -/
theorem tap_keeps (s : State) (f : Frame) : (s.tap f).exchange = s.exchange ∧ (s.tap f).bus = s.bus ∧ (s.tap f).now = s.now ∧
    (s.tap f).live = s.live := by
  have of_kept {u v : State} (k : Kept u v) : v.exchange = u.exchange ∧ v.bus = u.bus ∧ v.now = u.now ∧ v.live = u.live :=
    ⟨k.exchange, k.bus, k.now, k.live⟩
  unfold State.tap State.tapState
  (repeat' split)
  · rename_i i _
    exact of_kept (u := s.modRecord i (fun r => r.tapped s.now _)) (kept_tapLoad _ _ (Kept.refl _))
  · exact of_kept (Kept.refl s)
  · exact of_kept (Kept.refl s)
  · exact of_kept (kept_tapReading (Kept.refl s) f)
  · exact of_kept (Kept.refl s)

/-- R46 steps 1 and 2. -/
theorem confirmed_tap {s : State} {f : Frame} {i : Fin 16} {level cond : Byte} {v : Nat} {k : NodeCond} (hk : f.kind = 0x11)
    (hp : f.payload = [level, cond]) (hi : s.loadAt f.src = some i) (hst : stateOf (s.entry i).cls level cond = some (v, k)) :
    ((s.tap f).record i).confirmed = some v ∧ ((s.tap f).record i).condition = k := by
  have ht : s.tap f = s.tapLoad i (some (v, k)) := by
    have h1 : s.tap f = s.tapState f := if_pos hk
    rw [h1]
    unfold State.tapState
    rw [hp]
    dsimp only
    rw [hi]
    dsimp only
    rw [hst]
  have hc := (kept_tapLoad i (some (v, k)) (Kept.refl (s.modRecord i (fun r => r.tapped s.now (some (v, k)))))).confirmed i
  rw [record_modRecord_self] at hc
  rw [ht]
  exact hc

theorem chans_evalWatches (s : State) (u : Use) : (s.evalWatches u).chans = s.chans := by
  have h (l : List WatchId) : ∀ s : State, (l.foldl State.evalWatch s).chans = s.chans := by
    induction l with
    | nil => exact fun _ => rfl
    | cons w l ih => exact fun s => (ih _).trans (chans_evalWatch s w)
  exact h _ s

theorem chans_reportReading (s : State) (u : Use) (r : ChanRecord) : (s.reportReading u r).chans = s.chans := by
  unfold State.reportReading
  split <;> rfl

theorem chans_takeReading (s : State) (n : Fin 8) (q hi lo : Byte) : (s.takeReading n q hi lo).chans =
    (s.modChan n (fun _ =>
      readInto s.now (seconds s.limits.stale) (s.chanRecord n) (readValue (s.binding n).use q hi lo))).chans := by
  unfold State.takeReading
  dsimp only
  split
  · rw [chans_reportReading, chans_evalWatches, chans_reportChange]
  · rw [chans_evalWatches, chans_reportChange]

theorem chanRecord_of_chans {s t : State} (h : t.chans = s.chans) (n : Fin 8) : t.chanRecord n = s.chanRecord n := by
  unfold State.chanRecord
  rw [h]

/-- R38, R78: a tapped READING is taken by the channel of its binding. -/
theorem chans_tap_reading {s : State} {f : Frame} {n : Fin 8} {ch q hi lo : Byte} (hk : f.kind = 0x13)
    (hp : f.payload = [ch, q, hi, lo]) (hn : s.bindingFor f.src ch = some n) : (s.tap f).chans =
      (s.modChan n (fun _ =>
        readInto s.now (seconds s.limits.stale) (s.chanRecord n) (readValue (s.binding n).use q hi lo))).chans := by
  have ht : s.tap f = s.takeReading n q hi lo := by
    have h1 : s.tap f = s.tapReading f := (if_neg (by rw [hk]; decide)).trans (if_pos hk)
    rw [h1]
    unfold State.tapReading
    rw [hp]
    dsimp only
    rw [hn]
  rw [ht]
  exact chans_takeReading s n q hi lo

/-! ## The party takes the reply (R33, R36, R50) -/

theorem chans_handReply (s : State) (p : Party) (f : Frame) : (s.handReply p f).chans = s.chans := by
  cases p
  · exact (apart_closeRelay (Apart.refl .zero .zero s) _ f).chans
  · rfl
  · exact (apart_judgeDrive (Apart.refl .zero .zero s) _ _ _ _).chans
  · rfl

/-- R36: a relayed frame's entry closes with its reply. -/
theorem closeRelay_of_entry {s : State} {tag : Byte} {e : RelayEntry} (he : s.relayEntry tag = some e) (f : Frame) :
    s.closeRelay tag f =
      { s with relay := s.relay.filter (fun r => r.frame.tag != tag), outQueue := s.outQueue ++ [f] } := by
  unfold State.closeRelay
  rw [he]
  rfl

/-- R50: how a DRIVE that its outcome fails goes on. -/
theorem judgeDrive_of_failed {s : State} {i : Fin 16} {sent : Nat} {e : DriveEnd} {g : LoadFault}
    (h : driveFailure sent e = some g) (urgent : Bool) : s.judgeDrive i sent urgent e =
      if (s.record i).attempt = .first then s.repeatDrive i sent urgent else s.secondFailure i sent g := by
  unfold State.judgeDrive
  rw [h]

theorem judgeDrive_of_success {s : State} {i : Fin 16} {sent : Nat} {e : DriveEnd} (h : driveFailure sent e = none)
    (urgent : Bool) : s.judgeDrive i sent urgent e = s.modRecord i (fun r => { r with attempt := .noAttempt }) := by
  unfold State.judgeDrive
  rw [h]

theorem driveEnd_of_payload (s : State) (i : Fin 16) {f : Frame} {level cond : Byte} (hp : f.payload = [level, cond]) :
    (stateOf (s.entry i).cls level cond = none → s.driveEnd i f = .malformed) ∧
      ∀ n k, stateOf (s.entry i).cls level cond = some (n, k) → s.driveEnd i f = .state n k := by
  unfold State.driveEnd
  rw [hp]
  refine ⟨fun h => ?_, fun n k h => ?_⟩ <;> dsimp only <;> rw [h]

/-! ## What a tapped STATE does to a grant (R46, R47, R57) -/

/-- R46 steps 1 to 3: the STATE recorded, the grant of a load confirmed off considered. -/
def State.tapReleased (s : State) (i : Fin 16) (reply : Option (Nat × NodeCond)) : State :=
  let u := s.modRecord i (fun r => r.tapped s.now reply)
  if (u.record i).grant = .held ∧ (u.record i).confirmed = some 0 then u.releaseGrant i else u

/-- R46 steps 1 to 4. -/
def State.tapCleared (s : State) (i : Fin 16) (reply : Option (Nat × NodeCond)) : State :=
  (s.tapReleased i reply).modRecord i (fun r => r.cleared reply)

theorem isHead_of_free {s : State} {i : Fin 16} (h : s.freeOf i) : s.isHead i = false := by
  unfold State.isHead
  split
  · rfl
  · rename_i r rest hq
    exact beq_eq_false_iff_ne.2 (h r (by rw [hq]; exact List.mem_cons_self))

/-- A STATE of a load with no request waiting, by what it is after its steps. -/
theorem tapLoad_of_free {s u : State} {i : Fin 16} {reply : Option (Nat × NodeCond)}
    (hu : u = if (s.tapCleared i reply).isStray i then (s.tapCleared i reply).engineOff i else s.tapCleared i reply)
    (h : u.freeOf i) : s.tapLoad i reply = u.emit (.stateTapped i) := by
  have ht : s.tapLoad i reply = (u.considerIf (u.isHead i)).emit (.stateTapped i) := by
    subst hu
    rfl
  rw [ht, isHead_of_free h]
  rfl

theorem record_tapCleared (s : State) (i : Fin 16) (reply : Option (Nat × NodeCond)) :
    (s.tapCleared i reply).record i = ((s.tapReleased i reply).record i).cleared reply := record_modRecord_self ..

theorem cleared_keeps (r : LoadRecord) (reply : Option (Nat × NodeCond)) : (r.cleared reply).grant = r.grant ∧
    (r.cleared reply).confirmed = r.confirmed ∧ (r.cleared reply).offSince = r.offSince := by
  unfold LoadRecord.cleared
  split
  · exact ⟨rfl, rfl, rfl⟩
  · split <;> exact ⟨rfl, rfl, rfl⟩

theorem not_stray_of_off {s : State} {i : Fin 16} (h : (s.record i).confirmed = some 0) : s.isStray i = false := by
  unfold State.isStray
  rw [h]
  exact Bool.and_false _

theorem isOnFor_modRecord (s : State) (i j : Fin 16) (f : LoadRecord → LoadRecord) :
    (s.modRecord j f).isOnFor i = s.isOnFor i := by
  funext q
  cases q <;> simp [State.isOnFor, State.relayEntry]

theorem freeOf_tapCleared {s : State} {i : Fin 16} {reply : Option (Nat × NodeCond)} (h : (s.tapReleased i reply).freeOf i) :
    (s.tapCleared i reply).freeOf i := h

section
variable {s : State} {i : Fin 16} {k : NodeCond} (hfree : s.freeOf i) (hg : (s.record i).grant = .held)
include hfree hg

omit hfree in
/-- R57: a HELD load confirmed off has its grant considered. -/
theorem tapReleased_of_held : s.tapReleased i (some (0, k)) =
    (s.modRecord i (fun r => r.tapped s.now (some (0, k)))).releaseGrant i := by
  refine if_pos ⟨?_, ?_⟩ <;> rw [record_modRecord_self]
  · exact (grant_tapped ..).trans hg
  · rfl

/-- R57: the grant of a HELD load confirmed off, with no on queued, is released. -/
theorem tapLoad_releases (hq : s.normal.find? (s.isOnFor i) = none) :
    ((s.tapLoad i (some (0, k))).record i).grant = .noGrant ∧
      ((s.tapLoad i (some (0, k))).record i).offSince = some s.now := by
  let v := ((s.modRecord i (fun r => r.tapped s.now (some (0, k)))).modRecord i (fun r => { r with
    offSince := some s.now })).setGrant i .noGrant
  have hr : s.tapReleased i (some (0, k)) = v.considerHead := by
    have hf : (s.modRecord i (fun r => r.tapped s.now (some (0, k)))).normal.find?
        ((s.modRecord i (fun r => r.tapped s.now (some (0, k)))).isOnFor i) = none := by
      rw [isOnFor_modRecord]
      exact hq
    rw [tapReleased_of_held hg]
    unfold State.releaseGrant
    dsimp only
    rw [hf]
    rfl
  have hvfree : v.freeOf i := hfree
  have hs := Spares.considerHead hvfree
  have hrec : (s.tapReleased i (some (0, k))).record i = { (s.record i).tapped s.now (some (0, k)) with
      offSince := some s.now, grant := .noGrant } := by
    rw [hr, hs.record hvfree]
    simp [v, State.setGrant]
  have hclear := record_tapCleared s i (some (0, k))
  obtain ⟨h1, h2, h3⟩ := cleared_keeps ((s.tapReleased i (some (0, k))).record i) (some (0, k))
  rw [← hclear, hrec] at h1 h2 h3
  have hcfree : (s.tapCleared i (some (0, k))).freeOf i := freeOf_tapCleared (by rw [hr]; exact hs.free hvfree)
  rw [tapLoad_of_free (u := s.tapCleared i (some (0, k))) (by rw [not_stray_of_off (h2.trans rfl)]; rfl) hcfree]
  exact ⟨h1, h3⟩

/-- R57: with an on still queued the grant is kept for it, and carried by a relayed one. -/
theorem tapLoad_keeps {q : QItem} (hq : s.normal.find? (s.isOnFor i) = some q) :
    ((s.tapLoad i (some (0, k))).record i).grant = .held ∧
      ((s.tapLoad i (some (0, k))).record i).offSince = some s.now ∧
      ∀ tag, q = .relayed tag → ∀ e ∈ (s.tapLoad i (some (0, k))).relay, e.frame.tag = tag → e.carriesGrant = true := by
  let v := (s.modRecord i (fun r => r.tapped s.now (some (0, k)))).modRecord i (fun r => { r with offSince := some s.now })
  let w := match q with
    | .relayed tag => v.modRelay tag (fun e => { e with carriesGrant := true })
    | _ => v
  have hr : s.tapReleased i (some (0, k)) = w := by
    have hf : (s.modRecord i (fun r => r.tapped s.now (some (0, k)))).normal.find?
        ((s.modRecord i (fun r => r.tapped s.now (some (0, k)))).isOnFor i) = some q := by
      rw [isOnFor_modRecord]
      exact hq
    rw [tapReleased_of_held hg]
    unfold State.releaseGrant
    dsimp only
    rw [hf]
    cases q <;> rfl
  have hloads : w.loads = v.loads ∧ w.grantQueue = v.grantQueue := by cases q <;> exact ⟨rfl, rfl⟩
  have hrec : (s.tapReleased i (some (0, k))).record i = { (s.record i).tapped s.now (some (0, k)) with
      offSince := some s.now } := by
    rw [hr, record_of_loads hloads.1]
    simp [v]
  obtain ⟨h1, h2, h3⟩ := cleared_keeps ((s.tapReleased i (some (0, k))).record i) (some (0, k))
  rw [← record_tapCleared s i (some (0, k)), hrec] at h1 h2 h3
  have hcfree : (s.tapCleared i (some (0, k))).freeOf i := freeOf_tapCleared (by
    unfold State.freeOf
    rw [hr, hloads.2]
    exact hfree)
  rw [tapLoad_of_free (u := s.tapCleared i (some (0, k))) (by rw [not_stray_of_off (h2.trans rfl)]; rfl) hcfree]
  refine ⟨h1.trans ((grant_tapped ..).trans hg), h3, fun tag ht e he htag => ?_⟩
  have hm : e ∈ (s.tapReleased i (some (0, k))).relay := he
  rw [hr] at hm
  subst ht
  obtain ⟨x, -, rfl⟩ := List.mem_map.1 hm
  by_cases hx : x.frame.tag = tag
  · rw [if_pos hx]
  · rw [if_neg hx] at htag
    exact absurd htag hx

end

/-- R47: a load without a grant that is confirmed on is switched off. -/
theorem tapLoad_recalls {s : State} {i : Fin 16} {n : Nat} {k : NodeCond} (hfree : s.freeOf i)
    (hb : budgeted (s.entry i).cls = true) (hg : (s.record i).grant = .noGrant) :
    Recalled i (s.tapLoad i (some (n + 1, k))) := by
  have hr : s.tapReleased i (some (n + 1, k)) = s.modRecord i (fun r => r.tapped s.now (some (n + 1, k))) :=
    if_neg fun h => by
      have hc := h.2
      rw [record_modRecord_self] at hc
      exact nomatch hc
  obtain ⟨h1, h2, -⟩ := cleared_keeps ((s.tapReleased i (some (n + 1, k))).record i) (some (n + 1, k))
  rw [← record_tapCleared s i (some (n + 1, k)), hr, record_modRecord_self] at h1 h2
  have hcfree : (s.tapCleared i (some (n + 1, k))).freeOf i := freeOf_tapCleared (by rw [hr]; exact hfree)
  have hstray : (s.tapCleared i (some (n + 1, k))).isStray i = true := by
    have he : (s.tapCleared i (some (n + 1, k))).entry i = s.entry i := by
      have he : (s.tapCleared i (some (n + 1, k))).entry i = (s.tapReleased i (some (n + 1, k))).entry i := by
        simp [State.tapCleared]
      rw [he, hr]
      simp
    have hconf : ((s.tapCleared i (some (n + 1, k))).record i).confirmed = some (n + 1) := h2.trans rfl
    have hnone : ((s.tapCleared i (some (n + 1, k))).record i).grant = .noGrant := h1.trans ((grant_tapped ..).trans hg)
    unfold State.isStray
    rw [he, hb, hnone, hconf]
    rfl
  have hoff : (s.tapCleared i (some (n + 1, k))).engineOff i = (s.tapCleared i (some (n + 1, k))).queueDrive i 0 := by
    rw [engineOff_of_free hcfree]
    refine if_neg ?_
    have hconf : ((s.tapCleared i (some (n + 1, k))).record i).confirmed = some (n + 1) := h2.trans rfl
    simp [LoadRecord.alreadyOff, hconf]
  have hrec := recalled_queueDrive hcfree
  rw [tapLoad_of_free (by rw [hstray, if_pos rfl, hoff]) hrec.free]
  exact hrec.stands ((Stands.refl hrec.free).of_same)

/-- Settles O26: the exchange ends as its window allows, its party is a branch of the handing over, and the grant a case of the
tapping. -/
theorem acceptedReplyEndsTheExchange : Obligations.AcceptedReplyEndsTheExchange := by
  refine ⟨fun s x w f hr hlen hx hp hw hsrc hdest htag hk hl => ?_, fun s i k hfree => ⟨fun hg hq => ?_, fun q hg hq => ?_,
    fun n hb hg => ?_⟩⟩
  · intro cmd v
    have he : effect cmd s = v.handReply x.party f :=
      effect_exchangeReply hlen hx (isReply_of_window hp hw hsrc hdest htag hk hl)
    have hans {u : State} (hu : v.handReply x.party f = u) : Answers cmd s u :=
      answers_of_effect (c := .exchangeReply f) nofun nofun hr (he.trans hu)
    refine ⟨?_, fun tag e hparty hentry => ?relay, fun hparty => ?quiet, fun i sent urgent level cond hparty hpay => ?drive⟩
    case relay => exact hans (by rw [hparty]; exact closeRelay_of_entry hentry f)
    case quiet => exact hans (by rcases hparty with h | h <;> rw [h] <;> rfl)
    case drive =>
      have hcls : v.entry i = s.entry i := by
        have h1 : v.entry i = (s.replied.tap f).entry i := (kept_of_settle (s.replied.tap f)).entry i
        exact h1.trans ((sameTables_tap s.replied f).2.1 i)
      obtain ⟨hbad, hgood⟩ := driveEnd_of_payload v i hpay
      rw [hcls] at hbad hgood
      have hjudge (e : DriveEnd) (hd : v.driveEnd i f = e) : v.handReply x.party f = v.judgeDrive i sent urgent e := by
        rw [hparty, ← hd]
        rfl
      intro fails
      have hfails {e : DriveEnd} {g : LoadFault} (hd : v.driveEnd i f = e) (hg : driveFailure sent e = some g) : fails g :=
        ⟨fun ha => hans ((hjudge e hd).trans ((judgeDrive_of_failed hg urgent).trans (if_pos ha))),
          fun ha => hans ((hjudge e hd).trans ((judgeDrive_of_failed hg urgent).trans (if_neg ha)))⟩
      refine ⟨fun h => hfails (hbad h) rfl, fun n k h => ⟨fun hkf => hfails (hgood n k h) (if_pos hkf), fun hkf hn =>
        hfails (hgood n k h) ((if_neg hkf).trans (if_neg hn)), fun hkf hn => ?_⟩⟩
      have hnone : driveFailure sent (.state n k) = none := (if_neg hkf).trans (if_pos hn)
      exact hans ((hjudge _ (hgood n k h)).trans (judgeDrive_of_success hnone urgent))
    · have ku : Kept (s.replied.tap f) (v.handReply x.party f).settle :=
        kept_settle (kept_handReply (kept_of_settle (s.replied.tap f)) x.party f)
      have hch : (v.handReply x.party f).settle.chans = (s.replied.tap f).chans :=
        (chans_settle _).trans ((chans_handReply v x.party f).trans (chans_settle (s.replied.tap f)))
      obtain ⟨hex, hbus, hnow, hlive⟩ := tap_keeps s.replied f
      obtain ⟨fs, n, hc, -⟩ := conclude_adds_notices (v.handReply x.party f).settle
      refine ⟨_, (hans rfl).trans (congrArg _ hc), ku.exchange.trans hex, ?_, ku.now.trans hnow, ku.live.trans hlive, ?_,
        fun i level cond lv c hkind hpay hi hst => ?_, fun m ch q hb lo hkind hpay hm => ?_⟩
      · exact congrArg PortState.count (ku.bus.trans hbus)
      · have h0 : s.SameTables s.replied := .of_same
        exact ((h0.trans (sameTables_tap s.replied f)).trans (.of_kept ku)).trans .of_same
      · obtain ⟨hconf, hcond⟩ := confirmed_tap (s := s.replied) hkind hpay hi hst
        exact ⟨((ku.confirmed i).1).trans hconf, ((ku.confirmed i).2).trans hcond⟩
      · have hall := hch.trans (chans_tap_reading (s := s.replied) hkind hpay hm)
        refine ⟨(chanRecord_of_chans hall m).trans ?_, fun m' hne => (chanRecord_of_chans hall m').trans ?_⟩
        · rw [chanRecord_modChan, if_pos rfl]
          rfl
        · rw [chanRecord_modChan, if_neg hne]
          rfl
  · exact tapLoad_releases hfree hg hq
  · exact tapLoad_keeps hfree hg hq
  · have h := tapLoad_recalls (n := n) (k := k) hfree hb hg
    exact ⟨h.commanded, h.owner, h.queued⟩

end Sys2Proof.Machine
end

