-- ==== Sys2Proof/Proofs/Stops.lean ====
section
/-! PROOFS. STOP: the loads it switches off, the DRIVEs it withdraws and the cavities it halts; the reports acted on while both
cavities are at rest (R29, R117, R183): O42. -/

namespace Sys2Proof.Machine

-- One proof at a time: proofs elaborated side by side ask for more threads than the check's memory limit leaves room for.
set_option Elab.async false

/-! ## Reports acted on while both cavities are at rest -/

/-- Both cavities are in SURVEY, OPEN or HALTED. -/
def State.AtRest (s : State) : Prop :=
  ∀ c, (s.cav c).state = .survey ∨ (s.cav c).state = .opened ∨ (s.cav c).state = .halted

/-- Every report waiting is one of the acts inside the part. -/
def State.Inner (s : State) : Prop := ∀ e ∈ s.events, e.inner = true

theorem closeFail_reports (s : State) (tag reason : Byte) :
    (s.closeFail tag reason).events = s.events ∧ (s.closeFail tag reason).notices = s.notices := by
  unfold State.closeFail State.closeRelay
  cases s.relayEntry tag <;> exact ⟨rfl, rfl⟩

theorem dropWait_reports (s : State) (e : RelayEntry) :
    (s.dropWait e).events = s.events ∧ (s.dropWait e).notices = s.notices := by
  unfold State.dropWait State.onLoad
  (repeat' split) <;> exact ⟨rfl, rfl⟩

theorem dropQueued_reports (s : State) (e : RelayEntry) :
    (s.dropQueued e).events = s.events ∧ (s.dropQueued e).notices = s.notices := by
  unfold State.dropQueued State.unqueue State.onLoad State.returnGrant
  dsimp only
  (repeat' split) <;> exact ⟨rfl, rfl⟩

theorem inside_inner : Inside State.Inner where
  same h _ _ events _ _ e he := h e (events ▸ he)
  emits h hes e he := (List.mem_append.1 he).elim (h e) (hes e)
  purge _ h e he := h e (List.mem_of_mem_filter he)
  promote h _ := h
  closeFail h _ e he := h e ((closeFail_reports ..).1 ▸ he)

/-- The PART notice stays raised. -/
theorem inside_part : Inside (fun s => s.notices.part = true) where
  same h _ _ _ part _ := part h
  emits h _ := h
  purge _ h := h
  promote h _ := h
  closeFail h _ := (congrArg Notices.part (closeFail_reports ..).2).trans h

/-- A withdrawal keeps a property of the reports and the notices. -/
theorem Inside.withdrawEntries {P : State → Prop} (hP : Inside P)
    (hall : ∀ {s t : State}, P s → t.events = s.events → t.notices = s.notices → P t) {s : State} (h : P s)
    (p : RelayEntry → Bool) : P (s.withdrawEntries p) := by
  have hwait {u : State} (e : RelayEntry) (hu : P u) : P (u.dropWait e) :=
    hall hu (dropWait_reports u e).1 (dropWait_reports u e).2
  have hqueued {u : State} (e : RelayEntry) (hu : P u) : P (u.dropQueued e) :=
    hall hu (dropQueued_reports u e).1 (dropQueued_reports u e).2
  have hclosed := Inside.foldl (Inside.foldl (Inside.foldl h hwait (s.relay.filter (fun e => e.unsent && p e))) hqueued
    (s.relay.filter (fun e => e.unsent && p e))) (f := State.placeWithheld) (fun e hu => hall hu rfl rfl)
    (s.relay.filter (fun e => e.unsent && p e))
  unfold State.withdrawEntries considerAfter
  dsimp only
  split
  · exact hP.considerUpTo _ hclosed
  · exact hclosed

/-- What acting on the reports of acts inside the part leaves while both cavities are at rest. -/
structure Settling (s t : State) : Prop where
  inner : t.Inner
  core : ∀ c, (t.cav c).core = (s.cav c).core

theorem state_of_core {s t : State} {c : Cav} (h : (t.cav c).core = (s.cav c).core) :
    (t.cav c).state = (s.cav c).state ∧ (t.cav c).reason = (s.cav c).reason := by
  have hs := congrArg CavCtx.state h
  have hr := congrArg CavCtx.reason h
  exact ⟨hs, hr⟩

theorem Settling.trans {s t u : State} (h : Settling s t) (g : Settling t u) : Settling s u :=
  ⟨g.inner, fun c => (g.core c).trans (h.core c)⟩

theorem Settling.at_rest {s t : State} (h : Settling s t) (hr : s.AtRest) : t.AtRest := fun c => by
  rw [(state_of_core (h.core c)).1]
  exact hr c

/-- An act for no cavity. -/
theorem Settling.of_apart {s t : State} (h : t.Inner) (ha : ∀ a b, Apart a b s t) : Settling s t :=
  ⟨h, fun c => congrArg CavCtx.core (cav_of_apart ha c)⟩

section
variable {s : State} (h : s.Inner)
include h

theorem Settling.refl : Settling s s := ⟨h, fun _ => rfl⟩

theorem settling_refreshLit : Settling s s.refreshLit :=
  .of_apart (inside_inner.refreshLit h) fun a b => apart_refreshLit (Apart.refl a b s)

theorem settling_postBay (d : BlowLevel) : Settling s (s.postBay d) :=
  .of_apart (inside_inner.postBay h d) fun a b => apart_postBay (Apart.refl a b s) d

theorem settling_speedMet : Settling s s.speedMet :=
  .of_apart (inside_inner.speedMet h) fun a b => apart_speedMet (Apart.refl a b s)

theorem settling_speedLost : Settling s s.speedLost :=
  .of_apart (inside_inner.speedLost h) fun a b => apart_speedLost (Apart.refl a b s)

theorem settling_onRise (c : Cav) : Settling s (s.onRise c) := by
  refine ⟨inside_inner.onRise h c, fun x => ?_⟩
  by_cases hx : x = c <;> simp [State.onRise, CavCtx.core, hx]

theorem settling_jamLock (c : Cav) (j : Jam) : Settling s (s.jamLock c j) :=
  ⟨inside_inner.jamLock h c j, fun x => congrArg CavCtx.core (cav_of_lockAct (fun _ => apart_jamLock (Apart.refl ..) j) x)⟩

theorem settling_onLit (c : Cav) : Settling s (s.onLit c) := by
  refine ⟨inside_inner.onLit h c, fun x => ?_⟩
  by_cases hx : x = c
  · subst hx
    unfold State.onLit
    split
    · rw [core_startShort]
      simp [State.takeEntryTemp, CavCtx.core]
    · rfl
  · exact congrArg CavCtx.core ((apart_onLit (Apart.refl c c s)).cav x hx)

variable (hr : s.AtRest)
include hr

omit h in
theorem raise_at_rest (c : Cav) (a : Cause) : s.raise c a = s :=
  raise_of_not_run (by rcases hr c with h | h | h <;> rw [h] <;> decide) a

theorem settling_onWatch (w : WatchId) (met : Bool) : Settling s (s.onWatch w met) := by
  have hself := Settling.refl h
  have hboth (a : Cause) : s.raiseBoth a = s := by
    unfold State.raiseBoth
    rw [raise_at_rest hr, raise_at_rest hr]
  unfold State.onWatch
  cases w with
  | ceiling c => simpa only [raise_at_rest hr, ite_self] using hself
  | goal c =>
    have hg : s.onGoal c = s := if_neg (by rcases hr c with h | h | h <;> rw [h] <;> decide)
    simpa only [hg, ite_self] using hself
  | rise c => cases met <;> [exact hself; exact settling_onRise h c]
  | release c =>
    have hg : s.onRelease c met = s := if_neg (by rcases hr c with h | h | h <;> rw [h] <;> decide)
    simpa only [hg] using hself
  | dip => simpa only [hboth, ite_self] using hself
  | ductHot => simpa only [hboth, ite_self] using hself
  | light => exact settling_refreshLit h
  | bayHot => cases met <;> [exact hself; exact settling_postBay h .high]
  | bayCool => cases met <;> [exact hself; exact settling_postBay h .off]
  | speed => cases met <;> [exact settling_speedLost h; exact settling_speedMet h]

theorem settling_onFault (i : Fin 16) : Settling s (s.onFault i) := by
  have hload (c : Cav) : Settling s (s.onLoadFault c) := by
    have he : s.onLoadFault c = s := by
      unfold State.onLoadFault
      rcases hr c with h | h | h <;> rw [h]
    rw [he]
    exact .refl h
  unfold State.onFault
  split
  · exact hload _
  · exact hload _
  · exact hload _
  · exact settling_jamLock h _ .motorFault
  all_goals exact .refl h

theorem settling_handle {e : Event} (he : e.inner = true) : Settling s (s.handle e) := by
  unfold State.handle
  cases e with
  | watch w met => exact settling_onWatch h hr w met
  | loadFault i => exact settling_onFault h hr i
  | converterFault zero one =>
    have hs : s.onConverterFault zero one = s := by
      unfold State.onConverterFault
      dsimp only
      rw [raise_at_rest hr .zero, ite_self, raise_at_rest hr .one, ite_self]
    have ht : Settling s (s.onConverterFault zero one) := by rw [hs]; exact .refl h
    exact ht
  | lock c r =>
    have hs : s.onLockReport c r = s := by
      unfold State.onLockReport
      rcases hr c with h | h | h <;> rw [h]
    have ht : Settling s (s.onLockReport c r) := by rw [hs]; exact .refl h
    exact ht
  | lit now =>
    have hz := settling_onLit h .zero
    cases now <;> [exact .refl h; exact hz.trans (settling_onLit hz.inner .one)]
  | chanState | doorReport | probeReading | stateTapped | offFailed | stalled | holdDone => exact nomatch he

end

/-- At rest the reports of acts inside the part move no cavity, and lead to no others. -/
theorem settling_settleUpTo (n : Nat) : ∀ {s : State}, s.Inner → s.AtRest → Settling s (settleUpTo n s) := by
  induction n with
  | zero => exact fun h _ => .refl h
  | succ n ih =>
    intro s h hr
    unfold settleUpTo
    split
    · exact .refl h
    · rename_i e rest hq
      have h0 : ({ s with events := rest } : State).Inner := fun x hx => h x (by rw [hq]; exact List.mem_cons_of_mem e hx)
      have h1 := settling_handle h0 hr (h e (by rw [hq]; exact List.mem_cons_self))
      have h2 : Settling s (({ s with events := rest } : State).handle e) := ⟨h1.inner, h1.core⟩
      exact h2.trans (ih h1.inner (h1.at_rest hr))

/-! ## A load that an act switches off stays off while its cavity halts (R49, R122) -/

section
variable {i : Fin 16} {s : State} (h : IsOff i s)
include h

theorem IsOff.of_stands_self {t : State} (g : Stands i s s → Stands i s t) : IsOff i t := h.stands (g (Stands.refl h.free))

theorem IsOff.engineOffOf (j : Option (Fin 16)) : IsOff i (s.onLoad j State.engineOff) := by
  cases j with
  | none => exact h
  | some j => exact h.engineOff j

theorem IsOff.heatersOff (c : Cav) : IsOff i (s.heatersOff c) := by
  unfold State.heatersOff
  generalize positions = ps
  induction ps generalizing s with
  | nil => exact h
  | cons p ps ih => exact ih (h.engineOffOf (s.heater c p))

theorem IsOff.endWindow (c : Cav) : IsOff i (s.endWindow c) := by
  have hw : IsOff i (s.windowEnded c) := h.of_stands_self fun g => g.of_same
  exact hw.heatersOff c

/-- R167: withdrawing a converter demand switches nothing on. -/
theorem IsOff.converterWithdrawn (c : Cav) : IsOff i (s.postConverter c .off) := by
  have hp : IsOff i (s.converterPosted c .off) := h.of_stands_self fun g => g.of_same
  rw [postConverter_eq, if_neg (by decide)]
  split
  · exact hp.engineOffOf _
  · exact hp

end

/-- R122: a heater or the converter that is off stays off. -/
theorem IsOff.halt {i : Fin 16} {s : State} (h : IsOff i s) (hh : (s.entry i).cls.heating = true) (c : Cav) (r : Reason) :
    IsOff i (s.halt c r) := by
  have hr : IsOff i (s.setReason c r) := h.of_stands_self fun g => g.setReason c r
  have hheat : IsOff i ((s.setReason c r).haltHeaters c) := by
    unfold State.haltHeaters
    split
    · exact hr.endWindow c
    · exact hr.heatersOff c
  let v := ((s.setReason c r).haltHeaters c).postConverter c .off
  have hv : IsOff i v := hheat.converterWithdrawn c
  have he : v.entry i = s.entry i :=
    (kept_postConverter (kept_haltHeaters (kept_setReason (Kept.refl s) c r) c) c .off).entry i
  have hne (k : LoadClass) (hk : k.heating = false) : (v.entry i).cls ≠ k := fun hx => by
    rw [he] at hx
    rw [hx, hk] at hh
    exact nomatch hh
  have hout : Stands i v (s.haltOutputs c r) :=
    ((Stands.refl hv.free).driveFan (hne .fan rfl) c _).postBlower (hne .blower rfl) c .high
  rw [halt_eq]
  exact hv.stands (hout.halted (hne .lock rfl) c)

theorem IsOff.haltActive {i : Fin 16} {s : State} (h : IsOff i s) (hh : (s.entry i).cls.heating = true) (c : Cav) (r : Reason) :
    IsOff i (s.haltActive c r) := by
  unfold State.haltActive
  cases (s.cav c).state
  case survey | opened | halted => exact h
  all_goals exact h.halt hh c r

/-- R49: with no request waiting an engine off only queues its DRIVE. -/
theorem engineOffs_of_no_requests (is : List (Fin 16)) : ∀ {s : State}, s.grantQueue = [] →
    (s.engineOffs is).grantQueue = [] ∧ (s.engineOffs is).relay = s.relay ∧ (s.engineOffs is).outQueue = s.outQueue ∧
      (s.engineOffs is).events = s.events := by
  induction is with
  | nil => exact fun h => ⟨h, rfl, rfl, rfl⟩
  | cons i is ih =>
    intro s h
    have hf : s.freeOf i := by simp [State.freeOf, h]
    have hq : (s.queueDrive i 0).grantQueue = [] ∧ (s.queueDrive i 0).relay = s.relay ∧
        (s.queueDrive i 0).outQueue = s.outQueue ∧ (s.queueDrive i 0).events = s.events := by
      refine ⟨(grantQueue_queueDrive s i 0).trans h, ?_, ?_, events_queueDrive s i 0⟩ <;>
        unfold State.queueDrive State.mergeDrive <;> split <;> rfl
    have hone : (s.engineOff i).grantQueue = [] ∧ (s.engineOff i).relay = s.relay ∧ (s.engineOff i).outQueue = s.outQueue ∧
        (s.engineOff i).events = s.events := by
      rw [engineOff_of_free hf]
      split
      · exact ⟨h, rfl, rfl, rfl⟩
      · exact hq
    obtain ⟨hg, hr, ho, he⟩ := ih hone.1
    exact ⟨hg, hr.trans hone.2.1, ho.trans hone.2.2.1, he.trans hone.2.2.2⟩

/-! ## An assertion of STOP (R183) -/

/-- The line asserted, the notice raised. -/
def State.stopping (s : State) : State := ({ s with stopAsserted := true }).flagPart

/-- The loads switched off and the DRIVEs withdrawn, the cavities still to halt. -/
def State.stopOutputs (s : State) : State := (s.stopping.engineOffs s.stopping.stopLoads).withdrawHeating

theorem effect_stopAsserted {s : State} (h : s.stopAsserted = false) :
    effect .stopAsserted s = s.stopOutputs.haltBoth .stop := by
  have he : effect .stopAsserted s = s.assertStop := rfl
  have hn : ¬s.stopAsserted = true := by rw [h]; decide
  rw [he]
  exact if_neg hn

theorem kept_stopOutputs (s : State) : Kept s.stopping s.stopOutputs :=
  kept_withdrawHeating (kept_engineOffs (Kept.refl s.stopping) _)

theorem kept_haltBoth (s : State) (r : Reason) : Kept s (s.haltBoth r) := kept_haltActive (kept_haltActive (Kept.refl s) _ r) _ r

theorem cav_stopOutputs (s : State) (c : Cav) : s.stopOutputs.cav c = s.cav c :=
  cav_of_apart (s := s.stopping) (fun a b => apart_withdrawHeating (apart_engineOffs (Apart.refl a b s.stopping) _)) c

theorem cav_haltBoth_of_idle {s : State} {c : Cav}
    (h : (s.cav c).state = .survey ∨ (s.cav c).state = .opened ∨ (s.cav c).state = .halted) (r : Reason) :
    (s.haltBoth r).cav c = s.cav c := by
  unfold State.haltBoth
  cases c with
  | zero => rw [cav_haltActive_of_ne _ (by decide), haltActive_of_idle h]
  | one =>
    have ho : (s.haltActive .zero r).cav .one = s.cav .one := cav_haltActive_of_ne s (by decide) r
    rw [haltActive_of_idle (by rw [ho]; exact h), ho]

theorem haltBoth_at_rest (s : State) (r : Reason) : (s.haltBoth r).AtRest := by
  intro c
  by_cases ha : s.Active c
  · exact .inr (.inr (halted_haltBoth ha r).1)
  · have hidle : (s.cav c).state = .survey ∨ (s.cav c).state = .opened ∨ (s.cav c).state = .halted := by
      unfold State.Active at ha
      cases hs : (s.cav c).state <;> simp [hs] at ha ⊢
    rw [cav_haltBoth_of_idle hidle]
    exact hidle

/-- R29, R183: an unsent DRIVE for a heater or the converter is withdrawn. -/
theorem withheld_stopOutputs {s : State} {x : RelayEntry} {i : Fin 16} (hx : s.relayEntry x.frame.tag = some x)
    (hu : x.unsent = true) (ha : x.admitted = true) (hi : s.loadAt x.frame.dest = some i)
    (hh : (s.entry i).cls.heating = true) : s.stopOutputs.Withheld x.frame.tag x.frame.dest := by
  have ho : s.Open x.frame.tag x.frame.dest := .inl ⟨x, hx, hu, ha, rfl⟩
  have hs : s.stopping.Open x.frame.tag x.frame.dest := ho.of_same
  have hopen := (inside_open _ _).engineOffs hs s.stopping.stopLoads
  have k : Kept s.stopping (s.stopping.engineOffs s.stopping.stopLoads) := kept_engineOffs (Kept.refl _) _
  exact withheld_withdrawHeating hopen ((loadAt_of_kept k _).trans hi) (by rw [k.entry]; exact hh)

/-- R183: with no request waiting and nothing unsent every heater and the converter is switched off. -/
theorem isOff_stop {s : State} {i : Fin 16} (hq : s.grantQueue = []) (hsent : ∀ x ∈ s.relay, x.unsent = false)
    (hh : (s.entry i).cls.heating = true) : IsOff i (s.stopOutputs.haltBoth .stop) := by
  have hmem : i ∈ s.stopping.stopLoads := List.mem_filter.2 ⟨by simp [indexes], hh⟩
  have hoff := isOff_engineOffs hmem s.stopping
  obtain ⟨-, hrel, -, -⟩ := engineOffs_of_no_requests s.stopping.stopLoads (s := s.stopping) hq
  have hw : s.stopOutputs = s.stopping.engineOffs s.stopping.stopLoads :=
    withdrawEntries_of_all_sent (by rw [hrel]; exact hsent) _
  have hv : IsOff i s.stopOutputs := by rw [hw]; exact hoff
  have k := kept_stopOutputs s
  have h1 := hv.haltActive (by rw [k.entry]; exact hh) .zero .stop
  exact h1.haltActive (by rw [(kept_haltActive k _ _).entry]; exact hh) .one .stop

theorem inner_stop {s : State} (h : s.events = []) : (s.stopOutputs.haltBoth .stop).Inner := by
  have h0 : s.stopping.Inner := fun e he => by
    have he' : e ∈ s.events := he
    rw [h] at he'
    exact absurd he' List.not_mem_nil
  have hw : s.stopOutputs.Inner :=
    inside_inner.withdrawEntries (fun hu he _ x hx => hu x (he ▸ hx)) (inside_inner.engineOffs h0 _) _
  exact inside_inner.haltActive (inside_inner.haltActive hw _ _) _ _

theorem part_stop (s : State) : (s.stopOutputs.haltBoth .stop).notices.part = true := by
  have h0 : s.stopping.notices.part = true := rfl
  have hw : s.stopOutputs.notices.part = true :=
    inside_part.withdrawEntries (fun hu _ hn => (congrArg Notices.part hn).trans hu) (inside_part.engineOffs h0 _) _
  exact inside_part.haltActive (inside_part.haltActive hw _ _) _ _

theorem exec_stop_unchanged {s : State} (h : s.Ready) :
    (s.stopAsserted = true → exec .stopAsserted s = .next s.conclude) ∧
      (s.stopAsserted = false → exec .stopDeasserted s = .next s.conclude) := by
  refine ⟨fun ha => ?_, fun ha => ?_⟩
  · have he : effect .stopAsserted s = s := if_pos ha
    exact exec_of_quiet nofun nofun h he h.2
  · have hn : ¬s.stopAsserted = true := by rw [ha]; decide
    have he : effect .stopDeasserted s = s := if_neg hn
    exact exec_of_quiet nofun nofun h he h.2

/-- Settles O42. -/
theorem stopHaltsTheActiveCavities : Obligations.StopHaltsTheActiveCavities := by
  refine ⟨fun s hr hn => ?asserted, fun s hr ha => ?deasserted, fun s hr => exec_stop_unchanged hr⟩
  case deasserted =>
    have he : effect .stopDeasserted s = ({ s with stopAsserted := false } : State).flagPart := if_pos ha
    exact exec_of_quiet (c := .stopDeasserted) nofun nofun hr he hr.2
  case asserted =>
    let u := s.stopOutputs.haltBoth .stop
    have he : effect .stopAsserted s = u := effect_stopAsserted hn
    have hans : Answers .stopAsserted s u := answers_of_effect (c := .stopAsserted) nofun nofun hr he
    have ku : Kept s.stopOutputs u.settle := kept_settle (kept_haltBoth s.stopOutputs .stop)
    have hsame := sameTables_effect (c := .stopAsserted) rfl rfl s
    rw [he] at hsame
    have hsettled : Settling u u.settle :=
      settling_settleUpTo Config.reportsPerStep (inner_stop hr.2) (haltBoth_at_rest _ _)
    obtain ⟨fs, n, hc, -⟩ := conclude_adds_notices u.settle
    have kt := (kept_stopOutputs s).trans ku
    refine ⟨u, _, hans, hans.trans (congrArg _ hc), part_stop s, kt.stopAsserted, fun c ha => ?_, fun c hi => ?_,
      fun x i hx hu ha hi hh => ?_, fun hsent hq i hh => ?_, kt.now, kt.live,
      (hsame.trans (.of_kept (kept_of_settle u))).trans .of_same⟩
    · obtain ⟨hs, hre⟩ := state_of_core (hsettled.core c)
      have hactive : s.stopOutputs.Active c := by
        unfold State.Active
        rw [cav_stopOutputs]
        exact ha
      obtain ⟨hst, hreason⟩ := halted_haltBoth hactive .stop
      exact ⟨hs.trans hst, hre.trans hreason⟩
    · obtain ⟨hs, hre⟩ := state_of_core (hsettled.core c)
      have hcav : u.cav c = s.cav c :=
        (cav_haltBoth_of_idle (by rw [cav_stopOutputs]; exact hi) .stop).trans (cav_stopOutputs s c)
      rw [hcav] at hs hre
      exact ⟨hs, hre⟩
    · have hw := (withheld_stopOutputs hx hu ha hi hh).of_kept ku
      exact ⟨hw.1, List.mem_append_left _ hw.2⟩
    · have hoff := isOff_stop hq hsent hh
      exact ⟨hoff.commanded, hoff.queued⟩

end Sys2Proof.Machine
end

