-- ==== Sys2Proof/Proofs/Hushed.lean ====
section
/-! PROOFS. The acts of a cavity that opens or halts while nothing waits: the reports they deliver move no cavity (R48, R49, R71, R105,
R122, R164). -/

namespace Sys2Proof.Machine

-- One proof at a time: proofs elaborated side by side ask for more threads than the check's memory limit leaves room for.
set_option Elab.async false

/-! ## Acts with no request waiting but for fans -/

/-- Every request that waits is for a FAN. -/
def State.OnlyFans (s : State) : Prop := ∀ r ∈ s.grantQueue, (s.entry r.load).cls = .fan

/-- What an act that asks for no grant and reports nothing but SPEED leaves. -/
structure Hushed (s t : State) : Prop where
  grantQueue : t.grantQueue = s.grantQueue
  entry : ∀ i, t.entry i = s.entry i
  reports : ∀ e ∈ t.events, e ∈ s.events ∨ ∃ met, e = .watch .speed met

theorem Hushed.refl (s : State) : Hushed s s := ⟨rfl, fun _ => rfl, fun _ h => .inl h⟩

theorem Hushed.trans {s t u : State} (h : Hushed s t) (g : Hushed t u) : Hushed s u :=
  ⟨g.grantQueue.trans h.grantQueue, fun i => (g.entry i).trans (h.entry i), fun e he => (g.reports e he).elim (h.reports e) .inr⟩

theorem State.OnlyFans.freeOf {s : State} (h : s.OnlyFans) {i : Fin 16} (hi : (s.entry i).cls ≠ .fan) : s.freeOf i :=
  fun r hr he => hi (he ▸ h r hr)

section
variable {s t : State} (h : Hushed s t)
include h

theorem Hushed.onlyFans (hq : s.OnlyFans) : t.OnlyFans := fun r hr => by
  rw [h.entry]
  exact hq r (h.grantQueue ▸ hr)

/-- An act of a block other than the Load Unit that may take reports back. -/
theorem Hushed.of_same {u : State} (grantQueue : u.grantQueue = t.grantQueue := by rfl) (loads : u.loads = t.loads := by rfl)
    (events : ∀ e ∈ u.events, e ∈ t.events := by exact fun _ x => x) : Hushed s u :=
  h.trans ⟨grantQueue, fun i => by unfold State.entry; rw [loads], fun e he => .inl (events e he)⟩

theorem Hushed.ite {u : State} (p : Prop) [Decidable p] (g : Hushed s u) : Hushed s (if p then t else u) := by
  split <;> assumption

theorem Hushed.queueDrive (i : Fin 16) (level : Nat) : Hushed s (t.queueDrive i level) :=
  h.trans ⟨grantQueue_queueDrive .., (kept_queueDrive (Kept.refl t) i level).entry,
    fun e he => .inl (by rwa [events_queueDrive] at he)⟩

theorem Hushed.onLoad {i : Option (Fin 16)} {f : State → Fin 16 → State} (hf : ∀ j, i = some j → Hushed s (f t j)) :
    Hushed s (t.onLoad i f) := by
  cases i with
  | none => exact h
  | some j => exact hf j rfl

/-- R49: an engine off of a load with no request waiting. -/
theorem Hushed.engineOff {i : Fin 16} (hi : t.freeOf i) : Hushed s (t.engineOff i) := by
  rw [engineOff_of_free hi]
  exact h.ite _ (h.queueDrive i 0)

/-- R48: a load that needs no grant. -/
theorem Hushed.engineOn {i : Fin 16} (hi : budgeted (t.entry i).cls = false) (level : Nat) : Hushed s (t.engineOn i level) := by
  rw [engineOn_of_not_budgeted hi]
  exact h.queueDrive i _

theorem Hushed.modCav (c : Cav) (f : CavCtx → CavCtx) : Hushed s (t.modCav c f) := h.of_same

theorem Hushed.clearWatch (w : WatchId) : Hushed s (t.clearWatch w) :=
  h.of_same (events := fun _ he => List.mem_of_mem_filter he)

theorem Hushed.clearCavWatches (c : Cav) : Hushed s (t.clearCavWatches c) :=
  (((h.clearWatch (.ceiling c)).clearWatch (.goal c)).clearWatch (.rise c)).clearWatch (.release c)

theorem Hushed.stopHold (c : Cav) : Hushed s (t.stopHold c) := h.of_same (events := fun _ he => List.mem_of_mem_filter he)

theorem Hushed.setCavState (c : Cav) (st : CavState) : Hushed s (t.setCavState c st) := by
  unfold State.setCavState
  exact h.ite _ h.of_same

theorem Hushed.setReason (c : Cav) (r : Reason) : Hushed s (t.setReason c r) := by
  unfold State.setReason State.fillFault
  exact h.of_same.ite _ h.of_same

theorem Hushed.unbind (c : Cav) : Hushed s (t.unbind c) := by
  unfold State.unbind
  split
  · exact h.of_same
  · exact h

theorem Hushed.setLockState (c : Cav) (st : LockState) : Hushed s (t.setLockState c st) := by
  unfold State.setLockState
  exact h.ite _ h.of_same

theorem Hushed.startTravel (c : Cav) (d : Travel) : Hushed s (t.startTravel c d) := by
  have h0 : Hushed s (t.modLock c LockUnit.stopTimers) := h.of_same
  have hrun : Hushed s (((t.modLock c LockUnit.stopTimers).setLockState c (travelState d)).motorRun c d) := by
    cases hm : ((t.modLock c LockUnit.stopTimers).setLockState c (travelState d)).motor c with
    | none =>
      rw [motorRun_of_none hm]
      exact h0.setLockState c _
    | some i =>
      rw [motorRun_of_motor hm]
      exact (h0.setLockState c _).queueDrive i _
  unfold State.startTravel State.travelTimers
  split <;> exact hrun.of_same

theorem Hushed.holdLock (c : Cav) : Hushed s (t.holdLock c) := by
  have h1 : Hushed s (t.modLock c (fun k => { k with held := true })) := h.of_same
  have h2 : Hushed s ((t.modLock c (fun k => { k with held := true })).setPurpose c .noPurpose) := h1.of_same
  unfold State.holdLock
  dsimp only
  split
  · exact h2.startTravel c _
  all_goals exact h1

theorem Hushed.aimSpeed : Hushed s t.aimSpeed := by
  unfold State.aimSpeed
  split
  · exact h.clearWatch _
  · rw [setWatch_eq]
    refine h.trans ⟨rfl, fun _ => rfl, fun e he => ?_⟩
    refine (List.mem_append.1 he).imp_right fun he => ?_
    unfold State.setReports at he
    rcases List.mem_append.1 he with he | he <;> split at he
    · exact ⟨true, List.mem_singleton.1 he⟩
    · exact absurd he List.not_mem_nil
    · exact ⟨false, List.mem_singleton.1 he⟩
    · exact absurd he List.not_mem_nil

theorem Hushed.stallAtLevel : Hushed s t.stallAtLevel := by
  unfold State.stallAtLevel
  exact (h.of_same.ite _ h.of_same).ite _ (h.of_same.ite _ h)

theorem Hushed.leaveSegment (c : Cav) : Hushed s (t.leaveSegment c) := by
  have hm : Hushed s (t.modCav c (fun k => { k with long := none, short := none, litWait := false })) := h.of_same
  exact ((hm.stopHold c).clearWatch _).clearWatch _

theorem Hushed.haltItems (c : Cav) : Hushed s (t.haltItems c) := by
  have he : Hushed s (t.emptyStack c) := h.of_same
  unfold State.haltItems
  exact ((he.leaveSegment c).clearCavWatches c).modCav c _

variable (hq : s.OnlyFans)
include hq

theorem Hushed.heatersOff (c : Cav) : Hushed s (t.heatersOff c) := by
  unfold State.heatersOff
  generalize positions = ps
  induction ps generalizing t with
  | nil => exact h
  | cons p ps ih =>
    refine ih (h.onLoad fun j hj => h.engineOff ((h.onlyFans hq).freeOf ?_))
    rw [(entry_of_heater hj).1]
    decide

theorem Hushed.haltHeaters (c : Cav) : Hushed s (t.haltHeaters c) := by
  have hw : Hushed s (t.windowEnded c) := h.of_same
  unfold State.haltHeaters
  exact (hw.heatersOff hq c).ite _ (h.heatersOff hq c)

theorem Hushed.converterWithdrawn (c : Cav) : Hushed s (t.postConverter c .off) := by
  have hp : Hushed s (t.converterPosted c .off) := h.of_same
  rw [postConverter_eq, if_neg (by decide)]
  refine (hp.onLoad fun j hj => hp.engineOff ((hp.onlyFans hq).freeOf ?_)).ite _ hp
  rw [cls_of_sharedLoad hj]
  decide

theorem Hushed.driveBlower : Hushed s t.driveBlower := by
  refine h.onLoad fun j hj => ?_
  have hcls := cls_of_sharedLoad hj
  unfold State.engineDrive
  refine (h.engineOff ((h.onlyFans hq).freeOf ?_)).ite _ (h.engineOn ?_ _)
  · rw [hcls]; decide
  · rw [hcls]; rfl

theorem Hushed.setLevel (l : BlowLevel) : Hushed s (t.setLevel l) := by
  have hl : Hushed s (t.modAir (fun a => { a with level := l })) := h.of_same
  unfold State.setLevel
  exact h.ite _ (hl.driveBlower hq).aimSpeed.stallAtLevel

theorem Hushed.followDemand (before : BlowLevel) : Hushed s (t.followDemand before) := by
  have hr : Hushed s (t.modAir (fun a => { a with runOn := none })) := h.of_same
  unfold State.followDemand
  exact h.ite _ (((h.setLevel hq _).ite _ (h.setLevel hq _).of_same).ite _ (hr.setLevel hq _))

theorem Hushed.postBlower (c : Cav) (d : BlowLevel) : Hushed s (t.postBlower c d) := by
  have hp : Hushed s (t.blowerPosted c d) := h.of_same
  exact hp.followDemand hq _

theorem Hushed.openCavity (c : Cav) : Hushed s (t.openCavity c) := by
  unfold State.openCavity
  exact ((((((h.unbind c).modCav c _).stopHold c).clearCavWatches c).postBlower hq c .off).converterWithdrawn hq c).setCavState c .opened

theorem Hushed.backToOpen (c : Cav) (r : Reason) : Hushed s (t.backToOpen c r) := (h.setReason c r).openCavity hq c

end

/-! ## A fan that a halt drives (R48, R53 to R55) -/

/-- What a grant request for a fan leaves where none waits: it waits alone, or does not. -/
structure FanAsked (i : Fin 16) (s t : State) : Prop where
  grantQueue : ∀ r ∈ t.grantQueue, r.load = i
  entry : ∀ j, t.entry j = s.entry j
  reports : ∀ e ∈ t.events, e ∈ s.events ∨ e = .loadFault i

theorem fanAsked_of_hushed {i : Fin 16} {s t : State} (h : Hushed s t) (hq : s.grantQueue = []) (he : t.events = s.events) :
    FanAsked i s t where
  grantQueue r hr := by
    rw [h.grantQueue, hq] at hr
    exact absurd hr List.not_mem_nil
  entry := h.entry
  reports e hm := .inl (he ▸ hm)

theorem FanAsked.of_same {i : Fin 16} {s t u : State} (h : FanAsked i s t)
    (grantQueue : u.grantQueue = t.grantQueue := by rfl) (loads : u.loads = t.loads := by rfl)
    (events : u.events = t.events := by rfl) : FanAsked i s u :=
  ⟨fun r hr => h.grantQueue r (grantQueue ▸ hr),
    fun j => Eq.trans (by unfold State.entry; rw [loads]) (h.entry j), fun e he => h.reports e (events ▸ he)⟩

theorem fanAsked_grantTo {i : Fin 16} {s : State} (hq : s.grantQueue = []) (level : Nat) : FanAsked i s (s.grantTo i .engine level) := by
  have hs (g : Grant) : Hushed s (s.setGrant i g) := ⟨rfl, fun _ => entry_modRecord .., fun _ h => .inl h⟩
  have ho : Hushed s ((s.setGrant i .noGrant).ownByEngine i) :=
    (hs .noGrant).trans ⟨rfl, fun _ => entry_modRecord .., fun _ h => .inl h⟩
  unfold State.grantTo
  dsimp only
  split
  · exact fanAsked_of_hushed ((hs .held).queueDrive i level) hq (events_queueDrive ..)
  · exact fanAsked_of_hushed ho hq rfl

/-- R55: a sound engine request alone in the queue. -/
theorem considerHead_of_engine_alone {s : State} {r : GrantRequest} (hq : s.grantQueue = [r]) (hr : r.requester = .engine)
    (hf : (s.record r.load).fault = .noFault) : s.considerHead =
      if s.fits r.load && s.offCondition r.load then
        { ({ s with grantQueue := [] } : State).grantTo r.load .engine r.level with minOff := none }
      else { s with minOff := s.minOffOf r.load } := by
  simp [State.considerHead, hq, considerUpTo, hf, hr]

theorem fanAsked_joinRequest {i : Fin 16} {s : State} (hq : s.grantQueue = []) (hf : (s.record i).fault = .noFault) (level : Nat) :
    FanAsked i s (s.joinRequest i .engine level) := by
  let r : GrantRequest := { load := i, requester := .engine, level := level, joined := s.now }
  let w := ({ s with grantQueue := [r] } : State).setGrant i .waiting
  have hw : FanAsked i s w :=
    ⟨fun x hx => by rw [List.mem_singleton.1 hx], fun _ => entry_modRecord .., fun _ h => .inl h⟩
  have hwf : (w.record i).fault = .noFault := by
    rw [show w.record i = _ from record_modRecord_self _ i _]
    exact hf
  have hj : s.joinRequest i .engine level = w.considerHead := by
    have hone : joinQueue s.grantQueue r = [r] := by rw [hq]; rfl
    unfold State.joinRequest
    dsimp only
    rw [hone]
    exact if_pos (beq_self_eq_true i)
  rw [hj, considerHead_of_engine_alone (s := w) (r := r) rfl rfl hwf]
  split
  · have hg := fanAsked_grantTo (i := i) (s := { w with grantQueue := [] }) rfl level
    have ht : FanAsked i s (({ w with grantQueue := [] } : State).grantTo i .engine level) :=
      ⟨hg.grantQueue, fun j => (hg.entry j).trans (hw.entry j), hg.reports⟩
    exact ht.of_same
  · exact hw.of_same

section
variable {i : Fin 16} {s : State} (hq : s.grantQueue = []) (hc : (s.entry i).cls = .fan)
include hq hc

theorem fanAsked_engineGrant (level : Nat) : FanAsked i s (s.engineGrant i level) := by
  unfold State.engineGrant State.requestGrant
  split
  · rw [faultReport_of_not_converter (by rw [hc]; decide)]
    refine ⟨fun r hr => ?_, fun _ => rfl, fun e he => (List.mem_append.1 he).imp_right List.mem_singleton.1⟩
    have hr' : r ∈ s.grantQueue := hr
    rw [hq] at hr'
    exact absurd hr' List.not_mem_nil
  · rename_i hf
    split
    · exact fanAsked_grantTo hq level
    · exact fanAsked_joinRequest hq (not_not.1 hf) level

theorem fanAsked_engineDrive (level : Nat) : FanAsked i s (s.engineDrive i level) := by
  have hfree : s.freeOf i := by simp [State.freeOf, hq]
  have hdrive (l : Nat) : FanAsked i s (s.queueDrive i l) :=
    fanAsked_of_hushed ((Hushed.refl s).queueDrive i l) hq (events_queueDrive ..)
  have hself : FanAsked i s s := fanAsked_of_hushed (Hushed.refl s) hq rfl
  unfold State.engineDrive
  split
  · rw [engineOff_of_free hfree]
    split
    · exact hself
    · exact hdrive 0
  · unfold State.engineOn State.driveHeld State.engineWaits
    rw [hc, withdrawRequest_of_free hfree, requestOf_of_free hfree]
    dsimp only
    rw [if_pos (by rfl)]
    split
    · split
      · exact hdrive _
      · exact ⟨hself.grantQueue, fun _ => entry_modRecord .., fun _ h => .inl h⟩
    · rw [if_neg Bool.false_ne_true]
      exact fanAsked_engineGrant hq hc _
    · exact fanAsked_engineGrant hq hc _

end

/-! ## Reports that move no cavity -/

/-- A report of SPEED, or of a fan of a cavity that is OPEN or HALTED. -/
def State.CalmReport (s : State) (e : Event) : Prop :=
  (∃ met, e = .watch .speed met) ∨ ∃ i c, e = .loadFault i ∧ (s.entry i).cls = .fan ∧ (s.entry i).cavity = .of c ∧ s.parked c

/-- Every report waiting is calm. -/
def State.Calm (s : State) : Prop := ∀ e ∈ s.events, s.CalmReport e

theorem Hushed.onlyFans_of_empty {s : State} (h : s.grantQueue = []) : s.OnlyFans := fun r hr => by
  rw [h] at hr
  exact absurd hr List.not_mem_nil

/-- The reports of a halt with nothing waiting. -/
theorem halt_calm {s : State} (hq : s.grantQueue = []) (he : s.events = []) (c : Cav) (r : Reason) : (s.halt c r).Calm := by
  have hf := Hushed.onlyFans_of_empty hq
  let v := ((s.setReason c r).haltHeaters c).postConverter c .off
  have hv : Hushed s v := (((Hushed.refl s).setReason c r).haltHeaters hf c).converterWithdrawn hf c
  have hspeed {x : State} (hx : ∀ e ∈ x.events, e ∈ s.events ∨ ∃ met, e = .watch .speed met) {e : Event} (hm : e ∈ x.events) :
      ∃ met, e = .watch .speed met := (hx e hm).resolve_left (by rw [he]; exact List.not_mem_nil)
  have htail (w : State) (hw : w.OnlyFans) : Hushed w ((((w.postBlower c .high).haltItems c).holdLock c).setCavState c .halted) :=
    (((((Hushed.refl w).postBlower hw c .high).haltItems c).holdLock c).setCavState c .halted)
  have hparked : (s.halt c r).parked c := .inr (by rw [cav_halt])
  cases hfan : v.cavLoad c .fan with
  | none =>
    have hw : v.driveFan c (s.coolFan c) = v := by
      unfold State.driveFan
      rw [hfan]
      rfl
    have hu : Hushed v (s.halt c r) := by
      have ht := htail (v.driveFan c (s.coolFan c)) (hw.symm ▸ hv.onlyFans hf)
      rw [hw] at ht
      have hx : s.halt c r = ((((v.driveFan c (s.coolFan c)).postBlower c .high).haltItems c).holdLock c).setCavState c .halted := rfl
      rw [hx, hw]
      exact ht
    have hall := hv.trans hu
    exact fun e hm => .inl (hspeed hall.reports hm)
  | some i =>
    obtain ⟨hcls, hcav⟩ := entry_of_cavLoad hfan
    have ha : FanAsked i v (v.driveFan c (s.coolFan c)) := by
      rw [driveFan_of_load hfan]
      exact fanAsked_engineDrive (hv.grantQueue.trans hq) hcls _
    have hw : (v.driveFan c (s.coolFan c)).OnlyFans := fun x hx => by rw [ha.grantQueue x hx, ha.entry, hcls]
    have hu : Hushed (v.driveFan c (s.coolFan c)) (s.halt c r) := htail _ hw
    intro e hm
    rcases hu.reports e hm with hm | hm
    · rcases ha.reports e hm with hm | rfl
      · exact .inl (hspeed hv.reports hm)
      · refine .inr ⟨i, c, rfl, ?_, ?_, hparked⟩ <;> rw [hu.entry, ha.entry]
        · exact hcls
        · exact hcav
    · exact .inl hm

/-- The reports of a cavity that goes back to OPEN with nothing waiting. -/
theorem backToOpen_calm {s : State} (hq : s.grantQueue = []) (he : s.events = []) (c : Cav) (r : Reason) :
    (s.backToOpen c r).Calm := by
  have h := (Hushed.refl s).backToOpen (Hushed.onlyFans_of_empty hq) c r
  exact fun e hm => .inl ((h.reports e hm).resolve_left (by rw [he]; exact List.not_mem_nil))

/-! ## Acting on calm reports -/

/-- What acting on calm reports leaves: all but the stall check, the PART notice and the reports. -/
structure Calms (s t : State) : Prop where
  cavs : t.cavs = s.cavs
  locks : t.locks = s.locks
  banks : t.banks = s.banks
  loads : t.loads = s.loads
  urgent : t.urgent = s.urgent
  calm : t.Calm

theorem State.CalmReport.of_same {s t : State} {e : Event} (h : s.CalmReport e) (cavs : t.cavs = s.cavs) (loads : t.loads = s.loads) :
    t.CalmReport e := by
  unfold State.CalmReport State.parked State.cav State.entry
  rw [cavs, loads]
  exact h

theorem Calms.trans {s t u : State} (h : Calms s t) (g : Calms t u) : Calms s u :=
  ⟨g.cavs.trans h.cavs, g.locks.trans h.locks, g.banks.trans h.banks, g.loads.trans h.loads, g.urgent.trans h.urgent,
    g.calm⟩

theorem Calms.refl {s : State} (h : s.Calm) : Calms s s := ⟨rfl, rfl, rfl, rfl, rfl, h⟩

theorem calms_handle {s : State} (h : s.Calm) {e : Event} (he : s.CalmReport e) : Calms s (s.handle e) := by
  have hmod (f : Airflow → Airflow) : Calms s (s.modAir f) :=
    ⟨rfl, rfl, rfl, rfl, rfl, fun x hx => (h x hx).of_same rfl rfl⟩
  have hflag (f : Airflow → Airflow) : Calms s (s.modAir f).flagPart :=
    ⟨rfl, rfl, rfl, rfl, rfl, fun x hx => (h x hx).of_same rfl rfl⟩
  rcases he with ⟨met, rfl⟩ | ⟨i, c, rfl, hcls, hcav, hp⟩
  · cases met with
    | true =>
      show Calms s s.speedMet
      unfold State.speedMet
      (repeat' split)
      · exact hmod _
      · exact hflag _
      · exact .refl h
      · exact .refl h
      · exact .refl h
    | false =>
      show Calms s s.speedLost
      unfold State.speedLost State.startStallTimer
      (repeat' split)
      · exact hmod _
      · exact .refl h
      · exact .refl h
      · exact .refl h
      · exact .refl h
  · have hs : s.handle (.loadFault i) = s := by
      show s.onFault i = s
      unfold State.onFault
      rw [hcls, hcav]
      dsimp only
      unfold State.onLoadFault
      rcases hp with hp | hp <;> rw [hp]
    rw [hs]
    exact .refl h

theorem calms_settleUpTo (n : Nat) : ∀ {s : State}, s.Calm → Calms s (settleUpTo n s) := by
  induction n with
  | zero => exact fun h => .refl h
  | succ n ih =>
    intro s h
    unfold settleUpTo
    split
    · exact .refl h
    · rename_i e rest hq
      have h0 : ({ s with events := rest } : State).Calm := fun x hx =>
        (h x (by rw [hq]; exact List.mem_cons_of_mem e hx)).of_same rfl rfl
      have he : ({ s with events := rest } : State).CalmReport e := (h e (by rw [hq]; exact List.mem_cons_self)).of_same rfl rfl
      have h1 : Calms s (({ s with events := rest } : State).handle e) := by
        obtain ⟨hcavs, hlocks, hbanks, hloads, hurgent, hcalm⟩ := calms_handle h0 he
        exact ⟨hcavs, hlocks, hbanks, hloads, hurgent, hcalm⟩
      exact h1.trans (ih h1.calm)

end Sys2Proof.Machine
end

