-- ==== Sys2Proof/Proofs/Cascade.lean ====
section
/-! PROOFS. A cascade of reports that places no frame: with no entry unsent and no relayed request waiting, every act of the Cycle Engine
and the reports it leads to keep the relay table and the output queue (R26, R29, R106 to R138). -/

namespace Sys2Proof.Machine

-- One proof at a time: proofs elaborated side by side ask for more threads than the check's memory limit leaves room for.
set_option Elab.async false

/-! ## What every act of a context keeps -/

/-- A property that the acts inside the part keep, the withdrawals and the completion of a hold of 0 s among them. -/
structure Throughout (P : State → Prop) : Prop extends Inside P where
  withdraw : ∀ {s : State} (p : RelayEntry → Bool), P s → P (s.withdrawEntries p)
  holdDone : ∀ {s : State} (c : Cav), P s → P (s.emit (.holdDone c))
  acted : ∀ {s : State} {e : Event} {rest : List Event}, P s → s.events = e :: rest → P { s with events := rest }

section
variable {P : State → Prop} (hP : Throughout P) {s : State}
include hP

/-! ## The Lock Units (R148, R152) -/

theorem Throughout.backOffLock (h : P s) (c : Cav) (p : Purpose) : P (s.backOffLock c p) := by
  have hp : P (s.setPurpose c p) := hP.of_same h
  exact hP.startTravel hp c _

theorem Throughout.engageLock (h : P s) (c : Cav) : P (s.engageLock c) := by
  have ha : P (s.setAttempt c 1) := hP.of_same h
  have hp : P ((s.setAttempt c 1).setPurpose c .noPurpose) := hP.of_same ha
  have hfree : P (if (s.motor c).isNone then (s.setLockState c .unlocked).lockReport c .engageFailed
      else (s.setAttempt c 1).startTravel c .engage) := by
    split
    · exact hP.emit (hP.setLockState h c _) rfl
    · exact hP.startTravel ha c _
  unfold State.engageLock
  split
  · exact hfree
  · exact hfree
  · exact h
  · exact hP.emit h rfl
  · exact hP.startTravel hp c _
  · exact hP.emit h rfl

theorem Throughout.releaseLock (h : P s) (c : Cav) : P (s.releaseLock c) := by
  have hm {f : LockUnit → LockUnit} : P (s.modLock c f) := hP.of_same h
  have hmm {f g : LockUnit → LockUnit} : P ((s.modLock c f).modLock c g) := hP.of_same (hm (f := f))
  unfold State.releaseLock
  dsimp only
  split
  · exact hP.emit (hP.setLockState hmm c _) rfl
  · split
    · exact hP.backOffLock hmm c _
    · exact hP.backOffLock hmm c _
    · exact hP.emit hm rfl
    · exact hP.backOffLock hm c _
    · exact hP.backOffLock hm c _
    · exact hmm

/-! ## The moves of a cavity (R105, R118, R120) -/

theorem Throughout.stopHold (h : P s) (c : Cav) : P (s.stopHold c) := hP.purge _ (hP.modCav h c _)

theorem Throughout.unbind (h : P s) (c : Cav) : P (s.unbind c) := by
  unfold State.unbind
  split
  · exact hP.of_same h
  · exact h

theorem Throughout.openCavity (h : P s) (c : Cav) : P (s.openCavity c) := by
  unfold State.openCavity
  exact hP.setCavState (hP.postConverter (hP.postBlower (hP.clearCavWatches (hP.stopHold (hP.modCav (hP.unbind h c) c _) c) c) c _)
    c _) c _

theorem Throughout.backToOpen (h : P s) (c : Cav) (r : Reason) : P (s.backToOpen c r) := hP.openCavity (hP.setReason h c r) c

theorem Throughout.enterCooldown (h : P s) (c : Cav) : P (s.enterCooldown c) := by
  unfold State.enterCooldown
  exact hP.setWatch (hP.modCav (hP.setCavState (hP.postBlower (hP.driveFan (hP.postConverter h c _) c _) c _) c _) c _) _ _ _

theorem Throughout.endRun (h : P s) (c : Cav) : P (s.endRun c) := by
  have he : P ((s.endWindow c).emptyStack c) := hP.modCav (hP.endWindow h c) c _
  unfold State.endRun
  exact hP.clearWatch (hP.modCav (hP.leaveSegment he c) c _) _

theorem Throughout.endCycle (h : P s) (c : Cav) (r : Reason) : P (s.endCycle c r) := by
  have hr : P (s.ending c r) := by
    unfold State.ending
    split
    · exact hP.modCav h c _
    · exact hP.setReason h c r
  rw [endCycle_eq]
  exact hP.enterCooldown (hP.endRun hr c) c

theorem Throughout.enterRelease (h : P s) (c : Cav) : P (s.enterRelease c) :=
  hP.releaseLock (hP.modCav (hP.clearWatch (hP.setCavState h c _) _) c _) c

/-! ## Segments (R106 to R115) -/

theorem Throughout.startWindow (h : P s) (c : Cav) (target : Int) : P (s.startWindow c target) := by
  have hw : P (s.windowStarted c target) := hP.of_same h
  rw [startWindow_eq]
  exact Inside.foldl hw (fun _ hu => Inside.onLoad hu _ fun i hv => hP.engineDrive hv i _) _

theorem Throughout.outfitted (h : P s) (c : Cav) (n : Nat) : P (s.outfitted c n) :=
  hP.postConverter (hP.driveFan (hP.postBlower (hP.modCav h c _) c _) c _) c _

theorem Throughout.startRamp (h : P s) (c : Cav) (g : Segment) (long : Time) : P (s.startRamp c g long) := by
  have hr : P (((s.takeEntryTemp c).setWatch (.goal c) .atOrAbove (g.target - g.band)).modCav c
      (fun k => { k with long := s.timer long })) := hP.modCav (hP.setWatch (hP.modCav h c _) _ _ _) c _
  unfold State.startRamp
  dsimp only
  split
  · exact hP.modCav hr c _
  · exact hP.startShort hr c g

theorem Throughout.placeHold (h : P s) (c : Cav) (g : Segment) (left : Time) : P (s.placeHold c g left) := by
  unfold State.placeHold
  (repeat' split) <;> exact hP.modCav h c _

theorem Throughout.startSoak (h : P s) (c : Cav) (g : Segment) (left : Time) : P (s.startSoak c g left) := by
  unfold State.startSoak
  split
  · exact hP.holdDone c (hP.startWindow (hP.stopHold h c) c _)
  · exact hP.startWindow (hP.placeHold h c g left) c _

theorem Throughout.enterTimed (h : P s) (c : Cav) (n : Nat) (resume : Option Resume) : P (s.enterTimed c n resume) := by
  have ho := hP.outfitted h c n
  have hceil (level : Int) : P ((s.outfitted c n).setCeiling c level) := hP.setWatch ho _ _ _
  cases hk : (s.segmentAt c n).kind
  case ramp =>
    rw [enterTimed_of_ramp hk]
    exact hP.startWindow (hP.startRamp (hceil _) c _ _) c _
  case soak =>
    rw [enterTimed_of_soak hk]
    exact hP.startSoak (hceil _) c _ _
  case cool =>
    rw [enterTimed_of_cool hk]
    exact hP.endWindow (hP.modCav (hP.setWatch (hceil _) _ _ _) c _) c
  all_goals
    unfold State.enterTimed
    dsimp only
    rw [hk]
    exact ho

/-! ## Causes and the walk (R126 to R138) -/

theorem Throughout.setPending (h : P s) (c : Cav) (a : Cause) (b : Bool) : P (s.setPending c a b) := hP.modCav h c _

theorem Throughout.takeCause (h : P s) (c : Cav) (a : Cause) (r : Nat × Resume) : P (s.takeCause c a r).1 := by
  have hc : P (s.counted c a) := hP.modCav (hP.setPending h c a false) c _
  have hpush : P ((s.counted c a).pushCause c a r) := by
    have hl := hP.modCav (hP.leaveSegment hc c) c (fun k => { k with
      stack := { segment := r.1, cause := a, longLeft := r.2.1, holdLeft := r.2.2 } :: k.stack })
    exact hP.of_same hl
  cases hb : (s.cav c).bank with
  | none =>
    have hn : ((s.counted c a).cav c).bank = none := by simp [State.counted, State.setPending, hb]
    unfold State.takeCause
    dsimp only
    split
    · exact hc
    · rename_i b' hb'
      exact absurd (hn.symm.trans hb') nofun
  | some b =>
    rw [takeCause_eq hb]
    (repeat' split)
    · exact hP.endCycle hc c _
    · exact hP.endCycle hc c _
    · exact hP.endCycle hc c _
    · exact hpush

theorem Throughout.afterPop (h : P s) (c : Cav) (e : StackEntry) : P (s.afterPop c e).1 := by
  unfold State.afterPop
  split
  · rename_i a ha
    have ht := hP.takeCause h c a (e.segment, (e.longLeft, e.holdLeft))
    split <;> rename_i hx <;> rw [hx] at ht <;> exact ht
  · exact h

theorem Throughout.actZero (h : P s) (c : Cav) (g : Segment) : P (s.actZero c g).1 := by
  have hret : P (s.doReturn c).1 := by
    unfold State.doReturn
    split
    · exact hP.endCycle h c _
    · rename_i e rest hs
      have hp : P ((s.modCav c (fun k => { k with stack := rest })).flagCav c) := hP.of_same h
      exact hP.afterPop hp c e
  have hmark : P (s.modCav c (fun k => { k with marker := g.marker })) := hP.modCav h c _
  unfold State.actZero
  split
  · exact h
  · exact hmark
  · exact hP.endCycle h c _
  · exact hret
  all_goals exact h

theorem Throughout.walk (c : Cav) (n : Nat) : ∀ {s : State} (g : Nat), P s → P (walk n s c g) := by
  induction n with
  | zero =>
    intro s g h
    rw [walk_zero]
    split
    · exact hP.enterTimed h c g none
    · exact hP.endCycle (hP.modCav h c _) c _
  | succ n ih =>
    intro s g h
    have hz := hP.actZero (hP.setWatch (hP.modCav h c (fun k => { k with zeroRun := k.zeroRun + 1, segment := some g })) (.ceiling c)
      .above (s.absCeiling c)) c (s.segmentAt c g)
    have hp : P ((s.passZero c g).actZero c (s.segmentAt c g)).1 := hz
    rw [walk_succ]
    split
    · exact hP.enterTimed h c g none
    · split <;> rename_i hx <;> rw [hx] at hp
      · exact ih _ hp
      · exact hP.enterTimed hp c _ _
      · exact hp

theorem Throughout.enterSegment (h : P s) (c : Cav) (g : Nat) : P (s.enterSegment c g) := hP.walk c _ g h

theorem Throughout.completeSegment (h : P s) (c : Cav) : P (s.completeSegment c) := hP.enterSegment (hP.leaveSegment h c) c _

theorem Throughout.raise (h : P s) (c : Cav) (a : Cause) : P (s.raise c a) := by
  have hs := hP.setPending h c a true
  unfold State.raise
  split
  · dsimp only
    split
    · rename_i b hb
      have ht := hP.takeCause hs c b ((s.setPending c a true).resumePoint c)
      split <;> rename_i hx <;> rw [hx] at ht
      · exact hP.enterSegment ht c _
      · exact ht
    · split
      · exact hP.endCycle hs c _
      · exact hs
  all_goals exact h

theorem Throughout.enterRun (h : P s) (c : Cav) : P (s.enterRun c) :=
  hP.enterSegment (hP.modCav (hP.withdraw _ (hP.setCavState h c _)) c _) c _

/-! ## Reports (R71 to R77, R158) -/

theorem Throughout.onLockReport (h : P s) (c : Cav) (r : LockReport) : P (s.onLockReport c r) := by
  have hlocking : P (s.lockInLocking c r) := by
    unfold State.lockInLocking
    split
    · exact hP.halt h c _
    · split
      · exact hP.enterRun h c
      · exact h
    · split
      · exact hP.backToOpen h c _
      · exact h
    · split
      · exact hP.modCav h c _
      · exact h
    · split
      · exact h
      · exact hP.backToOpen h c _
  have hrun : P (s.lockInRun c r) := by
    unfold State.lockInRun
    split
    · exact hP.halt h c _
    all_goals exact h
  have hrelease : P (s.lockInRelease c r) := by
    unfold State.lockInRelease
    split
    · exact hP.halt h c _
    · exact hP.openCavity (hP.driveFan h c 0) c
    all_goals exact h
  unfold State.onLockReport
  split
  · exact hlocking
  · exact hrun
  · exact hrun
  · exact hrelease
  all_goals exact h

theorem Throughout.onRelease (h : P s) (c : Cav) (met : Bool) : P (s.onRelease c met) := by
  unfold State.onRelease
  (repeat' split)
  · exact hP.enterRelease h c
  · exact hP.modCav h c _
  · exact hP.modCav h c _
  · exact h

theorem Throughout.complete_in_run (h : P s) (c : Cav) : P (if (s.cav c).state = .run then s.completeSegment c else s) := by
  split
  · exact hP.completeSegment h c
  · exact h

theorem Throughout.onWatch (h : P s) (w : WatchId) (met : Bool) : P (s.onWatch w met) := by
  have hboth (a : Cause) : P (s.raiseBoth a) := hP.raise (hP.raise h .zero a) .one a
  unfold State.onWatch
  cases w with
  | ceiling c => cases met <;> [exact h; exact hP.raise h c _]
  | goal c => cases met <;> [exact h; exact hP.complete_in_run h c]
  | rise c => cases met <;> [exact h; exact hP.onRise h c]
  | release c => exact hP.onRelease h c met
  | dip => cases met <;> [exact h; exact hboth _]
  | ductHot => cases met <;> [exact h; exact hboth _]
  | light => exact hP.refreshLit h
  | bayHot => cases met <;> [exact h; exact hP.postBay h _]
  | bayCool => cases met <;> [exact h; exact hP.postBay h _]
  | speed => cases met <;> [exact hP.speedLost h; exact hP.speedMet h]

theorem Throughout.onFault (h : P s) (i : Fin 16) : P (s.onFault i) := by
  have hload (c : Cav) : P (s.onLoadFault c) := by
    unfold State.onLoadFault
    split
    · exact hP.backToOpen h c _
    · exact hP.raise h c _
    all_goals exact h
  unfold State.onFault
  split
  · exact hload _
  · exact hload _
  · exact hload _
  · exact hP.jamLock h _ .motorFault
  all_goals exact h

theorem Throughout.onConverterFault (h : P s) (zero one : Bool) : P (s.onConverterFault zero one) := by
  have hz : P (if zero then s.raise .zero .loadFault else s) := by
    split
    · exact hP.raise h _ _
    · exact h
  show P (if one then (if zero then s.raise .zero .loadFault else s).raise .one .loadFault
    else if zero then s.raise .zero .loadFault else s)
  split
  · exact hP.raise hz _ _
  · exact hz

end

/-- A report that an act of a context may lead to. -/
def Event.ofContext (e : Event) : Prop := e.inner = true ∨ ∃ c, e = .holdDone c

theorem Throughout.handle {P : State → Prop} (hP : Throughout P) {s : State} (h : P s) {e : Event} (he : e.ofContext) :
    P (s.handle e) := by
  rcases he with he | ⟨c, rfl⟩
  · cases e with
    | watch w met => exact hP.onWatch h w met
    | loadFault i => exact hP.onFault h i
    | converterFault zero one => exact hP.onConverterFault h zero one
    | lock c r => exact hP.onLockReport h c r
    | lit now => cases now <;> [exact h; exact hP.onLit (hP.onLit h .zero) .one]
    | chanState | doorReport | probeReading | stateTapped | offFailed | stalled | holdDone => exact nomatch he
  · exact hP.complete_in_run h c

theorem Throughout.settleUpTo {P : State → Prop} (hP : Throughout P) (hev : ∀ {s : State}, P s → ∀ e ∈ s.events, e.ofContext)
    (n : Nat) : ∀ {s : State}, P s → P (settleUpTo n s) := by
  induction n with
  | zero => exact fun h => h
  | succ n ih =>
    intro s h
    unfold Machine.settleUpTo
    split
    · exact h
    · rename_i e rest hq
      exact ih (hP.handle (hP.acted h hq) (hev h e (by rw [hq]; exact List.mem_cons_self)))

/-! ## Nothing to place -/

/-- No entry is unsent and no relayed request waits, the output queue stands, and the reports are of contexts' acts. -/
structure State.Settled (o : List Frame) (s : State) : Prop where
  outQueue : s.outQueue = o
  sent : ∀ x ∈ s.relay, x.unsent = false
  engine : ∀ r ∈ s.grantQueue, r.requester = .engine
  reports : ∀ e ∈ s.events, e.ofContext

theorem throughout_settled (o : List Frame) : Throughout (State.Settled o) where
  same h relay outQueue events _ waiting := by
    refine ⟨outQueue.trans h.outQueue, by rw [relay]; exact h.sent, fun r hr => ?_, by rw [events]; exact h.reports⟩
    rcases waiting r hr with hr | ⟨q, hq, he⟩
    · exact hr
    · exact he ▸ h.engine q hq
  emits h hes := ⟨h.outQueue, h.sent, h.engine, fun e he => (List.mem_append.1 he).elim (h.reports e) fun he => .inl (hes e he)⟩
  purge _ h := ⟨h.outQueue, h.sent, h.engine, fun e he => h.reports e (List.mem_of_mem_filter he)⟩
  promote _ hw := by
    obtain ⟨s, h, r, hr, ht⟩ := hw
    exact absurd ((h.engine r hr).symm.trans ht) nofun
  closeFail _ hw := by
    obtain ⟨s, h, r, hr, ht⟩ := hw
    exact absurd ((h.engine r hr).symm.trans ht) nofun
  withdraw p h := by
    rw [withdrawEntries_of_all_sent h.sent]
    exact h
  holdDone c h := ⟨h.outQueue, h.sent, h.engine, fun e he => (List.mem_append.1 he).elim (h.reports e) fun he =>
    .inr ⟨c, List.mem_singleton.1 he⟩⟩
  acted h hq := ⟨h.outQueue, h.sent, h.engine, fun e he => h.reports e (by rw [hq]; exact List.mem_cons_of_mem _ he)⟩

theorem State.Settled.settle {o : List Frame} {s : State} (h : s.Settled o) : s.settle.Settled o :=
  (throughout_settled o).settleUpTo (fun h => h.reports) Config.reportsPerStep h

end Sys2Proof.Machine
end

