-- ==== Sys2Proof/Proofs/Starting.lean ====
section
/-! PROOFS. START: its conditions, the bank it binds, PREPARE and what follows it at once (R29, R70, R100 to R103, R148, R177): O40. -/

namespace Sys2Proof.Machine

-- One proof at a time: proofs elaborated side by side ask for more threads than the check's memory limit leaves room for.
set_option Elab.async false

/-! ## The conditions of a START (R100) -/

theorem doorConfirmedClosed_iff (s : State) (c : Cav) : s.doorConfirmedClosed c = true ↔
    (s.channel (.door c)).state = .live ∧ (s.channel (.door c)).goodRun = 2 ∧
      ∃ l l', (s.channel (.door c)).latest = some (.door .closed l) ∧ (s.channel (.door c)).previous = some (.door .closed l') := by
  unfold State.doorConfirmedClosed State.isLive doorPair
  generalize s.channel (.door c) = r
  rw [Bool.and_eq_true, beq_iff_eq, beq_iff_eq]
  refine and_congr_right fun _ => ⟨fun h => ?_, fun ⟨hg, l, l', h1, h2⟩ => ?_⟩
  · split at h
    · rename_i d l d' l' h1 h2
      split at h
      · rename_i hx
        obtain ⟨hg, rfl⟩ := hx
        obtain rfl := Option.some.inj h
        exact ⟨hg, l, l', h1, h2⟩
      · exact nomatch h
    · exact nomatch h
  · rw [h1, h2]
    exact if_pos ⟨hg, rfl⟩

theorem entry_walks_iff (segments : Vector Segment 40) (entry : Nat) : (segments.toList.getD entry Segment.zero).kind ≠ .ret ↔
    ∀ i : Fin 40, i.val = entry → (segments.get i).kind ≠ .ret := by
  have hget (h : entry < 40) : segments.toList.getD entry Segment.zero = segments.get ⟨entry, h⟩ := by
    simp [Vector.get_eq_getElem, List.getD_eq_getElem?_getD, h]
  refine ⟨fun h i hi => ?_, fun h => ?_⟩
  · subst hi
    rwa [hget i.isLt] at h
  · by_cases hlt : entry < 40
    · rw [hget hlt]
      exact h ⟨entry, hlt⟩ rfl
    · have hz : segments.toList.getD entry Segment.zero = Segment.zero := by
        simp [List.getD_eq_getElem?_getD, Nat.le_of_not_lt hlt]
      rw [hz]
      decide

/-- R100: the conditions in their order. -/
theorem startRefusal_facts (s : State) (c : Cav) (b : BankId) (entry : Nat) :
    let refusal := s.startRefusal c b entry
    let walks := (((s.bank b).segments.toList.getD entry Segment.zero)).kind ≠ .ret
    let closed := s.doorConfirmedClosed c = true
    let live := (s.channel (.probe c)).state = .live
    let cool := ∃ t : Int, (s.channel (.probe c)).latest = some (.num t) ∧ t ≤ (s.bank b).limits.startLimit
    ((s.cav c).state ≠ .opened → refusal = some (10, [])) ∧
    ((s.cav c).state = .opened → (s.bank b).state ≠ .valid → refusal = some (7, [])) ∧
    ((s.cav c).state = .opened → (s.bank b).state = .valid →
      (¬walks → refusal = some (11, [0])) ∧
      (walks → s.stopAsserted = true → refusal = some (11, [1])) ∧
      (walks → s.stopAsserted = false → s.air.stall = .stalled → refusal = some (11, [2])) ∧
      (walks → s.stopAsserted = false → s.air.stall ≠ .stalled →
        (¬closed → refusal = some (11, [3])) ∧
        (closed → ¬live → refusal = some (11, [4])) ∧
        (closed → live → ¬cool → refusal = some (11, [5])) ∧
        (closed → live → cool → refusal = none))) := by
  intro refusal walks closed live cool
  have hr : refusal = s.startRefusal c b entry := rfl
  unfold State.startRefusal at hr
  refine ⟨fun ho => hr.trans (if_pos ho), fun ho hv => ?_, fun ho hv => ?_⟩
  · exact hr.trans ((if_neg (not_not.2 ho)).trans (if_pos hv))
  rw [if_neg (not_not.2 ho), if_neg (not_not.2 hv)] at hr
  refine ⟨fun hw => hr.trans (if_pos (not_not.1 hw)), fun hw hs => hr.trans ((if_neg hw).trans (if_pos hs)), fun hw hs ha => ?_,
    fun hw hs ha => ?_⟩
  · exact hr.trans ((if_neg hw).trans ((if_neg (by rw [hs]; decide)).trans (if_pos ha)))
  rw [if_neg hw, if_neg (by rw [hs]; decide), if_neg ha] at hr
  refine ⟨fun hc => hr.trans (if_pos (Bool.eq_false_iff.2 hc)), fun hc hl => ?_, fun hc hl hcool => ?_, fun hc hl hcool => ?_⟩
  all_goals rw [if_neg (by rw [show s.doorConfirmedClosed c = true from hc]; decide)] at hr
  · exact hr.trans (if_pos (beq_eq_false_iff_ne.2 hl))
  all_goals
    have hlive : s.isLive (.probe c) = true := beq_iff_eq.2 hl
    rw [if_neg (by rw [hlive]; decide)] at hr
  · rw [hr]
    cases ht : s.probeTemp c with
    | none => rfl
    | some t => exact if_neg fun hle => hcool ⟨t, numOf_eq_some.1 ht, hle⟩
  · obtain ⟨t, ht, hle⟩ := hcool
    have hp : s.probeTemp c = some t := numOf_eq_some.2 ht
    rw [hr, hp]
    exact if_pos hle

/-! ## The bank bound, and PREPARE (R101, R102) -/

/-- The bank bound and the context made ready, its entries not yet withdrawn. -/
def State.bound (s : State) (c : Cav) (b : BankId) (entry : Nat) : State :=
  (s.bindBank b).modCav c (fun k => { k with
    bank := some b, entry := some entry, firstFault := none, counts := Vector.replicate 6 0, elapsed := .stopped 0, marker := 0,
    reason := .noReason })

/-- The cavity in PREPARE, its loads switched off. -/
def State.preparing (s : State) (c : Cav) : State := (s.setCavState c .prepare).engineOffs (s.cavityLoads c)

theorem acceptStart_eq (s : State) (c : Cav) (b : BankId) (entry : Nat) :
    s.acceptStart c b entry = (((s.bound c b entry).withdrawCavity c).preparing c).prepareTest c := rfl

theorem doStart_facts {s : State} {c : Cav} {b : BankId} {cavity bank entry : Byte} (hc : whichOf cavity = some c)
    (hb : whichOf bank = some b) (he : entry.toNat < 40) :
    (∀ code data, s.startRefusal c b entry.toNat = some (code, data) →
      s.doStart [cavity, bank, entry] = { state := s, code := code, data := data }) ∧
    (s.startRefusal c b entry.toNat = none → s.doStart [cavity, bank, entry] = answerDone (s.acceptStart c b entry.toNat)) := by
  unfold State.doStart
  simp only [hc, hb]
  rw [if_neg (not_le.2 he)]
  exact ⟨fun code data h => by rw [h], fun h => by rw [h]⟩

theorem mem_cavityLoads {s : State} {c : Cav} {i : Fin 16} : i ∈ s.cavityLoads c ↔
    (s.entry i).cls.cavityClass = true ∧ (s.entry i).cavity = .of c := by
  unfold State.cavityLoads
  rw [List.mem_filter, Bool.and_eq_true, beq_iff_eq]
  have hcls : ((s.entry i).cls == .heater || (s.entry i).cls == .fan || (s.entry i).cls == .lamp) = (s.entry i).cls.cavityClass := by
    cases (s.entry i).cls <;> rfl
  rw [hcls]
  exact and_iff_right (List.mem_finRange i)

theorem kept_preparing (s : State) (c : Cav) : Kept s (s.preparing c) :=
  kept_engineOffs (kept_setCavState (Kept.refl s) c _) _

/-- R29: the unsent DRIVEs for the cavity's loads are withdrawn ahead of the ANSWER. -/
theorem withheld_acceptStart {s : State} {c : Cav} {b : BankId} {entry : Nat} {x : RelayEntry} {i : Fin 16}
    (hx : s.relayEntry x.frame.tag = some x) (hu : x.unsent = true) (ha : x.admitted = true)
    (hi : s.loadAt x.frame.dest = some i) (hm : i ∈ s.cavityLoads c) :
    (s.acceptStart c b entry).Withheld x.frame.tag x.frame.dest := by
  have ho : s.Open x.frame.tag x.frame.dest := .inl ⟨x, hx, hu, ha, rfl⟩
  have hb : (s.bound c b entry).Open x.frame.tag x.frame.dest := ho.of_same
  have hw : ((s.bound c b entry).withdrawCavity c).Withheld x.frame.tag x.frame.dest := by
    refine withheld_withdrawEntries hb _ fun y hy hd => ?_
    have hj : (s.bound c b entry).loadAt y.frame.dest = some i := by rw [hd]; exact hi
    obtain ⟨hcls, hcav⟩ := mem_cavityLoads.1 hm
    have hpick : ((s.entry i).cls.cavityClass && (s.entry i).cavity == .of c) = true := by rw [hcls, hcav]; simp
    unfold State.admittedFor
    rw [hy, hj]
    exact hpick
  rw [acceptStart_eq]
  exact hw.of_kept (kept_prepareTest (kept_preparing _ c) c)

/-! ## A START with nothing waiting -/

/-- What PREPARE leaves where nothing waits. -/
theorem preparing_facts {s : State} {c : Cav} (hq : s.grantQueue = []) :
    let p := s.preparing c
    p.cav c = { s.cav c with state := .prepare } ∧ p.locks = s.locks ∧ p.banks = s.banks ∧ p.grantQueue = [] ∧
      p.outQueue = s.outQueue ∧ p.events = s.events ∧ ∀ i ∈ s.cavityLoads c, IsOff i p := by
  intro p
  have hset {α : Type} (f : State → α) (hf : ∀ (t : State) (n : Notices) (k : Two CavCtx), f { t with notices := n, cavs := k } = f t) :
      f (s.setCavState c .prepare) = f s := by
    unfold State.setCavState
    split
    · rfl
    · exact hf s _ _
  have hact := (LoadAct.refl (s.setCavState c .prepare)).engineOffs (s.cavityLoads c)
  obtain ⟨hg, -, ho, he⟩ := engineOffs_of_no_requests (s.cavityLoads c) (s := s.setCavState c .prepare)
    ((hset State.grantQueue fun _ _ _ => rfl).trans hq)
  refine ⟨?_, hact.locks.trans (locks_setCavState s c .prepare), hact.banks.trans (hset State.banks fun _ _ _ => rfl), hg,
    ho.trans (hset State.outQueue fun _ _ _ => rfl), he.trans (events_setCavState s c .prepare),
    fun i hi => isOff_engineOffs hi _⟩
  simp [p, State.preparing]

theorem prepared_preparing {s : State} {c : Cav} (hq : s.grantQueue = []) :
    (s.preparing c).prepared c = true ↔ ∀ i ∈ s.cavityLoads c, (s.record i).confirmed = some 0 := by
  have k := kept_preparing s c
  obtain ⟨-, -, -, -, -, -, hoff⟩ := preparing_facts (c := c) hq
  rw [prepared_iff, cavityLoads_of_entry k.entry]
  refine forall₂_congr fun i hi => ?_
  rw [(k.confirmed i).1]
  exact and_iff_right (hoff i hi).commanded

theorem prepareTest_of_not_prepared {s : State} {c : Cav} (h : ¬s.prepared c = true) : s.prepareTest c = s := if_neg fun x => h x.2

theorem prepareTest_of_prepared {s : State} {c : Cav} (hs : (s.cav c).state = .prepare) (h : s.prepared c = true) :
    s.prepareTest c = s.enterLocking c := if_pos ⟨hs, h⟩

/-- R103: the cavity in LOCKING, its lock still to be engaged. -/
def State.lockingEntered (s : State) (c : Cav) : State :=
  (s.modCav c (fun k => { k with backOff := .noBackOff })).setCavState c .locking

theorem enterLocking_eq (s : State) (c : Cav) : s.enterLocking c = (s.lockingEntered c).engageLock c := rfl

section
variable (s : State) (c : Cav)

theorem cav_lockingEntered : (s.lockingEntered c).cav c = { s.cav c with backOff := .noBackOff, state := .locking } := by
  simp [State.lockingEntered]

theorem lockingEntered_keeps : (s.lockingEntered c).locks = s.locks ∧ (s.lockingEntered c).banks = s.banks ∧
    (s.lockingEntered c).grantQueue = s.grantQueue ∧ (s.lockingEntered c).events = s.events := by
  unfold State.lockingEntered State.setCavState
  split <;> exact ⟨rfl, rfl, rfl, rfl⟩

theorem Stands.lockingEntered {i : Fin 16} {s t : State} (h : Stands i s t) (c : Cav) : Stands i s (t.lockingEntered c) :=
  (h.modCav c _).setCavState c _

end

section
variable {s : State} {c : Cav}

/-- R148: an unlocked lock with a motor starts to engage. -/
theorem engageLock_of_motor (h : (s.lock c).state ∈ [LockState.unknown, .unlocked]) (hm : (s.motor c).isSome = true) :
    s.engageLock c = (s.setAttempt c 1).startTravel c .engage := by
  obtain ⟨i, hi⟩ := Option.isSome_iff_exists.1 hm
  simp only [List.mem_cons, List.not_mem_nil, or_false] at h
  unfold State.engageLock
  rcases h with h | h <;> rw [h, hi] <;> rfl

theorem engageLock_of_no_motor (h : (s.lock c).state ∈ [LockState.unknown, .unlocked]) (hm : (s.motor c).isSome = false) :
    s.engageLock c = (s.setLockState c .unlocked).lockReport c .engageFailed := by
  have hn : (s.motor c).isNone = true := Option.isSome_eq_false_iff.1 hm
  simp only [List.mem_cons, List.not_mem_nil, or_false] at h
  unfold State.engageLock
  rcases h with h | h <;> rw [h] <;> exact if_pos hn

theorem engageLock_of_jammed (h : (s.lock c).state = .jammed) : s.engageLock c = s.lockReport c (.jammed (s.lock c).jam) := by
  unfold State.engageLock
  rw [h]

end

/-! ## The reports acted on, and the part that has answered -/

/-- A lone report acted on. -/
theorem settle_of_one {s : State} {e : Event} (h : s.events = [e]) :
    s.settle = settleUpTo (Config.reportsPerStep - 1) (({ s with events := [] } : State).handle e) := by
  unfold State.settle
  show settleUpTo (Config.reportsPerStep - 1 + 1) s = _
  rw [settleUpTo, h]

/-- The engine holds the load off, and has its DRIVE queued where that is not confirmed. -/
def State.SwitchedOff (t : State) (i : Fin 16) : Prop :=
  (t.record i).commanded = some 0 ∧ ((t.record i).confirmed = some 0 ∨ QItem.drive i 0 false ∈ t.urgent)

/-- What stands of `v`, whose reports are calm, in the part that has answered. -/
structure Answered.Shows (v t : State) : Prop where
  cavs : t.cavs = v.cavs
  locks : t.locks = v.locks
  banks : t.banks = v.banks
  loads : t.loads = v.loads
  urgent : t.urgent = v.urgent

theorem shows_of_answered {i : Instr} {s t u v : State} {f : Frame} {n : Nat} (h : Answers i s (u.settle.place f))
    (ht : exec i s = .next t) (hu : u.settle = settleUpTo n v) (hv : v.Calm) : Answered.Shows v t := by
  have h1 : Calms v u.settle := hu ▸ calms_settleUpTo n hv
  have h2 : Calms v (u.settle.place f) :=
    ⟨h1.cavs, h1.locks, h1.banks, h1.loads, h1.urgent, fun e he => (h1.calm e he).of_same rfl rfl⟩
  have h3 := h2.trans (calms_settleUpTo Config.reportsPerStep h2.calm)
  obtain ⟨fs, m, hc, -⟩ := conclude_adds_notices (u.settle.place f).settle
  obtain rfl : t = _ := Host.Outcome.next.inj (ht.symm.trans (h.trans (congrArg _ hc)))
  exact ⟨h3.cavs, h3.locks, h3.banks, h3.loads, h3.urgent⟩

section
variable {v t : State} (h : Answered.Shows v t)
include h

theorem Answered.Shows.cav (c : Cav) : t.cav c = v.cav c := by
  unfold State.cav
  rw [h.cavs]

theorem Answered.Shows.lock (c : Cav) : t.lock c = v.lock c := by
  unfold State.lock
  rw [h.locks]

theorem Answered.Shows.bank (b : BankId) : t.bank b = v.bank b := by
  unfold State.bank
  rw [h.banks]

theorem Answered.Shows.off {i : Fin 16} (ho : IsOff i v) : t.SwitchedOff i := by
  unfold State.SwitchedOff
  rw [record_of_loads h.loads, h.urgent]
  exact ⟨ho.commanded, ho.queued.imp_right And.left⟩

end

/-! ## The outcomes of a START with nothing waiting -/

theorem banks_setCavState (s : State) (c : Cav) (st : CavState) : (s.setCavState c st).banks = s.banks := by
  unfold State.setCavState
  split <;> rfl

theorem banks_stopHold (s : State) (c : Cav) : (s.stopHold c).banks = s.banks := rfl

theorem banks_clearCavWatches (s : State) (c : Cav) : (s.clearCavWatches c).banks = s.banks := rfl

theorem banks_postConverter (s : State) (c : Cav) (d : ConvField) : (s.postConverter c d).banks = s.banks :=
  (loadAct_postConverter s c d).banks

theorem banks_postBlower (s : State) (c : Cav) (d : BlowLevel) : (s.postBlower c d).banks = s.banks :=
  (blows_postBlower s c d).banks

theorem banks_openCavity (s : State) (c : Cav) : (s.openCavity c).banks = (s.unbind c).banks := by
  unfold State.openCavity
  rw [banks_setCavState, banks_postConverter, banks_postBlower, banks_clearCavWatches, banks_stopHold]
  rfl

theorem locks_backToOpen (s : State) (c : Cav) (r : Reason) : (s.backToOpen c r).locks = s.locks := by
  refine (locks_openCavity (s.setReason c r) c).trans ?_
  unfold State.setReason State.fillFault
  split <;> rfl

theorem grantQueue_setLockState (s : State) (c : Cav) (st : LockState) : (s.setLockState c st).grantQueue = s.grantQueue := by
  unfold State.setLockState
  split <;> rfl

/-- R105: a cavity back in OPEN gives its bank back. -/
theorem binds_backToOpen {s : State} {c : Cav} {b : BankId} (h : (s.cav c).bank = some b) (r : Reason) :
    ((s.backToOpen c r).bank b).binds = (s.bank b).binds - 1 := by
  have hb : ((s.setReason c r).cav c).bank = some b := by simp [h]
  have hr : (s.setReason c r).banks = s.banks := by
    unfold State.setReason State.fillFault
    split <;> rfl
  have hu : (s.setReason c r).unbind c = ((s.setReason c r).modBank b (fun k => { k with binds := k.binds - 1 })).modCav c
      (fun k => { k with bank := none }) := by
    unfold State.unbind
    rw [hb]
  have hbanks : (s.backToOpen c r).bank b = ((s.setReason c r).unbind c).bank b := by
    unfold State.bank
    rw [show (s.backToOpen c r).banks = _ from banks_openCavity (s.setReason c r) c]
  have hs : (s.setReason c r).bank b = s.bank b := by
    unfold State.bank
    rw [hr]
  rw [hbanks, hu, bank_modCav, bank_modBank, if_pos rfl, hs]

/-- The bank bound and the context made ready, as START leaves them (R101). -/
def State.IsBound (s t : State) (c : Cav) (b : BankId) (entry : Nat) : Prop :=
  (t.cav c).bank = some b ∧ (t.cav c).entry = some entry ∧ (t.cav c).firstFault = none ∧
    (t.cav c).counts = Vector.replicate 6 0 ∧ (t.cav c).elapsed = .stopped 0 ∧ (t.cav c).marker = 0 ∧
    (t.cav c).reason = .noReason ∧ (t.bank b).binds = (s.bank b).binds + 1

/-- The bank bound, the cavity in PREPARE and its loads switched off. -/
def State.primed (s : State) (c : Cav) (b : BankId) (entry : Nat) : State := (s.bound c b entry).preparing c

theorem cav_bank_of_same {s t : State} (hc : t.cavs = s.cavs) (hb : t.banks = s.banks) (c : Cav) (b : BankId) :
    t.cav c = s.cav c ∧ t.bank b = s.bank b := by
  unfold State.cav State.bank
  rw [hc, hb]
  exact ⟨rfl, rfl⟩

section
variable {s : State} {c : Cav} {b : BankId} {entry : Nat}

theorem isBound_bound : s.IsBound (s.bound c b entry) c b entry := by
  simp [State.IsBound, State.bound, State.bindBank]

/-- An act that moves the cavity on leaves it bound. -/
theorem State.IsBound.moved {t u : State} (h : s.IsBound t c b entry) {st : CavState} {back : BackOff}
    (hcav : u.cav c = { t.cav c with state := st, backOff := back }) (hbank : u.banks = t.banks) : s.IsBound u c b entry := by
  unfold State.IsBound State.bank at *
  rw [hcav, hbank]
  exact h

theorem acceptStart_of_sent (h : ∀ x ∈ s.relay, x.unsent = false) : s.acceptStart c b entry = (s.primed c b entry).prepareTest c := by
  have hw : (s.bound c b entry).withdrawCavity c = s.bound c b entry := withdrawEntries_of_all_sent (s := s.bound c b entry) h _
  rw [acceptStart_eq, hw]
  rfl

theorem Throughout.acceptStart {P : State → Prop} (hP : Throughout P) (h : P s) : P (s.acceptStart c b entry) := by
  have hb : P (s.bound c b entry) := hP.of_same h
  have hw : P ((s.bound c b entry).withdrawCavity c) := hP.withdraw _ hb
  have hp : P (((s.bound c b entry).withdrawCavity c).preparing c) := hP.engineOffs (hP.setCavState hw c .prepare) _
  rw [acceptStart_eq]
  unfold State.prepareTest
  split
  · exact hP.engageLock (hP.setCavState (hP.modCav hp c _) c _) c
  · exact hp

/-- With nothing waiting an accepted START sends nothing ahead of its ANSWER. -/
theorem outQueue_acceptStart (hq : s.grantQueue = []) (hs : ∀ x ∈ s.relay, x.unsent = false) (he : s.events = []) :
    (s.acceptStart c b entry).settle.outQueue = s.outQueue := by
  have h : s.Settled s.outQueue := ⟨rfl, hs, by simp [hq], by simp [he]⟩
  exact ((throughout_settled s.outQueue).acceptStart h).settle.outQueue

variable (hq : s.grantQueue = [])
include hq

theorem primed_facts (he : s.events = []) :
    let p := s.primed c b entry
    p.cav c = { (s.bound c b entry).cav c with state := .prepare } ∧ p.locks = s.locks ∧ p.banks = (s.bound c b entry).banks ∧
      p.grantQueue = [] ∧ p.events = [] ∧ p.motor c = s.motor c := by
  intro p
  obtain ⟨hcav, hlocks, hbanks, hg, -, hev, -⟩ := preparing_facts (s := s.bound c b entry) (c := c) hq
  have hm : p.motor c = (s.bound c b entry).motor c := motor_of_entry (kept_preparing (s.bound c b entry) c).entry c
  exact ⟨hcav, hlocks, hbanks, hg, hev.trans he, hm⟩

/-- The cavity's loads are off in PREPARE, and none of them is a blower, a converter or a lock. -/
theorem loads_primed {i : Fin 16} (hi : i ∈ s.cavityLoads c) :
    let p := s.primed c b entry
    IsOff i p ∧ (p.entry i).cls.cavityClass = true := by
  intro p
  obtain ⟨-, -, -, -, -, -, hoff⟩ := preparing_facts (s := s.bound c b entry) (c := c) hq
  have hent : p.entry i = s.entry i := (kept_preparing (s.bound c b entry) c).entry i
  rw [hent]
  exact ⟨hoff i hi, (mem_cavityLoads.1 hi).1⟩

theorem prepared_primed : (s.primed c b entry).prepared c = true ↔ ∀ i ∈ s.cavityLoads c, (s.record i).confirmed = some 0 :=
  prepared_preparing (s := s.bound c b entry) hq

end

/-! ### Not every load is confirmed off: the cavity stays in PREPARE (R102) -/

section
variable {s t : State} {c : Cav} {b : BankId} {entry : Nat} {i : Instr} {s₀ : State} {f : Frame}
  (hans : Answers i s₀ ((s.acceptStart c b entry).settle.place f)) (ht : exec i s₀ = .next t)
  (hq : s.grantQueue = []) (hs : ∀ x ∈ s.relay, x.unsent = false) (he : s.events = [])
include hans ht hq hs he

theorem start_waits (hoff : ¬∀ i ∈ s.cavityLoads c, (s.record i).confirmed = some 0) :
    s.IsBound t c b entry ∧ (t.cav c).state = .prepare ∧ t.locks = s.locks ∧
      ∀ i ∈ s.cavityLoads c, t.SwitchedOff i := by
  obtain ⟨hcav, hlocks, hbanks, -, hev, -⟩ := primed_facts (c := c) (b := b) (entry := entry) hq he
  have hu : s.acceptStart c b entry = s.primed c b entry :=
    (acceptStart_of_sent hs).trans (prepareTest_of_not_prepared fun h => hoff ((prepared_primed hq).1 h))
  rw [hu] at hans
  have h : Answered.Shows (s.primed c b entry) t := shows_of_answered hans ht rfl (by simp [State.Calm, hev])
  have hk : t.cav c = { (s.bound c b entry).cav c with state := .prepare } := (h.cav c).trans hcav
  exact ⟨isBound_bound.moved hk (h.banks.trans hbanks), by rw [hk], h.locks.trans hlocks, fun i hi => h.off (loads_primed hq hi).1⟩

end

/-! ### Every load is confirmed off: LOCKING is entered at once (R103, R104, R148) -/

/-- The cavity in LOCKING, its lock still to be engaged. -/
def State.primedLocking (s : State) (c : Cav) (b : BankId) (entry : Nat) : State := (s.primed c b entry).lockingEntered c

section
variable {s : State} {c : Cav} {b : BankId} {entry : Nat}

theorem acceptStart_of_prepared (hq : s.grantQueue = []) (hs : ∀ x ∈ s.relay, x.unsent = false) (he : s.events = [])
    (hoff : ∀ i ∈ s.cavityLoads c, (s.record i).confirmed = some 0) :
    s.acceptStart c b entry = (s.primedLocking c b entry).engageLock c := by
  obtain ⟨hcav, -⟩ := primed_facts (c := c) (b := b) (entry := entry) hq he
  rw [acceptStart_of_sent hs, prepareTest_of_prepared (by rw [hcav]) ((prepared_primed hq).2 hoff), enterLocking_eq]
  rfl

theorem primedLocking_facts (hq : s.grantQueue = []) (he : s.events = []) :
    let l := s.primedLocking c b entry
    l.cav c = { (s.bound c b entry).cav c with state := .locking, backOff := .noBackOff } ∧ l.lock c = s.lock c ∧
      l.banks = (s.bound c b entry).banks ∧ l.grantQueue = [] ∧ l.events = [] ∧ l.motor c = s.motor c := by
  intro l
  obtain ⟨hcav, hlocks, hbanks, hg, hev, hm⟩ := primed_facts (c := c) (b := b) (entry := entry) hq he
  obtain ⟨klocks, kbanks, kg, kev⟩ := lockingEntered_keeps (s.primed c b entry) c
  have hent : l.motor c = (s.primed c b entry).motor c :=
    motor_of_entry (kept_setCavState (kept_modCav (Kept.refl _) c _ fun h => h) c _).entry c
  refine ⟨(cav_lockingEntered _ c).trans (by rw [hcav]), ?_, kbanks.trans hbanks, kg.trans hg, kev.trans hev, hent.trans hm⟩
  unfold State.lock
  rw [show l.locks = s.locks from klocks.trans hlocks]

/-- The cavity's loads stay off as LOCKING is entered. -/
theorem loads_primedLocking (hq : s.grantQueue = []) {i : Fin 16} (hi : i ∈ s.cavityLoads c) :
    let l := s.primedLocking c b entry
    IsOff i l ∧ (l.entry i).cls.cavityClass = true := by
  intro l
  obtain ⟨hoff, hcls⟩ := loads_primed (b := b) (entry := entry) hq hi
  have hst : Stands i (s.primed c b entry) l := (Stands.refl hoff.free).lockingEntered c
  exact ⟨hoff.stands hst, by rw [hst.entry]; exact hcls⟩

end

/-- The part with every report taken. -/
def State.unreported (s : State) : State := { s with events := [] }

theorem unreported_lockReport_keeps (s : State) (c : Cav) (r : LockReport) :
    let u := (s.lockReport c r).unreported
    u.cav c = s.cav c ∧ u.lock c = s.lock c ∧ u.grantQueue = s.grantQueue ∧ u.events = [] := ⟨rfl, rfl, rfl, rfl⟩

section
variable {s t : State} {c : Cav} {b : BankId} {entry : Nat} {i : Instr} {s₀ : State} {f : Frame}
  (hans : Answers i s₀ ((s.acceptStart c b entry).settle.place f)) (ht : exec i s₀ = .next t)
  (hq : s.grantQueue = []) (hs : ∀ x ∈ s.relay, x.unsent = false) (he : s.events = [])
  (hoff : ∀ i ∈ s.cavityLoads c, (s.record i).confirmed = some 0)
include hans ht hq hs he hoff

/-- R148: a lock with a motor engages. -/
theorem start_engages (hl : (s.lock c).state ∈ [LockState.unknown, .unlocked]) (hm : (s.motor c).isSome = true) :
    s.IsBound t c b entry ∧ (t.cav c).state = .locking ∧ (t.lock c).state = .engaging ∧ (t.lock c).attempt = 1 ∧
      ∀ i ∈ s.cavityLoads c, t.SwitchedOff i := by
  let l := s.primedLocking c b entry
  let u := l.engageLock c
  obtain ⟨hcav, hlock, hbanks, -, hev, hmotor⟩ := primedLocking_facts (c := c) (b := b) (entry := entry) hq he
  have hll : (l.lock c).state ∈ [LockState.unknown, .unlocked] := by rw [hlock]; exact hl
  have hlm : (l.motor c).isSome = true := by rw [hmotor]; exact hm
  obtain ⟨-, hfree, -⟩ := engageLock_facts l c
  obtain ⟨hst, hatt⟩ := (hfree hll).1 hlm
  have hb : Bolts l u := (Bolts.refl l).engageLock c
  have hu : u = (l.setAttempt c 1).startTravel c .engage := engageLock_of_motor hll hlm
  have hcalm : u.Calm := by
    have h0 : u.events = [] := by rw [hu, events_startTravel, events_setAttempt, hev]
    simp [State.Calm, h0]
  rw [acceptStart_of_prepared hq hs he hoff] at hans
  have h : Answered.Shows u t := shows_of_answered hans ht rfl hcalm
  obtain ⟨kcav, -⟩ := cav_bank_of_same hb.cavs hb.banks c b
  have hk : t.cav c = { (s.bound c b entry).cav c with state := .locking, backOff := .noBackOff } := (h.cav c).trans (kcav.trans hcav)
  refine ⟨isBound_bound.moved hk (h.banks.trans (hb.banks.trans hbanks)), by rw [hk], by rw [h.lock c]; exact hst,
    by rw [h.lock c]; exact hatt, fun i hi => h.off ?_⟩
  obtain ⟨hio, hcls⟩ := loads_primedLocking (b := b) (entry := entry) hq hi
  have hne : (l.entry i).cls ≠ .lock := fun hx => by rw [hx] at hcls; exact nomatch hcls
  have hset : Stands i l (l.setAttempt c 1) := (Stands.refl hio.free).of_same
  exact hio.stands (hu ▸ hset.startTravel hne c .engage)

/-- R103, R105: without a motor the cavity goes back to OPEN. -/
theorem start_reopens (hl : (s.lock c).state ∈ [LockState.unknown, .unlocked]) (hm : (s.motor c).isSome = false) :
    ((t.cav c).state = .opened ∧ (t.cav c).reason = .lockEngage ∧ (t.cav c).bank = none ∧
      (t.bank b).binds = (s.bank b).binds ∧ (t.lock c).state = .unlocked) ∧
      ∀ i ∈ s.cavityLoads c, t.SwitchedOff i := by
  let l := s.primedLocking c b entry
  let u := (l.setLockState c .unlocked).lockReport c .engageFailed
  let v := u.unreported.backToOpen c .lockEngage
  obtain ⟨hcav, hlock, hbanks, hg, hev, hmotor⟩ := primedLocking_facts (c := c) (b := b) (entry := entry) hq he
  have hb : Bolts l u := ((Bolts.refl l).setLockState c .unlocked).lockReport c .engageFailed
  obtain ⟨kcav, -⟩ := cav_bank_of_same hb.cavs hb.banks c b
  have hucav : u.unreported.cav c = { (s.bound c b entry).cav c with state := .locking, backOff := .noBackOff } := kcav.trans hcav
  have hue : u.events = [.lock c .engageFailed] := by simp [u, l, hev]
  have hug : u.unreported.grantQueue = [] := by
    show (l.setLockState c .unlocked).grantQueue = []
    rw [grantQueue_setLockState, hg]
  have hhandle : u.unreported.handle (.lock c .engageFailed) = v := by
    have hst : (u.unreported.cav c).state = .locking := by rw [hucav]
    obtain ⟨-, -, hfail, -⟩ := lockInLocking_facts u.unreported c .engageFailed
    exact (onLockReport_of_locking hst _).trans (hfail rfl (by rw [hucav]))
  have hu : s.acceptStart c b entry = u := (acceptStart_of_prepared hq hs he hoff).trans
    (engageLock_of_no_motor (by rw [hlock]; exact hl) (by rw [hmotor]; exact hm))
  rw [hu] at hans
  have h : Answered.Shows v t := shows_of_answered hans ht ((settle_of_one hue).trans (congrArg _ hhandle))
    (backToOpen_calm hug rfl c .lockEngage)
  have hk : t.cav c = _ := (h.cav c).trans (cav_backToOpen u.unreported c .lockEngage)
  refine ⟨⟨by rw [hk], by rw [hk], by rw [hk], ?_, ?_⟩, fun i hi => h.off ?_⟩
  · have hbank : (u.unreported.cav c).bank = some b := by rw [hucav]; exact isBound_bound.1
    obtain ⟨-, -, -, -, -, -, -, hbinds⟩ := isBound_bound (s := s) (c := c) (b := b) (entry := entry)
    have hsil : u.unreported.bank b = (s.bound c b entry).bank b := congrArg (fun m => m.get b) (hb.banks.trans hbanks)
    rw [h.bank b, binds_backToOpen hbank, hsil, hbinds, Nat.add_sub_cancel]
  · have hvl : v.lock c = u.lock c := by
      unfold State.lock
      rw [show v.locks = u.locks from locks_backToOpen u.unreported c .lockEngage]
    rw [h.lock c, hvl, lock_lockReport, lock_setLockState]
  · obtain ⟨hio, hcls⟩ := loads_primedLocking (b := b) (entry := entry) hq hi
    have hne (k : LoadClass) (hk : k.cavityClass = false) : (l.entry i).cls ≠ k := fun hx => by
      rw [hx, hk] at hcls
      exact nomatch hcls
    have hset : Stands i l u.unreported := ((Stands.refl hio.free).setLockState c .unlocked).of_same
    exact hio.stands ((hset.setReason c .lockEngage).openCavity (hne .blower rfl) (hne .converter rfl) c)

/-- R103, R122: a jammed lock halts the cavity. -/
theorem start_jams (hl : (s.lock c).state = .jammed) :
    (t.cav c).state = .halted ∧ (t.cav c).reason = .lockJam ∧ (t.cav c).bank = some b ∧ (t.lock c).state = .jammed := by
  let l := s.primedLocking c b entry
  let u := l.lockReport c (.jammed (l.lock c).jam)
  let v := u.unreported.halt c .lockJam
  obtain ⟨hcav, hlock, -, hg, hev, -⟩ := primedLocking_facts (c := c) (b := b) (entry := entry) hq he
  have hll : (l.lock c).state = .jammed := by rw [hlock]; exact hl
  obtain ⟨kcav, klock, kg, kev⟩ := unreported_lockReport_keeps l c (.jammed (l.lock c).jam)
  have hucav : u.unreported.cav c = { (s.bound c b entry).cav c with state := .locking, backOff := .noBackOff } := kcav.trans hcav
  have hue : u.events = [.lock c (.jammed (l.lock c).jam)] := by rw [events_lockReport, hev]; rfl
  have hhandle : u.unreported.handle (.lock c (.jammed (l.lock c).jam)) = v := by
    have hst : (u.unreported.cav c).state = .locking := by rw [hucav]
    exact onLockReport_of_locking hst _
  have hu : s.acceptStart c b entry = u := (acceptStart_of_prepared hq hs he hoff).trans (engageLock_of_jammed hll)
  rw [hu] at hans
  have h : Answered.Shows v t := shows_of_answered hans ht ((settle_of_one hue).trans (congrArg _ hhandle))
    (halt_calm (kg.trans hg) kev c .lockJam)
  have hk : t.cav c = _ := (h.cav c).trans (cav_halt u.unreported c .lockJam)
  obtain ⟨-, -, hkeep⟩ := lock_halt u.unreported c .lockJam
  have hul : (u.unreported.lock c).state = .jammed := (congrArg _ klock).trans hll
  refine ⟨by rw [hk], by rw [hk], ?_, ?_⟩
  · rw [hk, hucav]
    exact isBound_bound.1
  · rw [h.lock c, hkeep (by rw [hul]; decide)]
    exact hul

end

/-! ## START answered (R29, R172), and the withdrawal as RUN is entered -/

theorem start_answers {s : State} {tag cavity bank entry : Byte} {c : Cav} {b : BankId} (h : s.Ready) (hp : s.placeTest = true)
    (hc : whichOf cavity = some c) (hb : whichOf bank = some b) (he : entry.toNat < 40) :
    let cmd : Instr := .start tag [cavity, bank, entry]
    (∀ code data, s.heard.startRefusal c b entry.toNat = some (code, data) →
      exec cmd s = .next ((s.heard.place (answerFrame tag code data)).conclude)) ∧
    (s.heard.startRefusal c b entry.toNat = none →
      Answers cmd s ((s.heard.acceptStart c b entry.toNat).settle.place (answerFrame tag codeDone []))) := by
  intro cmd
  have hm := managedBy_start tag (payload := [cavity, bank, entry]) (by simp)
  obtain ⟨hrefused, haccepted⟩ := doStart_facts (s := s.heard) hc hb he
  refine ⟨fun code data hr => exec_managed_of_code hm h hp (hrefused code data hr), fun hr => ?_⟩
  have ha := answers_managed hm h hp
  rwa [haccepted hr] at ha

/-- R29: the unsent DRIVEs for the CONVERTER are withdrawn as the cavity enters RUN. -/
theorem withheld_enterRun {s : State} {c : Cav} {x : RelayEntry} {i : Fin 16} (hx : s.relayEntry x.frame.tag = some x)
    (hu : x.unsent = true) (ha : x.admitted = true) (hi : s.loadAt x.frame.dest = some i) (hv : (s.entry i).cls = .converter) :
    (s.enterRun c).Withheld x.frame.tag x.frame.dest := by
  have ho : s.Open x.frame.tag x.frame.dest := .inl ⟨x, hx, hu, ha, rfl⟩
  have hr : (s.setCavState c .run).Open x.frame.tag x.frame.dest := (inside_open _ _).setCavState ho c .run
  have k : Kept s (s.setCavState c .run) := kept_setCavState (Kept.refl s) c .run
  have hw : (s.setCavState c .run).withdrawConverter.Withheld x.frame.tag x.frame.dest := by
    refine withheld_withdrawEntries hr _ fun y hy hd => ?_
    have hj : (s.setCavState c .run).loadAt y.frame.dest = some i := by rw [hd, loadAt_of_kept k]; exact hi
    unfold State.admittedFor
    rw [hy, hj]
    show ((s.setCavState c .run).entry i).cls == .converter
    rw [k.entry, hv]
    rfl
  exact hw.of_kept (kept_enterSegment (kept_modCav (Kept.refl _) c _ fun h => h) c _)

/-- Settles O40. -/
theorem startBindsTheBankAndPrepares : Obligations.StartBindsTheBankAndPrepares := by
  refine ⟨fun s c b entry => ?conditions, fun s tag cavity bank entry c b h hp hc hb he => ?start,
    fun s c x i hx hu ha hi hv => withheld_enterRun hx hu ha hi hv⟩
  case conditions =>
    intro refusal door probe isOpen valid walks closed cool
    have hwalks := entry_walks_iff (s.bank b).segments entry
    obtain ⟨hclosedState, hbank, hrest⟩ := startRefusal_facts s c b entry
    rw [hwalks, doorConfirmedClosed_iff] at hrest
    exact ⟨hclosedState, hbank, fun ho hv => (hrest ho hv).1, fun ho hv => (hrest ho hv).2.1, fun ho hv => (hrest ho hv).2.2.1,
      fun ho hv => (hrest ho hv).2.2.2⟩
  case start =>
    intro cmd bound allOff
    obtain ⟨hrefused, haccepted⟩ := start_answers (tag := tag) h hp hc hb he
    refine ⟨hrefused, fun hr => ⟨haccepted hr, fun x i hx hu ha hi hm => ?withdrawn, fun hq hs => ?quiet⟩⟩
    case withdrawn =>
      obtain ⟨t, ht, hleaves⟩ := exec_of_answered (haccepted hr)
      obtain ⟨rest, hout⟩ := hleaves.out
      have hhx : s.heard.relayEntry x.frame.tag = some x := by rw [heard_eq]; exact hx
      have hhi : s.heard.loadAt x.frame.dest = some i := by rw [heard_eq]; exact hi
      have hhm : i ∈ s.heard.cavityLoads c := by rw [heard_eq]; exact hm
      obtain ⟨hgone, hsent⟩ := (withheld_acceptStart (b := b) (entry := entry.toNat) hhx hu ha hhi hhm).of_kept (kept_of_settle _)
      refine ⟨t, _, rest, ht, fun y hy htag => ?_, hout, hsent⟩
      obtain ⟨z, hz, hzt⟩ := List.mem_map.1 (hleaves.tags.subset (List.mem_map.2 ⟨y, hy, htag⟩))
      exact hgone z hz hzt
    case quiet =>
      have hans := haccepted hr
      obtain ⟨t, ht, hleaves⟩ := exec_of_answered hans
      obtain ⟨rest, hout⟩ := hleaves.out
      have hhq : s.heard.grantQueue = [] := by rw [heard_eq]; exact hq
      have hhs : ∀ x ∈ s.heard.relay, x.unsent = false := by rw [relay_heard]; exact hs
      have hhe : s.heard.events = [] := by rw [events_heard]; exact h.2
      have hlock : s.heard.lock c = s.lock c := by rw [heard_eq]; rfl
      have hmotor : s.heard.motor c = s.motor c := by rw [heard_eq]; rfl
      have hloads : s.heard.cavityLoads c = s.cavityLoads c := by rw [heard_eq]; rfl
      have hrecord (i : Fin 16) : s.heard.record i = s.record i := by rw [heard_eq]; rfl
      have hlocks : s.heard.locks = s.locks := by rw [heard_eq]
      have hbound : s.heard.IsBound t c b entry.toNat → bound t := fun hb => by
        unfold State.IsBound at hb
        rwa [bank_heard] at hb
      have hoff : allOff ↔ ∀ i ∈ s.heard.cavityLoads c, (s.heard.record i).confirmed = some 0 := by
        simp only [hloads, hrecord]
        exact Iff.rfl
      have waits (hn : ¬allOff) := start_waits hans ht hhq hhs hhe fun x => hn (hoff.2 x)
      have engages (ha : allOff) (hl : (s.lock c).state ∈ [LockState.unknown, .unlocked]) (hm : (s.motor c).isSome = true) :=
        start_engages hans ht hhq hhs hhe (hoff.1 ha) (by rw [hlock]; exact hl) (by rw [hmotor]; exact hm)
      have reopens (ha : allOff) (hl : (s.lock c).state ∈ [LockState.unknown, .unlocked]) (hm : (s.motor c).isSome = false) :=
        start_reopens hans ht hhq hhs hhe (hoff.1 ha) (by rw [hlock]; exact hl) (by rw [hmotor]; exact hm)
      rw [hloads] at waits engages reopens
      refine ⟨t, ht, ?_, ?_, fun hcase => ?_, fun hn => ?_, fun ha hl => ⟨fun hm => ?_, fun hm => ?_⟩, fun ha hl => ?_⟩
      · have hheard : s.heard.outQueue = s.outQueue := by rw [heard_eq]
        rw [hout, outQueue_acceptStart hhq hhs hhe, hheard]
        exact ⟨rest, by simp⟩
      · exact ((sameTables_heard s).trans (.of_kept (kept_acceptStart (Kept.refl _) c b _))).trans hleaves.tables
      · by_cases ha : allOff
        · have hl := hcase.resolve_left (not_not.2 ha)
          cases hm : (s.motor c).isSome with
          | true =>
            obtain ⟨-, -, -, -, hloadsOff⟩ := engages ha hl hm
            exact hloadsOff
          | false => exact (reopens ha hl hm).2
        · obtain ⟨-, -, -, hloadsOff⟩ := waits ha
          exact hloadsOff
      · obtain ⟨hb, hst, hlk, -⟩ := waits hn
        exact ⟨hbound hb, hst, hlk.trans hlocks⟩
      · obtain ⟨hb, hst, hlk, hatt, -⟩ := engages ha hl hm
        exact ⟨hbound hb, hst, hlk, hatt⟩
      · obtain ⟨⟨hst, hre, hbk, hbinds, hlk⟩, -⟩ := reopens ha hl hm
        rw [bank_heard] at hbinds
        exact ⟨hst, hre, hbk, hbinds, hlk⟩
      · exact start_jams hans ht hhq hhs hhe (hoff.1 ha) (by rw [hlock]; exact hl)

end Sys2Proof.Machine
end
